-- ==== Sys2Proof/Word.lean ====
section
/-! DEFINITION. The word types of 00_scope.md R7: a byte is 8 bits, a word is 16 bits. -/

namespace Sys2Proof

/-- A byte (00_scope.md R7). -/
abbrev Byte := BitVec 8

/-- A 16-bit word: a register pair or a bus address (00_scope.md R7). -/
abbrev Word := BitVec 16

end Sys2Proof
end

