-- ==== Sys2Proof/Machine/Flags.lean ====
section
/-! DEFINITION. Bit-field helpers and every flag computation the spec gives (10_state.md R23, R24; the formulas of
42_alu8.md, 43_alu16.md, 41_load16_stack.md R183, 44_rotate_shift_bit.md).

A byte operation is a function from its operands to the result and the new F. As 00_scope.md R7 says, flag formulas
are computed on unbounded integers and the result is narrowed once. -/

namespace Sys2Proof.Machine

/-! ## Halves and extensions (00_scope.md R7) -/

/-- `hi:lo` (R7). -/
def joinBytes (hi lo : Byte) : Word := hi ++ lo

/-- `w[15:8]`. -/
def hiByte (w : Word) : Byte := w.extractLsb' 8 8

/-- `w[7:0]`. -/
def loByte (w : Word) : Byte := w.extractLsb' 0 8

/-- `sext_16(v)` (R7). -/
def signExtend16 (v : Byte) : Word := v.signExtend 16

/-- `zext_16(v)` (R7). -/
def zeroExtend16 (v : Byte) : Word := v.zeroExtend 16

/-- A flag or a carry as 0 or 1. -/
def bit (b : Bool) : Nat := if b then 1 else 0

/-! ## The flag register (10_state.md R23) -/

/-- F from its four flags; bits 3 to 0 are 0. -/
def packFlags (z n h c : Bool) : Byte :=
  BitVec.ofNat 8 (bit z * 0x80 + bit n * 0x40 + bit h * 0x20 + bit c * 0x10)

/-- `F.Z`. -/
def flagZ (f : Byte) : Bool := f.getLsbD 7

/-- `F.N`. -/
def flagN (f : Byte) : Bool := f.getLsbD 6

/-- `F.H`. -/
def flagH (f : Byte) : Bool := f.getLsbD 5

/-- `F.C`. -/
def flagC (f : Byte) : Bool := f.getLsbD 4

/-! ## 8-bit arithmetic and logic (42_alu8.md): operands `a`, `b` and F before; result and F after -/

/-- Addition with a carry in (R190, R191). -/
def addWithCarry (a b : Byte) (carry : Nat) : Byte × Byte :=
  let sum := a.toNat + b.toNat + carry
  let r := BitVec.ofNat 8 sum
  (r, packFlags (r == 0#8) false (decide (a.toNat % 16 + b.toNat % 16 + carry > 0x0F)) (decide (sum > 0xFF)))

/-- Subtraction with a borrow in (R192, R193). -/
def subWithBorrow (a b : Byte) (borrow : Nat) : Byte × Byte :=
  let r := BitVec.ofInt 8 ((a.toNat : Int) - b.toNat - borrow)
  (r, packFlags (r == 0#8) true (decide (a.toNat % 16 < b.toNat % 16 + borrow))
    (decide (a.toNat < b.toNat + borrow)))

/-- `ADD A,b` (R190). -/
def aluAdd (a b _f : Byte) : Byte × Byte := addWithCarry a b 0

/-- `ADC A,b` (R191). -/
def aluAdc (a b f : Byte) : Byte × Byte := addWithCarry a b (bit (flagC f))

/-- `SUB b` (R192). -/
def aluSub (a b _f : Byte) : Byte × Byte := subWithBorrow a b 0

/-- `SBC A,b` (R193). -/
def aluSbc (a b f : Byte) : Byte × Byte := subWithBorrow a b (bit (flagC f))

/-- `AND b` (R194). -/
def aluAnd (a b _f : Byte) : Byte × Byte := (a &&& b, packFlags (a &&& b == 0#8) false true false)

/-- `XOR b` (R195). -/
def aluXor (a b _f : Byte) : Byte × Byte := (a ^^^ b, packFlags (a ^^^ b == 0#8) false false false)

/-- `OR b` (R196). -/
def aluOr (a b _f : Byte) : Byte × Byte := (a ||| b, packFlags (a ||| b == 0#8) false false false)

/-- `CP b` (R197): the flags of `SUB b`, `A` kept. -/
def aluCp (a b f : Byte) : Byte × Byte := (a, (aluSub a b f).2)

/-- `INC` of a byte (R198): C kept. -/
def incByte (v f : Byte) : Byte × Byte :=
  let r := v + 1#8
  (r, packFlags (r == 0#8) false (decide (v.toNat % 16 = 0x0F)) (flagC f))

/-- `DEC` of a byte (R200): C kept. -/
def decByte (v f : Byte) : Byte × Byte :=
  let r := v - 1#8
  (r, packFlags (r == 0#8) true (decide (v.toNat % 16 = 0x00)) (flagC f))

/-- `DAA` (R202): `A` and F before, `A` and F after. -/
def daaByte (a f : Byte) : Byte × Byte :=
  let n := flagN f
  let high := flagC f || (!n && decide (a.toNat > 0x99))
  let low := flagH f || (!n && decide (a.toNat % 16 > 0x09))
  let r := if n then a - (if flagC f then 0x60#8 else 0#8) - (if flagH f then 0x06#8 else 0#8)
           else a + (if high then 0x60#8 else 0#8) + (if low then 0x06#8 else 0#8)
  (r, packFlags (r == 0#8) n false (if n then flagC f else high))

/-! ## 16-bit arithmetic (43_alu16.md) -/

/-- `ADD HL,rr` (R210): carries out of bits 11 and 15, Z kept. -/
def addWord (a b : Word) (f : Byte) : Word × Byte :=
  (a + b, packFlags (flagZ f) false (decide (a.toNat % 0x1000 + b.toNat % 0x1000 > 0x0FFF))
    (decide (a.toNat + b.toNat > 0xFFFF)))

/-- `SP + e` (R213, 41_load16_stack.md R183): carries out of bits 3 and 7 of `SP[7:0] + e` with `e` unsigned, Z and
N cleared (90_conflicts.md C3). -/
def addDisplacement (sp : Word) (e : Byte) : Word × Byte :=
  (sp + signExtend16 e, packFlags false false (decide (sp.toNat % 16 + e.toNat % 16 > 0x0F))
    (decide (sp.toNat % 256 + e.toNat > 0xFF)))

/-! ## Rotates, shifts, SWAP (44_rotate_shift_bit.md): operand and F before; result and bit shifted out -/

/-- The eight operations of the ROT table (30_encoding.md R142). -/
inductive Rot where
  | rlc | rrc | rl | rr | sla | sra | swap | srl
  deriving DecidableEq, Repr

/-- The result and the new C (R224 to R231); `c` is `F.C` before. -/
def rotate (op : Rot) (v : Byte) (c : Bool) : Byte × Bool :=
  match op with
  | .rlc => ((v <<< 1) ||| (v >>> 7), v.getLsbD 7)
  | .rrc => ((v >>> 1) ||| (v <<< 7), v.getLsbD 0)
  | .rl => ((v <<< 1) ||| BitVec.ofNat 8 (bit c), v.getLsbD 7)
  | .rr => ((v >>> 1) ||| BitVec.ofNat 8 (bit c * 0x80), v.getLsbD 0)
  | .sla => (v <<< 1, v.getLsbD 7)
  | .sra => ((v >>> 1) ||| (v &&& 0x80#8), v.getLsbD 0)
  | .swap => ((v <<< 4) ||| (v >>> 4), false)
  | .srl => (v >>> 1, v.getLsbD 0)

/-- A CB-table rotate or shift: flags `Z 0 0 C` (R224 to R231). -/
def rotateFlags (op : Rot) (v f : Byte) : Byte × Byte :=
  let r := rotate op v (flagC f)
  (r.1, packFlags (r.1 == 0#8) false false r.2)

/-- A one-byte accumulator rotate: the same with flags `0 0 0 C` (R220 to R223). -/
def rotateAcc (op : Rot) (v f : Byte) : Byte × Byte :=
  let r := rotate op v (flagC f)
  (r.1, packFlags false false false r.2)

/-- `BIT b`: flags `Z 0 1 -` (R232). -/
def bitTest (b : Fin 8) (v f : Byte) : Byte := packFlags (!v.getLsbD b.val) false true (flagC f)

/-- `RES b` (R233). -/
def clearBit (b : Fin 8) (v : Byte) : Byte := v &&& ~~~(1#8 <<< b.val)

/-- `SET b` (R234). -/
def setBit (b : Fin 8) (v : Byte) : Byte := v ||| (1#8 <<< b.val)

end Sys2Proof.Machine
end

