-- ==== Sys2Proof/Config.lean ====
section
/-! DEFINITION. The configuration of 00_scope.md R6 and the values the spec leaves free.

`Params` is plain data: the arguments "fixed once at cartridge load" of R6. `Config.*` are uninterpreted
constants (no body): the bytes the audio unit answers (20_memory.md R84) and the pixel values of 92 D31. -/

namespace Sys2Proof

/-- A byte array as a list of (offset, byte) pairs, offsets strictly rising, no byte 0x00: an unlisted offset
reads 0x00, the reset contents of every memory (10_state.md R45, 92 D34). -/
abbrev Memory := List Host.Cell

/-- `MASTER_PRIORITY_EFFECT` (00_scope.md R6, 92 D30). -/
inductive MasterPriority where
  | bgOverAll
  | objOverAll
  deriving DecidableEq, Repr

/-- `TIMA_PERIOD` (00_scope.md R6): CPU cycles per TIMA increment for TAC[1:0] = 0, 1, 2, 3. -/
structure TimaPeriods where
  p0 : Nat
  p1 : Nat
  p2 : Nat
  p3 : Nat
  deriving DecidableEq, Repr

/-- The configuration of one machine (00_scope.md R6), constant for its life. `MBC_KIND` is the constructor of
the bank controller's state; the pixel constants are `Config.blankColor`, `Config.dmgShade`, `Config.expandRgba`;
`RTC_TICK_SCHEDULE` is the input list `HostSide.rtcTicks`. -/
structure Params where
  /-- `ROM`: the cartridge image; an offset below `romSize` that is not listed holds 0x00. -/
  rom : Memory
  /-- `ROM_SIZE`, at least 1. -/
  romSize : Nat
  /-- `RAM_SIZE`, may be 0; 512 for MBC2 (20_memory.md R110). -/
  ramSize : Nat
  /-- `CGB_MODE`. -/
  cgbMode : Bool
  /-- `BOOT_ROM`: contents of the overlay, by address. -/
  bootRom : Memory
  /-- `BOOT_OVERLAY`: the overlay's addresses as a list of ranges (first, last), ends included. -/
  bootOverlay : List (Nat × Nat)
  /-- `UNUSABLE_READ`. -/
  unusableRead : Byte
  /-- `HALT_WAKE_CLEARS_IF`. -/
  haltWakeClearsIf : Bool
  /-- `MASTER_PRIORITY_EFFECT`. -/
  masterPriority : MasterPriority
  /-- `DIV_TICK_CYCLES`. -/
  divTickCycles : Nat
  /-- `TIMA_PERIOD`. -/
  timaPeriod : TimaPeriods
  deriving DecidableEq, Repr

/-- The defaults of 00_scope.md R6 for the parameters that have one, with a blank 32 KiB cartridge without RAM,
not CGB, and no boot overlay (DESIGN CHOICE, log 2: the spec gives these no value). -/
def Params.default : Params where
  rom := []
  romSize := 0x8000
  ramSize := 0
  cgbMode := false
  bootRom := []
  bootOverlay := []
  unusableRead := 0xFF#8
  haltWakeClearsIf := true
  masterPriority := .bgOverAll
  divTickCycles := 4
  timaPeriod := ⟨1024, 16, 64, 256⟩

/-- The default overlay of 20_memory.md R66. -/
def defaultBootOverlay (cgb : Bool) : List (Nat × Nat) :=
  if cgb then [(0x0000, 0x00FF), (0x0200, 0x08FF)] else [(0x0000, 0x00FF)]

/-- `draw(byte)` of 00_scope.md R10: the n-th byte read from the APU range (20_memory.md R84, 93 U7). A FREE
VALUE: nothing constrains it (log 4). -/
opaque Config.apuDraw : Nat → Byte

/-- `BLANK_COLOR` (00_scope.md R6, 92 D31), an RGBA value. Left to the implementation (log 7). -/
opaque Config.blankColor : BitVec 32

/-- `DMG_SHADE` (00_scope.md R6, 92 D31): the RGBA value of each non-CGB shade. Left to the implementation (log 7). -/
opaque Config.dmgShade : BitVec 2 → BitVec 32

/-- `EXPAND_RGBA` (00_scope.md R6, 92 D31): the RGBA value of a 15-bit colour. Left to the implementation (log 7). -/
opaque Config.expandRgba : BitVec 15 → BitVec 32

end Sys2Proof
end

