-- ==== Sys2Proof/Machine/Memory.lean ====
section
/-! DEFINITION. One byte array as a canonical list (Config.lean `Memory`): reading and writing one byte. -/

namespace Sys2Proof

/-- The byte at an offset; an unlisted offset reads 0x00 (10_state.md R45, 92 D34). -/
def Memory.read : Memory → Nat → Byte
  | [], _ => 0#8
  | (k, w) :: m, a => if k = a then w else Memory.read m a

/-- Store a byte, keeping the canonical form: storing 0x00 takes the entry out. -/
def Memory.write : Memory → Nat → Byte → Memory
  | [], a, v => if v = 0#8 then [] else [(a, v)]
  | (k, w) :: m, a, v =>
    if a < k then (if v = 0#8 then (k, w) :: m else (a, v) :: (k, w) :: m)
    else if a = k then (if v = 0#8 then m else (a, v) :: m)
    else (k, w) :: Memory.write m a v

/-- The canonical form: offsets strictly rising, no byte equal to what an unlisted offset reads as. -/
abbrev Memory.wf (m : Memory) : Prop :=
  m.Pairwise (fun x y => x.1 < y.1) ∧ ∀ x ∈ m, x.2 ≠ 0#8

/-- No entry at or beyond `n`: the array has `n` bytes. -/
abbrev Memory.within (m : Memory) (n : Nat) : Prop := ∀ x ∈ m, x.1 < n

/-- Store bytes one after another from an offset on. -/
def Memory.writeList (m : Memory) (a : Nat) : List Byte → Memory
  | [] => m
  | v :: vs => Memory.writeList (Memory.write m a v) (a + 1) vs

end Sys2Proof
end

