-- ==== Sys2Proof/Machine/State.lean ====
section
/-! DEFINITION. The state of the machine (10_state.md), its faults and refusals, and the state after reset. -/

namespace Sys2Proof.Machine

/-- The CPU registers (10_state.md R20, R21). AF, BC, DE and HL are stored as their halves; the pairs are views
(Machine/Operands.lean). `f` is the flag register: bit 7 Z, 6 N, 5 H, 4 C, bits 3 to 0 always 0 (R23). -/
structure Regs where
  a : Byte
  f : Byte
  b : Byte
  c : Byte
  d : Byte
  e : Byte
  h : Byte
  l : Byte
  sp : Word
  pc : Word
  deriving DecidableEq, Repr

/-- IME, the interrupt master enable (10_state.md R26). -/
inductive Ime where
  | disabled
  | enabled
  | scheduled
  deriving DecidableEq, Repr

/-- The CPU run state (10_state.md R27). -/
inductive RunState where
  | running
  | halted
  | stopped
  deriving DecidableEq, Repr

/-- The byte arrays of 10_state.md R30 and IE. Banked arrays are one list: `vram[b][o]` is at `b * 0x2000 + o`,
`wram[b][o]` at `b * 0x1000 + o`. -/
structure Mem where
  vram : Memory
  eram : Memory
  wram : Memory
  oam : Memory
  io : Memory
  hram : Memory
  bgpal : Memory
  objpal : Memory
  ie : Byte
  deriving DecidableEq, Repr

/-- The five clock bytes of MBC3 (10_state.md R32). -/
structure Rtc where
  s : Byte
  m : Byte
  h : Byte
  dl : Byte
  dh : Byte
  deriving DecidableEq, Repr

/-- The bank controller's state, a tagged union whose constructor is the variant (10_state.md R32). -/
inductive Mbc where
  | none
  | mbc1 (enable bank : Byte)
  | mbc2 (enable : Byte) (romBank : BitVec 4)
  | mbc3 (enable : Byte) (romBank : BitVec 7) (sel latch : Byte) (live latched : Rtc)
  | mbc5 (enable : Byte) (romBank : BitVec 9) (ramBank : BitVec 4)
  deriving DecidableEq, Repr

/-- The Timer's own state (10_state.md R33); TIMA, TMA and TAC are in `Mem.io`. -/
structure Timer where
  divctr : Word
  divAcc : Nat
  timaAcc : Nat
  deriving DecidableEq, Repr

/-- A pixel of the framebuffer before it is given an RGBA value: the blank colour, a non-CGB shade or a 15-bit
colour (60_exceptions.md R375, 92 D31; log 7). -/
inductive Pixel where
  | blank
  | shade (k : BitVec 2)
  | color (c : BitVec 15)
  deriving DecidableEq, Repr

/-- The PPU's own state (10_state.md R34): `ppu_cycle`, `line_sprites` and the framebuffer as 144 rows of 160
pixels. Its registers are in `Mem.io`, the palette RAMs in `Mem`. -/
structure Ppu where
  cycle : Nat
  lineSprites : List Nat
  fb : List (List Pixel)
  deriving DecidableEq, Repr

/-- Eight key states, true meaning pressed (10_state.md R35). -/
structure Keys where
  right : Bool
  left : Bool
  up : Bool
  down : Bool
  a : Bool
  b : Bool
  select : Bool
  start : Bool
  deriving DecidableEq, Repr

/-- The MODEL's own record of the world outside CORE (not state of the spec).

`frameEntry`: the next step is the first of a `simulate()` call (60_exceptions.md R313; log 6). `keySamples`: the
samples the host supplies at the coming frame entries (R340; log 6). `rtcTicks`: how many `RtcTick` events come
before each of the coming steps (20_memory.md R118; log 5). `draws`: how many bytes have been drawn from the APU
range (20_memory.md R84; log 4). -/
structure HostSide where
  frameEntry : Bool
  keySamples : List Keys
  rtcTicks : List Nat
  draws : Nat
  deriving DecidableEq, Repr

/-- The state of the machine (10_state.md). `params` is the configuration, carried unchanged (log 1); `cyc` is the
local variable of `MachineStep` (60_exceptions.md R300): the CPU cycles the current step has used so far. -/
structure State where
  params : Params
  regs : Regs
  ime : Ime
  run : RunState
  doubleSpeed : Bool
  cycles : Nat
  cyc : Nat
  mem : Mem
  mbc : Mbc
  timer : Timer
  ppu : Ppu
  keys : Keys
  keysPrev : Keys
  host : HostSide
  deriving DecidableEq, Repr

/-- Faults: the machine stops for good. -/
inductive Fault where
  /-- Raised by the eleven unassigned opcodes (46_system.md R266, 60_exceptions.md R320): the opcode and the
  address it was fetched from. Safe: the spec's own outcome, a step without a next state. -/
  | illegalOpcode (op : Byte) (pc : Word)
  deriving DecidableEq, Repr

/-- Refusals: the spec gives the hardware no meaning here, or the model does not model the instruction yet. -/
inductive Refusal where
  /-- Raised by `exec` for an instruction that has no meaning yet. Safe. -/
  | notModelled (mnemonic : String)
  /-- Raised when STOP's second byte is not 0x00 (46_system.md R262, 93 U4). Safe: the spec's `refuse`. -/
  | stopOperand (b : Byte)
  /-- Raised by a write to HDMA5 with bit 7 set: HBlank DMA is not described (20_memory.md R98, 93 U6). Safe: the
  spec's `refuse`. -/
  | hblankDma (v : Byte)
  /-- Raised by a write to HDMA5 that starts a transfer whose source leaves ROM, external RAM and work RAM
  (20_memory.md R98, 93 U6). Safe: the spec's `refuse`. -/
  | dmaSource (src : Word)
  deriving DecidableEq, Repr

/-- No key pressed. -/
def Keys.released : Keys := ⟨false, false, false, false, false, false, false, false⟩

/-- A framebuffer with every pixel `BLANK_COLOR` (10_state.md R45, 60_exceptions.md R353). -/
def Ppu.blankFrame : List (List Pixel) := List.replicate 144 (List.replicate 160 .blank)

/-- The controller variants, `MBC_KIND` (00_scope.md R6). -/
inductive MbcKind where
  | none | mbc1 | mbc2 | mbc3 | mbc5
  deriving DecidableEq, Repr

/-- Which variant is active. -/
def Mbc.kind : Mbc → MbcKind
  | .none => .none
  | .mbc1 .. => .mbc1
  | .mbc2 .. => .mbc2
  | .mbc3 .. => .mbc3
  | .mbc5 .. => .mbc5

/-- Every clock byte 0. -/
def Rtc.zero : Rtc := ⟨0#8, 0#8, 0#8, 0#8, 0#8⟩

/-- The controller's state after reset (10_state.md R45): all registers 0, MBC5's `rombank` 1. -/
def Mbc.reset : MbcKind → Mbc
  | .none => .none
  | .mbc1 => .mbc1 0#8 0#8
  | .mbc2 => .mbc2 0#8 0#4
  | .mbc3 => .mbc3 0#8 0#7 0#8 0#8 Rtc.zero Rtc.zero
  | .mbc5 => .mbc5 0#8 1#9 0#4

/-- The state after reset of the machine with a given configuration and controller variant (10_state.md R45,
70_reset_and_hazards.md R401). -/
def State.resetWith (p : Params) (k : MbcKind) : State where
  params := p
  regs := ⟨0#8, 0#8, 0#8, 0#8, 0#8, 0#8, 0#8, 0#8, 0#16, 0#16⟩
  ime := .disabled
  run := .running
  doubleSpeed := false
  cycles := 0
  cyc := 0
  mem := ⟨[], [], [], [], [], [], [], [], 0#8⟩
  mbc := Mbc.reset k
  timer := ⟨0#16, 0, 0⟩
  ppu := ⟨0, [], Ppu.blankFrame⟩
  keys := Keys.released
  keysPrev := Keys.released
  host := ⟨true, [], [], 0⟩

/-- The state after reset, for the default configuration (10_state.md R45; the configuration is log 2). -/
def State.reset : State := State.resetWith Params.default .none

end Sys2Proof.Machine
end

