-- ==== Sys2Proof/Syntax.lean ====
section
/-! DEFINITION. The instruction set as syntax: one constructor per row of spec/opcode_table.json
(30_encoding.md R145, R146, R149), with the operands of each row (R142 to R144). -/

namespace Sys2Proof

/-- A register named by a REG8 code (30_encoding.md R142). Code 6, the memory byte at HL, is no register: the
table has rows of its own for it. -/
inductive Reg8 where
  | b | c | d | e | h | l | a
  deriving DecidableEq, Repr

/-- A register pair named by a REG16 code (30_encoding.md R142). -/
inductive Reg16 where
  | bc | de | hl | sp
  deriving DecidableEq, Repr

/-- A register pair named by a REG16S code, the PUSH and POP table (30_encoding.md R142). -/
inductive Reg16S where
  | bc | de | hl | af
  deriving DecidableEq, Repr

/-- A condition code (30_encoding.md R142, 45_control.md R240). -/
inductive Cond where
  | nz | z | nc | c
  deriving DecidableEq, Repr

/-- The instructions, in the order of spec/opcode_table.json. -/
inductive Instr where
  -- 40_load8.md
  /-- `LD r,r'`, R160. -/
  | ldRR (r r' : Reg8)
  /-- `LD r,n`, R161. -/
  | ldRN (r : Reg8) (n : Byte)
  /-- `LD r,(HL)`, R162. -/
  | ldRHl (r : Reg8)
  /-- `LD (HL),r`, R163. -/
  | ldHlR (r : Reg8)
  /-- `LD (HL),n`, R164. -/
  | ldHlN (n : Byte)
  /-- `LD A,(BC)`, R165. -/
  | ldABc
  /-- `LD A,(DE)`, R166. -/
  | ldADe
  /-- `LD (BC),A`, R167. -/
  | ldBcA
  /-- `LD (DE),A`, R168. -/
  | ldDeA
  /-- `LD A,(nn)`, R169. -/
  | ldANn (nn : Word)
  /-- `LD (nn),A`, R170. -/
  | ldNnA (nn : Word)
  /-- `LDH A,(C)`, R171. -/
  | ldhAC
  /-- `LDH (C),A`, R172. -/
  | ldhCA
  /-- `LDH A,(n)`, R173. -/
  | ldhAN (n : Byte)
  /-- `LDH (n),A`, R174. -/
  | ldhNA (n : Byte)
  /-- `LD A,(HL-)`, R175. -/
  | ldAHld
  /-- `LD (HL-),A`, R176. -/
  | ldHldA
  /-- `LD A,(HL+)`, R177. -/
  | ldAHli
  /-- `LD (HL+),A`, R178. -/
  | ldHliA
  -- 41_load16_stack.md
  /-- `LD rr,nn`, R180. -/
  | ldRrNn (rr : Reg16) (nn : Word)
  /-- `LD (nn),SP`, R181. -/
  | ldNnSp (nn : Word)
  /-- `LD SP,HL`, R182. -/
  | ldSpHl
  /-- `LD HL,SP+e`, R183. -/
  | ldHlSpE (e : Byte)
  /-- `PUSH rr`, R184. -/
  | push (rr : Reg16S)
  /-- `POP rr`, R185; not `AF`, which is the row `POP AF`. -/
  | pop (rr : Reg16S)
  /-- `POP AF`, R186. -/
  | popAf
  -- 42_alu8.md
  /-- `ADD A,r`, R190. -/
  | addR (r : Reg8)
  /-- `ADD A,(HL)`, R190. -/
  | addHl
  /-- `ADD A,n`, R190. -/
  | addN (n : Byte)
  /-- `ADC A,r`, R191. -/
  | adcR (r : Reg8)
  /-- `ADC A,(HL)`, R191. -/
  | adcHl
  /-- `ADC A,n`, R191. -/
  | adcN (n : Byte)
  /-- `SUB r`, R192. -/
  | subR (r : Reg8)
  /-- `SUB (HL)`, R192. -/
  | subHl
  /-- `SUB n`, R192. -/
  | subN (n : Byte)
  /-- `SBC A,r`, R193. -/
  | sbcR (r : Reg8)
  /-- `SBC A,(HL)`, R193. -/
  | sbcHl
  /-- `SBC A,n`, R193. -/
  | sbcN (n : Byte)
  /-- `AND r`, R194. -/
  | andR (r : Reg8)
  /-- `AND (HL)`, R194. -/
  | andHl
  /-- `AND n`, R194. -/
  | andN (n : Byte)
  /-- `XOR r`, R195. -/
  | xorR (r : Reg8)
  /-- `XOR (HL)`, R195. -/
  | xorHl
  /-- `XOR n`, R195. -/
  | xorN (n : Byte)
  /-- `OR r`, R196. -/
  | orR (r : Reg8)
  /-- `OR (HL)`, R196. -/
  | orHl
  /-- `OR n`, R196. -/
  | orN (n : Byte)
  /-- `CP r`, R197. -/
  | cpR (r : Reg8)
  /-- `CP (HL)`, R197. -/
  | cpHl
  /-- `CP n`, R197. -/
  | cpN (n : Byte)
  /-- `INC r`, R198. -/
  | incR (r : Reg8)
  /-- `INC (HL)`, R199. -/
  | incHl
  /-- `DEC r`, R200. -/
  | decR (r : Reg8)
  /-- `DEC (HL)`, R201. -/
  | decHl
  /-- `DAA`, R202. -/
  | daa
  /-- `CPL`, R203. -/
  | cpl
  /-- `SCF`, R204. -/
  | scf
  /-- `CCF`, R205. -/
  | ccf
  -- 43_alu16.md
  /-- `ADD HL,rr`, R210. -/
  | addHlRr (rr : Reg16)
  /-- `INC rr`, R211. -/
  | incRr (rr : Reg16)
  /-- `DEC rr`, R212. -/
  | decRr (rr : Reg16)
  /-- `ADD SP,e`, R213. -/
  | addSpE (e : Byte)
  -- 44_rotate_shift_bit.md, one-byte rotates
  /-- `RLCA`, R220. -/
  | rlca
  /-- `RRCA`, R221. -/
  | rrca
  /-- `RLA`, R222. -/
  | rla
  /-- `RRA`, R223. -/
  | rra
  -- 45_control.md
  /-- `JP nn`, R241. -/
  | jpNn (nn : Word)
  /-- `JP cc,nn`, R242. -/
  | jpCcNn (cc : Cond) (nn : Word)
  /-- `JP HL`, R243. -/
  | jpHl
  /-- `JR e`, R244. -/
  | jrE (e : Byte)
  /-- `JR cc,e`, R245. -/
  | jrCcE (cc : Cond) (e : Byte)
  /-- `CALL nn`, R246. -/
  | callNn (nn : Word)
  /-- `CALL cc,nn`, R247. -/
  | callCcNn (cc : Cond) (nn : Word)
  /-- `RET`, R248. -/
  | ret
  /-- `RET cc`, R249. -/
  | retCc (cc : Cond)
  /-- `RETI`, R250. -/
  | reti
  /-- `RST t`, R251; `t` is the code in bits 5:3, the target is `8 * t`. -/
  | rst (t : Fin 8)
  -- 46_system.md
  /-- `NOP`, R260. -/
  | nop
  /-- `HALT`, R261. -/
  | halt
  /-- `STOP`, R262 (second byte 0x00). -/
  | stop
  /-- `DI`, R263. -/
  | di
  /-- `EI`, R264. -/
  | ei
  /-- `PREFIX CB`, R265: the prefix byte, not an instruction of its own. -/
  | prefixCb
  /-- Unassigned opcode 0xD3, R266. -/
  | illegalD3
  /-- Unassigned opcode 0xDB, R266. -/
  | illegalDB
  /-- Unassigned opcode 0xDD, R266. -/
  | illegalDD
  /-- Unassigned opcode 0xE3, R266. -/
  | illegalE3
  /-- Unassigned opcode 0xE4, R266. -/
  | illegalE4
  /-- Unassigned opcode 0xEB, R266. -/
  | illegalEB
  /-- Unassigned opcode 0xEC, R266. -/
  | illegalEC
  /-- Unassigned opcode 0xED, R266. -/
  | illegalED
  /-- Unassigned opcode 0xF4, R266. -/
  | illegalF4
  /-- Unassigned opcode 0xFC, R266. -/
  | illegalFC
  /-- Unassigned opcode 0xFD, R266. -/
  | illegalFD
  -- 44_rotate_shift_bit.md, the CB table
  /-- `RLC r`, R224. -/
  | rlcR (r : Reg8)
  /-- `RLC (HL)`, R224. -/
  | rlcHl
  /-- `RRC r`, R225. -/
  | rrcR (r : Reg8)
  /-- `RRC (HL)`, R225. -/
  | rrcHl
  /-- `RL r`, R226. -/
  | rlR (r : Reg8)
  /-- `RL (HL)`, R226. -/
  | rlHl
  /-- `RR r`, R227. -/
  | rrR (r : Reg8)
  /-- `RR (HL)`, R227. -/
  | rrHl
  /-- `SLA r`, R228. -/
  | slaR (r : Reg8)
  /-- `SLA (HL)`, R228. -/
  | slaHl
  /-- `SRA r`, R229. -/
  | sraR (r : Reg8)
  /-- `SRA (HL)`, R229. -/
  | sraHl
  /-- `SWAP r`, R230. -/
  | swapR (r : Reg8)
  /-- `SWAP (HL)`, R230. -/
  | swapHl
  /-- `SRL r`, R231. -/
  | srlR (r : Reg8)
  /-- `SRL (HL)`, R231. -/
  | srlHl
  /-- `BIT b,r`, R232. -/
  | bitR (b : Fin 8) (r : Reg8)
  /-- `BIT b,(HL)`, R232. -/
  | bitHl (b : Fin 8)
  /-- `RES b,r`, R233. -/
  | resR (b : Fin 8) (r : Reg8)
  /-- `RES b,(HL)`, R233. -/
  | resHl (b : Fin 8)
  /-- `SET b,r`, R234. -/
  | setR (b : Fin 8) (r : Reg8)
  /-- `SET b,(HL)`, R234. -/
  | setHl (b : Fin 8)
  deriving DecidableEq, Repr

end Sys2Proof
end

