-- ==== Sys2Proof/Machine/Operands.lean ====
section
/-! DEFINITION. Operands: register halves and pairs (10_state.md R20, R21, 00_scope.md R8), conditions
(45_control.md R240), effective addresses (40_load8.md R179), and the named registers of the I/O file
(10_state.md R31, 20_memory.md R70). -/

namespace Sys2Proof.Machine

/-! ## Registers -/

/-- `REG8[i]` read (00_scope.md R8). -/
def Regs.get8 (g : Regs) : Reg8 → Byte
  | .b => g.b
  | .c => g.c
  | .d => g.d
  | .e => g.e
  | .h => g.h
  | .l => g.l
  | .a => g.a

/-- `REG8[i] <- v`: changes that half only (10_state.md R21). -/
def Regs.set8 (g : Regs) (r : Reg8) (v : Byte) : Regs :=
  match r with
  | .b => { g with b := v }
  | .c => { g with c := v }
  | .d => { g with d := v }
  | .e => { g with e := v }
  | .h => { g with h := v }
  | .l => { g with l := v }
  | .a => { g with a := v }

/-- The pair BC (10_state.md R21). -/
def Regs.bc (g : Regs) : Word := joinBytes g.b g.c

/-- The pair DE. -/
def Regs.de (g : Regs) : Word := joinBytes g.d g.e

/-- The pair HL. -/
def Regs.hl (g : Regs) : Word := joinBytes g.h g.l

/-- The pair AF. -/
def Regs.af (g : Regs) : Word := joinBytes g.a g.f

/-- `BC <- v`: both halves. -/
def Regs.setBc (g : Regs) (v : Word) : Regs := { g with b := hiByte v, c := loByte v }

/-- `DE <- v`. -/
def Regs.setDe (g : Regs) (v : Word) : Regs := { g with d := hiByte v, e := loByte v }

/-- `HL <- v`. -/
def Regs.setHl (g : Regs) (v : Word) : Regs := { g with h := hiByte v, l := loByte v }

/-- `AF <- v`: "any write of F or AF stores v & 0xF0" in F (10_state.md R23). -/
def Regs.setAf (g : Regs) (v : Word) : Regs := { g with a := hiByte v, f := loByte v &&& 0xF0#8 }

/-- `REG16[i]` read (00_scope.md R8). -/
def Regs.get16 (g : Regs) : Reg16 → Word
  | .bc => g.bc
  | .de => g.de
  | .hl => g.hl
  | .sp => g.sp

/-- `REG16[i] <- v`. -/
def Regs.set16 (g : Regs) (rr : Reg16) (v : Word) : Regs :=
  match rr with
  | .bc => g.setBc v
  | .de => g.setDe v
  | .hl => g.setHl v
  | .sp => { g with sp := v }

/-- `REG16S[i]` read (00_scope.md R8). -/
def Regs.get16S (g : Regs) : Reg16S → Word
  | .bc => g.bc
  | .de => g.de
  | .hl => g.hl
  | .af => g.af

/-- `REG16S[i] <- v`. -/
def Regs.set16S (g : Regs) (rr : Reg16S) (v : Word) : Regs :=
  match rr with
  | .bc => g.setBc v
  | .de => g.setDe v
  | .hl => g.setHl v
  | .af => g.setAf v

/-- Replace the registers. -/
def State.withRegs (s : State) (g : Regs) : State := { s with regs := g }

/-- `REG8[i]`. -/
def State.reg8 (s : State) (r : Reg8) : Byte := s.regs.get8 r

/-- `REG8[i] <- v`. -/
def State.setReg8 (s : State) (r : Reg8) (v : Byte) : State := s.withRegs (s.regs.set8 r v)

/-- `REG16[i]`. -/
def State.reg16 (s : State) (rr : Reg16) : Word := s.regs.get16 rr

/-- `REG16[i] <- v`. -/
def State.setReg16 (s : State) (rr : Reg16) (v : Word) : State := s.withRegs (s.regs.set16 rr v)

/-- `F <- v`, given a flag byte made by Flags.lean. -/
def State.setF (s : State) (f : Byte) : State := s.withRegs { s.regs with f := f }

/-- `PC <- v` (00_scope.md R10). -/
def State.setPc (s : State) (v : Word) : State := s.withRegs { s.regs with pc := v }

/-- `SP <- v`. -/
def State.setSp (s : State) (v : Word) : State := s.withRegs { s.regs with sp := v }

/-- `IME <- v`. -/
def State.setIme (s : State) (v : Ime) : State := { s with ime := v }

/-- `run <- v`. -/
def State.setRun (s : State) (v : RunState) : State := { s with run := v }

/-- `cycles n` at the end of an instruction (00_scope.md R10): n more CPU cycles of this step. -/
def State.tick (s : State) (n : Nat) : State := { s with cyc := s.cyc + n }

/-! ## Conditions (45_control.md R240) -/

/-- Whether a condition holds of the flags. -/
def condHolds (cc : Cond) (f : Byte) : Bool :=
  match cc with
  | .nz => !flagZ f
  | .z => flagZ f
  | .nc => !flagC f
  | .c => flagC f

/-! ## Effective addresses (40_load8.md R179) -/

/-- `0xFF00 + n`, the address of `(n)` and `(C)` in `LDH`. -/
def highPage (n : Byte) : Word := 0xFF00#16 + zeroExtend16 n

/-- The target of a relative jump: PC after the instruction plus the signed displacement (45_control.md R244). -/
def relativeTarget (pc : Word) (e : Byte) : Word := pc + signExtend16 e

/-- The target of `RST t`: `8 * t` (30_encoding.md R143). -/
def restartTarget (t : Fin 8) : Word := BitVec.ofNat 16 (8 * t.val)

/-! ## The I/O file's storage and its named registers (10_state.md R31) -/

/-- `io[o]`. -/
def State.io (s : State) (o : Nat) : Byte := s.mem.io.read o

/-- `io[o] <- v`. -/
def State.setIo (s : State) (o : Nat) (v : Byte) : State := { s with mem.io := s.mem.io.write o v }

/-- P1 storage (20_memory.md R71). -/
def State.p1 (s : State) : Byte := s.io 0x00
/-- SB (R72). -/
def State.sb (s : State) : Byte := s.io 0x01
/-- SC (R72). -/
def State.sc (s : State) : Byte := s.io 0x02
/-- DIV: the high byte of `divctr` (R73). -/
def State.div (s : State) : Byte := hiByte s.timer.divctr
/-- TIMA (R74). -/
def State.tima (s : State) : Byte := s.io 0x05
/-- TMA (R75). -/
def State.tma (s : State) : Byte := s.io 0x06
/-- TAC (R76). -/
def State.tac (s : State) : Byte := s.io 0x07
/-- IF (R77). -/
def State.ifReg (s : State) : Byte := s.io 0x0F
/-- LCDC (R78). -/
def State.lcdc (s : State) : Byte := s.io 0x40
/-- STAT (R79). -/
def State.stat (s : State) : Byte := s.io 0x41
/-- SCY (R80). -/
def State.scy (s : State) : Byte := s.io 0x42
/-- SCX (R80). -/
def State.scx (s : State) : Byte := s.io 0x43
/-- LY (R81). -/
def State.ly (s : State) : Byte := s.io 0x44
/-- LYC (R82). -/
def State.lyc (s : State) : Byte := s.io 0x45
/-- DMA (R83). -/
def State.dma (s : State) : Byte := s.io 0x46
/-- BGP (R85). -/
def State.bgp (s : State) : Byte := s.io 0x47
/-- OBP0 (R85). -/
def State.obp0 (s : State) : Byte := s.io 0x48
/-- OBP1 (R85). -/
def State.obp1 (s : State) : Byte := s.io 0x49
/-- WY (R86). -/
def State.wy (s : State) : Byte := s.io 0x4A
/-- WX (R86). -/
def State.wx (s : State) : Byte := s.io 0x4B
/-- KEY1 storage: the armed bit (R93). -/
def State.key1 (s : State) : Byte := s.io 0x4D
/-- VBK (R94). -/
def State.vbk (s : State) : Byte := s.io 0x4F
/-- BOOT (R95). -/
def State.boot (s : State) : Byte := s.io 0x50
/-- HDMA1 to HDMA4 (R98), `k` in 1 to 4. -/
def State.hdma (s : State) (k : Nat) : Byte := s.io (0x50 + k)
/-- BCPS (R96). -/
def State.bcps (s : State) : Byte := s.io 0x68
/-- OCPS (R97). -/
def State.ocps (s : State) : Byte := s.io 0x6A
/-- SVBK (R99). -/
def State.svbk (s : State) : Byte := s.io 0x70

end Sys2Proof.Machine
end

