-- ==== Sys2Proof/Machine/Mbc.lean ====
section
/-! DEFINITION. The Memory Bank Controllers and the MBC3 clock (20_memory.md R102 to R119). -/

namespace Sys2Proof.Machine

/-- The physical ROM offset before reduction: `bank * 0x4000 + (a mod 0x4000)` (R102). -/
def romBankOffset (bank a : Nat) : Nat := bank * 0x4000 + a % 0x4000

/-- `low' = (low = 0) ? 1 : low` (R106, R109, R112). -/
def oneForZero (bank : Nat) : Nat := if bank = 0 then 1 else bank

/-- MBC1's 5-bit low field (R106). -/
def mbc1Low (bank : Byte) : Nat := bank.toNat % 32

/-- MBC1's 2-bit high field (R106). -/
def mbc1High (bank : Byte) : Nat := bank.toNat / 32 % 4

/-- MBC1's mode flag (R106). -/
def mbc1Mode (bank : Byte) : Bool := bank.getLsbD 7

/-- The ROM bank shown at an address below 0x8000 (R104, R106, R109, R112, R117). Variant None shows the image as
it is: bank 0, then bank 1. -/
def Mbc.romBank (m : Mbc) (a : Nat) : Nat :=
  match m with
  | .none => a / 0x4000
  | .mbc1 _ bank =>
    if a < 0x4000 then (if mbc1Mode bank then mbc1High bank * 32 else 0)
    else mbc1High bank * 32 + oneForZero (mbc1Low bank)
  | .mbc2 _ romBank => if a < 0x4000 then 0 else oneForZero romBank.toNat
  | .mbc3 _ romBank _ _ _ _ => if a < 0x4000 then 0 else oneForZero romBank.toNat
  | .mbc5 _ romBank _ => if a < 0x4000 then 0 else romBank.toNat

/-- The offset inside `ROM` of an address below 0x8000 (R103): always reduced modulo `ROM_SIZE`. -/
def romOffset (p : Params) (m : Mbc) (a : Nat) : Nat := romBankOffset (m.romBank a) a % p.romSize

/-- `RomRead(a)` (R63). -/
def romRead (p : Params) (m : Mbc) (a : Nat) : Byte := p.rom.read (romOffset p m a)

/-- `MbcRegWrite(a, v)` (R104, R105, R108, R111, R115, R116). -/
def Mbc.regWrite (m : Mbc) (a : Nat) (v : Byte) : Mbc :=
  match m with
  | .none => .none
  | .mbc1 enable bank =>
    if a < 0x2000 then .mbc1 v bank
    else if a < 0x4000 then .mbc1 enable ((bank &&& 0xE0#8) ||| (v &&& 0x1F#8))
    else if a < 0x6000 then .mbc1 enable ((bank &&& 0x9F#8) ||| ((v &&& 0x03#8) <<< 5))
    else .mbc1 enable ((bank &&& 0x7F#8) ||| ((v &&& 0x01#8) <<< 7))
  | .mbc2 enable romBank =>
    if a < 0x4000 then
      if a / 0x100 % 2 = 0 then .mbc2 v romBank else .mbc2 enable (v.extractLsb' 0 4)
    else .mbc2 enable romBank
  | .mbc3 enable romBank sel latch live latched =>
    if a < 0x2000 then .mbc3 v romBank sel latch live latched
    else if a < 0x4000 then .mbc3 enable (v.extractLsb' 0 7) sel latch live latched
    else if a < 0x6000 then .mbc3 enable romBank v latch live latched
    else .mbc3 enable romBank sel v live (if latch = 0x00#8 ∧ v = 0x01#8 then live else latched)
  | .mbc5 enable romBank ramBank =>
    if a < 0x2000 then .mbc5 v romBank ramBank
    else if a < 0x3000 then .mbc5 enable (romBank.extractLsb' 8 1 ++ v) ramBank
    else if a < 0x4000 then .mbc5 enable (v.extractLsb' 0 1 ++ romBank.extractLsb' 0 8) ramBank
    else if a < 0x6000 then .mbc5 enable romBank (v.extractLsb' 0 4)
    else .mbc5 enable romBank ramBank

/-- What an address of the RAM window reaches (R104, R107, R110, R113, R117, R119). -/
inductive EramTarget where
  /-- Nothing: reads 0xFF, ignores writes. -/
  | closed
  /-- A byte of `eram`. -/
  | ram (offset : Nat)
  /-- A 4-bit cell of MBC2's built-in RAM. -/
  | nibble (offset : Nat)
  /-- An MBC3 clock register, by its index 0x08 to 0x0C. -/
  | clock (index : Nat)
  deriving DecidableEq, Repr

/-- `EramOffset(bank, a)` (R103). -/
def eramOffset (p : Params) (bank a : Nat) : Nat := (bank * 0x2000 + (a - 0xA000)) % p.ramSize

/-- Where an access at `a` in 0xA000 to 0xBFFF goes. The gate compares the whole enable byte with 0x0A;
with `RAM_SIZE = 0` every variant's window is closed, MBC3's clock registers included (R119). -/
def eramRoute (p : Params) (m : Mbc) (a : Nat) : EramTarget :=
  match m with
  | .none => if p.ramSize = 0 then .closed else .ram ((a - 0xA000) % p.ramSize)
  | .mbc1 enable bank =>
    if enable ≠ 0x0A#8 ∨ p.ramSize = 0 then .closed
    else .ram (eramOffset p (if mbc1Mode bank then mbc1High bank else 0) a)
  | .mbc2 enable _ => if enable ≠ 0x0A#8 ∨ p.ramSize = 0 then .closed else .nibble ((a - 0xA000) % 512)
  | .mbc3 enable _ sel _ _ _ =>
    if enable ≠ 0x0A#8 ∨ p.ramSize = 0 then .closed
    else if sel.toNat ≤ 0x03 then .ram (eramOffset p sel.toNat a)
    else if 0x08 ≤ sel.toNat ∧ sel.toNat ≤ 0x0C then .clock sel.toNat
    else .closed
  | .mbc5 enable _ ramBank =>
    if enable ≠ 0x0A#8 ∨ p.ramSize = 0 then .closed else .ram (eramOffset p ramBank.toNat a)

/-- A clock byte by its register index (R113). -/
def Rtc.byte (r : Rtc) (index : Nat) : Byte :=
  match index with
  | 0x08 => r.s
  | 0x09 => r.m
  | 0x0A => r.h
  | 0x0B => r.dl
  | _ => r.dh

/-- A write to a clock byte under its mask (R114). -/
def Rtc.setByte (r : Rtc) (index : Nat) (v : Byte) : Rtc :=
  match index with
  | 0x08 => { r with s := v &&& 0x3F#8 }
  | 0x09 => { r with m := v &&& 0x3F#8 }
  | 0x0A => { r with h := v &&& 0x1F#8 }
  | 0x0B => { r with dl := v }
  | _ => { r with dh := v &&& 0xC1#8 }

/-- The byte a clock read returns: the latched snapshot (R113). -/
def Mbc.clockRead (m : Mbc) (index : Nat) : Byte :=
  match m with
  | .mbc3 _ _ _ _ _ latched => latched.byte index
  | .none | .mbc1 .. | .mbc2 .. | .mbc5 .. => 0xFF#8

/-- A clock write changes the live clock (R114). -/
def Mbc.clockWrite (m : Mbc) (index : Nat) (v : Byte) : Mbc :=
  match m with
  | .mbc3 enable romBank sel latch live latched => .mbc3 enable romBank sel latch (live.setByte index v) latched
  | .none | .mbc1 .. | .mbc2 .. | .mbc5 .. => m

/-- `EramRead(a)`. -/
def eramRead (s : State) (a : Nat) : Byte :=
  match eramRoute s.params s.mbc a with
  | .closed => 0xFF#8
  | .ram o => s.mem.eram.read o
  | .nibble o => 0xF0#8 ||| (s.mem.eram.read o &&& 0x0F#8)
  | .clock i => s.mbc.clockRead i

/-- `EramWrite(a, v)`. -/
def eramWrite (s : State) (a : Nat) (v : Byte) : State :=
  match eramRoute s.params s.mbc a with
  | .closed => s
  | .ram o => { s with mem.eram := s.mem.eram.write o v }
  | .nibble o => { s with mem.eram := s.mem.eram.write o (v &&& 0x0F#8) }
  | .clock i => { s with mbc := s.mbc.clockWrite i v }

/-- One second on the live clock (R118): fields wrap at their bit width, a carry out of the day count sets
DH[7], DH[6] freezes the clock. -/
def Rtc.second (r : Rtc) : Rtc :=
  if r.dh.getLsbD 6 then r
  else
    let s := (r.s.toNat + 1) % 64
    if s ≠ 60 then { r with s := BitVec.ofNat 8 s }
    else
      let m := (r.m.toNat + 1) % 64
      if m ≠ 60 then { r with s := 0#8, m := BitVec.ofNat 8 m }
      else
        let h := (r.h.toNat + 1) % 32
        if h ≠ 24 then { r with s := 0#8, m := 0#8, h := BitVec.ofNat 8 h }
        else
          let day := r.dh.toNat % 2 * 256 + r.dl.toNat + 1
          let carried := if day = 512 then r.dh ||| 0x80#8 else r.dh
          { s := 0#8, m := 0#8, h := 0#8, dl := BitVec.ofNat 8 day,
            dh := (carried &&& 0xFE#8) ||| BitVec.ofNat 8 (day / 256 % 2) }

/-- `RtcTick` (R118): only the MBC3 clock moves. -/
def Mbc.rtcTick (m : Mbc) : Mbc :=
  match m with
  | .mbc3 enable romBank sel latch live latched => .mbc3 enable romBank sel latch live.second latched
  | .none | .mbc1 .. | .mbc2 .. | .mbc5 .. => m

/-- `n` ticks, one after another. -/
def Mbc.rtcTicks (m : Mbc) : Nat → Mbc
  | 0 => m
  | n + 1 => m.rtcTick.rtcTicks n

end Sys2Proof.Machine
end

