-- ==== Sys2Proof/Machine/Io.lean ====
section
/-! DEFINITION. The I/O register file 0xFF00 to 0xFF7F (20_memory.md R70 to R99): masks, reads, the interrupt
request register, the STAT fields and the palette windows. Writes are in Machine/Bus.lean, since a DMA write reads
the bus. -/

namespace Sys2Proof.Machine

/-- The row of R70's table for an offset, as (WMASK, UNIMPL). An offset that is not in the table, or whose row is
CGB only when `CGB_MODE` is false, is unimplemented: it reads 0xFF and ignores writes (92 D12). The APU range has a
read of its own (R84); its writes change nothing. -/
def ioMasks (cgb : Bool) (o : Nat) : Byte × Byte :=
  let cgbOnly (w u : Byte) : Byte × Byte := if cgb then (w, u) else (0x00#8, 0xFF#8)
  match o with
  | 0x00 => (0x30#8, 0xC0#8)
  | 0x01 => (0xFF#8, 0x00#8)
  | 0x02 => if cgb then (0x83#8, 0x7C#8) else (0x81#8, 0x7E#8)
  | 0x04 => (0x00#8, 0x00#8)
  | 0x05 => (0xFF#8, 0x00#8)
  | 0x06 => (0xFF#8, 0x00#8)
  | 0x07 => (0x07#8, 0xF8#8)
  | 0x0F => (0x1F#8, 0xE0#8)
  | 0x40 => (0xFF#8, 0x00#8)
  | 0x41 => (0x78#8, 0x80#8)
  | 0x42 => (0xFF#8, 0x00#8)
  | 0x43 => (0xFF#8, 0x00#8)
  | 0x44 => (0x00#8, 0x00#8)
  | 0x45 => (0xFF#8, 0x00#8)
  | 0x46 => (0xFF#8, 0x00#8)
  | 0x47 => (0xFF#8, 0x00#8)
  | 0x48 => (0xFF#8, 0x00#8)
  | 0x49 => (0xFF#8, 0x00#8)
  | 0x4A => (0xFF#8, 0x00#8)
  | 0x4B => (0xFF#8, 0x00#8)
  | 0x4D => cgbOnly 0x01#8 0x7E#8
  | 0x4F => cgbOnly 0x01#8 0xFE#8
  | 0x50 => (0xFF#8, 0x00#8)
  | 0x51 => cgbOnly 0xFF#8 0xFF#8
  | 0x52 => cgbOnly 0xFF#8 0xFF#8
  | 0x53 => cgbOnly 0xFF#8 0xFF#8
  | 0x54 => cgbOnly 0xFF#8 0xFF#8
  | 0x55 => cgbOnly 0x00#8 0xFF#8
  | 0x68 => cgbOnly 0xBF#8 0x40#8
  | 0x69 => cgbOnly 0x00#8 0x00#8
  | 0x6A => cgbOnly 0xBF#8 0x40#8
  | 0x6B => cgbOnly 0x00#8 0x00#8
  | 0x70 => cgbOnly 0x07#8 0xF8#8
  | _ => (0x00#8, 0xFF#8)

/-- Whether an address is in the APU range 0xFF10 to 0xFF3F (R84). -/
def inApuRange (a : Word) : Bool := decide (0xFF10 ≤ a.toNat ∧ a.toNat ≤ 0xFF3F)

/-- A pressed key pulls its line low: bit `k` of the four lines (R71). -/
def keyLine (pressed : Bool) (k : Nat) : Byte := if pressed then 1#8 <<< k else 0#8

/-- The direction group's lines that are low: Right 0, Left 1, Up 2, Down 3 (R71). -/
def Keys.directionLow (k : Keys) : Byte :=
  keyLine k.right 0 ||| keyLine k.left 1 ||| keyLine k.up 2 ||| keyLine k.down 3

/-- The action group's lines that are low: A 0, B 1, Select 2, Start 3 (R71). -/
def Keys.actionLow (k : Keys) : Byte :=
  keyLine k.a 0 ||| keyLine k.b 1 ||| keyLine k.select 2 ||| keyLine k.start 3

/-- The direction group is selected: P1 bit 4 is 0 (R71). -/
def State.directionSelected (s : State) : Bool := !s.p1.getLsbD 4

/-- The action group is selected: P1 bit 5 is 0 (R71). -/
def State.actionSelected (s : State) : Bool := !s.p1.getLsbD 5

/-- A read of P1 (R71): `0xC0 | (io[0x00] & 0x30) | lines`. -/
def State.p1Read (s : State) : Byte :=
  let low := (if s.directionSelected then s.keys.directionLow else 0#8) |||
    (if s.actionSelected then s.keys.actionLow else 0#8)
  0xC0#8 ||| (s.p1 &&& 0x30#8) ||| (0x0F#8 &&& ~~~low)

/-- The palette index of BCPS or OCPS: bits 5 to 0 (R96). -/
def paletteIndex (ps : Byte) : Nat := ps.toNat % 64

/-- `IoRead(o)` (R70). Special reads: P1 (R71), DIV (R73), KEY1 (R93), BCPD and OCPD (R96, R97) and the APU range, a
draw (R84). -/
def ioRead (s : State) (o : Nat) : Byte :=
  if 0x10 ≤ o ∧ o ≤ 0x3F then Config.apuDraw s.host.draws
  else if o = 0x00 then s.p1Read
  else if o = 0x04 then s.div
  else if o = 0x4D ∧ s.params.cgbMode then s.key1 ||| 0x7E#8 ||| (if s.doubleSpeed then 0x80#8 else 0x00#8)
  else if o = 0x69 ∧ s.params.cgbMode then s.mem.bgpal.read (paletteIndex s.bcps)
  else if o = 0x6B ∧ s.params.cgbMode then s.mem.objpal.read (paletteIndex s.ocps)
  else s.io o ||| (ioMasks s.params.cgbMode o).2

/-- `io[o] <- (io[o] & ~WMASK[o]) | (v & WMASK[o])` (R70). -/
def ioStore (s : State) (o : Nat) (v : Byte) : State :=
  let w := (ioMasks s.params.cgbMode o).1
  s.setIo o ((s.io o &&& ~~~w) ||| (v &&& w))

/-- `Request(i)`: `IF <- IF | (1 << i)` (60_exceptions.md R301). -/
def request (s : State) (i : Fin 5) : State := s.setIo 0x0F (s.ifReg ||| (1#8 <<< i.val))

/-- `IF <- IF & ~(1 << i)` (60_exceptions.md R303). -/
def clearRequest (s : State) (i : Fin 5) : State := s.setIo 0x0F (s.ifReg &&& ~~~(1#8 <<< i.val))

/-- `STAT[2] <- (LY = LYC)` (R82, 60_exceptions.md R355). -/
def compareLine (s : State) : State :=
  s.setIo 0x41 ((s.stat &&& 0xFB#8) ||| (if s.ly = s.lyc then 0x04#8 else 0x00#8))

/-- `STAT[1:0] <- mode` (60_exceptions.md R356 to R359). -/
def setMode (s : State) (mode : Fin 4) : State :=
  s.setIo 0x41 ((s.stat &&& 0xFC#8) ||| BitVec.ofNat 8 mode.val)

/-- The index step of a palette data write: `BCPS[5:0] <- (BCPS[5:0] + 1) mod 64` if bit 7 is set (R96). -/
def paletteStep (ps : Byte) : Byte :=
  if ps.getLsbD 7 then 0x80#8 ||| BitVec.ofNat 8 ((paletteIndex ps + 1) % 64) else ps

/-- A write to BCPD (R96). -/
def bgPaletteWrite (s : State) (v : Byte) : State :=
  let t : State := { s with mem.bgpal := s.mem.bgpal.write (paletteIndex s.bcps) v }
  t.setIo 0x68 (paletteStep s.bcps)

/-- A write to OCPD (R97). -/
def objPaletteWrite (s : State) (v : Byte) : State :=
  let t : State := { s with mem.objpal := s.mem.objpal.write (paletteIndex s.ocps) v }
  t.setIo 0x6A (paletteStep s.ocps)

/-- A write to DIV clears `divctr` and `div_acc` (R73). -/
def divReset (s : State) : State := { s with timer.divctr := 0#16, timer.divAcc := 0 }

/-- A write to TAC clears `tima_acc` (R76). -/
def timaAccReset (s : State) : State := { s with timer.timaAcc := 0 }

end Sys2Proof.Machine
end

