-- ==== Sys2Proof/Machine/Bus.lean ====
section
/-! DEFINITION. The bus (20_memory.md R60 to R69): routing, `BusRead`, `BusWrite`, the two DMA transfers, and the
byte and word accesses of 00_scope.md R9.

`busRead` gives the byte; `afterRead` is the state after that read: no CORE state changes (R61), only the count of
bytes drawn from the APU range moves (log 4). `busStore` is `BusWrite` where the spec gives it an effect; `busWrite`
adds the two refusals of R98. -/

namespace Sys2Proof.Machine

/-- `VramBank()` (R64). -/
def State.vramBank (s : State) : Nat := if s.params.cgbMode then s.vbk.toNat % 2 else 0

/-- `WramBank()` (R65). -/
def State.wramBank (s : State) : Nat := if s.params.cgbMode then max 1 (s.svbk.toNat % 8) else 1

/-- What an address reaches (R60); offsets are into the arrays of `Mem`, bank included. -/
inductive Target where
  | rom
  | vram (o : Nat)
  | eram
  | wram (o : Nat)
  | oam (o : Nat)
  | unusable
  | io (o : Nat)
  | hram (o : Nat)
  | ie
  deriving DecidableEq, Repr

/-- The mirror 0xE000 to 0xFDFF is the access at `a - 0x2000` (R65). -/
def unmirror (a : Nat) : Nat := if 0xE000 ≤ a ∧ a ≤ 0xFDFF then a - 0x2000 else a

/-- The work-RAM offset of an address in 0xC000 to 0xDFFF (R65). -/
def State.wramOffset (s : State) (a : Nat) : Nat :=
  if a ≤ 0xCFFF then a - 0xC000 else s.wramBank * 0x1000 + (a - 0xD000)

/-- The address-range dispatch (R60). -/
def route (s : State) (a : Word) : Target :=
  let n := a.toNat
  if n ≤ 0x7FFF then .rom
  else if n ≤ 0x9FFF then .vram (s.vramBank * 0x2000 + (n - 0x8000))
  else if n ≤ 0xBFFF then .eram
  else if n ≤ 0xFDFF then .wram (s.wramOffset (unmirror n))
  else if n ≤ 0xFE9F then .oam (n - 0xFE00)
  else if n ≤ 0xFEFF then .unusable
  else if n ≤ 0xFF7F then .io (n - 0xFF00)
  else if n ≤ 0xFFFE then .hram (n - 0xFF80)
  else .ie

/-- `BootActive()` (R66). -/
def State.bootActive (s : State) : Bool := s.boot == 0x00#8

/-- `a in BOOT_OVERLAY` (R66). -/
def inOverlay (p : Params) (a : Nat) : Bool := p.bootOverlay.any fun r => decide (r.1 ≤ a ∧ a ≤ r.2)

/-- `BusRead(a)` (R61). -/
def busRead (s : State) (a : Word) : Byte :=
  match route s a with
  | .rom =>
    if s.bootActive && inOverlay s.params a.toNat then s.params.bootRom.read a.toNat
    else romRead s.params s.mbc a.toNat
  | .vram o => s.mem.vram.read o
  | .eram => eramRead s a.toNat
  | .wram o => s.mem.wram.read o
  | .oam o => s.mem.oam.read o
  | .unusable => s.params.unusableRead
  | .io o => ioRead s o
  | .hram o => s.mem.hram.read o
  | .ie => s.mem.ie

/-- The state after a read: a byte drawn from the APU range makes the next draw a fresh one (00_scope.md R10,
R84, R123). -/
def afterRead (s : State) (a : Word) : State :=
  if inApuRange a then { s with host.draws := s.host.draws + 1 } else s

/-! ## DMA -/

/-- One byte of the OAM DMA: `oam[i] <- BusRead(((v << 8) + i) mod 2^16)` (R83). -/
def oamDmaByte (page : Byte) (s : State) (i : Nat) : State :=
  let a := joinBytes page 0#8 + BitVec.ofNat 16 i
  let t := afterRead s a
  { t with mem.oam := t.mem.oam.write i (busRead s a) }

/-- OAM DMA (R83): 160 bytes in ascending order. -/
def oamDma (s : State) (page : Byte) : State := (List.range 160).foldl (oamDmaByte page) s

/-- `src <- (HDMA1:HDMA2) & 0xFFF0` (R98). -/
def State.gdmaSource (s : State) : Word := joinBytes (s.hdma 1) (s.hdma 2) &&& 0xFFF0#16

/-- `dst <- (HDMA3:HDMA4) & 0x1FF0`, an offset inside the VRAM window (R98). -/
def State.gdmaDest (s : State) : Nat := (joinBytes (s.hdma 3) (s.hdma 4) &&& 0x1FF0#16).toNat

/-- `len <- (v[6:0] + 1) * 16` (R98). -/
def gdmaLength (v : Byte) : Nat := (v.toNat % 128 + 1) * 16

/-- An address outside ROM, external RAM and work RAM: in VRAM, or at or above 0xE000 (R98). -/
def gdmaBadSource (a : Word) : Bool := decide ((0x8000 ≤ a.toNat ∧ a.toNat ≤ 0x9FFF) ∨ 0xE000 ≤ a.toNat)

/-- One byte of the general-purpose DMA (R98). -/
def gdmaByte (src : Word) (dst : Nat) (s : State) (i : Nat) : State :=
  let a := src + BitVec.ofNat 16 i
  let t := afterRead s a
  { t with mem.vram := t.mem.vram.write (s.vramBank * 0x2000 + (dst + i) % 0x2000) (busRead s a) }

/-- General-purpose DMA (R98): `len` bytes in ascending order. -/
def gdma (s : State) (v : Byte) : State :=
  (List.range (gdmaLength v)).foldl (gdmaByte s.gdmaSource s.gdmaDest) s

/-- Why a write of `v` to HDMA5 has no meaning (R98, 92 D20, 93 U6); none where it has one. -/
def hdmaRefusal (s : State) (v : Byte) : Option Refusal :=
  if v.getLsbD 7 then some (.hblankDma v)
  else if (List.range (gdmaLength v)).any fun i => gdmaBadSource (s.gdmaSource + BitVec.ofNat 16 i) then
    some (.dmaSource s.gdmaSource)
  else none

/-! ## Writes -/

/-- `IoWrite(o, v)` (R70): store under the mask, then the side effect of the register. -/
def ioWrite (s : State) (o : Nat) (v : Byte) : State :=
  let t := ioStore s o v
  match o with
  | 0x04 => divReset t
  | 0x07 => timaAccReset t
  | 0x45 => compareLine t
  | 0x46 => oamDma t v
  | 0x55 => if s.params.cgbMode then gdma t v else t
  | 0x69 => if s.params.cgbMode then bgPaletteWrite t v else t
  | 0x6B => if s.params.cgbMode then objPaletteWrite t v else t
  | _ => t

/-- `BusWrite(a, v)` (R62), where the spec gives the write an effect. -/
def busStore (s : State) (a : Word) (v : Byte) : State :=
  match route s a with
  | .rom => { s with mbc := s.mbc.regWrite a.toNat v }
  | .vram o => { s with mem.vram := s.mem.vram.write o v }
  | .eram => eramWrite s a.toNat v
  | .wram o => { s with mem.wram := s.mem.wram.write o v }
  | .oam o => { s with mem.oam := s.mem.oam.write o v }
  | .unusable => s
  | .io o => ioWrite s o v
  | .hram o => { s with mem.hram := s.mem.hram.write o v }
  | .ie => { s with mem.ie := v }

/-- Why a bus write has no meaning: only a write to HDMA5 in CGB mode can have none (R98). -/
def busRefusal (s : State) (a : Word) (v : Byte) : Option Refusal :=
  if a = 0xFF55#16 ∧ s.params.cgbMode then hdmaRefusal s v else none

/-! ## Accesses of 00_scope.md R9 -/

/-- The outcome of a step of this machine. -/
abbrev Result := Host.Outcome State Fault Refusal

/-- Go on with the next state, stop at a fault or a refusal. -/
def andThen (r : Result) (f : State → Result) : Result :=
  match r with
  | .next s => f s
  | .fault e => .fault e
  | .refused e => .refused e

/-- `MemWrite(a, 1, v)`, that is `BusWrite(a, v)`. -/
def busWrite (s : State) (a : Word) (v : Byte) : Result :=
  match busRefusal s a v with
  | some r => .refused r
  | none => .next (busStore s a v)

/-- `MemWrite(a, 2, v)`: low byte first, at the lower address (R120). -/
def busWrite16 (s : State) (a : Word) (v : Word) : Result :=
  andThen (busWrite s a (loByte v)) fun t => busWrite t (a + 1#16) (hiByte v)

/-- `MemRead(a, 2)`: the byte at `a` first, then the byte at `a + 1` (R120). -/
def busRead16 (s : State) (a : Word) : Word :=
  joinBytes (busRead (afterRead s a) (a + 1#16)) (busRead s a)

/-- The state after `MemRead(a, 2)`. -/
def afterRead16 (s : State) (a : Word) : State := afterRead (afterRead s a) (a + 1#16)

end Sys2Proof.Machine
end

