-- ==== Sys2Proof/Machine/Ppu.lean ====
section
/-! DEFINITION. The PPU (60_exceptions.md R350 to R375): line events, sprite selection, the pixels of a line, and
`PpuAdvance`. -/

namespace Sys2Proof.Machine

/-! ## Geometry (R351) -/

/-- Dots per line. -/
def dotsPerLine : Nat := 456

/-- Dots per frame: 154 lines. -/
def dotsPerFrame : Nat := 70224

/-- `LCDC[b]`. -/
def State.lcdcBit (s : State) (b : Nat) : Bool := s.lcdc.getLsbD b

/-- Sprite height: 16 if LCDC[2], else 8 (R361). -/
def State.spriteHeight (s : State) : Nat := if s.lcdcBit 2 then 16 else 8

/-! ## OAM entries (10_state.md R30, R367) -/

/-- Byte `k` of sprite `i`: `oam[4i + k]` (Y, X, tile, attributes). -/
def State.oamByte (s : State) (i k : Nat) : Byte := s.mem.oam.read (4 * i + k)

/-- `oam[4i]` as a number. -/
def State.spriteY (s : State) (i : Nat) : Nat := (s.oamByte i 0).toNat

/-- `oam[4i + 1]` as a number. -/
def State.spriteX (s : State) (i : Nat) : Nat := (s.oamByte i 1).toNat

/-! ## Sprite selection (R361) -/

/-- `Y <= L + 16 and L + 16 < Y + h`. -/
def State.spriteOnLine (s : State) (line i : Nat) : Bool :=
  decide (s.spriteY i ≤ line + 16 ∧ line + 16 < s.spriteY i + s.spriteHeight)

/-- Put a sprite before the first one with a greater X: with insertion from the right, equal X keep their order. -/
def insertByX (s : State) (i : Nat) : List Nat → List Nat
  | [] => [i]
  | j :: js => if s.spriteX i ≤ s.spriteX j then i :: j :: js else j :: insertByX s i js

/-- The stable sort by ascending X. -/
def sortByX (s : State) : List Nat → List Nat
  | [] => []
  | i :: is => insertByX s i (sortByX s is)

/-- `SelectSprites(L)` (R361): the first ten in OAM order, then, when not CGB, sorted by X. -/
def selectSprites (s : State) (line : Nat) : List Nat :=
  let sel := ((List.range 40).filter (s.spriteOnLine line)).take 10
  if s.params.cgbMode then sel else sortByX s sel

/-! ## Tiles (R363, R364) -/

/-- `vram[k][o]`. -/
def State.vramByte (s : State) (bank o : Nat) : Byte := s.mem.vram.read (bank * 0x2000 + o)

/-- The colour index of row `r`, column `c` of the tile at VRAM offset `t` in bank `k` (R363). -/
def State.tilePixel (s : State) (k t r c : Nat) : Nat :=
  let lo := s.vramByte k (t + 2 * r)
  let hi := s.vramByte k (t + 2 * r + 1)
  2 * bit (hi.getLsbD (7 - c)) + bit (lo.getLsbD (7 - c))

/-- The VRAM offset of a background or window tile (R363). -/
def State.bgTileOffset (s : State) (n : Nat) : Nat :=
  if s.lcdcBit 4 then 16 * n
  else if n < 128 then 0x1000 + 16 * n
  else 0x0800 + 16 * (n - 128)

/-- A background or window pixel: its colour index and its attribute byte. -/
structure BgPixel where
  index : Nat
  attr : Byte
  deriving DecidableEq, Repr

/-- The pixel at `(bx, by)` of the area whose map starts at VRAM offset `base` (R364, R365). -/
def State.mapPixel (s : State) (base bx byy : Nat) : BgPixel :=
  let entry := base + 32 * (byy / 8) + bx / 8
  let n := (s.vramByte 0 entry).toNat
  let attr := if s.params.cgbMode then s.vramByte 1 entry else 0x00#8
  let r := if attr.getLsbD 6 then 7 - byy % 8 else byy % 8
  let c := if attr.getLsbD 5 then 7 - bx % 8 else bx % 8
  ⟨s.tilePixel (bit (attr.getLsbD 3)) (s.bgTileOffset n) r c, attr⟩

/-- The start of a tile map: 0x1C00 or 0x1800 (R364). -/
def mapBase (high : Bool) : Nat := if high then 0x1C00 else 0x1800

/-- The background pixel at line `y`, column `x` (R365): scrolled, wrapping in 256 x 256. -/
def State.bgPixel (s : State) (y x : Nat) : BgPixel :=
  s.mapPixel (mapBase (s.lcdcBit 3)) ((x + s.scx.toNat) % 256) ((y + s.scy.toNat) % 256)

/-- The window covers `(y, x)` (R366). -/
def State.windowCovers (s : State) (y x : Nat) : Bool :=
  s.lcdcBit 5 && decide (s.wy.toNat ≤ y ∧ s.wx.toNat ≤ x + 7)

/-- The window pixel (R366): row `L - WY`, column `x + 7 - WX`, map from LCDC[6]. -/
def State.windowPixel (s : State) (y x : Nat) : BgPixel :=
  s.mapPixel (mapBase (s.lcdcBit 6)) (x + 7 - s.wx.toNat) (y - s.wy.toNat)

/-- When not CGB and LCDC[0] is 0, background and window are blank (R366). -/
def State.bgBlank (s : State) : Bool := !s.params.cgbMode && !s.lcdcBit 0

/-- `(bgi, battr)` (R366). -/
def State.bgOrWindow (s : State) (y x : Nat) : BgPixel :=
  if s.bgBlank then ⟨0, 0x00#8⟩
  else if s.windowCovers y x then s.windowPixel y x
  else s.bgPixel y x

/-! ## Sprites (R367 to R370) -/

/-- A sprite pixel: its colour index, not 0, and its attribute byte. -/
structure ObjPixel where
  index : Nat
  attr : Byte
  deriving DecidableEq, Repr

/-- The row of a sprite's 8 or 16 lines, after vertical flip, computed on integers (R367). It lies outside the
sprite only if LCDC[2] or OAM changed between selection and rendering (R370, log 14). -/
def State.spriteRow (s : State) (i y : Nat) (attr : Byte) : Int :=
  let r : Int := (y : Int) + 16 - s.spriteY i
  if attr.getLsbD 6 then s.spriteHeight - 1 - r else r

/-- The tile a row of a sprite is in: for 8 x 16, the number with bit 0 cleared for the upper 8 lines and set for
the lower 8 (R370). -/
def State.spriteTile (s : State) (i : Nat) (row : Int) : Nat :=
  let n := s.oamByte i 2
  (if s.lcdcBit 2 then (if row < 8 then n &&& 0xFE#8 else n ||| 0x01#8) else n).toNat

/-- The colour index of sprite `i` at `(y, x)`, none where the sprite does not cover column `x` (R367). -/
def State.spriteIndex (s : State) (i y x : Nat) : Option Nat :=
  if s.spriteX i ≤ x + 8 ∧ x + 8 < s.spriteX i + 8 then
    let attr := s.oamByte i 3
    let c0 := x + 8 - s.spriteX i
    let c := if attr.getLsbD 5 then 7 - c0 else c0
    let row := s.spriteRow i y attr
    let bank := if s.params.cgbMode then bit (attr.getLsbD 3) else 0
    some (s.tilePixel bank (16 * s.spriteTile i row) (row % 8).toNat c)
  else none

/-- The first sprite of a list with an opaque pixel at `(y, x)` (R367, R368). -/
def State.firstSprite (s : State) (y x : Nat) : List Nat → Option ObjPixel
  | [] => none
  | i :: is =>
    match s.spriteIndex i y x with
    | some k => if k ≠ 0 then some ⟨k, s.oamByte i 3⟩ else s.firstSprite y x is
    | none => s.firstSprite y x is

/-- The sprite pixel at `(y, x)` (R367): none when LCDC[1] is 0. -/
def State.objPixel (s : State) (y x : Nat) : Option ObjPixel :=
  if s.lcdcBit 1 then s.firstSprite y x s.ppu.lineSprites else none

/-! ## Colours (R373, R374) -/

/-- A 15-bit colour of a palette RAM: palette `p`, index `i`, little-endian (R373). -/
def paletteColor (pal : Memory) (p i : Nat) : BitVec 15 :=
  (joinBytes (pal.read (8 * p + 2 * i + 1)) (pal.read (8 * p + 2 * i))).extractLsb' 0 15

/-- The shade of colour index `i` in BGP, OBP0 or OBP1 (R374). -/
def shadeOf (pal : Byte) (i : Nat) : BitVec 2 := pal.extractLsb' (2 * i) 2

/-- The pixel of the background or window (R366, R373, R374). -/
def State.bgColor (s : State) (p : BgPixel) : Pixel :=
  if s.params.cgbMode then .color (paletteColor s.mem.bgpal (p.attr.toNat % 8) p.index)
  else if s.bgBlank then .shade 0#2
  else .shade (shadeOf s.bgp p.index)

/-- The pixel of a sprite (R373, R374). -/
def State.objColor (s : State) (p : ObjPixel) : Pixel :=
  if s.params.cgbMode then .color (paletteColor s.mem.objpal (p.attr.toNat % 8) p.index)
  else .shade (shadeOf (if p.attr.getLsbD 4 then s.obp1 else s.obp0) p.index)

/-! ## Priority (R372) -/

/-- Whether the sprite pixel is shown. -/
def State.spriteShown (s : State) (bg : BgPixel) (obj : ObjPixel) : Bool :=
  if s.params.cgbMode && !s.lcdcBit 0 then s.params.masterPriority == .objOverAll
  else !(bg.index != 0 && (bg.attr.getLsbD 7 || obj.attr.getLsbD 7))

/-- `Pixel(L, x)` (R357, R372 to R375). -/
def State.pixel (s : State) (y x : Nat) : Pixel :=
  let bg := s.bgOrWindow y x
  match s.objPixel y x with
  | none => s.bgColor bg
  | some obj => if s.spriteShown bg obj then s.objColor obj else s.bgColor bg

/-- The 160 pixels of a line (R357, R362). -/
def State.renderLine (s : State) (y : Nat) : List Pixel := (List.range 160).map (s.pixel y)

/-- The RGBA value of a pixel (R373 to R375; log 7). -/
def Pixel.rgba : Pixel → BitVec 32
  | .blank => Config.blankColor
  | .shade k => Config.dmgShade k
  | .color c => Config.expandRgba c

/-- `screen()` (R390): the framebuffer as the host reads it. -/
def State.screen (s : State) : List (List (BitVec 32)) := s.ppu.fb.map fun row => row.map Pixel.rgba

/-! ## Line events (R353 to R360) -/

/-- `StatEvent(b)` (R360): requests the LCD-STAT interrupt if STAT[b] enables the condition. -/
def statEvent (b : Nat) (s : State) : State := if s.stat.getLsbD b then request s 1 else s

/-- LY and the compare at the start of line `y` (R355). -/
def startLine (y : Nat) (s : State) : State :=
  let t := compareLine (s.setIo 0x44 (BitVec.ofNat 8 y))
  if t.stat.getLsbD 2 then statEvent 6 t else t

/-- Mode 2, OAM scan (R356). -/
def enterOamScan (y : Nat) (s : State) : State :=
  let t := statEvent 5 (setMode s 2)
  { t with ppu.lineSprites := selectSprites t y }

/-- Mode 3, pixel transfer: the whole line is rendered (R357). -/
def enterTransfer (y : Nat) (s : State) : State :=
  let t := setMode s 3
  { t with ppu.fb := t.ppu.fb.set y (t.renderLine y) }

/-- Mode 0, HBlank (R358). -/
def enterHblank (s : State) : State := statEvent 3 (setMode s 0)

/-- Mode 1, VBlank entry (R359). -/
def enterVblank (s : State) : State := statEvent 4 (request (setMode s 1) 0)

/-- `LcdOnDot()` at the new `ppu_cycle` (R352, R354): events only at dots 0, 80 and 252. -/
def lcdOnDot (s : State) : State :=
  let y := s.ppu.cycle / dotsPerLine
  let dot := s.ppu.cycle % dotsPerLine
  if dot = 0 then
    let t := startLine y s
    if y < 144 then enterOamScan y t else if y = 144 then enterVblank t else t
  else if dot = 80 ∧ y < 144 then enterTransfer y s
  else if dot = 252 ∧ y < 144 then enterHblank s
  else s

/-- `LcdOffDot()` (R353). -/
def lcdOffDot (s : State) : State :=
  if s.ppu.cycle = 0 then { s with ppu.fb := Ppu.blankFrame } else s

/-- One dot of `PpuAdvance` (R352). -/
def ppuDot (s : State) : State :=
  let t : State := { s with ppu.cycle := (s.ppu.cycle + 1) % dotsPerFrame }
  if t.lcdcBit 7 then lcdOnDot t else lcdOffDot t

/-- The state after `PpuAdvance(n)` (R352). -/
def ppuAdvance (s : State) : Nat → State
  | 0 => s
  | n + 1 => ppuAdvance (ppuDot s) n

/-- What `PpuAdvance(n)` returns, from the value of `ppu_cycle` before it (R352): whether some dot moved it to 0. -/
def ppuWraps (cycle : Nat) : Nat → Bool
  | 0 => false
  | n + 1 => decide ((cycle + 1) % dotsPerFrame = 0) || ppuWraps ((cycle + 1) % dotsPerFrame) n

end Sys2Proof.Machine
end

