-- ==== Sys2Proof/Machine/Timer.lean ====
section
/-! DEFINITION. The Timer (60_exceptions.md R330 to R334). -/

namespace Sys2Proof.Machine

/-- `TIMA_PERIOD[TAC[1:0]]` (00_scope.md R6, R332). -/
def timaPeriod (p : Params) (tac : Byte) : Nat :=
  match tac.toNat % 4 with
  | 0 => p.timaPeriod.p0
  | 1 => p.timaPeriod.p1
  | 2 => p.timaPeriod.p2
  | _ => p.timaPeriod.p3

/-- `TimaIncrement()` (R332, R333): from 0xFF it reloads TMA and requests the Timer interrupt at once. -/
def timaIncrement (s : State) : State :=
  if s.tima = 0xFF#8 then request (s.setIo 0x05 s.tma) 2 else s.setIo 0x05 (s.tima + 1#8)

/-- `k` increments. -/
def timaIncrements (s : State) : Nat → State
  | 0 => s
  | k + 1 => timaIncrements (timaIncrement s) k

/-- The DIV half of `TimerAdvance(n)` (R330, R331): one tick of `divctr` for each whole `DIV_TICK_CYCLES` in
`div_acc + n`, the rest stays in `div_acc`. This is the loop of R330 in closed form (log 9). -/
def divAdvance (s : State) (n : Nat) : State :=
  let acc := s.timer.divAcc + n
  { s with
    timer.divctr := s.timer.divctr + BitVec.ofNat 16 (acc / s.params.divTickCycles)
    timer.divAcc := acc % s.params.divTickCycles }

/-- The TIMA half (R330, R332): while TAC[2] is set, one increment for each whole period. -/
def timaAdvance (s : State) (n : Nat) : State :=
  if s.tac.getLsbD 2 then
    let acc := s.timer.timaAcc + n
    let period := timaPeriod s.params s.tac
    timaIncrements { s with timer.timaAcc := acc % period } (acc / period)
  else s

/-- `TimerAdvance(n)` (R330). -/
def timerAdvance (s : State) (n : Nat) : State := timaAdvance (divAdvance s n) n

end Sys2Proof.Machine
end

