-- ==== Sys2Proof/Machine/Advance.lean ====
section
/-! DEFINITION. Phase C of the machine step: the devices advance (60_exceptions.md R300, R306, R308). -/

namespace Sys2Proof.Machine

/-- The PPU cycles of a step: half the CPU cycles in double speed (R306). -/
def ppuCycles (s : State) : Nat := if s.doubleSpeed then s.cyc / 2 else s.cyc

/-- Phase C (R300): count the step's cycles, advance the Timer, then the PPU; record whether the frame ended
(R313). `cyc` goes back to 0 (log 3). -/
def advancePhase (s : State) : State :=
  let n := ppuCycles s
  let t := ppuAdvance (timerAdvance { s with cycles := s.cycles + s.cyc } s.cyc) n
  { t with cyc := 0, host.frameEntry := ppuWraps s.ppu.cycle n }

end Sys2Proof.Machine
end

