-- ==== Sys2Proof/WellFormed.lean ====
section
/-! DEFINITION. Which terms of `Instr` are instructions a program can hold. The operand types already exclude
REG8 code 6 and out-of-range conditions, bit numbers and restart codes; two checks are left. -/

namespace Sys2Proof

/-- `POP` names one of BC, DE, HL: code 3 of REG16S is the row `POP AF` (41_load16_stack.md R185, R186). The
prefix byte 0xCB is "not an instruction of its own" (46_system.md R265). Every other term is an instruction. -/
def Instr.wellFormed : Instr → Bool
  | .pop rr => rr != .af
  | .prefixCb => false
  | .ldRR .. | .ldRN .. | .ldRHl .. | .ldHlR .. | .ldHlN .. | .ldABc | .ldADe | .ldBcA | .ldDeA | .ldANn .. |
    .ldNnA .. | .ldhAC | .ldhCA | .ldhAN .. | .ldhNA .. | .ldAHld | .ldHldA | .ldAHli | .ldHliA | .ldRrNn .. |
    .ldNnSp .. | .ldSpHl | .ldHlSpE .. | .push .. | .popAf | .addR .. | .addHl | .addN .. | .adcR .. | .adcHl |
    .adcN .. | .subR .. | .subHl | .subN .. | .sbcR .. | .sbcHl | .sbcN .. | .andR .. | .andHl | .andN .. |
    .xorR .. | .xorHl | .xorN .. | .orR .. | .orHl | .orN .. | .cpR .. | .cpHl | .cpN .. | .incR .. | .incHl |
    .decR .. | .decHl | .daa | .cpl | .scf | .ccf | .addHlRr .. | .incRr .. | .decRr .. | .addSpE .. | .rlca |
    .rrca | .rla | .rra | .jpNn .. | .jpCcNn .. | .jpHl | .jrE .. | .jrCcE .. | .callNn .. | .callCcNn .. | .ret |
    .retCc .. | .reti | .rst .. | .nop | .halt | .stop | .di | .ei | .illegalD3 | .illegalDB | .illegalDD |
    .illegalE3 | .illegalE4 | .illegalEB | .illegalEC | .illegalED | .illegalF4 | .illegalFC | .illegalFD |
    .rlcR .. | .rlcHl | .rrcR .. | .rrcHl | .rlR .. | .rlHl | .rrR .. | .rrHl | .slaR .. | .slaHl | .sraR .. |
    .sraHl | .swapR .. | .swapHl | .srlR .. | .srlHl | .bitR .. | .bitHl .. | .resR .. | .resHl .. | .setR .. |
    .setHl .. => true

end Sys2Proof
end

