-- ==== Sys2Proof/Decode.lean ====
section
/-! DEFINITION. The decoder and the encoder (30_encoding.md).

The decoder is total. `decodeOp` reads an opcode byte and the two bytes after it (those it does not use are
ignored); `decode` reads a list of bytes and gives the bytes left over. It rejects by name: a list that ends
inside an instruction, and STOP with a second byte other than 0x00. The encoder is written from the formats of
R140 and the field tables of R142, not from the decoder. -/

namespace Sys2Proof

/-! ## Field value tables (R142) -/

/-- REG8 (R142): code 6 is no register. -/
def Reg8.ofCode : Nat → Option Reg8
  | 0 => some .b
  | 1 => some .c
  | 2 => some .d
  | 3 => some .e
  | 4 => some .h
  | 5 => some .l
  | 7 => some .a
  | _ => none

/-- The REG8 code of a register (R142). -/
def Reg8.code : Reg8 → Nat
  | .b => 0
  | .c => 1
  | .d => 2
  | .e => 3
  | .h => 4
  | .l => 5
  | .a => 7

/-- REG16 (R142), a 2-bit code. -/
def Reg16.ofCode : Nat → Reg16
  | 0 => .bc
  | 1 => .de
  | 2 => .hl
  | _ => .sp

/-- The REG16 code of a pair (R142). -/
def Reg16.code : Reg16 → Nat
  | .bc => 0
  | .de => 1
  | .hl => 2
  | .sp => 3

/-- REG16S (R142), a 2-bit code. -/
def Reg16S.ofCode : Nat → Reg16S
  | 0 => .bc
  | 1 => .de
  | 2 => .hl
  | _ => .af

/-- The REG16S code of a pair (R142). -/
def Reg16S.code : Reg16S → Nat
  | .bc => 0
  | .de => 1
  | .hl => 2
  | .af => 3

/-- Condition codes (R142), a 2-bit code. -/
def Cond.ofCode : Nat → Cond
  | 0 => .nz
  | 1 => .z
  | 2 => .nc
  | _ => .c

/-- The code of a condition (R142). -/
def Cond.code : Cond → Nat
  | .nz => 0
  | .z => 1
  | .nc => 2
  | .c => 3

/-- A bit number or a restart code: a 3-bit field (R141). -/
def fin8 (n : Nat) : Fin 8 := Fin.ofNat 8 n

/-! ## The base table (R145, "the same table by pattern") -/

/-- Quarter `x = 0` of the base table. `n` is byte 2, `nn` bytes 3:2. -/
def decodeQuarter0 (y z : Nat) (n : Byte) (nn : Word) : Instr :=
  let p := y / 2
  match z with
  | 0 =>
    match y with
    | 0 => .nop
    | 1 => .ldNnSp nn
    | 2 => .stop
    | 3 => .jrE n
    | _ => .jrCcE (Cond.ofCode (y - 4)) n
  | 1 => if y % 2 = 0 then .ldRrNn (Reg16.ofCode p) nn else .addHlRr (Reg16.ofCode p)
  | 2 =>
    match y with
    | 0 => .ldBcA
    | 2 => .ldDeA
    | 4 => .ldHliA
    | 6 => .ldHldA
    | 1 => .ldABc
    | 3 => .ldADe
    | 5 => .ldAHli
    | _ => .ldAHld
  | 3 => if y % 2 = 0 then .incRr (Reg16.ofCode p) else .decRr (Reg16.ofCode p)
  | 4 =>
    match Reg8.ofCode y with
    | some r => .incR r
    | none => .incHl
  | 5 =>
    match Reg8.ofCode y with
    | some r => .decR r
    | none => .decHl
  | 6 =>
    match Reg8.ofCode y with
    | some r => .ldRN r n
    | none => .ldHlN n
  | _ =>
    match y with
    | 0 => .rlca
    | 1 => .rrca
    | 2 => .rla
    | 3 => .rra
    | 4 => .daa
    | 5 => .cpl
    | 6 => .scf
    | _ => .ccf

/-- Quarter `x = 1`: loads, and HALT where both fields are 6 (R142). -/
def decodeQuarter1 (y z : Nat) : Instr :=
  match Reg8.ofCode y, Reg8.ofCode z with
  | some r, some r' => .ldRR r r'
  | some r, none => .ldRHl r
  | none, some r' => .ldHlR r'
  | none, none => .halt

/-- Quarter `x = 2`: the eight accumulator operations on REG8 (R142 ALU, 42_alu8.md R189). -/
def decodeQuarter2 (y z : Nat) : Instr :=
  match Reg8.ofCode z with
  | some r =>
    match y with
    | 0 => .addR r
    | 1 => .adcR r
    | 2 => .subR r
    | 3 => .sbcR r
    | 4 => .andR r
    | 5 => .xorR r
    | 6 => .orR r
    | _ => .cpR r
  | none =>
    match y with
    | 0 => .addHl
    | 1 => .adcHl
    | 2 => .subHl
    | 3 => .sbcHl
    | 4 => .andHl
    | 5 => .xorHl
    | 6 => .orHl
    | _ => .cpHl

/-- Quarter `x = 3`. -/
def decodeQuarter3 (y z : Nat) (n : Byte) (nn : Word) : Instr :=
  match z with
  | 0 =>
    match y with
    | 4 => .ldhNA n
    | 5 => .addSpE n
    | 6 => .ldhAN n
    | 7 => .ldHlSpE n
    | _ => .retCc (Cond.ofCode y)
  | 1 =>
    match y with
    | 1 => .ret
    | 3 => .reti
    | 5 => .jpHl
    | 7 => .ldSpHl
    | 6 => .popAf
    | _ => .pop (Reg16S.ofCode (y / 2))
  | 2 =>
    match y with
    | 4 => .ldhCA
    | 5 => .ldNnA nn
    | 6 => .ldhAC
    | 7 => .ldANn nn
    | _ => .jpCcNn (Cond.ofCode y) nn
  | 3 =>
    match y with
    | 0 => .jpNn nn
    | 1 => .prefixCb
    | 2 => .illegalD3
    | 3 => .illegalDB
    | 4 => .illegalE3
    | 5 => .illegalEB
    | 6 => .di
    | _ => .ei
  | 4 =>
    match y with
    | 4 => .illegalE4
    | 5 => .illegalEC
    | 6 => .illegalF4
    | 7 => .illegalFC
    | _ => .callCcNn (Cond.ofCode y) nn
  | 5 =>
    match y with
    | 1 => .callNn nn
    | 3 => .illegalDD
    | 5 => .illegalED
    | 7 => .illegalFD
    | _ => .push (Reg16S.ofCode (y / 2))
  | 6 =>
    match y with
    | 0 => .addN n
    | 1 => .adcN n
    | 2 => .subN n
    | 3 => .sbcN n
    | 4 => .andN n
    | 5 => .xorN n
    | 6 => .orN n
    | _ => .cpN n
  | _ => .rst (fin8 y)

/-- The row of the base table for opcode byte `op` (R145), with its operands from byte 2 (`n`) and bytes 3:2
(`nn`). Every one of the 256 values has a row; 0xCB is the row PREFIX CB. -/
def decodeBase (op : Byte) (n : Byte) (nn : Word) : Instr :=
  let x := op.toNat / 64
  let y := op.toNat / 8 % 8
  let z := op.toNat % 8
  match x with
  | 0 => decodeQuarter0 y z n nn
  | 1 => decodeQuarter1 y z
  | 2 => decodeQuarter2 y z
  | _ => decodeQuarter3 y z n nn

/-! ## The CB table (R146) -/

/-- The row of the second table for byte 2 of a CB_OP instruction (R146, R142 ROT). Every value has a row. -/
def decodeCb (op : Byte) : Instr :=
  let x := op.toNat / 64
  let y := op.toNat / 8 % 8
  let z := op.toNat % 8
  match Reg8.ofCode z with
  | some r =>
    match x with
    | 0 =>
      match y with
      | 0 => .rlcR r
      | 1 => .rrcR r
      | 2 => .rlR r
      | 3 => .rrR r
      | 4 => .slaR r
      | 5 => .sraR r
      | 6 => .swapR r
      | _ => .srlR r
    | 1 => .bitR (fin8 y) r
    | 2 => .resR (fin8 y) r
    | _ => .setR (fin8 y) r
  | none =>
    match x with
    | 0 =>
      match y with
      | 0 => .rlcHl
      | 1 => .rrcHl
      | 2 => .rlHl
      | 3 => .rrHl
      | 4 => .slaHl
      | 5 => .sraHl
      | 6 => .swapHl
      | _ => .srlHl
    | 1 => .bitHl (fin8 y)
    | 2 => .resHl (fin8 y)
    | _ => .setHl (fin8 y)

/-! ## Lengths (R140) -/

/-- The length in bytes of an instruction, by its format (R140; the bytes column of R145 and R146). -/
def Instr.length : Instr → Nat
  | .ldRN .. | .ldHlN .. | .ldhAN .. | .ldhNA .. | .addN .. | .adcN .. | .subN .. | .sbcN .. | .andN .. |
    .xorN .. | .orN .. | .cpN .. => 2                                              -- OP_N
  | .ldHlSpE .. | .addSpE .. | .jrE .. | .jrCcE .. => 2                            -- OP_E
  | .ldRrNn .. | .ldNnSp .. | .ldANn .. | .ldNnA .. | .jpNn .. | .jpCcNn .. | .callNn .. | .callCcNn .. => 3   -- OP_NN
  | .stop => 2                                                                     -- OP_00
  | .prefixCb => 1                                                                 -- PREFIX
  | .rlcR .. | .rlcHl | .rrcR .. | .rrcHl | .rlR .. | .rlHl | .rrR .. | .rrHl | .slaR .. | .slaHl | .sraR .. |
    .sraHl | .swapR .. | .swapHl | .srlR .. | .srlHl | .bitR .. | .bitHl .. | .resR .. | .resHl .. | .setR .. |
    .setHl .. => 2                                                                 -- CB_OP
  | .ldRR .. | .ldRHl .. | .ldHlR .. | .ldABc | .ldADe | .ldBcA | .ldDeA | .ldhAC | .ldhCA | .ldAHld | .ldHldA |
    .ldAHli | .ldHliA | .ldSpHl | .push .. | .pop .. | .popAf | .addR .. | .addHl | .adcR .. | .adcHl |
    .subR .. | .subHl | .sbcR .. | .sbcHl | .andR .. | .andHl | .xorR .. | .xorHl | .orR .. | .orHl | .cpR .. |
    .cpHl | .incR .. | .incHl | .decR .. | .decHl | .daa | .cpl | .scf | .ccf | .addHlRr .. | .incRr .. |
    .decRr .. | .rlca | .rrca | .rla | .rra | .jpHl | .ret | .retCc .. | .reti | .rst .. | .nop | .halt | .di |
    .ei | .illegalD3 | .illegalDB | .illegalDD | .illegalE3 | .illegalE4 | .illegalEB | .illegalEC | .illegalED |
    .illegalF4 | .illegalFC | .illegalFD => 1                                      -- OP

/-- How many bytes the instruction that begins with `op` has: a function of byte 1 alone, always 2 for 0xCB
(R140). -/
def instrLength (op : Byte) : Nat :=
  if op = 0xCB#8 then 2 else (decodeBase op 0#8 0#16).length

/-! ## The decoder (R149) -/

/-- Why bytes are not an instruction. -/
inductive DecodeError where
  /-- The list ends before the instruction does. -/
  | truncated
  /-- STOP with a second byte other than 0x00 (46_system.md R262, 92 D8, 93 U4). -/
  | stopOperand (b : Byte)
  deriving DecidableEq, Repr

/-- The instruction with opcode byte `op`, byte 2 `b1` and byte 3 `b2` (R149: byte 1; if it is 0xCB, byte 2 in the
second table). Bytes the instruction does not have are ignored. The one thing it refuses is STOP with a second byte
other than 0x00, and the error is that byte (46_system.md R262). -/
def decodeOp (op b1 b2 : Byte) : Except Byte Instr :=
  if op = 0xCB#8 then .ok (decodeCb b1)
  else if op = 0x10#8 ∧ b1 ≠ 0x00#8 then .error b1
  else .ok (decodeBase op b1 (b2 ++ b1))

/-- The instruction at the head of a list of bytes, with the bytes after it. -/
def decode : List Byte → Except DecodeError (Instr × List Byte)
  | [] => .error .truncated
  | op :: bs =>
    if bs.length + 1 < instrLength op then .error .truncated
    else
      match decodeOp op (bs.getD 0 0#8) (bs.getD 1 0#8) with
      | .ok i => .ok (i, bs.drop (instrLength op - 1))
      | .error b => .error (.stopOperand b)

/-! ## The encoder (R140 to R143) -/

/-- An opcode byte from its fields (R141). -/
def opcode (x y z : Nat) : Byte := BitVec.ofNat 8 (x * 64 + y * 8 + z)

/-- An immediate word, low byte first (R143). -/
def immWord (nn : Word) : List Byte := [nn.extractLsb' 0 8, nn.extractLsb' 8 8]

/-- The bytes of an instruction (the Encoding line of each rule R160 to R266). -/
def encode : Instr → List Byte
  | .ldRR r r' => [opcode 1 r.code r'.code]
  | .ldRN r n => [opcode 0 r.code 6, n]
  | .ldRHl r => [opcode 1 r.code 6]
  | .ldHlR r => [opcode 1 6 r.code]
  | .ldHlN n => [0x36#8, n]
  | .ldABc => [0x0A#8]
  | .ldADe => [0x1A#8]
  | .ldBcA => [0x02#8]
  | .ldDeA => [0x12#8]
  | .ldANn nn => 0xFA#8 :: immWord nn
  | .ldNnA nn => 0xEA#8 :: immWord nn
  | .ldhAC => [0xF2#8]
  | .ldhCA => [0xE2#8]
  | .ldhAN n => [0xF0#8, n]
  | .ldhNA n => [0xE0#8, n]
  | .ldAHld => [0x3A#8]
  | .ldHldA => [0x32#8]
  | .ldAHli => [0x2A#8]
  | .ldHliA => [0x22#8]
  | .ldRrNn rr nn => opcode 0 (2 * rr.code) 1 :: immWord nn
  | .ldNnSp nn => 0x08#8 :: immWord nn
  | .ldSpHl => [0xF9#8]
  | .ldHlSpE e => [0xF8#8, e]
  | .push rr => [opcode 3 (2 * rr.code) 5]
  | .pop rr => [opcode 3 (2 * rr.code) 1]
  | .popAf => [0xF1#8]
  | .addR r => [opcode 2 0 r.code]
  | .addHl => [0x86#8]
  | .addN n => [0xC6#8, n]
  | .adcR r => [opcode 2 1 r.code]
  | .adcHl => [0x8E#8]
  | .adcN n => [0xCE#8, n]
  | .subR r => [opcode 2 2 r.code]
  | .subHl => [0x96#8]
  | .subN n => [0xD6#8, n]
  | .sbcR r => [opcode 2 3 r.code]
  | .sbcHl => [0x9E#8]
  | .sbcN n => [0xDE#8, n]
  | .andR r => [opcode 2 4 r.code]
  | .andHl => [0xA6#8]
  | .andN n => [0xE6#8, n]
  | .xorR r => [opcode 2 5 r.code]
  | .xorHl => [0xAE#8]
  | .xorN n => [0xEE#8, n]
  | .orR r => [opcode 2 6 r.code]
  | .orHl => [0xB6#8]
  | .orN n => [0xF6#8, n]
  | .cpR r => [opcode 2 7 r.code]
  | .cpHl => [0xBE#8]
  | .cpN n => [0xFE#8, n]
  | .incR r => [opcode 0 r.code 4]
  | .incHl => [0x34#8]
  | .decR r => [opcode 0 r.code 5]
  | .decHl => [0x35#8]
  | .daa => [0x27#8]
  | .cpl => [0x2F#8]
  | .scf => [0x37#8]
  | .ccf => [0x3F#8]
  | .addHlRr rr => [opcode 0 (2 * rr.code + 1) 1]
  | .incRr rr => [opcode 0 (2 * rr.code) 3]
  | .decRr rr => [opcode 0 (2 * rr.code + 1) 3]
  | .addSpE e => [0xE8#8, e]
  | .rlca => [0x07#8]
  | .rrca => [0x0F#8]
  | .rla => [0x17#8]
  | .rra => [0x1F#8]
  | .jpNn nn => 0xC3#8 :: immWord nn
  | .jpCcNn cc nn => opcode 3 cc.code 2 :: immWord nn
  | .jpHl => [0xE9#8]
  | .jrE e => [0x18#8, e]
  | .jrCcE cc e => [opcode 0 (4 + cc.code) 0, e]
  | .callNn nn => 0xCD#8 :: immWord nn
  | .callCcNn cc nn => opcode 3 cc.code 4 :: immWord nn
  | .ret => [0xC9#8]
  | .retCc cc => [opcode 3 cc.code 0]
  | .reti => [0xD9#8]
  | .rst t => [opcode 3 t.val 7]
  | .nop => [0x00#8]
  | .halt => [0x76#8]
  | .stop => [0x10#8, 0x00#8]
  | .di => [0xF3#8]
  | .ei => [0xFB#8]
  | .prefixCb => [0xCB#8]
  | .illegalD3 => [0xD3#8]
  | .illegalDB => [0xDB#8]
  | .illegalDD => [0xDD#8]
  | .illegalE3 => [0xE3#8]
  | .illegalE4 => [0xE4#8]
  | .illegalEB => [0xEB#8]
  | .illegalEC => [0xEC#8]
  | .illegalED => [0xED#8]
  | .illegalF4 => [0xF4#8]
  | .illegalFC => [0xFC#8]
  | .illegalFD => [0xFD#8]
  | .rlcR r => [0xCB#8, opcode 0 0 r.code]
  | .rlcHl => [0xCB#8, 0x06#8]
  | .rrcR r => [0xCB#8, opcode 0 1 r.code]
  | .rrcHl => [0xCB#8, 0x0E#8]
  | .rlR r => [0xCB#8, opcode 0 2 r.code]
  | .rlHl => [0xCB#8, 0x16#8]
  | .rrR r => [0xCB#8, opcode 0 3 r.code]
  | .rrHl => [0xCB#8, 0x1E#8]
  | .slaR r => [0xCB#8, opcode 0 4 r.code]
  | .slaHl => [0xCB#8, 0x26#8]
  | .sraR r => [0xCB#8, opcode 0 5 r.code]
  | .sraHl => [0xCB#8, 0x2E#8]
  | .swapR r => [0xCB#8, opcode 0 6 r.code]
  | .swapHl => [0xCB#8, 0x36#8]
  | .srlR r => [0xCB#8, opcode 0 7 r.code]
  | .srlHl => [0xCB#8, 0x3E#8]
  | .bitR b r => [0xCB#8, opcode 1 b.val r.code]
  | .bitHl b => [0xCB#8, opcode 1 b.val 6]
  | .resR b r => [0xCB#8, opcode 2 b.val r.code]
  | .resHl b => [0xCB#8, opcode 2 b.val 6]
  | .setR b r => [0xCB#8, opcode 3 b.val r.code]
  | .setHl b => [0xCB#8, opcode 3 b.val 6]

/-! ## Words numbered as spec/opcode_table.json numbers them -/

/-- The bytes of an instruction whose bits are `w`, bit 0 the least significant bit of the first byte, cut to
`nbits` bits, up to the longest instruction (three bytes). -/
def tableWordBytes (nbits w : Nat) : List Byte :=
  let v := w % 2 ^ nbits
  [BitVec.ofNat 8 v, BitVec.ofNat 8 (v / 256), BitVec.ofNat 8 (v / 65536)]

/-- The instruction the decoder reads from those bytes, none where it refuses. -/
def decodeTableWord (nbits w : Nat) : Option Instr :=
  match decode (tableWordBytes nbits w) with
  | .ok (i, _) => some i
  | .error _ => none

end Sys2Proof
end

