-- ==== Sys2Proof/Machine/Ops.lean ====
section
/-! DEFINITION. The operations that the meanings share: fetch and stack (00_scope.md R9), the shapes of loads,
stores, accumulator operations and read-modify-write operations, transfers of control, and taking an interrupt and
returning from one (60_exceptions.md R300 to R309).

A meaning is run after every byte of its instruction has been fetched, so PC is the address after the instruction
(10_state.md R22), and its immediates are arguments (30_encoding.md R143; log 8). -/

namespace Sys2Proof.Machine

/-! ## Fetch (00_scope.md R9) -/

/-- The byte `Fetch8` returns. -/
def fetchByte (s : State) : Byte := busRead s s.regs.pc

/-- The state after `Fetch8`: PC one further, modulo 2^16. -/
def afterFetch (s : State) : State := (afterRead s s.regs.pc).setPc (s.regs.pc + 1#16)

/-! ## Stack (00_scope.md R9, 10_state.md R25) -/

/-- `Push16(v)`: `SP <- SP - 2`, then the word at SP, low byte first. -/
def push16 (s : State) (v : Word) : Result :=
  let sp := s.regs.sp - 2#16
  busWrite16 (s.setSp sp) sp v

/-- The word `Pop16` returns. -/
def popWord (s : State) : Word := busRead16 s s.regs.sp

/-- The state after `Pop16`: `SP <- SP + 2`. -/
def afterPop (s : State) : State := (afterRead16 s s.regs.sp).setSp (s.regs.sp + 2#16)

/-! ## Shapes of instructions -/

/-- The end of an instruction that reports `n` cycles (00_scope.md R10). -/
def finish (n : Nat) (s : State) : Result := .next (s.tick n)

/-- Load a register from memory (40_load8.md R179). -/
def loadReg8 (r : Reg8) (a : Word) (n : Nat) (s : State) : Result :=
  finish n ((afterRead s a).setReg8 r (busRead s a))

/-- Load `A` from the byte at HL, then put `hl` in HL (R175, R177). -/
def loadAccStep (hl : Word) (s : State) : Result :=
  let a := s.regs.hl
  finish 8 (((afterRead s a).setReg8 .a (busRead s a)).setReg16 .hl hl)

/-- Store a byte (40_load8.md R179). -/
def storeByte (a : Word) (v : Byte) (n : Nat) (s : State) : Result := andThen (busWrite s a v) (finish n)

/-- Store `A` at HL, then put `hl` in HL (R176, R178): the write uses the old HL. -/
def storeAccStep (hl : Word) (s : State) : Result :=
  andThen (busWrite s s.regs.hl s.regs.a) fun t => finish 8 (t.setReg16 .hl hl)

/-- An accumulator operation on a byte operand (42_alu8.md R189). -/
def accumulate (op : Byte → Byte → Byte → Byte × Byte) (b : Byte) (n : Nat) (s : State) : Result :=
  let r := op s.regs.a b s.regs.f
  finish n (s.withRegs { s.regs with a := r.1, f := r.2 })

/-- An accumulator operation on the byte at HL (R189). -/
def accumulateHl (op : Byte → Byte → Byte → Byte × Byte) (s : State) : Result :=
  accumulate op (busRead s s.regs.hl) 8 (afterRead s s.regs.hl)

/-- Replace a register and F by a function of them (42_alu8.md R198, R200, 44_rotate_shift_bit.md R219). -/
def modifyReg8 (op : Byte → Byte → Byte × Byte) (r : Reg8) (n : Nat) (s : State) : Result :=
  let v := op (s.reg8 r) s.regs.f
  finish n ((s.setReg8 r v.1).setF v.2)

/-- Replace the byte at HL and F: one read, then one write at the same address (42_alu8.md R199,
44_rotate_shift_bit.md R219). -/
def modifyHl (op : Byte → Byte → Byte × Byte) (n : Nat) (s : State) : Result :=
  let a := s.regs.hl
  let v := op (busRead s a) s.regs.f
  andThen (busWrite ((afterRead s a).setF v.2) a v.1) (finish n)

/-- Jump (45_control.md R241). -/
def jump (target : Word) (n : Nat) (s : State) : Result := finish n (s.setPc target)

/-- Push PC and jump (45_control.md R246, R251). -/
def call (target : Word) (n : Nat) (s : State) : Result :=
  andThen (push16 s s.regs.pc) fun t => finish n (t.setPc target)

/-- Pop PC (45_control.md R248). -/
def returnTo (n : Nat) (s : State) : Result := finish n ((afterPop s).setPc (popWord s))

/-- `raise Fault(IllegalOpcode, op, pc)`, `pc` the address the byte was fetched from (46_system.md R266). -/
def illegal (op : Byte) (s : State) : Result := .fault (.illegalOpcode op (s.regs.pc - 1#16))

/-! ## Interrupts (60_exceptions.md R300 to R309) -/

/-- `IE & IF & 0x1F` (R300). -/
def pending (s : State) : Byte := s.mem.ie &&& s.ifReg &&& 0x1F#8

/-- The least source index that is set, the highest priority (R305). -/
def firstSource (pend : Byte) : Option (Fin 5) :=
  if pend.getLsbD 0 then some 0
  else if pend.getLsbD 1 then some 1
  else if pend.getLsbD 2 then some 2
  else if pend.getLsbD 3 then some 3
  else if pend.getLsbD 4 then some 4
  else none

/-- The vector of a source: `0x0040 + 8 * i` (R301, R304). -/
def interruptVector (i : Fin 5) : Word := BitVec.ofNat 16 (0x40 + 8 * i.val)

/-- Interrupt entry, R304: clear the request, disable IME, push PC, jump to the vector, 20 cycles, run. -/
def takeInterrupt (i : Fin 5) (s : State) : Result :=
  andThen (push16 ((clearRequest s i).setIme .disabled) s.regs.pc) fun t =>
    .next ({ t with cyc := 20 }.setPc (interruptVector i) |>.setRun .running)

/-- Wake without dispatch, R303: the request is cleared if `HALT_WAKE_CLEARS_IF`, and the CPU runs again. -/
def wake (i : Fin 5) (s : State) : State :=
  (if s.params.haltWakeClearsIf then clearRequest s i else s).setRun .running

/-- Return from an interrupt handler (45_control.md R250): pop PC, IME Enabled at once. -/
def returnFromInterrupt (s : State) : Result := finish 16 (((afterPop s).setPc (popWord s)).setIme .enabled)

/-- The check of R303: with IME Enabled or a sleeping CPU, the first pending source is dispatched or wakes the
CPU. -/
def interruptCheck (s : State) : Result :=
  if s.ime = .enabled ∨ s.run ≠ .running then
    match firstSource (pending s) with
    | some i => if s.ime = .enabled then takeInterrupt i s else .next (wake i s)
    | none => .next s
  else .next s

/-- Phase A of the machine step (R300, R302): `cyc <- 0`; Scheduled is promoted to Enabled and nothing more. -/
def interruptPhase (s : State) : Result :=
  let t : State := { s with cyc := 0 }
  if s.ime = .scheduled then .next (t.setIme .enabled) else interruptCheck t

/-! ## Fetching an instruction (30_encoding.md R140, R149, R152) -/

/-- The state after `k` fetches. -/
def afterFetches (s : State) : Nat → State
  | 0 => s
  | k + 1 => afterFetches (afterFetch s) k

/-- The next `k` bytes that `Fetch8` returns. -/
def fetchBytes (s : State) : Nat → List Byte
  | 0 => []
  | k + 1 => fetchByte s :: fetchBytes (afterFetch s) k

/-- The instruction at PC: byte 1 fixes the length (R140), the bytes are fetched in ascending order, and no byte
beyond the instruction is read. -/
def fetchInstr (s : State) : Except Byte Instr :=
  let bytes := fetchBytes s (instrLength (fetchByte s))
  decodeOp (bytes.getD 0 0#8) (bytes.getD 1 0#8) (bytes.getD 2 0#8)

/-- The state after the fetch of the instruction at PC. -/
def afterInstr (s : State) : State := afterFetches s (instrLength (fetchByte s))

end Sys2Proof.Machine
end

