-- ==== Sys2Proof/Machine/Alu16.lean ====
section
/-! DEFINITION. The meanings of the 16-bit arithmetic instructions (43_alu16.md R210 to R213). -/

namespace Sys2Proof.Machine

/-- `ADD HL,rr` (R210): flags `- 0 H C`. -/
def execAddHlRr (rr : Reg16) (s : State) : Result :=
  let r := addWord s.regs.hl (s.reg16 rr) s.regs.f
  finish 8 ((s.setReg16 .hl r.1).setF r.2)

/-- `INC rr` (R211): no flag. -/
def execIncRr (rr : Reg16) (s : State) : Result := finish 8 (s.setReg16 rr (s.reg16 rr + 1#16))

/-- `DEC rr` (R212): no flag. -/
def execDecRr (rr : Reg16) (s : State) : Result := finish 8 (s.setReg16 rr (s.reg16 rr - 1#16))

/-- `ADD SP,e` (R213): flags `0 0 H C` from the low byte. -/
def execAddSpE (e : Byte) (s : State) : Result :=
  let r := addDisplacement s.regs.sp e
  finish 16 ((s.setSp r.1).setF r.2)

end Sys2Proof.Machine
end

