-- ==== Sys2Proof/Machine/Alu8.lean ====
section
/-! DEFINITION. The meanings of the 8-bit arithmetic and logic instructions (42_alu8.md R189 to R205). The eight
accumulator operations have three forms each (R189): a register, the byte at HL, an immediate byte. -/

namespace Sys2Proof.Machine

/-- `ADD A,r` (R190). -/
def execAddR (r : Reg8) (s : State) : Result := accumulate aluAdd (s.reg8 r) 4 s

/-- `ADD A,(HL)` (R190). -/
def execAddHl (s : State) : Result := accumulateHl aluAdd s

/-- `ADD A,n` (R190). -/
def execAddN (n : Byte) (s : State) : Result := accumulate aluAdd n 8 s

/-- `ADC A,r` (R191). -/
def execAdcR (r : Reg8) (s : State) : Result := accumulate aluAdc (s.reg8 r) 4 s

/-- `ADC A,(HL)` (R191). -/
def execAdcHl (s : State) : Result := accumulateHl aluAdc s

/-- `ADC A,n` (R191). -/
def execAdcN (n : Byte) (s : State) : Result := accumulate aluAdc n 8 s

/-- `SUB r` (R192). -/
def execSubR (r : Reg8) (s : State) : Result := accumulate aluSub (s.reg8 r) 4 s

/-- `SUB (HL)` (R192). -/
def execSubHl (s : State) : Result := accumulateHl aluSub s

/-- `SUB n` (R192). -/
def execSubN (n : Byte) (s : State) : Result := accumulate aluSub n 8 s

/-- `SBC A,r` (R193). -/
def execSbcR (r : Reg8) (s : State) : Result := accumulate aluSbc (s.reg8 r) 4 s

/-- `SBC A,(HL)` (R193). -/
def execSbcHl (s : State) : Result := accumulateHl aluSbc s

/-- `SBC A,n` (R193). -/
def execSbcN (n : Byte) (s : State) : Result := accumulate aluSbc n 8 s

/-- `AND r` (R194). -/
def execAndR (r : Reg8) (s : State) : Result := accumulate aluAnd (s.reg8 r) 4 s

/-- `AND (HL)` (R194). -/
def execAndHl (s : State) : Result := accumulateHl aluAnd s

/-- `AND n` (R194). -/
def execAndN (n : Byte) (s : State) : Result := accumulate aluAnd n 8 s

/-- `XOR r` (R195). -/
def execXorR (r : Reg8) (s : State) : Result := accumulate aluXor (s.reg8 r) 4 s

/-- `XOR (HL)` (R195). -/
def execXorHl (s : State) : Result := accumulateHl aluXor s

/-- `XOR n` (R195). -/
def execXorN (n : Byte) (s : State) : Result := accumulate aluXor n 8 s

/-- `OR r` (R196). -/
def execOrR (r : Reg8) (s : State) : Result := accumulate aluOr (s.reg8 r) 4 s

/-- `OR (HL)` (R196). -/
def execOrHl (s : State) : Result := accumulateHl aluOr s

/-- `OR n` (R196). -/
def execOrN (n : Byte) (s : State) : Result := accumulate aluOr n 8 s

/-- `CP r` (R197). -/
def execCpR (r : Reg8) (s : State) : Result := accumulate aluCp (s.reg8 r) 4 s

/-- `CP (HL)` (R197). -/
def execCpHl (s : State) : Result := accumulateHl aluCp s

/-- `CP n` (R197). -/
def execCpN (n : Byte) (s : State) : Result := accumulate aluCp n 8 s

/-- `INC r` (R198). -/
def execIncR (r : Reg8) (s : State) : Result := modifyReg8 incByte r 4 s

/-- `INC (HL)` (R199). -/
def execIncHl (s : State) : Result := modifyHl incByte 12 s

/-- `DEC r` (R200). -/
def execDecR (r : Reg8) (s : State) : Result := modifyReg8 decByte r 4 s

/-- `DEC (HL)` (R201). -/
def execDecHl (s : State) : Result := modifyHl decByte 12 s

/-- `DAA` (R202). -/
def execDaa (s : State) : Result := modifyReg8 daaByte .a 4 s

/-- `CPL` (R203): flags `- 1 1 -`. -/
def execCpl (s : State) : Result :=
  modifyReg8 (fun a f => (a ^^^ 0xFF#8, packFlags (flagZ f) true true (flagC f))) .a 4 s

/-- `SCF` (R204): flags `- 0 0 1`. -/
def execScf (s : State) : Result := finish 4 (s.setF (packFlags (flagZ s.regs.f) false false true))

/-- `CCF` (R205): flags `- 0 0 ~C`. -/
def execCcf (s : State) : Result := finish 4 (s.setF (packFlags (flagZ s.regs.f) false false (!flagC s.regs.f)))

end Sys2Proof.Machine
end

