-- ==== Sys2Proof/Machine/Control.lean ====
section
/-! DEFINITION. The meanings of the jumps, calls, returns and restarts (45_control.md R240 to R252). PC in the state a
meaning is given is the address after the instruction. -/

namespace Sys2Proof.Machine

/-- `JP nn` (R241). -/
def execJpNn (nn : Word) (s : State) : Result := jump nn 16 s

/-- `JP cc,nn` (R242). -/
def execJpCcNn (cc : Cond) (nn : Word) (s : State) : Result :=
  if condHolds cc s.regs.f then jump nn 16 s else finish 12 s

/-- `JP HL` (R243). -/
def execJpHl (s : State) : Result := jump s.regs.hl 4 s

/-- `JR e` (R244). -/
def execJrE (e : Byte) (s : State) : Result := jump (relativeTarget s.regs.pc e) 12 s

/-- `JR cc,e` (R245). -/
def execJrCcE (cc : Cond) (e : Byte) (s : State) : Result :=
  if condHolds cc s.regs.f then jump (relativeTarget s.regs.pc e) 12 s else finish 8 s

/-- `CALL nn` (R246). -/
def execCallNn (nn : Word) (s : State) : Result := call nn 24 s

/-- `CALL cc,nn` (R247). -/
def execCallCcNn (cc : Cond) (nn : Word) (s : State) : Result :=
  if condHolds cc s.regs.f then call nn 24 s else finish 12 s

/-- `RET` (R248). -/
def execRet (s : State) : Result := returnTo 16 s

/-- `RET cc` (R249). -/
def execRetCc (cc : Cond) (s : State) : Result := if condHolds cc s.regs.f then returnTo 20 s else finish 8 s

/-- `RETI` (R250). -/
def execReti (s : State) : Result := returnFromInterrupt s

/-- `RST t` (R251). -/
def execRst (t : Fin 8) (s : State) : Result := call (restartTarget t) 16 s

end Sys2Proof.Machine
end

