-- ==== Sys2Proof/Machine/Load16.lean ====
section
/-! DEFINITION. The meanings of the 16-bit loads, PUSH and POP (41_load16_stack.md R180 to R186). -/

namespace Sys2Proof.Machine

/-- `LD rr,nn` (R180). -/
def execLdRrNn (rr : Reg16) (nn : Word) (s : State) : Result := finish 12 (s.setReg16 rr nn)

/-- `LD (nn),SP` (R181): low byte at `nn`, then high byte at `nn + 1`. -/
def execLdNnSp (nn : Word) (s : State) : Result := andThen (busWrite16 s nn s.regs.sp) (finish 20)

/-- `LD SP,HL` (R182). -/
def execLdSpHl (s : State) : Result := finish 8 (s.setSp s.regs.hl)

/-- `LD HL,SP+e` (R183): flags `0 0 H C` from the low byte; SP unchanged. -/
def execLdHlSpE (e : Byte) (s : State) : Result :=
  let r := addDisplacement s.regs.sp e
  finish 12 ((s.setReg16 .hl r.1).setF r.2)

/-- `PUSH rr` (R184). -/
def execPush (rr : Reg16S) (s : State) : Result := andThen (push16 s (s.regs.get16S rr)) (finish 16)

/-- `POP rr` (R185). -/
def execPop (rr : Reg16S) (s : State) : Result :=
  let t := afterPop s
  finish 12 (t.withRegs (t.regs.set16S rr (popWord s)))

/-- `POP AF` (R186): F takes the low byte with bits 3 to 0 cleared. -/
def execPopAf (s : State) : Result :=
  let t := afterPop s
  finish 12 (t.withRegs (t.regs.setAf (popWord s)))

end Sys2Proof.Machine
end

