-- ==== Sys2Proof/Machine/Load8.lean ====
section
/-! DEFINITION. The meanings of the 8-bit loads (40_load8.md R160 to R179). No flag is written. -/

namespace Sys2Proof.Machine

/-- `LD r,r'` (R160). -/
def execLdRR (r r' : Reg8) (s : State) : Result := finish 4 (s.setReg8 r (s.reg8 r'))

/-- `LD r,n` (R161). -/
def execLdRN (r : Reg8) (n : Byte) (s : State) : Result := finish 8 (s.setReg8 r n)

/-- `LD r,(HL)` (R162). -/
def execLdRHl (r : Reg8) (s : State) : Result := loadReg8 r s.regs.hl 8 s

/-- `LD (HL),r` (R163). -/
def execLdHlR (r : Reg8) (s : State) : Result := storeByte s.regs.hl (s.reg8 r) 8 s

/-- `LD (HL),n` (R164). -/
def execLdHlN (n : Byte) (s : State) : Result := storeByte s.regs.hl n 12 s

/-- `LD A,(BC)` (R165). -/
def execLdABc (s : State) : Result := loadReg8 .a s.regs.bc 8 s

/-- `LD A,(DE)` (R166). -/
def execLdADe (s : State) : Result := loadReg8 .a s.regs.de 8 s

/-- `LD (BC),A` (R167). -/
def execLdBcA (s : State) : Result := storeByte s.regs.bc s.regs.a 8 s

/-- `LD (DE),A` (R168). -/
def execLdDeA (s : State) : Result := storeByte s.regs.de s.regs.a 8 s

/-- `LD A,(nn)` (R169). -/
def execLdANn (nn : Word) (s : State) : Result := loadReg8 .a nn 16 s

/-- `LD (nn),A` (R170). -/
def execLdNnA (nn : Word) (s : State) : Result := storeByte nn s.regs.a 16 s

/-- `LDH A,(C)` (R171). -/
def execLdhAC (s : State) : Result := loadReg8 .a (highPage s.regs.c) 8 s

/-- `LDH (C),A` (R172). -/
def execLdhCA (s : State) : Result := storeByte (highPage s.regs.c) s.regs.a 8 s

/-- `LDH A,(n)` (R173). -/
def execLdhAN (n : Byte) (s : State) : Result := loadReg8 .a (highPage n) 12 s

/-- `LDH (n),A` (R174). -/
def execLdhNA (n : Byte) (s : State) : Result := storeByte (highPage n) s.regs.a 12 s

/-- `LD A,(HL-)` (R175). -/
def execLdAHld (s : State) : Result := loadAccStep (s.regs.hl - 1#16) s

/-- `LD (HL-),A` (R176). -/
def execLdHldA (s : State) : Result := storeAccStep (s.regs.hl - 1#16) s

/-- `LD A,(HL+)` (R177). -/
def execLdAHli (s : State) : Result := loadAccStep (s.regs.hl + 1#16) s

/-- `LD (HL+),A` (R178). -/
def execLdHliA (s : State) : Result := storeAccStep (s.regs.hl + 1#16) s

end Sys2Proof.Machine
end

