-- ==== Sys2Proof/Machine/Rotate.lean ====
section
/-! DEFINITION. The meanings of the rotates, shifts, SWAP and bit operations (44_rotate_shift_bit.md R219 to R234),
and of the prefix byte 0xCB (46_system.md R265), which runs one of them. -/

namespace Sys2Proof.Machine

/-- `RLCA` (R220): flags `0 0 0 C`. -/
def execRlca (s : State) : Result := modifyReg8 (rotateAcc .rlc) .a 4 s

/-- `RRCA` (R221): flags `0 0 0 C`. -/
def execRrca (s : State) : Result := modifyReg8 (rotateAcc .rrc) .a 4 s

/-- `RLA` (R222): flags `0 0 0 C`. -/
def execRla (s : State) : Result := modifyReg8 (rotateAcc .rl) .a 4 s

/-- `RRA` (R223): flags `0 0 0 C`. -/
def execRra (s : State) : Result := modifyReg8 (rotateAcc .rr) .a 4 s

/-- `RLC r` (R224). -/
def execRlcR (r : Reg8) (s : State) : Result := modifyReg8 (rotateFlags .rlc) r 8 s

/-- `RLC (HL)` (R224). -/
def execRlcHl (s : State) : Result := modifyHl (rotateFlags .rlc) 16 s

/-- `RRC r` (R225). -/
def execRrcR (r : Reg8) (s : State) : Result := modifyReg8 (rotateFlags .rrc) r 8 s

/-- `RRC (HL)` (R225). -/
def execRrcHl (s : State) : Result := modifyHl (rotateFlags .rrc) 16 s

/-- `RL r` (R226). -/
def execRlR (r : Reg8) (s : State) : Result := modifyReg8 (rotateFlags .rl) r 8 s

/-- `RL (HL)` (R226). -/
def execRlHl (s : State) : Result := modifyHl (rotateFlags .rl) 16 s

/-- `RR r` (R227). -/
def execRrR (r : Reg8) (s : State) : Result := modifyReg8 (rotateFlags .rr) r 8 s

/-- `RR (HL)` (R227). -/
def execRrHl (s : State) : Result := modifyHl (rotateFlags .rr) 16 s

/-- `SLA r` (R228). -/
def execSlaR (r : Reg8) (s : State) : Result := modifyReg8 (rotateFlags .sla) r 8 s

/-- `SLA (HL)` (R228). -/
def execSlaHl (s : State) : Result := modifyHl (rotateFlags .sla) 16 s

/-- `SRA r` (R229). -/
def execSraR (r : Reg8) (s : State) : Result := modifyReg8 (rotateFlags .sra) r 8 s

/-- `SRA (HL)` (R229). -/
def execSraHl (s : State) : Result := modifyHl (rotateFlags .sra) 16 s

/-- `SWAP r` (R230). -/
def execSwapR (r : Reg8) (s : State) : Result := modifyReg8 (rotateFlags .swap) r 8 s

/-- `SWAP (HL)` (R230). -/
def execSwapHl (s : State) : Result := modifyHl (rotateFlags .swap) 16 s

/-- `SRL r` (R231). -/
def execSrlR (r : Reg8) (s : State) : Result := modifyReg8 (rotateFlags .srl) r 8 s

/-- `SRL (HL)` (R231). -/
def execSrlHl (s : State) : Result := modifyHl (rotateFlags .srl) 16 s

/-- `BIT b,r` (R232): only F is written. -/
def execBitR (b : Fin 8) (r : Reg8) (s : State) : Result := finish 8 (s.setF (bitTest b (s.reg8 r) s.regs.f))

/-- `BIT b,(HL)` (R232): one read, no write. -/
def execBitHl (b : Fin 8) (s : State) : Result :=
  finish 12 ((afterRead s s.regs.hl).setF (bitTest b (busRead s s.regs.hl) s.regs.f))

/-- `RES b,r` (R233): no flag. -/
def execResR (b : Fin 8) (r : Reg8) (s : State) : Result := modifyReg8 (fun v f => (clearBit b v, f)) r 8 s

/-- `RES b,(HL)` (R233): no flag. -/
def execResHl (b : Fin 8) (s : State) : Result := modifyHl (fun v f => (clearBit b v, f)) 16 s

/-- `SET b,r` (R234): no flag. -/
def execSetR (b : Fin 8) (r : Reg8) (s : State) : Result := modifyReg8 (fun v f => (setBit b v, f)) r 8 s

/-- `SET b,(HL)` (R234): no flag. -/
def execSetHl (b : Fin 8) (s : State) : Result := modifyHl (fun v f => (setBit b v, f)) 16 s

/-! ## The prefix byte (46_system.md R265, 30_encoding.md R152) -/

/-- What the second byte of a CB_OP instruction does in its register form: `r = REG8[z]`, fields `x` and `y` of R146. -/
def execCbReg (x y : Nat) (r : Reg8) (s : State) : Result :=
  match x with
  | 0 =>
    match y with
    | 0 => execRlcR r s
    | 1 => execRrcR r s
    | 2 => execRlR r s
    | 3 => execRrR r s
    | 4 => execSlaR r s
    | 5 => execSraR r s
    | 6 => execSwapR r s
    | _ => execSrlR r s
  | 1 => execBitR (fin8 y) r s
  | 2 => execResR (fin8 y) r s
  | _ => execSetR (fin8 y) r s

/-- What it does in its `(HL)` form. -/
def execCbHl (x y : Nat) (s : State) : Result :=
  match x with
  | 0 =>
    match y with
    | 0 => execRlcHl s
    | 1 => execRrcHl s
    | 2 => execRlHl s
    | 3 => execRrHl s
    | 4 => execSlaHl s
    | 5 => execSraHl s
    | 6 => execSwapHl s
    | _ => execSrlHl s
  | 1 => execBitHl (fin8 y) s
  | 2 => execResHl (fin8 y) s
  | _ => execSetHl (fin8 y) s

/-- `PREFIX CB` (R265): fetch one more byte and dispatch through the second table; the cycles are those of the
second byte's row alone. A step never runs this meaning: the decoder reads the pair as one instruction (R149,
log 10). -/
def execPrefixCb (s : State) : Result :=
  let op := (fetchByte s).toNat
  let t := afterFetch s
  match Reg8.ofCode (op % 8) with
  | some r => execCbReg (op / 64) (op / 8 % 8) r t
  | none => execCbHl (op / 64) (op / 8 % 8) t

end Sys2Proof.Machine
end

