-- ==== Sys2Proof/Machine/System.lean ====
section
/-! DEFINITION. The meanings of the system instructions and of the unassigned opcodes (46_system.md R260 to R267). -/

namespace Sys2Proof.Machine

/-- `NOP` (R260). -/
def execNop (s : State) : Result := finish 4 s

/-- `HALT` (R261). -/
def execHalt (s : State) : Result := finish 4 (s.setRun .halted)

/-- KEY1 is armed, in CGB mode (R262, 20_memory.md R93). -/
def speedSwitchArmed (s : State) : Bool := s.params.cgbMode && s.key1.getLsbD 0

/-- Toggle the CPU speed and consume the armed bit (R262). -/
def switchSpeed (s : State) : State :=
  { s with doubleSpeed := !s.doubleSpeed }.setIo 0x4D (s.key1 &&& 0xFE#8)

/-- `STOP` with second byte 0x00 (R262): a speed switch if armed, else sleep. -/
def execStop (s : State) : Result := finish 4 (if speedSwitchArmed s then switchSpeed s else s.setRun .stopped)

/-- `DI` (R263). -/
def execDi (s : State) : Result := finish 4 (s.setIme .disabled)

/-- `EI` (R264). -/
def execEi (s : State) : Result := finish 4 (s.setIme .scheduled)

/-- Unassigned opcode 0xD3 (R266): a fault. -/
def execIllegalD3 (s : State) : Result := illegal 0xD3#8 s

/-- Unassigned opcode 0xDB (R266): a fault. -/
def execIllegalDB (s : State) : Result := illegal 0xDB#8 s

/-- Unassigned opcode 0xDD (R266): a fault. -/
def execIllegalDD (s : State) : Result := illegal 0xDD#8 s

/-- Unassigned opcode 0xE3 (R266): a fault. -/
def execIllegalE3 (s : State) : Result := illegal 0xE3#8 s

/-- Unassigned opcode 0xE4 (R266): a fault. -/
def execIllegalE4 (s : State) : Result := illegal 0xE4#8 s

/-- Unassigned opcode 0xEB (R266): a fault. -/
def execIllegalEB (s : State) : Result := illegal 0xEB#8 s

/-- Unassigned opcode 0xEC (R266): a fault. -/
def execIllegalEC (s : State) : Result := illegal 0xEC#8 s

/-- Unassigned opcode 0xED (R266): a fault. -/
def execIllegalED (s : State) : Result := illegal 0xED#8 s

/-- Unassigned opcode 0xF4 (R266): a fault. -/
def execIllegalF4 (s : State) : Result := illegal 0xF4#8 s

/-- Unassigned opcode 0xFC (R266): a fault. -/
def execIllegalFC (s : State) : Result := illegal 0xFC#8 s

/-- Unassigned opcode 0xFD (R266): a fault. -/
def execIllegalFD (s : State) : Result := illegal 0xFD#8 s

end Sys2Proof.Machine
end

