-- ==== Sys2Proof/Machine/Joypad.lean ====
section
/-! DEFINITION. The joypad sample (60_exceptions.md R340) and the environment's moves before a step. -/

namespace Sys2Proof.Machine

/-- A key of the direction group is pressed now and was not before. -/
def newDirectionPress (before now : Keys) : Bool :=
  (now.right && !before.right) || (now.left && !before.left) || (now.up && !before.up) || (now.down && !before.down)

/-- A key of the action group is pressed now and was not before. -/
def newActionPress (before now : Keys) : Bool :=
  (now.a && !before.a) || (now.b && !before.b) || (now.select && !before.select) || (now.start && !before.start)

/-- `SampleKeys(sample)` (R340): a new press of a key whose group is selected requests the Joypad interrupt. -/
def sampleKeys (sample : Keys) (s : State) : State :=
  let t : State := { s with keysPrev := s.keys, keys := sample }
  if (s.directionSelected && newDirectionPress s.keys sample) ||
      (s.actionSelected && newActionPress s.keys sample) then request t 4
  else t

/-- At a frame entry the host supplies a sample (R313): the next of its list, or the last one again when the list
is used up (log 6). At any other step it does nothing. -/
def hostMove (s : State) : State :=
  if s.host.frameEntry then
    match s.host.keySamples with
    | k :: ks => sampleKeys k { s with host.keySamples := ks }
    | [] => sampleKeys s.keys s
  else s

/-- The `RtcTick` events due before this step (20_memory.md R118, log 5). -/
def clockMove (s : State) : State :=
  match s.host.rtcTicks with
  | n :: ns => { s with mbc := s.mbc.rtcTicks n, host.rtcTicks := ns }
  | [] => s

/-- What the host and the environment do before a machine step (00_scope.md R5). -/
def environment (s : State) : State := clockMove (hostMove s)

end Sys2Proof.Machine
end

