-- ==== Sys2Proof/Machine/Fetch.lean ====
section
/-! DEFINITION. Placing an instruction where the next step fetches it (the body of `State.withFetchWord`). -/

namespace Sys2Proof.Machine

/-- Put a byte into the storage that `BusRead(a)` shows, where there is such storage: the boot ROM or the cartridge
ROM of the configuration, video RAM, external RAM, work RAM, OAM, high RAM, IE. The unusable range and the I/O file
take nothing. -/
def pokeByte (s : State) (a : Word) (v : Byte) : State :=
  match route s a with
  | .rom =>
    if s.bootActive && inOverlay s.params a.toNat then
      { s with params.bootRom := s.params.bootRom.write a.toNat v }
    else { s with params.rom := s.params.rom.write (romOffset s.params s.mbc a.toNat) v }
  | .vram o => { s with mem.vram := s.mem.vram.write o v }
  | .eram => eramWrite s a.toNat v
  | .wram o => { s with mem.wram := s.mem.wram.write o v }
  | .oam o => { s with mem.oam := s.mem.oam.write o v }
  | .unusable => s
  | .io _ => s
  | .hram o => { s with mem.hram := s.mem.hram.write o v }
  | .ie => { s with mem.ie := v }

/-- Put bytes at consecutive addresses. -/
def pokeBytes (s : State) (a : Word) : List Byte → State
  | [] => s
  | v :: vs => pokeBytes (pokeByte s a v) (a + 1#16) vs

/-- The bytes shown at consecutive addresses. -/
def peekBytes (s : State) (a : Word) : Nat → List Byte
  | 0 => []
  | n + 1 => busRead s a :: peekBytes s (a + 1#16) n

/-- The CPU runs and no interrupt is dispatched before the next instruction: a sleeping CPU is woken, and an enabled
IME is disabled if a request stands when the step begins. -/
def readyToFetch (s : State) : State :=
  let t := s.setRun .running
  if s.ime = .enabled ∧ (environment s).ifReg ≠ 0#8 then t.setIme .disabled else t

/-- `bytes` stand at PC and the next step fetches them. Where the storage at PC cannot hold them (I/O, the unusable
range, closed external RAM, a ROM smaller than the instruction), PC moves to work RAM at 0xC000. -/
def placeInstr (s : State) (bytes : List Byte) : State :=
  let r := readyToFetch s
  let t := pokeBytes r r.regs.pc bytes
  if inApuRange t.regs.pc = false ∧ peekBytes t t.regs.pc bytes.length = bytes then t
  else pokeBytes (r.setPc 0xC000#16) 0xC000#16 bytes

end Sys2Proof.Machine
end

