-- ==== Sys2Proof/Machine/Step.lean ====
section
/-! DEFINITION. The machine step (60_exceptions.md R300) and the placing of an instruction for the next step. -/

namespace Sys2Proof.Machine

/-- `Execute()` (R300): fetch one instruction, decode it, run its meaning. -/
def fetchAndExec (s : State) : Host.Outcome State Fault Refusal :=
  match fetchInstr s with
  | .ok i => exec i (afterInstr s)
  | .error b => .refused (.stopOperand b)

/-- Phase B (R307): one instruction, or four idle cycles while the CPU sleeps. -/
def executePhase (s : State) : Host.Outcome State Fault Refusal :=
  if s.run = .running then fetchAndExec s else finish 4 s

/-- `MachineStep` (R300): phases A, B and C. -/
def machineStep (s : State) : Host.Outcome State Fault Refusal :=
  andThen (interruptPhase s) fun t => andThen (executePhase t) fun u => .next (advancePhase u)

/-- One step: the moves of the host and the environment that are due, then `MachineStep`. -/
def step (s : State) : Host.Outcome State Fault Refusal := machineStep (environment s)

/-- `s` with the instruction whose bits are `w` (as spec/opcode_table.json numbers them) where the next step
fetches. A program comes to run from reset by being in the configuration's ROM (log 11). -/
def State.withFetchWord (s : State) (nbits w : Nat) : State := placeInstr s (tableWordBytes nbits w)

end Sys2Proof.Machine
end

