-- ==== Sys2Proof/Machine/Cartridge.lean ====
section
/-! DEFINITION. From a cartridge image to a machine (70_reset_and_hazards.md R401, R403, R405; log 16). Loading is
software outside the hardware (00_scope.md R4): no step uses this file. -/

namespace Sys2Proof.Machine

/-- Why no machine exists for an image (R405). -/
inductive LoadError where
  | tooSmall
  | cartridgeType (b : Byte)
  | ramSize (b : Byte)
  deriving DecidableEq, Repr

/-- `MBC_KIND` from the cartridge type at 0x0147 (R405). -/
def headerKind (b : Byte) : Option MbcKind :=
  let n := b.toNat
  if n = 0x00 ∨ n = 0x08 ∨ n = 0x09 then some .none
  else if 0x01 ≤ n ∧ n ≤ 0x03 then some .mbc1
  else if n = 0x05 ∨ n = 0x06 then some .mbc2
  else if 0x0F ≤ n ∧ n ≤ 0x13 then some .mbc3
  else if 0x19 ≤ n ∧ n ≤ 0x1E then some .mbc5
  else none

/-- `RAM_SIZE` from the code at 0x0149 (R405). -/
def headerRamSize (b : Byte) : Option Nat :=
  match b.toNat with
  | 0x00 => some 0
  | 0x01 => some 0x800
  | 0x02 => some 0x2000
  | 0x03 => some 0x8000
  | 0x04 => some 0x20000
  | 0x05 => some 0x10000
  | _ => none

/-- `CGB_MODE` from the flag at 0x0143 (R405). -/
def headerCgb (b : Byte) : Bool := b.getLsbD 7

/-- The header checksum over 0x0134 to 0x014C (R405); a mismatch is a warning only. -/
def headerChecksum (rom : Memory) : Byte :=
  (List.range 25).foldl (fun x k => x - rom.read (0x134 + k) - 1#8) 0#8

/-- The global checksum over every byte but 0x014E and 0x014F (R405); a mismatch is a warning only. -/
def globalChecksum (rom : Memory) : BitVec 16 :=
  rom.foldl (fun x c => if c.1 = 0x14E ∨ c.1 = 0x14F then x else x + c.2.zeroExtend 16) 0#16

/-- The size of the external RAM: 512 for MBC2 whatever the code, unrecognized codes included; else as the code says
(R405). -/
def cartridgeRamSize (k : MbcKind) (code : Byte) : Option Nat := if k = .mbc2 then some 512 else headerRamSize code

/-- `load` (R405): the machine after reset for an image of `romSize` bytes; the parameters the header does not fix are
those of `p`. -/
def State.load (p : Params) (rom : Memory) (romSize : Nat) : Except LoadError State :=
  if romSize < 0x150 then .error .tooSmall
  else
    match headerKind (rom.read 0x147) with
    | none => .error (.cartridgeType (rom.read 0x147))
    | some k =>
      match cartridgeRamSize k (rom.read 0x149) with
      | none => .error (.ramSize (rom.read 0x149))
      | some n =>
        .ok (State.resetWith { p with
          rom := rom
          romSize := romSize
          ramSize := n
          cgbMode := headerCgb (rom.read 0x143) } k)

/-- The launch premise of R403, non-normative: the state that a boot program is generally known to leave. -/
def State.postBoot (p : Params) (k : MbcKind) : State :=
  let s := State.resetWith p k
  { s with
    regs := if p.cgbMode then ⟨0x11#8, 0x80#8, 0x00#8, 0x00#8, 0xFF#8, 0x56#8, 0x00#8, 0x0D#8, 0xFFFE#16, 0x0100#16⟩
            else ⟨0x01#8, 0xB0#8, 0x00#8, 0x13#8, 0x00#8, 0xD8#8, 0x01#8, 0x4D#8, 0xFFFE#16, 0x0100#16⟩
    mem.io := ((s.mem.io.write 0x40 0x91#8).write 0x47 0xFC#8).write 0x50 0x01#8 }

end Sys2Proof.Machine
end

