-- ==== Sys2Proof/Machine/Simulate.lean ====
section
/-! DEFINITION. Runs of several steps: `simulate()`, the host's way to run the machine (60_exceptions.md R313). -/

namespace Sys2Proof.Machine

/-- `n` steps, stopping at the first that has no next state. -/
def steps : Nat → State → Result
  | 0, s => .next s
  | n + 1, s => andThen (step s) (steps n)

/-- Steps until one ends the frame (`wrapped`, recorded in `host.frameEntry`), at most `fuel` of them (R313). -/
def frameSteps : Nat → State → Result
  | 0, s => .next s
  | n + 1, s => andThen (step s) fun t => if t.host.frameEntry then .next t else frameSteps n t

/-- Enough steps for a frame: a step has at least 4 CPU cycles, that is 2 PPU cycles in double speed, and a frame has
70224 PPU cycles (R306, R351). -/
def frameFuel : Nat := 35112

/-- `simulate(sample)` (R313): the sample is taken at the entry, then the machine steps until the frame ends. -/
def simulate (sample : Keys) (s : State) : Result :=
  frameSteps frameFuel { s with host.frameEntry := true, host.keySamples := sample :: s.host.keySamples }

end Sys2Proof.Machine
end

