-- ==== Sys2Proof/Safety.lean ====
section
/-! DEFINITION. What the claims about the machine speak of: the invariant of 10_state.md R37, what an instruction
completes with, and what it leaves unchanged. -/

namespace Sys2Proof.Machine

/-! ## The invariant (10_state.md R37) -/

/-- Every byte array is in its canonical form. -/
abbrev Mem.wf (m : Mem) : Prop :=
  m.vram.wf ∧ m.eram.wf ∧ m.wram.wf ∧ m.oam.wf ∧ m.io.wf ∧ m.hram.wf ∧ m.bgpal.wf ∧ m.objpal.wf

/-- Every byte array has the size of R30; `ramSize` is the size of the external RAM. -/
abbrev Mem.sized (m : Mem) (ramSize : Nat) : Prop :=
  m.vram.within 0x4000 ∧ m.eram.within ramSize ∧ m.wram.within 0x8000 ∧ m.oam.within 160 ∧ m.io.within 128 ∧
    m.hram.within 127 ∧ m.bgpal.within 64 ∧ m.objpal.within 64

/-- The constraints of 00_scope.md R6 on the configuration. -/
abbrev ParamsWf (p : Params) : Prop :=
  p.rom.wf ∧ p.rom.within p.romSize ∧ 1 ≤ p.romSize ∧ p.bootRom.wf ∧ p.bootRom.within 0x8000 ∧
    (∀ r ∈ p.bootOverlay, r.2 < 0x8000) ∧ 0 < p.divTickCycles ∧
    0 < p.timaPeriod.p0 ∧ 0 < p.timaPeriod.p1 ∧ 0 < p.timaPeriod.p2 ∧ 0 < p.timaPeriod.p3

/-- R37 (g): the registers of the I/O file hold only bits that exist. -/
abbrev IoWf (s : State) : Prop :=
  s.ifReg &&& 0xE0#8 = 0#8 ∧ s.tac &&& 0xF8#8 = 0#8 ∧ s.stat &&& 0x80#8 = 0#8 ∧ s.key1 &&& 0xFE#8 = 0#8 ∧
    s.vbk &&& 0xFE#8 = 0#8 ∧ s.svbk &&& 0xF8#8 = 0#8 ∧ s.bcps &&& 0x40#8 = 0#8 ∧ s.ocps &&& 0x40#8 = 0#8

/-- R37 (d), (e) and the shape of the framebuffer (R34). -/
abbrev PpuWf (p : Ppu) : Prop :=
  p.cycle < 70224 ∧ p.lineSprites.length ≤ 10 ∧ (∀ i ∈ p.lineSprites, i < 40) ∧
    p.fb.length = 144 ∧ ∀ row ∈ p.fb, row.length = 160

/-- The accumulators of the Timer are below their periods (R33). -/
abbrev TimerWf (s : State) : Prop :=
  s.timer.divAcc < s.params.divTickCycles ∧ s.timer.timaAcc < timaPeriod s.params s.tac

/-- The state between two machine steps (R37). -/
structure State.Inv (s : State) : Prop where
  params : ParamsWf s.params
  /-- MBC2 has its built-in RAM (20_memory.md R110). -/
  mbc2Ram : s.mbc.kind = .mbc2 → s.params.ramSize = 512
  /-- (a): bits 3 to 0 of F are 0. -/
  flags : s.regs.f &&& 0x0F#8 = 0#8
  memForm : s.mem.wf
  memSize : s.mem.sized s.params.ramSize
  io : IoWf s
  timer : TimerWf s
  ppu : PpuWf s.ppu
  /-- Double speed exists only in CGB mode (R28). -/
  speed : s.doubleSpeed = true → s.params.cgbMode = true
  /-- The model's own field is idle between steps (log 3). -/
  cyc : s.cyc = 0

/-! ## Runs -/

/-- The next `n` steps all have a next state: no fault and no refusal. -/
def SafeRun (n : Nat) (s : State) : Prop := ∃ t, steps n s = .next t

/-! ## What an instruction does -/

/-- `exec i s` answers a next state, and that state satisfies `P`. -/
def Completes (i : Instr) (s : State) (P : State → Prop) : Prop := ∃ t, exec i s = .next t ∧ P t

/-- Everything but the registers, IME and `run`, the step's cycles and what the bus reaches is unchanged. -/
def KeepsDevices (s t : State) : Prop :=
  t.params = s.params ∧ t.doubleSpeed = s.doubleSpeed ∧ t.cycles = s.cycles ∧ t.ppu = s.ppu ∧ t.keys = s.keys ∧
    t.keysPrev = s.keysPrev ∧ t.host.frameEntry = s.host.frameEntry ∧ t.host.keySamples = s.host.keySamples ∧
    t.host.rtcTicks = s.host.rtcTicks

/-- IME and `run` are unchanged. -/
def KeepsControl (s t : State) : Prop := t.ime = s.ime ∧ t.run = s.run

/-- Nothing is stored: every array, the bank controller and the Timer are unchanged, and every address outside the
APU range (whose reads are free values) reads as before. -/
def NoStore (s t : State) : Prop :=
  t.mem = s.mem ∧ t.mbc = s.mbc ∧ t.timer = s.timer ∧ ∀ x, inApuRange x = false → busRead t x = busRead s x

/-- The registers become `g`, the instruction reports `n` cycles, and nothing else changes. -/
def OnlyRegs (s t : State) (g : Regs) (n : Nat) : Prop :=
  t.regs = g ∧ t.cyc = s.cyc + n ∧ KeepsControl s t ∧ KeepsDevices s t ∧ NoStore s t

/-- An address of plain RAM: video RAM, work RAM and its mirror, OAM, high RAM, IE. -/
def plainRam (a : Word) : Bool :=
  decide ((0x8000 ≤ a.toNat ∧ a.toNat ≤ 0x9FFF) ∨ (0xC000 ≤ a.toNat ∧ a.toNat ≤ 0xFE9F) ∨ 0xFF80 ≤ a.toNat)

/-- Two addresses name the same byte: they are equal, or one is the mirror of the other (20_memory.md R65). -/
def sameCell (a x : Word) : Bool := unmirror a.toNat == unmirror x.toNat

/-- `x` may read differently after a store to `a`: it is the same byte, or the store has an effect beyond storing the
byte (20_memory.md R123) that shows at `x`. -/
def mayChange (a x : Word) : Bool :=
  let n := a.toNat
  let m := x.toNat
  let romSpace := decide (m ≤ 0x7FFF)
  let videoRam := decide (0x8000 ≤ m ∧ m ≤ 0x9FFF)
  let externalRam := decide (0xA000 ≤ m ∧ m ≤ 0xBFFF)
  let bankedWork := decide (0xD000 ≤ unmirror m ∧ unmirror m ≤ 0xDFFF)
  let oam := decide (0xFE00 ≤ m ∧ m ≤ 0xFE9F)
  sameCell a x ||
    (decide (n ≤ 0x7FFF) && (romSpace || externalRam)) ||
    (decide (0xA000 ≤ n ∧ n ≤ 0xBFFF) && externalRam) ||
    (n == 0xFF45 && m == 0xFF41) || (n == 0xFF46 && oam) || (n == 0xFF4F && videoRam) || (n == 0xFF50 && romSpace) ||
    (n == 0xFF55 && videoRam) || (n == 0xFF68 && m == 0xFF69) || (n == 0xFF69 && m == 0xFF68) ||
    (n == 0xFF6A && m == 0xFF6B) || (n == 0xFF6B && m == 0xFF6A) || (n == 0xFF70 && bankedWork)

/-- `t` is `s` after the one bus write of `v` at `a`: what the bus reaches is as `busStore` leaves it; every address
that the write cannot change reads as before; and an address of plain RAM, with its mirror, reads `v`. -/
def StoredAt (s t : State) (a : Word) (v : Byte) : Prop :=
  t.mem = (busStore s a v).mem ∧ t.mbc = (busStore s a v).mbc ∧ t.timer = (busStore s a v).timer ∧
    (∀ x, inApuRange x = false → mayChange a x = false → busRead t x = busRead s x) ∧
    (s.mem.wf → plainRam a = true → ∀ x, sameCell a x = true → busRead t x = v)

/-- The registers become `g`, `v` is stored at `a`, the instruction reports `n` cycles, and nothing else changes. -/
def RegsAndStore (s t : State) (g : Regs) (a : Word) (v : Byte) (n : Nat) : Prop :=
  t.regs = g ∧ t.cyc = s.cyc + n ∧ KeepsControl s t ∧ KeepsDevices s t ∧ StoredAt s t a v

/-- The bus accepts the two byte writes of a word at `a`, low byte first (20_memory.md R98 names the only writes it
does not accept). -/
def acceptsWord (s : State) (a v : Word) : Prop :=
  busRefusal s a (loByte v) = none ∧ busRefusal (busStore s a (loByte v)) (a + 1#16) (hiByte v) = none

/-- Why a word write at `a` has no meaning: the reason for its low byte, else the one for its high byte once the low
byte is stored; none where both bytes are accepted. -/
def wordRefusal (s : State) (a v : Word) : Option Refusal :=
  match busRefusal s a (loByte v) with
  | some r => some r
  | none => busRefusal (busStore s a (loByte v)) (a + 1#16) (hiByte v)

/-- `exec i s` is refused for the reason given, if there is one. -/
def RefusedFor (i : Instr) (s : State) (reason : Option Refusal) : Prop := ∀ r, reason = some r → exec i s = .refused r

/-- `t` is `s` after the two bus writes of the word `v` at `a`: the low byte at `a`, then the high byte at
`a + 1`. -/
def WordStoredAt (s t : State) (a v : Word) : Prop :=
  StoredAt s (busStore s a (loByte v)) a (loByte v) ∧ StoredAt (busStore s a (loByte v)) t (a + 1#16) (hiByte v)

/-- As `RegsAndStore`, with a word stored. -/
def RegsAndWord (s t : State) (g : Regs) (a v : Word) (n : Nat) : Prop :=
  t.regs = g ∧ t.cyc = s.cyc + n ∧ KeepsControl s t ∧ KeepsDevices s t ∧ WordStoredAt s t a v

/-- The flag register with the four flags given and bits 3 to 0 zero (10_state.md R23). -/
def HasFlags (f : Byte) (z n h c : Bool) : Prop :=
  flagZ f = z ∧ flagN f = n ∧ flagH f = h ∧ flagC f = c ∧ f &&& 0x0F#8 = 0#8

/-- The three operand forms of an accumulator operation (42_alu8.md R189) complete, each with its second operand and
its cycles. -/
def ThreeForms (reg : Reg8 → Instr) (mem : Instr) (imm : Byte → Instr) (s : State)
    (P : Byte → Nat → State → Prop) : Prop :=
  (∀ r, Completes (reg r) s (P (s.reg8 r) 4)) ∧ Completes mem s (P (busRead s s.regs.hl) 8) ∧
    ∀ n, Completes (imm n) s (P n 8)

/-- The encodings of the three forms: `10yyyzzz` with a register code, `10yyy110`, `11yyy110` and the immediate
(42_alu8.md R189). -/
def ThreeFormsEncoded (reg : Reg8 → Instr) (mem : Instr) (imm : Byte → Instr) (y : Nat) : Prop :=
  (∀ r, encode (reg r) = [opcode 2 y r.code]) ∧ encode mem = [opcode 2 y 6] ∧ ∀ n, encode (imm n) = [opcode 3 y 6, n]

/-- The register form of a CB-table rotate or shift (44_rotate_shift_bit.md R219). -/
def rotateReg : Rot → Reg8 → Instr
  | .rlc => .rlcR
  | .rrc => .rrcR
  | .rl => .rlR
  | .rr => .rrR
  | .sla => .slaR
  | .sra => .sraR
  | .swap => .swapR
  | .srl => .srlR

/-- The `(HL)` form of a CB-table rotate or shift. -/
def rotateHl : Rot → Instr
  | .rlc => .rlcHl
  | .rrc => .rrcHl
  | .rl => .rlHl
  | .rr => .rrHl
  | .sla => .slaHl
  | .sra => .sraHl
  | .swap => .swapHl
  | .srl => .srlHl

/-- The ROT code, `y` of the second byte (30_encoding.md R142). -/
def rotateCode : Rot → Nat
  | .rlc => 0
  | .rrc => 1
  | .rl => 2
  | .rr => 3
  | .sla => 4
  | .sra => 5
  | .swap => 6
  | .srl => 7

/-- The result and the bit shifted out as arithmetic on numbers (44_rotate_shift_bit.md R224 to R231). -/
def rotateArith (op : Rot) (v : Nat) (c : Bool) : Nat × Bool :=
  let top := decide (128 ≤ v)
  let low := decide (v % 2 = 1)
  match op with
  | .rlc => (2 * v + bit top, top)
  | .rrc => (v / 2 + 128 * bit low, low)
  | .rl => (2 * v + bit c, top)
  | .rr => (v / 2 + 128 * bit c, low)
  | .sla => (2 * v, top)
  | .sra => (v / 2 + 128 * bit top, low)
  | .swap => (v % 16 * 16 + v / 16, false)
  | .srl => (v / 2, low)

/-- The eleven unassigned opcodes (46_system.md R266). -/
def illegalOpcodes : List (Instr × Byte) :=
  [(.illegalD3, 0xD3#8), (.illegalDB, 0xDB#8), (.illegalDD, 0xDD#8), (.illegalE3, 0xE3#8), (.illegalE4, 0xE4#8),
    (.illegalEB, 0xEB#8), (.illegalEC, 0xEC#8), (.illegalED, 0xED#8), (.illegalF4, 0xF4#8), (.illegalFC, 0xFC#8),
    (.illegalFD, 0xFD#8)]

/-- The enable byte of a variant that has one (20_memory.md R119). -/
def Mbc.enableByte : Mbc → Option Byte
  | .none => Option.none
  | .mbc1 enable _ => some enable
  | .mbc2 enable _ => some enable
  | .mbc3 enable _ _ _ _ _ => some enable
  | .mbc5 enable _ _ => some enable

/-- The PC and everything else is as before but for the fetch of `n` bytes: PC is `n` further, and only the count of
bytes drawn from the APU range may move (10_state.md R22). -/
def FetchedPast (s t : State) (n : Nat) : Prop :=
  t.regs = { s.regs with pc := s.regs.pc + BitVec.ofNat 16 n } ∧ t.cyc = s.cyc ∧ KeepsControl s t ∧
    KeepsDevices s t ∧ NoStore s t

/-! ## The Timer's loops, as 60_exceptions.md R330 writes them -/

/-- `while div_acc >= DIV_TICK_CYCLES: …`, at most `fuel` rounds (R330). -/
def divLoop (s : State) : Nat → State
  | 0 => s
  | fuel + 1 =>
    if s.params.divTickCycles ≤ s.timer.divAcc then
      divLoop { s with
        timer.divAcc := s.timer.divAcc - s.params.divTickCycles
        timer.divctr := s.timer.divctr + 1#16 } fuel
    else s

/-- `while tima_acc >= P: …` with `P` read once, at most `fuel` rounds (R330). -/
def timaLoop (period : Nat) (s : State) : Nat → State
  | 0 => s
  | fuel + 1 =>
    if period ≤ s.timer.timaAcc then
      timaLoop period (timaIncrement { s with timer.timaAcc := s.timer.timaAcc - period }) fuel
    else s

/-- `TimerAdvance(n)` with its two loops (R330). -/
def timerAdvanceLoops (s : State) (n : Nat) : State :=
  let d := divLoop { s with timer.divAcc := s.timer.divAcc + n } (s.timer.divAcc + n)
  if d.tac.getLsbD 2 then
    timaLoop (timaPeriod d.params d.tac) { d with timer.timaAcc := d.timer.timaAcc + n } (d.timer.timaAcc + n)
  else d

/-! ## Pixels, as 60_exceptions.md R363 to R373 write them -/

/-- The colour index in row `r`, column `c` of the tile at offset `t` of video RAM bank `bank` (R363). -/
def tileArith (s : State) (bank t r c : Nat) : Nat :=
  let lo := (s.mem.vram.read (bank * 0x2000 + (t + 2 * r))).toNat
  let hi := (s.mem.vram.read (bank * 0x2000 + (t + 2 * r + 1))).toNat
  2 * (hi / 2 ^ (7 - c) % 2) + lo / 2 ^ (7 - c) % 2

/-- The pixel `(bx, by)` of the map at `base` of bank 0, with its attribute byte from bank 1 (R363 to R365). -/
def mapArith (s : State) (base bx byy : Nat) : BgPixel :=
  let entry := base + 32 * (byy / 8) + bx / 8
  let n := (s.mem.vram.read entry).toNat
  let attr := if s.params.cgbMode then s.mem.vram.read (0x2000 + entry) else 0x00#8
  let t := if s.lcdc.getLsbD 4 then 16 * n else if n < 128 then 0x1000 + 16 * n else 0x0800 + 16 * (n - 128)
  { index := tileArith s (attr.toNat / 8 % 2) t (if attr.getLsbD 6 then 7 - byy % 8 else byy % 8)
      (if attr.getLsbD 5 then 7 - bx % 8 else bx % 8)
    attr := attr }

/-- The colour index of sprite `i` at line `y`, column `x`, 0 where it does not cover the column, for a sprite that
begins at most 15 lines above `y` (R367, R370). -/
def spriteArith (s : State) (i y x : Nat) : Nat :=
  let left := (s.mem.oam.read (4 * i + 1)).toNat
  let n := (s.mem.oam.read (4 * i + 2)).toNat
  let attr := s.mem.oam.read (4 * i + 3)
  let down := y + 16 - (s.mem.oam.read (4 * i)).toNat
  let across := x + 8 - left
  let c := if attr.getLsbD 5 then 7 - across else across
  let bank := if s.params.cgbMode then attr.toNat / 8 % 2 else 0
  if x + 8 < left ∨ 8 ≤ across then 0
  else if s.lcdc.getLsbD 2 then
    let r := if attr.getLsbD 6 then 15 - down else down
    tileArith s bank (16 * (if r < 8 then n - n % 2 else n - n % 2 + 1)) (r % 8) c
  else tileArith s bank (16 * n) (if attr.getLsbD 6 then 7 - down % 8 else down % 8) c

/-- The 15-bit colour of palette `p`, index `i` (R373). -/
def colorArith (pal : Memory) (p i : Nat) : BitVec 15 :=
  BitVec.ofNat 15 ((pal.read (8 * p + 2 * i + 1)).toNat * 256 + (pal.read (8 * p + 2 * i)).toNat)

/-! ## The MBC3 clock as a number of seconds (20_memory.md R118) -/

/-- Seconds, minutes and hours are in their ranges. -/
def Rtc.inRange (r : Rtc) : Prop := r.s.toNat < 60 ∧ r.m.toNat < 60 ∧ r.h.toNat < 24

/-- The 9-bit day count. -/
def Rtc.day (r : Rtc) : Nat := r.dh.toNat % 2 * 256 + r.dl.toNat

/-- The seconds since day 0, 0:00:00. -/
def Rtc.seconds (r : Rtc) : Nat := ((r.day * 24 + r.h.toNat) * 60 + r.m.toNat) * 60 + r.s.toNat

end Sys2Proof.Machine
end

