-- ==== Sys2Proof/Certificates/Slice0/Obligations.lean ====
section
/-! DEFINITION. The statements about the model, each with the rules of spec/ it formalises. The words the statements
use (`Completes`, `OnlyRegs`, `StoredAt`, …) are in Sys2Proof/Safety.lean.

`exec i s` is asked with PC already past the instruction `i` (10_state.md R22), so "the PC is unchanged" means that
execution goes on behind `i`; `Obligations.StepRunsTheDecodedInstruction` ties this to a step. -/

section Statements

open Sys2Proof Sys2Proof.Machine

/-! ## Encoding (30_encoding.md) -/

/-- Decoding the encoding of a well-formed instruction, whatever bytes follow, gives it back with every operand
(R140 to R149). -/
def Obligations.DecodeEncodeRoundTrip : Prop :=
  ∀ (i : Instr) (rest : List Byte), i.wellFormed = true → decode (encode i ++ rest) = .ok (i, rest)

/-- Bytes that decode have one meaning: the instruction is well formed and its encoding is the bytes it was read from
(R140 to R149). -/
def Obligations.DecodedBytesAreTheEncoding : Prop :=
  ∀ (bytes rest : List Byte) (i : Instr), decode bytes = .ok (i, rest) →
    i.wellFormed = true ∧ bytes = encode i ++ rest

/-- Every opcode byte begins an instruction; the one thing the decoder refuses in three bytes is STOP with a second
byte other than 0x00 (R147, 46_system.md R262). -/
def Obligations.OnlyStopOperandIsRefused : Prop :=
  ∀ (op b1 b2 : Byte) (rest : List Byte),
    (op = 0x10#8 ∧ b1 ≠ 0x00#8 → decode (op :: b1 :: b2 :: rest) = .error (.stopOperand b1)) ∧
    (¬(op = 0x10#8 ∧ b1 ≠ 0x00#8) → ∃ i left, decode (op :: b1 :: b2 :: rest) = .ok (i, left))

/-- Words written out from the spec's encodings, one from each family, decode to the instruction they stand for. -/
def Obligations.WrittenOutWordsDecode : Prop :=
  decode [0x41#8] = .ok (.ldRR .b .c, []) ∧
  decode [0x36#8, 0x7F#8] = .ok (.ldHlN 0x7F#8, []) ∧
  decode [0x31#8, 0xFE#8, 0xFF#8] = .ok (.ldRrNn .sp 0xFFFE#16, []) ∧
  decode [0xF5#8] = .ok (.push .af, []) ∧
  decode [0x8B#8] = .ok (.adcR .e, []) ∧
  decode [0xFE#8, 0x40#8] = .ok (.cpN 0x40#8, []) ∧
  decode [0x39#8] = .ok (.addHlRr .sp, []) ∧
  decode [0x1F#8] = .ok (.rra, []) ∧
  decode [0xDA#8, 0x50#8, 0x01#8] = .ok (.jpCcNn .c 0x0150#16, []) ∧
  decode [0xEF#8] = .ok (.rst 5, []) ∧
  decode [0x10#8, 0x00#8] = .ok (.stop, []) ∧
  decode [0xFD#8] = .ok (.illegalFD, []) ∧
  decode [0xCB#8, 0x37#8] = .ok (.swapR .a, []) ∧
  decode [0xCB#8, 0x7C#8] = .ok (.bitR 7 .h, []) ∧
  decode [0xCB#8, 0xDE#8] = .ok (.setHl 3, [])

/-! ## The machine step (60_exceptions.md R300) -/

/-- If the CPU runs after the interrupt phase and the bytes at PC are the encoding of a well-formed instruction, the
step is that instruction, run with PC past its bytes, and then the devices' advance (R300, R307, 10_state.md R22). -/
def Obligations.StepRunsTheDecodedInstruction : Prop :=
  ∀ (s t : State) (i : Instr), i.wellFormed = true → interruptPhase (environment s) = .next t → t.run = .running →
    fetchBytes t (encode i).length = encode i →
    step s = andThen (exec i (afterFetches t (encode i).length)) (fun u => .next (advancePhase u)) ∧
    FetchedPast t (afterFetches t (encode i).length) (encode i).length

/-! ## Interrupts (60_exceptions.md R300 to R310) -/

/-- A step that begins with IME Scheduled promotes it to Enabled and dispatches nothing, whatever is pending (R302,
the spec's decision D4). -/
def Obligations.ScheduledPromotesWithoutDispatch : Prop :=
  ∀ s : State, s.ime = .scheduled → interruptPhase s = .next { s with cyc := 0, ime := .enabled }

/-- The source selected is the enabled and requested one of least index; there is none just when IE & IF & 0x1F is 0
(R303, R305). -/
def Obligations.LeastPendingSourceIsSelected : Prop :=
  ∀ s : State,
    (∀ i, firstSource (pending s) = some i ↔
      (s.mem.ie.getLsbD i.val && s.ifReg.getLsbD i.val) = true ∧
        ∀ j : Fin 5, j < i → (s.mem.ie.getLsbD j.val && s.ifReg.getLsbD j.val) = false) ∧
    (firstSource (pending s) = none ↔ s.mem.ie &&& s.ifReg &&& 0x1F#8 = 0#8)

/-- Dispatch: the request bit cleared, IME Disabled, PC pushed low byte first, PC at 0x0040 + 8 i, 20 cycles, running;
A, F and the other registers as they were (R304). -/
def Obligations.DispatchSavesPcAndVectors : Prop :=
  ∀ (s : State) (i : Fin 5), s.mem.wf → s.ime = .enabled → firstSource (pending s) = some i →
    acceptsWord (clearRequest s i) (s.regs.sp - 2#16) s.regs.pc →
    (clearRequest s i).ifReg = s.ifReg &&& ~~~(1#8 <<< i.val) ∧
    ∃ t, interruptPhase s = .next t ∧
      t.regs = { s.regs with sp := s.regs.sp - 2#16, pc := BitVec.ofNat 16 (0x0040 + 8 * i.val) } ∧
      t.ime = .disabled ∧ t.run = .running ∧ t.cyc = 20 ∧ KeepsDevices s t ∧
      WordStoredAt (clearRequest s i) t (s.regs.sp - 2#16) s.regs.pc

/-- Without a dispatch: a running CPU with IME Disabled ignores requests; nothing pending, nothing happens; a sleeping
CPU with IME Disabled wakes, the request cleared if HALT_WAKE_CLEARS_IF, with no push and no jump (R303, the spec's
decision D6); and a CPU still asleep after the interrupt phase idles four cycles (R307). -/
def Obligations.InterruptsWaitOrWake : Prop :=
  ∀ s : State,
    (∀ t, interruptPhase (environment s) = .next t → t.run ≠ .running →
      step s = .next (advancePhase { t with cyc := t.cyc + 4 })) ∧
    (s.ime = .disabled → s.run = .running → interruptPhase s = .next { s with cyc := 0 }) ∧
    (s.ime ≠ .scheduled → firstSource (pending s) = none → interruptPhase s = .next { s with cyc := 0 }) ∧
    ∀ i, s.mem.wf → s.ime = .disabled → s.run ≠ .running → firstSource (pending s) = some i →
      ∃ t, interruptPhase s = .next t ∧ t.run = .running ∧ t.ime = .disabled ∧ t.regs = s.regs ∧ t.cyc = 0 ∧
        KeepsDevices s t ∧ t.mbc = s.mbc ∧ t.timer = s.timer ∧
        t.ifReg = (if s.params.haltWakeClearsIf then s.ifReg &&& ~~~(1#8 <<< i.val) else s.ifReg) ∧
        ∀ x, x ≠ 0xFF0F#16 → inApuRange x = false → busRead t x = busRead s x

/-! ## Faults and refusals -/

/-- Executing an unassigned opcode is a fault that names the opcode and the address it was fetched from
(46_system.md R266; that it is a fault is the spec's decision D9). -/
def Obligations.UnassignedOpcodesFault : Prop :=
  (∀ (s : State) (p : Instr × Byte), p ∈ illegalOpcodes →
    encode p.1 = [p.2] ∧ exec p.1 s = .fault (.illegalOpcode p.2 (s.regs.pc - 1#16))) ∧
  ∀ (s t : State) (p : Instr × Byte), p ∈ illegalOpcodes → interruptPhase (environment s) = .next t →
    t.run = .running → fetchByte t = p.2 → step s = .fault (.illegalOpcode p.2 t.regs.pc)

/-- STOP with a second byte other than 0x00 is refused (46_system.md R262, the spec's decision D8); a bus write is
refused just when it writes HDMA5, in CGB mode, with bit 7 set or with a source byte in video RAM or at or above
0xE000 (20_memory.md R98, the spec's decision D20). An instruction that writes a byte or a word which the bus refuses is
refused, with the bus's reason: the byte stores, the read-modify-write forms on (HL), `LD (nn),SP`, the pushes, calls and
restarts; and so is an interrupt dispatch, with the step it belongs to (that the whole step is refused is log 12). -/
def Obligations.RefusalsAreStopOperandAndHdma : Prop :=
  (∀ (s t : State) (b : Byte), interruptPhase (environment s) = .next t → t.run = .running → fetchByte t = 0x10#8 →
    fetchByte (afterFetch t) = b → b ≠ 0x00#8 → step s = .refused (.stopOperand b)) ∧
  (∀ (s : State) (a : Word) (v : Byte),
    (busRefusal s a v ≠ none ↔
      a = 0xFF55#16 ∧ s.params.cgbMode = true ∧
        (v.getLsbD 7 = true ∨ ∃ k, k < (v.toNat % 128 + 1) * 16 ∧
          gdmaBadSource (s.gdmaSource + BitVec.ofNat 16 k) = true)) ∧
    (busRefusal s a v = none → busWrite s a v = .next (busStore s a v)) ∧
    ∀ r, busRefusal s a v = some r → busWrite s a v = .refused r) ∧
  (∀ s : State,
    (∀ r : Reg8, RefusedFor (.ldHlR r) s (busRefusal s s.regs.hl (s.regs.get8 r))) ∧
    (∀ n : Byte, RefusedFor (.ldHlN n) s (busRefusal s s.regs.hl n)) ∧
    RefusedFor .ldBcA s (busRefusal s s.regs.bc s.regs.a) ∧
    RefusedFor .ldDeA s (busRefusal s s.regs.de s.regs.a) ∧
    (∀ nn : Word, RefusedFor (.ldNnA nn) s (busRefusal s nn s.regs.a)) ∧
    RefusedFor .ldhCA s (busRefusal s (0xFF00#16 + s.regs.c.zeroExtend 16) s.regs.a) ∧
    (∀ n : Byte, RefusedFor (.ldhNA n) s (busRefusal s (0xFF00#16 + n.zeroExtend 16) s.regs.a)) ∧
    RefusedFor .ldHldA s (busRefusal s s.regs.hl s.regs.a) ∧
    RefusedFor .ldHliA s (busRefusal s s.regs.hl s.regs.a)) ∧
  (∀ s : State,
    let v := busRead s s.regs.hl
    RefusedFor .incHl s (busRefusal s s.regs.hl (v + 1#8)) ∧
    RefusedFor .decHl s (busRefusal s s.regs.hl (v - 1#8)) ∧
    (∀ op : Rot, RefusedFor (rotateHl op) s
      (busRefusal s s.regs.hl (BitVec.ofNat 8 (rotateArith op v.toNat (flagC s.regs.f)).1))) ∧
    ∀ b : Fin 8, RefusedFor (.resHl b) s (busRefusal s s.regs.hl (clearBit b v)) ∧
      RefusedFor (.setHl b) s (busRefusal s s.regs.hl (setBit b v))) ∧
  (∀ s : State,
    (∀ nn : Word, RefusedFor (.ldNnSp nn) s (wordRefusal s nn s.regs.sp)) ∧
    (∀ rr : Reg16S, RefusedFor (.push rr) s (wordRefusal s (s.regs.sp - 2#16) (s.regs.get16S rr))) ∧
    (∀ nn : Word, RefusedFor (.callNn nn) s (wordRefusal s (s.regs.sp - 2#16) s.regs.pc)) ∧
    (∀ (cc : Cond) (nn : Word), condHolds cc s.regs.f = true →
      RefusedFor (.callCcNn cc nn) s (wordRefusal s (s.regs.sp - 2#16) s.regs.pc)) ∧
    ∀ k : Fin 8, RefusedFor (.rst k) s (wordRefusal s (s.regs.sp - 2#16) s.regs.pc)) ∧
  ∀ (s : State) (r : Refusal),
    (∀ i, s.ime = .enabled → firstSource (pending s) = some i →
      wordRefusal (clearRequest s i) (s.regs.sp - 2#16) s.regs.pc = some r → interruptPhase s = .refused r) ∧
    (interruptPhase (environment s) = .refused r → step s = .refused r) ∧
    ∀ (t : State) (i : Instr), i.wellFormed = true → interruptPhase (environment s) = .next t → t.run = .running →
      fetchBytes t (encode i).length = encode i → exec i (afterFetches t (encode i).length) = .refused r →
      step s = .refused r

/-- The only fault of the machine is an unassigned opcode (60_exceptions.md R311, R320), and the only refusals are
those of R262 and R98. -/
def Obligations.NothingElseStopsTheMachine : Prop :=
  (∀ (s : State) (i : Instr) (e : Fault), exec i s = .fault e →
    ∃ op, (i, op) ∈ illegalOpcodes ∧ e = .illegalOpcode op (s.regs.pc - 1#16)) ∧
  (∀ (s : State) (i : Instr) (r : Refusal), exec i s = .refused r →
    (∃ v, r = .hblankDma v) ∨ ∃ src, r = .dmaSource src) ∧
  (∀ (s : State) (e : Fault), step s = .fault e → ∃ p pc, p ∈ illegalOpcodes ∧ e = .illegalOpcode p.2 pc) ∧
  ∀ (s : State) (r : Refusal), step s = .refused r →
    (∃ v, r = .hblankDma v) ∨ (∃ src, r = .dmaSource src) ∨ ∃ b, b ≠ 0x00#8 ∧ r = .stopOperand b

/-! ## 8-bit loads (40_load8.md) -/

/-- `LD r,r'` and `LD r,n` (R160, R161). -/
def Obligations.RegisterLoadsWriteOnlyTheirRegister : Prop :=
  ∀ s : State,
    (∀ r r' : Reg8, encode (.ldRR r r') = [opcode 1 r.code r'.code] ∧
      Completes (.ldRR r r') s (fun t => OnlyRegs s t (s.regs.set8 r (s.regs.get8 r')) 4)) ∧
    ∀ (r : Reg8) (n : Byte), encode (.ldRN r n) = [opcode 0 r.code 6, n] ∧
      Completes (.ldRN r n) s (fun t => OnlyRegs s t (s.regs.set8 r n) 8)

/-- The loads from memory: the byte read at the effective address goes to the register, and `LD A,(HL-)` and
`LD A,(HL+)` then step HL (R162, R165, R166, R169, R171, R173, R175, R177). -/
def Obligations.MemoryLoadsReadTheirAddress : Prop :=
  ∀ s : State,
    (∀ r : Reg8, encode (.ldRHl r) = [opcode 1 r.code 6] ∧
      Completes (.ldRHl r) s (fun t => OnlyRegs s t (s.regs.set8 r (busRead s s.regs.hl)) 8)) ∧
    (encode .ldABc = [0x0A#8] ∧
      Completes .ldABc s (fun t => OnlyRegs s t { s.regs with a := busRead s s.regs.bc } 8)) ∧
    (encode .ldADe = [0x1A#8] ∧
      Completes .ldADe s (fun t => OnlyRegs s t { s.regs with a := busRead s s.regs.de } 8)) ∧
    (∀ nn : Word, encode (.ldANn nn) = [0xFA#8, loByte nn, hiByte nn] ∧
      Completes (.ldANn nn) s (fun t => OnlyRegs s t { s.regs with a := busRead s nn } 16)) ∧
    (encode .ldhAC = [0xF2#8] ∧
      Completes .ldhAC s (fun t =>
        OnlyRegs s t { s.regs with a := busRead s (0xFF00#16 + s.regs.c.zeroExtend 16) } 8)) ∧
    (∀ n : Byte, encode (.ldhAN n) = [0xF0#8, n] ∧
      Completes (.ldhAN n) s (fun t => OnlyRegs s t { s.regs with a := busRead s (0xFF00#16 + n.zeroExtend 16) } 12)) ∧
    (encode .ldAHld = [0x3A#8] ∧
      Completes .ldAHld s (fun t =>
        OnlyRegs s t ({ s.regs with a := busRead s s.regs.hl }.setHl (s.regs.hl - 1#16)) 8)) ∧
    (encode .ldAHli = [0x2A#8] ∧
      Completes .ldAHli s (fun t =>
        OnlyRegs s t ({ s.regs with a := busRead s s.regs.hl }.setHl (s.regs.hl + 1#16)) 8))

/-- The byte stores, where the bus accepts the write: the register or immediate is stored at the effective address,
and `LD (HL-),A` and `LD (HL+),A` then step HL (R163, R164, R167, R168, R170, R172, R174, R176, R178). -/
def Obligations.ByteStoresWriteTheirAddress : Prop :=
  ∀ s : State,
    (∀ r : Reg8, encode (.ldHlR r) = [opcode 1 6 r.code] ∧
      (busRefusal s s.regs.hl (s.regs.get8 r) = none →
        Completes (.ldHlR r) s (fun t => RegsAndStore s t s.regs s.regs.hl (s.regs.get8 r) 8))) ∧
    (∀ n : Byte, encode (.ldHlN n) = [0x36#8, n] ∧
      (busRefusal s s.regs.hl n = none →
        Completes (.ldHlN n) s (fun t => RegsAndStore s t s.regs s.regs.hl n 12))) ∧
    (encode .ldBcA = [0x02#8] ∧
      (busRefusal s s.regs.bc s.regs.a = none →
        Completes .ldBcA s (fun t => RegsAndStore s t s.regs s.regs.bc s.regs.a 8))) ∧
    (encode .ldDeA = [0x12#8] ∧
      (busRefusal s s.regs.de s.regs.a = none →
        Completes .ldDeA s (fun t => RegsAndStore s t s.regs s.regs.de s.regs.a 8))) ∧
    (∀ nn : Word, encode (.ldNnA nn) = [0xEA#8, loByte nn, hiByte nn] ∧
      (busRefusal s nn s.regs.a = none →
        Completes (.ldNnA nn) s (fun t => RegsAndStore s t s.regs nn s.regs.a 16))) ∧
    (encode .ldhCA = [0xE2#8] ∧
      (busRefusal s (0xFF00#16 + s.regs.c.zeroExtend 16) s.regs.a = none →
        Completes .ldhCA s (fun t =>
          RegsAndStore s t s.regs (0xFF00#16 + s.regs.c.zeroExtend 16) s.regs.a 8))) ∧
    (∀ n : Byte, encode (.ldhNA n) = [0xE0#8, n] ∧
      (busRefusal s (0xFF00#16 + n.zeroExtend 16) s.regs.a = none →
        Completes (.ldhNA n) s (fun t =>
          RegsAndStore s t s.regs (0xFF00#16 + n.zeroExtend 16) s.regs.a 12))) ∧
    (encode .ldHldA = [0x32#8] ∧
      (busRefusal s s.regs.hl s.regs.a = none →
        Completes .ldHldA s (fun t =>
          RegsAndStore s t (s.regs.setHl (s.regs.hl - 1#16)) s.regs.hl s.regs.a 8))) ∧
    (encode .ldHliA = [0x22#8] ∧
      (busRefusal s s.regs.hl s.regs.a = none →
        Completes .ldHliA s (fun t =>
          RegsAndStore s t (s.regs.setHl (s.regs.hl + 1#16)) s.regs.hl s.regs.a 8)))

/-! ## 16-bit loads and the stack (41_load16_stack.md) -/

/-- `LD rr,nn`, `LD SP,HL` and `LD (nn),SP` (R180, R182, R181). -/
def Obligations.WordLoadsAndStoreOfSp : Prop :=
  ∀ s : State,
    (∀ (rr : Reg16) (nn : Word), encode (.ldRrNn rr nn) = [opcode 0 (2 * rr.code) 1, loByte nn, hiByte nn] ∧
      Completes (.ldRrNn rr nn) s (fun t => OnlyRegs s t (s.regs.set16 rr nn) 12 ∧ t.regs.get16 rr = nn)) ∧
    (encode .ldSpHl = [0xF9#8] ∧
      Completes .ldSpHl s (fun t => OnlyRegs s t { s.regs with sp := s.regs.hl } 8)) ∧
    ∀ nn : Word, encode (.ldNnSp nn) = [0x08#8, loByte nn, hiByte nn] ∧
      (acceptsWord s nn s.regs.sp →
        Completes (.ldNnSp nn) s (fun t => RegsAndWord s t s.regs nn s.regs.sp 20))

/-- `LD HL,SP+e` and `ADD SP,e`: the displacement is sign extended, Z and N are cleared, H and C are the carries out
of bits 3 and 7 of the low byte (R183, 43_alu16.md R213). -/
def Obligations.SpPlusDisplacement : Prop :=
  ∀ (s : State) (e : Byte),
    (encode (.ldHlSpE e) = [0xF8#8, e] ∧
      Completes (.ldHlSpE e) s (fun t =>
        OnlyRegs s t ({ s.regs with f := t.regs.f }.setHl (s.regs.sp + e.signExtend 16)) 12 ∧
        HasFlags t.regs.f false false (decide ((s.regs.sp &&& 0x000F#16).toNat + (e &&& 0x0F#8).toNat > 0x0F))
          (decide ((s.regs.sp &&& 0x00FF#16).toNat + e.toNat > 0xFF)))) ∧
    (encode (.addSpE e) = [0xE8#8, e] ∧
      Completes (.addSpE e) s (fun t =>
        OnlyRegs s t { s.regs with f := t.regs.f, sp := s.regs.sp + e.signExtend 16 } 16 ∧
        HasFlags t.regs.f false false (decide ((s.regs.sp &&& 0x000F#16).toNat + (e &&& 0x0F#8).toNat > 0x0F))
          (decide ((s.regs.sp &&& 0x00FF#16).toNat + e.toNat > 0xFF))))

/-- `PUSH rr`, where the bus accepts the two writes, and `POP rr`, `POP AF` (R184, R185, R186). -/
def Obligations.PushAndPop : Prop :=
  ∀ s : State,
    (∀ rr : Reg16S, encode (.push rr) = [opcode 3 (2 * rr.code) 5] ∧
      (acceptsWord s (s.regs.sp - 2#16) (s.regs.get16S rr) →
        Completes (.push rr) s (fun t =>
          RegsAndWord s t { s.regs with sp := s.regs.sp - 2#16 } (s.regs.sp - 2#16) (s.regs.get16S rr) 16))) ∧
    (∀ rr : Reg16S, rr ≠ .af → encode (.pop rr) = [opcode 3 (2 * rr.code) 1] ∧
      Completes (.pop rr) s (fun t =>
        OnlyRegs s t ({ s.regs with sp := s.regs.sp + 2#16 }.set16S rr (busRead16 s s.regs.sp)) 12 ∧
        t.regs.get16S rr = busRead16 s s.regs.sp)) ∧
    (encode .popAf = [0xF1#8] ∧
      Completes .popAf s (fun t =>
        OnlyRegs s t { s.regs with
          sp := s.regs.sp + 2#16
          a := hiByte (busRead16 s s.regs.sp)
          f := loByte (busRead16 s s.regs.sp) &&& 0xF0#8 } 12))

/-- In plain RAM a pushed pair is popped again: every register but the destination, and SP, as before the push
(00_scope.md R9, 10_state.md R25). -/
def Obligations.PopReturnsWhatWasPushed : Prop :=
  ∀ (s t : State) (rr : Reg16S), s.mem.wf → s.regs.f &&& 0x0F#8 = 0#8 →
    plainRam (s.regs.sp - 2#16) = true → plainRam (s.regs.sp - 1#16) = true → exec (.push rr) s = .next t →
    (rr ≠ .af → ∃ u, exec (.pop rr) t = .next u ∧ u.regs = s.regs) ∧
    (rr = .af → ∃ u, exec .popAf t = .next u ∧ u.regs = s.regs)

/-! ## 8-bit arithmetic and logic (42_alu8.md) -/

/-- `ADD A,b` and `ADC A,b` in their three forms (R190, R191). -/
def Obligations.AddAndAdcResults : Prop :=
  ∀ s : State,
    ThreeFormsEncoded .addR .addHl .addN 0 ∧ ThreeFormsEncoded .adcR .adcHl .adcN 1 ∧
    ThreeForms .addR .addHl .addN s (fun b k t =>
      OnlyRegs s t { s.regs with a := BitVec.ofNat 8 (s.regs.a.toNat + b.toNat), f := t.regs.f } k ∧
      HasFlags t.regs.f (t.regs.a == 0#8) false
        (decide ((s.regs.a &&& 0x0F#8).toNat + (b &&& 0x0F#8).toNat > 0x0F))
        (decide (s.regs.a.toNat + b.toNat > 0xFF))) ∧
    ThreeForms .adcR .adcHl .adcN s (fun b k t =>
      let c := bit (flagC s.regs.f)
      OnlyRegs s t { s.regs with a := BitVec.ofNat 8 (s.regs.a.toNat + b.toNat + c), f := t.regs.f } k ∧
      HasFlags t.regs.f (t.regs.a == 0#8) false
        (decide ((s.regs.a &&& 0x0F#8).toNat + (b &&& 0x0F#8).toNat + c > 0x0F))
        (decide (s.regs.a.toNat + b.toNat + c > 0xFF)))

/-- `SUB b`, `SBC A,b` and `CP b` in their three forms (R192, R193, R197). -/
def Obligations.SubSbcAndCpResults : Prop :=
  ∀ s : State,
    ThreeFormsEncoded .subR .subHl .subN 2 ∧ ThreeFormsEncoded .sbcR .sbcHl .sbcN 3 ∧
    ThreeFormsEncoded .cpR .cpHl .cpN 7 ∧
    ThreeForms .subR .subHl .subN s (fun b k t =>
      OnlyRegs s t { s.regs with a := s.regs.a - b, f := t.regs.f } k ∧
      HasFlags t.regs.f (t.regs.a == 0#8) true (decide ((s.regs.a &&& 0x0F#8).toNat < (b &&& 0x0F#8).toNat))
        (decide (s.regs.a.toNat < b.toNat))) ∧
    ThreeForms .sbcR .sbcHl .sbcN s (fun b k t =>
      let c := bit (flagC s.regs.f)
      OnlyRegs s t { s.regs with a := s.regs.a - b - BitVec.ofNat 8 c, f := t.regs.f } k ∧
      HasFlags t.regs.f (t.regs.a == 0#8) true
        (decide ((s.regs.a &&& 0x0F#8).toNat < (b &&& 0x0F#8).toNat + c))
        (decide (s.regs.a.toNat < b.toNat + c))) ∧
    ThreeForms .cpR .cpHl .cpN s (fun b k t =>
      OnlyRegs s t { s.regs with f := t.regs.f } k ∧
      HasFlags t.regs.f (s.regs.a == b) true (decide ((s.regs.a &&& 0x0F#8).toNat < (b &&& 0x0F#8).toNat))
        (decide (s.regs.a.toNat < b.toNat)))

/-- `AND b`, `XOR b` and `OR b` in their three forms (R194, R195, R196). -/
def Obligations.LogicResults : Prop :=
  ∀ s : State,
    ThreeFormsEncoded .andR .andHl .andN 4 ∧ ThreeFormsEncoded .xorR .xorHl .xorN 5 ∧
    ThreeFormsEncoded .orR .orHl .orN 6 ∧
    ThreeForms .andR .andHl .andN s (fun b k t =>
      OnlyRegs s t { s.regs with a := s.regs.a &&& b, f := t.regs.f } k ∧
      HasFlags t.regs.f (t.regs.a == 0#8) false true false) ∧
    ThreeForms .xorR .xorHl .xorN s (fun b k t =>
      OnlyRegs s t { s.regs with a := s.regs.a ^^^ b, f := t.regs.f } k ∧
      HasFlags t.regs.f (t.regs.a == 0#8) false false false) ∧
    ThreeForms .orR .orHl .orN s (fun b k t =>
      OnlyRegs s t { s.regs with a := s.regs.a ||| b, f := t.regs.f } k ∧
      HasFlags t.regs.f (t.regs.a == 0#8) false false false)

/-- `INC r`, `DEC r`, and `INC (HL)`, `DEC (HL)` where the bus accepts the write: C is kept (R198, R199, R200,
R201). -/
def Obligations.IncAndDecKeepCarry : Prop :=
  ∀ s : State,
    (∀ r : Reg8, encode (.incR r) = [opcode 0 r.code 4] ∧
      Completes (.incR r) s (fun t =>
        OnlyRegs s t { s.regs.set8 r (s.regs.get8 r + 1#8) with f := t.regs.f } 4 ∧
        HasFlags t.regs.f (s.regs.get8 r + 1#8 == 0#8) false (s.regs.get8 r &&& 0x0F#8 == 0x0F#8)
          (flagC s.regs.f))) ∧
    (∀ r : Reg8, encode (.decR r) = [opcode 0 r.code 5] ∧
      Completes (.decR r) s (fun t =>
        OnlyRegs s t { s.regs.set8 r (s.regs.get8 r - 1#8) with f := t.regs.f } 4 ∧
        HasFlags t.regs.f (s.regs.get8 r - 1#8 == 0#8) true (s.regs.get8 r &&& 0x0F#8 == 0x00#8)
          (flagC s.regs.f))) ∧
    (encode .incHl = [0x34#8] ∧
      (busRefusal s s.regs.hl (busRead s s.regs.hl + 1#8) = none →
        Completes .incHl s (fun t =>
          RegsAndStore s t { s.regs with f := t.regs.f } s.regs.hl (busRead s s.regs.hl + 1#8) 12 ∧
          HasFlags t.regs.f (busRead s s.regs.hl + 1#8 == 0#8) false (busRead s s.regs.hl &&& 0x0F#8 == 0x0F#8)
            (flagC s.regs.f)))) ∧
    (encode .decHl = [0x35#8] ∧
      (busRefusal s s.regs.hl (busRead s s.regs.hl - 1#8) = none →
        Completes .decHl s (fun t =>
          RegsAndStore s t { s.regs with f := t.regs.f } s.regs.hl (busRead s s.regs.hl - 1#8) 12 ∧
          HasFlags t.regs.f (busRead s s.regs.hl - 1#8 == 0#8) true (busRead s s.regs.hl &&& 0x0F#8 == 0x00#8)
            (flagC s.regs.f))))

/-- `DAA`, as R202 writes the algorithm, the high adjustment first and the low one on its result; `CPL`, `SCF`, `CCF`
(R203, R204, R205). -/
def Obligations.DaaCplScfAndCcf : Prop :=
  ∀ s : State,
    let a0 := s.regs.a
    let c0 := flagC s.regs.f
    let h0 := flagH s.regs.f
    let high := c0 || decide (a0.toNat > 0x99)
    let a1 := if flagN s.regs.f then (if c0 then a0 - 0x60#8 else a0) else (if high then a0 + 0x60#8 else a0)
    let c1 := if flagN s.regs.f then c0 else high
    let a2 := if flagN s.regs.f then (if h0 then a1 - 0x06#8 else a1)
      else (if h0 || decide ((a1 &&& 0x0F#8).toNat > 0x09) then a1 + 0x06#8 else a1)
    (encode .daa = [0x27#8] ∧
      Completes .daa s (fun t => OnlyRegs s t { s.regs with a := a2, f := t.regs.f } 4 ∧
        HasFlags t.regs.f (a2 == 0#8) (flagN s.regs.f) false c1)) ∧
    (encode .cpl = [0x2F#8] ∧
      Completes .cpl s (fun t => OnlyRegs s t { s.regs with a := ~~~s.regs.a, f := t.regs.f } 4 ∧
        HasFlags t.regs.f (flagZ s.regs.f) true true (flagC s.regs.f))) ∧
    (encode .scf = [0x37#8] ∧
      Completes .scf s (fun t => OnlyRegs s t { s.regs with f := t.regs.f } 4 ∧
        HasFlags t.regs.f (flagZ s.regs.f) false false true)) ∧
    (encode .ccf = [0x3F#8] ∧
      Completes .ccf s (fun t => OnlyRegs s t { s.regs with f := t.regs.f } 4 ∧
        HasFlags t.regs.f (flagZ s.regs.f) false false (!flagC s.regs.f)))

/-! ## 16-bit arithmetic (43_alu16.md) -/

/-- `ADD HL,rr` keeps Z and carries out of bits 11 and 15; `INC rr` and `DEC rr` write no flag (R210, R211, R212). -/
def Obligations.WordArithmetic : Prop :=
  ∀ (s : State) (rr : Reg16),
    (encode (.addHlRr rr) = [opcode 0 (2 * rr.code + 1) 1] ∧
      Completes (.addHlRr rr) s (fun t =>
        OnlyRegs s t ({ s.regs with f := t.regs.f }.setHl (s.regs.hl + s.regs.get16 rr)) 8 ∧
        HasFlags t.regs.f (flagZ s.regs.f) false
          (decide ((s.regs.hl &&& 0x0FFF#16).toNat + (s.regs.get16 rr &&& 0x0FFF#16).toNat > 0x0FFF))
          (decide (s.regs.hl.toNat + (s.regs.get16 rr).toNat > 0xFFFF)))) ∧
    (encode (.incRr rr) = [opcode 0 (2 * rr.code) 3] ∧
      Completes (.incRr rr) s (fun t =>
        OnlyRegs s t (s.regs.set16 rr (s.regs.get16 rr + 1#16)) 8 ∧ t.regs.get16 rr = s.regs.get16 rr + 1#16)) ∧
    (encode (.decRr rr) = [opcode 0 (2 * rr.code + 1) 3] ∧
      Completes (.decRr rr) s (fun t =>
        OnlyRegs s t (s.regs.set16 rr (s.regs.get16 rr - 1#16)) 8 ∧ t.regs.get16 rr = s.regs.get16 rr - 1#16))

/-! ## Rotates, shifts and bits (44_rotate_shift_bit.md) -/

/-- `RLCA`, `RRCA`, `RLA`, `RRA`: Z is cleared even when the result is 0 (R220 to R223). -/
def Obligations.AccumulatorRotatesClearZ : Prop :=
  ∀ (s : State) (p : Instr × Byte × Rot),
    p ∈ [(Instr.rlca, 0x07#8, Rot.rlc), (Instr.rrca, 0x0F#8, Rot.rrc), (Instr.rla, 0x17#8, Rot.rl),
      (Instr.rra, 0x1F#8, Rot.rr)] →
    let r := rotateArith p.2.2 s.regs.a.toNat (flagC s.regs.f)
    encode p.1 = [p.2.1] ∧
    Completes p.1 s (fun t => OnlyRegs s t { s.regs with a := BitVec.ofNat 8 r.1, f := t.regs.f } 4 ∧
      HasFlags t.regs.f false false false r.2)

/-- The eight CB-table rotates and shifts, on a register and, where the bus accepts the write, on the byte at HL
(R224 to R231, R219). -/
def Obligations.RotatesAndShifts : Prop :=
  ∀ (s : State) (op : Rot),
    (∀ r : Reg8,
      let q := rotateArith op (s.regs.get8 r).toNat (flagC s.regs.f)
      encode (rotateReg op r) = [0xCB#8, opcode 0 (rotateCode op) r.code] ∧
      Completes (rotateReg op r) s (fun t =>
        OnlyRegs s t { s.regs.set8 r (BitVec.ofNat 8 q.1) with f := t.regs.f } 8 ∧
        HasFlags t.regs.f (BitVec.ofNat 8 q.1 == 0#8) false false q.2)) ∧
    let q := rotateArith op (busRead s s.regs.hl).toNat (flagC s.regs.f)
    encode (rotateHl op) = [0xCB#8, opcode 0 (rotateCode op) 6] ∧
    (busRefusal s s.regs.hl (BitVec.ofNat 8 q.1) = none →
      Completes (rotateHl op) s (fun t =>
        RegsAndStore s t { s.regs with f := t.regs.f } s.regs.hl (BitVec.ofNat 8 q.1) 16 ∧
        HasFlags t.regs.f (BitVec.ofNat 8 q.1 == 0#8) false false q.2))

/-- `BIT b`: Z is the complement of the tested bit, C is kept, nothing is stored (R232). -/
def Obligations.BitTestWritesOnlyFlags : Prop :=
  ∀ (s : State) (b : Fin 8),
    (∀ r : Reg8, encode (.bitR b r) = [0xCB#8, opcode 1 b.val r.code] ∧
      Completes (.bitR b r) s (fun t => OnlyRegs s t { s.regs with f := t.regs.f } 8 ∧
        HasFlags t.regs.f (!(s.regs.get8 r).getLsbD b.val) false true (flagC s.regs.f))) ∧
    encode (.bitHl b) = [0xCB#8, opcode 1 b.val 6] ∧
    Completes (.bitHl b) s (fun t => OnlyRegs s t { s.regs with f := t.regs.f } 12 ∧
      HasFlags t.regs.f (!(busRead s s.regs.hl).getLsbD b.val) false true (flagC s.regs.f))

/-- `RES b` and `SET b`: bit `b` becomes 0 or 1, every other bit and every flag is kept (R233, R234). -/
def Obligations.ResAndSetChangeOneBit : Prop :=
  ∀ (s : State) (b : Fin 8) (v : Byte),
    (∀ k : Nat, k < 8 → (clearBit b v).getLsbD k = (v.getLsbD k && decide (k ≠ b.val)) ∧
      (setBit b v).getLsbD k = (v.getLsbD k || decide (k = b.val))) ∧
    (∀ r : Reg8, encode (.resR b r) = [0xCB#8, opcode 2 b.val r.code] ∧
      encode (.setR b r) = [0xCB#8, opcode 3 b.val r.code] ∧
      Completes (.resR b r) s (fun t => OnlyRegs s t (s.regs.set8 r (clearBit b (s.regs.get8 r))) 8) ∧
      Completes (.setR b r) s (fun t => OnlyRegs s t (s.regs.set8 r (setBit b (s.regs.get8 r))) 8)) ∧
    encode (.resHl b) = [0xCB#8, opcode 2 b.val 6] ∧ encode (.setHl b) = [0xCB#8, opcode 3 b.val 6] ∧
    (busRefusal s s.regs.hl (clearBit b (busRead s s.regs.hl)) = none →
      Completes (.resHl b) s (fun t =>
        RegsAndStore s t s.regs s.regs.hl (clearBit b (busRead s s.regs.hl)) 16)) ∧
    (busRefusal s s.regs.hl (setBit b (busRead s s.regs.hl)) = none →
      Completes (.setHl b) s (fun t =>
        RegsAndStore s t s.regs s.regs.hl (setBit b (busRead s s.regs.hl)) 16))

/-- `PREFIX CB`: one more byte is fetched and the instruction of the second table runs; it completes for every
register form and every `BIT`, and for the other `(HL)` forms where the bus accepts the write (46_system.md R265). -/
def Obligations.PrefixRunsTheSecondTable : Prop :=
  encode .prefixCb = [0xCB#8] ∧
  ∀ s : State,
    exec .prefixCb s = exec (decodeCb (fetchByte s)) (afterFetch s) ∧ FetchedPast s (afterFetch s) 1 ∧
    ((fetchByte s).toNat % 8 ≠ 6 ∨ (fetchByte s).toNat / 64 = 1 ∨
        (∀ v, busRefusal (afterFetch s) s.regs.hl v = none) → ∃ t, exec .prefixCb s = .next t)

/-! ## Jumps, calls, returns (45_control.md) -/

/-- The conditions (R240) and the jumps (R241 to R245): only PC changes, and by a relative jump from the address after
the instruction. -/
def Obligations.JumpsChangeOnlyPc : Prop :=
  (∀ f : Byte, condHolds .nz f = !f.getLsbD 7 ∧ condHolds .z f = f.getLsbD 7 ∧ condHolds .nc f = !f.getLsbD 4 ∧
    condHolds .c f = f.getLsbD 4) ∧
  ∀ s : State,
    (∀ nn : Word, encode (.jpNn nn) = [0xC3#8, loByte nn, hiByte nn] ∧
      Completes (.jpNn nn) s (fun t => OnlyRegs s t { s.regs with pc := nn } 16)) ∧
    (∀ (cc : Cond) (nn : Word), encode (.jpCcNn cc nn) = [opcode 3 cc.code 2, loByte nn, hiByte nn] ∧
      Completes (.jpCcNn cc nn) s (fun t =>
        if condHolds cc s.regs.f then OnlyRegs s t { s.regs with pc := nn } 16 else OnlyRegs s t s.regs 12)) ∧
    (encode .jpHl = [0xE9#8] ∧
      Completes .jpHl s (fun t => OnlyRegs s t { s.regs with pc := s.regs.hl } 4)) ∧
    (∀ e : Byte, encode (.jrE e) = [0x18#8, e] ∧
      Completes (.jrE e) s (fun t => OnlyRegs s t { s.regs with pc := s.regs.pc + e.signExtend 16 } 12)) ∧
    ∀ (cc : Cond) (e : Byte), encode (.jrCcE cc e) = [opcode 0 (4 + cc.code) 0, e] ∧
      Completes (.jrCcE cc e) s (fun t =>
        if condHolds cc s.regs.f then OnlyRegs s t { s.regs with pc := s.regs.pc + e.signExtend 16 } 12
        else OnlyRegs s t s.regs 8)

/-- `CALL nn`, `CALL cc,nn` and `RST t`, where the bus accepts the two writes of the push: PC is pushed and becomes
the target; a call not taken touches neither SP nor memory (R246, R247, R251). -/
def Obligations.CallsPushTheReturnAddress : Prop :=
  ∀ s : State,
    (∀ nn : Word, encode (.callNn nn) = [0xCD#8, loByte nn, hiByte nn] ∧
      (acceptsWord s (s.regs.sp - 2#16) s.regs.pc →
        Completes (.callNn nn) s (fun t =>
          RegsAndWord s t { s.regs with sp := s.regs.sp - 2#16, pc := nn } (s.regs.sp - 2#16) s.regs.pc 24))) ∧
    (∀ (cc : Cond) (nn : Word), encode (.callCcNn cc nn) = [opcode 3 cc.code 4, loByte nn, hiByte nn] ∧
      (condHolds cc s.regs.f = true → acceptsWord s (s.regs.sp - 2#16) s.regs.pc →
        Completes (.callCcNn cc nn) s (fun t =>
          RegsAndWord s t { s.regs with sp := s.regs.sp - 2#16, pc := nn } (s.regs.sp - 2#16) s.regs.pc 24)) ∧
      (condHolds cc s.regs.f = false → Completes (.callCcNn cc nn) s (fun t => OnlyRegs s t s.regs 12))) ∧
    ∀ k : Fin 8, encode (.rst k) = [opcode 3 k.val 7] ∧
      (acceptsWord s (s.regs.sp - 2#16) s.regs.pc →
        Completes (.rst k) s (fun t =>
          RegsAndWord s t { s.regs with sp := s.regs.sp - 2#16, pc := BitVec.ofNat 16 (8 * k.val) }
            (s.regs.sp - 2#16) s.regs.pc 16))

/-- `RET`, `RET cc` and `RETI`: PC is popped; `RETI` enables interrupts at once and restores nothing else (R248, R249,
R250; that `RETI` sets Enabled at once is the spec's decision D48). -/
def Obligations.ReturnsPopThePc : Prop :=
  ∀ s : State,
    (encode .ret = [0xC9#8] ∧
      Completes .ret s (fun t =>
        OnlyRegs s t { s.regs with sp := s.regs.sp + 2#16, pc := busRead16 s s.regs.sp } 16)) ∧
    (∀ cc : Cond, encode (.retCc cc) = [opcode 3 cc.code 0] ∧
      Completes (.retCc cc) s (fun t =>
        if condHolds cc s.regs.f then
          OnlyRegs s t { s.regs with sp := s.regs.sp + 2#16, pc := busRead16 s s.regs.sp } 20
        else OnlyRegs s t s.regs 8)) ∧
    (encode .reti = [0xD9#8] ∧
      Completes .reti s (fun t =>
        t.regs = { s.regs with sp := s.regs.sp + 2#16, pc := busRead16 s s.regs.sp } ∧ t.ime = .enabled ∧
        t.run = s.run ∧ t.cyc = s.cyc + 16 ∧ KeepsDevices s t ∧ NoStore s t))

/-! ## System instructions (46_system.md) -/

/-- `NOP`, `HALT`, `DI`, `EI`: one change each (R260, R261, R263, R264; that `EI` writes Scheduled whatever IME was is the
spec's decision D5, the 4 cycles of `HALT` its decision D47). -/
def Obligations.NopHaltDiAndEi : Prop :=
  ∀ s : State,
    (encode .nop = [0x00#8] ∧ Completes .nop s (fun t => OnlyRegs s t s.regs 4)) ∧
    (encode .halt = [0x76#8] ∧
      Completes .halt s (fun t => t.run = .halted ∧ t.ime = s.ime ∧ t.regs = s.regs ∧ t.cyc = s.cyc + 4 ∧
        KeepsDevices s t ∧ NoStore s t)) ∧
    (encode .di = [0xF3#8] ∧
      Completes .di s (fun t => t.ime = .disabled ∧ t.run = s.run ∧ t.regs = s.regs ∧ t.cyc = s.cyc + 4 ∧
        KeepsDevices s t ∧ NoStore s t)) ∧
    (encode .ei = [0xFB#8] ∧
      Completes .ei s (fun t => t.ime = .scheduled ∧ t.run = s.run ∧ t.regs = s.regs ∧ t.cyc = s.cyc + 4 ∧
        KeepsDevices s t ∧ NoStore s t))

/-- `STOP`: with KEY1 armed in CGB mode the speed toggles and the armed bit is consumed, and the CPU runs on; otherwise
it sleeps (R262; the cost of 4 cycles is the spec's decision D47). -/
def Obligations.StopSwitchesSpeedOrSleeps : Prop :=
  ∀ s : State, s.mem.wf →
    encode .stop = [0x10#8, 0x00#8] ∧
    (s.params.cgbMode = true → s.key1.getLsbD 0 = true →
      Completes .stop s (fun t => t.doubleSpeed = !s.doubleSpeed ∧ t.key1 = s.key1 &&& 0xFE#8 ∧ t.run = s.run ∧
        t.ime = s.ime ∧ t.regs = s.regs ∧ t.cyc = s.cyc + 4 ∧ KeepsDevices { s with doubleSpeed := t.doubleSpeed } t ∧
        t.mbc = s.mbc ∧ t.timer = s.timer ∧
        ∀ x, x ≠ 0xFF4D#16 → inApuRange x = false → busRead t x = busRead s x)) ∧
    ((s.params.cgbMode && s.key1.getLsbD 0) = false →
      Completes .stop s (fun t => t.run = .stopped ∧ t.ime = s.ime ∧ t.regs = s.regs ∧ t.cyc = s.cyc + 4 ∧
        KeepsDevices s t ∧ NoStore s t))

/-! ## The bus (20_memory.md R60 to R100) -/

/-- One bus write changes only what 20_memory.md R123 lets it change, and plain RAM, through the mirror too, reads back
what was written (R62, R64, R65, R67, R68, R100). What the bus does not show at that moment is kept too: a store to plain
RAM writes the byte of the array that its address selects and no other byte of any array or bank, no controller, Timer or
I/O register; a store below 0x8000 writes the controller alone; one to the RAM window writes `eram` or the controller;
one to the I/O range writes, beside the I/O file, the array or counter that its one register is the way to. First, which
byte of which array an address selects, with the banks of VBK and SVBK (R60, R94, R99). -/
def Obligations.BusWriteReachesOneCell : Prop :=
  (∀ (s : State) (a : Word),
    let n := a.toNat
    (n ≤ 0x7FFF → route s a = .rom) ∧
    (0x8000 ≤ n → n ≤ 0x9FFF →
      route s a = .vram ((if s.params.cgbMode then s.vbk.toNat % 2 else 0) * 0x2000 + (n - 0x8000))) ∧
    (0xA000 ≤ n → n ≤ 0xBFFF → route s a = .eram) ∧
    (0xC000 ≤ n → n ≤ 0xCFFF → route s a = .wram (n - 0xC000)) ∧
    (0xD000 ≤ n → n ≤ 0xDFFF →
      route s a = .wram ((if s.params.cgbMode then max 1 (s.svbk.toNat % 8) else 1) * 0x1000 + (n - 0xD000))) ∧
    (0xE000 ≤ n → n ≤ 0xFDFF → route s a = route s (a - 0x2000#16)) ∧
    (0xFE00 ≤ n → n ≤ 0xFE9F → route s a = .oam (n - 0xFE00)) ∧
    (0xFEA0 ≤ n → n ≤ 0xFEFF → route s a = .unusable) ∧
    (0xFF00 ≤ n → n ≤ 0xFF7F → route s a = .io (n - 0xFF00)) ∧
    (0xFF80 ≤ n → n ≤ 0xFFFE → route s a = .hram (n - 0xFF80)) ∧
    (n = 0xFFFF → route s a = .ie) ∧
    (∀ o, route s a = .vram o → busRead s a = s.mem.vram.read o) ∧
    (∀ o, route s a = .wram o → busRead s a = s.mem.wram.read o) ∧
    (∀ o, route s a = .oam o → busRead s a = s.mem.oam.read o) ∧
    (∀ o, route s a = .hram o → busRead s a = s.mem.hram.read o) ∧
    (route s a = .ie → busRead s a = s.mem.ie)) ∧
  ∀ (s : State) (a : Word) (v : Byte), StoredAt s (busStore s a v) a v ∧ KeepsDevices s (busStore s a v) ∧
    KeepsControl s (busStore s a v) ∧ (busStore s a v).regs = s.regs ∧
    (0xE000 ≤ a.toNat → a.toNat ≤ 0xFDFF →
      busRead s a = busRead s (a - 0x2000#16) ∧ busStore s a v = busStore s (a - 0x2000#16) v) ∧
    (0xFEA0 ≤ a.toNat → a.toNat ≤ 0xFEFF → busRead s a = s.params.unusableRead ∧ busStore s a v = s) ∧
    (s.mem.wf → plainRam a = true →
      let t := busStore s a v
      t.mbc = s.mbc ∧ t.timer = s.timer ∧ t.host = s.host ∧ t.mem.eram = s.mem.eram ∧ t.mem.io = s.mem.io ∧
      t.mem.bgpal = s.mem.bgpal ∧ t.mem.objpal = s.mem.objpal ∧
      (∀ o, t.mem.vram.read o = if route s a = .vram o then v else s.mem.vram.read o) ∧
      (∀ o, t.mem.wram.read o = if route s a = .wram o then v else s.mem.wram.read o) ∧
      (∀ o, t.mem.oam.read o = if route s a = .oam o then v else s.mem.oam.read o) ∧
      (∀ o, t.mem.hram.read o = if route s a = .hram o then v else s.mem.hram.read o) ∧
      t.mem.ie = if route s a = .ie then v else s.mem.ie) ∧
    (a.toNat ≤ 0x7FFF → busStore s a v = { s with mbc := (busStore s a v).mbc }) ∧
    (0xA000 ≤ a.toNat → a.toNat ≤ 0xBFFF →
      busStore s a v = { s with mbc := (busStore s a v).mbc, mem.eram := (busStore s a v).mem.eram } ∧
      ((busStore s a v).mbc = s.mbc ∨ (busStore s a v).mem.eram = s.mem.eram)) ∧
    (0xFF00 ≤ a.toNat → a.toNat ≤ 0xFF7F →
      let t := busStore s a v
      t.mbc = s.mbc ∧ t.mem.eram = s.mem.eram ∧ t.mem.wram = s.mem.wram ∧ t.mem.hram = s.mem.hram ∧
      t.mem.ie = s.mem.ie ∧ (a ≠ 0xFF55#16 → t.mem.vram = s.mem.vram) ∧ (a ≠ 0xFF46#16 → t.mem.oam = s.mem.oam) ∧
      (a ≠ 0xFF69#16 → t.mem.bgpal = s.mem.bgpal) ∧ (a ≠ 0xFF6B#16 → t.mem.objpal = s.mem.objpal) ∧
      (a ≠ 0xFF04#16 → a ≠ 0xFF07#16 → t.timer = s.timer) ∧
      (a ≠ 0xFF46#16 → a ≠ 0xFF55#16 → t.host = s.host))

/-- The registers of the I/O file that are storage under a mask: after a write of `v`, a read gives
`(old & ~WMASK) | (v & WMASK)` with the unimplemented bits 1, and but for TAC, LYC and DMA the write changes that byte of
the file and nothing else; an offset that R70 does not list, or lists for CGB only when not CGB, reads 0xFF; a write to
it, to LY or to the APU range changes nothing at all; and the special reads and stores of DIV, P1, KEY1, the palette data
registers and the HDMA registers (R70, R71, R73, R81, R84, R93, R96 to R98; the unimplemented offsets are the spec's
decision D12). -/
def Obligations.IoRegistersStoreUnderTheirMasks : Prop :=
  ∀ (s : State) (v : Byte), s.mem.wf →
    (∀ e : Nat × Byte × Byte,
      e ∈ [(0x01, 0xFF#8, 0x00#8), (0x02, if s.params.cgbMode then 0x83#8 else 0x81#8,
          if s.params.cgbMode then 0x7C#8 else 0x7E#8), (0x05, 0xFF#8, 0x00#8), (0x06, 0xFF#8, 0x00#8),
        (0x07, 0x07#8, 0xF8#8), (0x0F, 0x1F#8, 0xE0#8), (0x40, 0xFF#8, 0x00#8), (0x41, 0x78#8, 0x80#8),
        (0x42, 0xFF#8, 0x00#8), (0x43, 0xFF#8, 0x00#8), (0x44, 0x00#8, 0x00#8), (0x45, 0xFF#8, 0x00#8),
        (0x46, 0xFF#8, 0x00#8), (0x47, 0xFF#8, 0x00#8), (0x48, 0xFF#8, 0x00#8), (0x49, 0xFF#8, 0x00#8),
        (0x4A, 0xFF#8, 0x00#8), (0x4B, 0xFF#8, 0x00#8), (0x50, 0xFF#8, 0x00#8)] ∨
      s.params.cgbMode = true ∧ e ∈ [(0x4F, 0x01#8, 0xFE#8), (0x68, 0xBF#8, 0x40#8), (0x6A, 0xBF#8, 0x40#8),
        (0x70, 0x07#8, 0xF8#8)] →
      busRead (busStore s (0xFF00#16 + BitVec.ofNat 16 e.1) v) (0xFF00#16 + BitVec.ofNat 16 e.1) =
        ((s.io e.1 &&& ~~~e.2.1) ||| (v &&& e.2.1) ||| e.2.2) ∧
      (e.1 ∉ [0x07, 0x45, 0x46] → busStore s (0xFF00#16 + BitVec.ofNat 16 e.1) v =
        s.setIo e.1 ((s.io e.1 &&& ~~~e.2.1) ||| (v &&& e.2.1)))) ∧
    (∀ o : Nat, (o = 0x03 ∨ (0x08 ≤ o ∧ o ≤ 0x0E) ∨ o = 0x4C ∨ o = 0x4E ∨ (0x56 ≤ o ∧ o ≤ 0x67) ∨
        (0x6C ≤ o ∧ o ≤ 0x6F) ∨ (0x71 ≤ o ∧ o ≤ 0x7F) ∨
        (s.params.cgbMode = false ∧ (o = 0x4D ∨ o = 0x4F ∨ (0x51 ≤ o ∧ o ≤ 0x55) ∨ (0x68 ≤ o ∧ o ≤ 0x6B) ∨
          o = 0x70))) →
      busRead s (0xFF00#16 + BitVec.ofNat 16 o) = 0xFF#8 ∧ busStore s (0xFF00#16 + BitVec.ofNat 16 o) v = s) ∧
    (∀ o : Nat, o = 0x44 ∨ (0x10 ≤ o ∧ o ≤ 0x3F) → busStore s (0xFF00#16 + BitVec.ofNat 16 o) v = s) ∧
    busRead s 0xFF04#16 = hiByte s.timer.divctr ∧
    busStore s 0xFF00#16 v = s.setIo 0x00 ((s.p1 &&& 0xCF#8) ||| (v &&& 0x30#8)) ∧
    (s.params.cgbMode = true →
      (s.key1 &&& 0xFE#8 = 0#8 → busRead s 0xFF4D#16 = (if s.doubleSpeed then 0xFE#8 else 0x7E#8) ||| s.key1) ∧
      busStore s 0xFF4D#16 v = s.setIo 0x4D ((s.key1 &&& 0xFE#8) ||| (v &&& 0x01#8)) ∧
      busRead s 0xFF69#16 = s.mem.bgpal.read (s.bcps &&& 0x3F#8).toNat ∧
      busRead s 0xFF6B#16 = s.mem.objpal.read (s.ocps &&& 0x3F#8).toNat ∧
      ∀ o, 0x51 ≤ o → o ≤ 0x55 → busRead s (0xFF00#16 + BitVec.ofNat 16 o) = 0xFF#8 ∧
        (o ≠ 0x55 → busStore s (0xFF00#16 + BitVec.ofNat 16 o) v = s.setIo o v))

/-- The writes with an effect beyond storing the byte: DIV clears its counter and accumulator, TAC clears TIMA's
accumulator, LYC re-evaluates the compare bit and requests nothing, the palette data registers store at the index and
step it when bit 7 is set; nothing else changes (R73, R76, R82, R96, R97; the cleared hidden parts and the missing request
are the spec's decisions D14, D15, D29). -/
def Obligations.RegisterWriteSideEffects : Prop :=
  ∀ (s : State) (v : Byte), s.mem.wf →
    busStore s 0xFF04#16 v = { s with timer := { divctr := 0#16, divAcc := 0, timaAcc := s.timer.timaAcc } } ∧
    (busStore s 0xFF07#16 v =
        { s.setIo 0x07 ((s.tac &&& 0xF8#8) ||| (v &&& 0x07#8)) with timer := { s.timer with timaAcc := 0 } } ∧
      (busStore s 0xFF07#16 v).tac &&& 0x07#8 = v &&& 0x07#8) ∧
    ((busStore s 0xFF45#16 v).lyc = v ∧
      (busStore s 0xFF45#16 v).stat = (s.stat &&& 0xFB#8) ||| (if s.ly = v then 0x04#8 else 0x00#8) ∧
      (busStore s 0xFF45#16 v).ifReg = s.ifReg ∧
      busStore s 0xFF45#16 v = (s.setIo 0x45 v).setIo 0x41 (busStore s 0xFF45#16 v).stat) ∧
    (s.params.cgbMode = true →
      (busStore s 0xFF69#16 v).mem.bgpal = s.mem.bgpal.write (s.bcps &&& 0x3F#8).toNat v ∧
      (busStore s 0xFF69#16 v).bcps = (if s.bcps.getLsbD 7 then
        0x80#8 ||| ((s.bcps + 1#8) &&& 0x3F#8) else s.bcps) ∧
      busStore s 0xFF69#16 v = { s with
        mem.bgpal := (busStore s 0xFF69#16 v).mem.bgpal
        mem.io := s.mem.io.write 0x68 (busStore s 0xFF69#16 v).bcps } ∧
      (busStore s 0xFF6B#16 v).mem.objpal = s.mem.objpal.write (s.ocps &&& 0x3F#8).toNat v ∧
      (busStore s 0xFF6B#16 v).ocps = (if s.ocps.getLsbD 7 then
        0x80#8 ||| ((s.ocps + 1#8) &&& 0x3F#8) else s.ocps) ∧
      busStore s 0xFF6B#16 v = { s with
        mem.objpal := (busStore s 0xFF6B#16 v).mem.objpal
        mem.io := s.mem.io.write 0x6A (busStore s 0xFF6B#16 v).ocps })

/-- A write of `page` to DMA copies the 160 bytes from `page * 256` into OAM, as they read when the write has stored
DMA itself, and changes nothing else of the state but DMA and the model's count of bytes drawn (log 4). The bytes copied
from the APU range (page 0xFF, offsets 0x10 to 0x3F) are free values and are left open; it takes no cycles (R83, R84; the
source read through the bus for every page is the spec's decision D19). -/
def Obligations.OamDmaCopiesThePage : Prop :=
  ∀ (s : State) (page : Byte), s.mem.wf →
    (busStore s 0xFF46#16 page).dma = page ∧
    (∀ i, i < 160 →
      let a := BitVec.ofNat 16 (page.toNat * 256 + i)
      inApuRange a = false →
        (busStore s 0xFF46#16 page).mem.oam.read i = if a = 0xFF46#16 then page else busRead s a) ∧
    busStore s 0xFF46#16 page = { s.setIo 0x46 page with
      mem.oam := (busStore s 0xFF46#16 page).mem.oam
      host.draws := (busStore s 0xFF46#16 page).host.draws } ∧
    ∀ x, x ≠ 0xFF46#16 → ¬(0xFE00 ≤ x.toNat ∧ x.toNat ≤ 0xFE9F) → inApuRange x = false →
      busRead (busStore s 0xFF46#16 page) x = busRead s x

/-- General-purpose DMA, where it is not refused, copies `(v[6:0] + 1) * 16` bytes into the video RAM bank that is
selected, wrapping inside it, and changes nothing else of the state: HDMA1 to HDMA4 are as they were (R98). -/
def Obligations.GeneralDmaCopiesIntoVideoRam : Prop :=
  ∀ (s : State) (v : Byte), s.mem.wf → s.params.cgbMode = true → busRefusal s 0xFF55#16 v = none →
    let t := busStore s 0xFF55#16 v
    let src := (joinBytes (s.hdma 1) (s.hdma 2) &&& 0xFFF0#16).toNat
    let dst := (joinBytes (s.hdma 3) (s.hdma 4) &&& 0x1FF0#16).toNat
    let bank := s.vbk.toNat % 2
    (∀ i, i < (v.toNat % 128 + 1) * 16 →
      t.mem.vram.read (bank * 0x2000 + (dst + i) % 0x2000) = busRead s (BitVec.ofNat 16 (src + i))) ∧
    (∀ o, (∀ i, i < (v.toNat % 128 + 1) * 16 → o ≠ bank * 0x2000 + (dst + i) % 0x2000) →
      t.mem.vram.read o = s.mem.vram.read o) ∧
    t = { s with mem.vram := t.mem.vram } ∧
    ∀ x, ¬(0x8000 ≤ x.toNat ∧ x.toNat ≤ 0x9FFF) → inApuRange x = false → busRead t x = busRead s x

/-! ## Bank controllers (20_memory.md R102 to R119) -/

/-- Variant None shows the image modulo its size and has no registers; the boot overlay shows the boot ROM, whatever
the variant, just while BOOT is 0x00, and captures no write: a store there is the controller's register write, as without
the overlay, and no image changes; and every variant's RAM window is closed, reading 0xFF
and ignoring writes, when its enable byte is not 0x0A or there is no RAM (R63, R66, R104, R119; that the overlay comes
back and that a RAM of size 0 is closed are the spec's decisions D43, D21). -/
def Obligations.NoControllerAndTheRamGate : Prop :=
  ∀ (s : State) (a : Word) (v : Byte),
    (s.mbc = .none → a.toNat < 0x8000 → busStore s a v = s ∧
      ((s.bootActive && inOverlay s.params a.toNat) = false →
        busRead s a = s.params.rom.read (a.toNat % s.params.romSize))) ∧
    (a.toNat < 0x8000 → s.boot = 0#8 → inOverlay s.params a.toNat = true →
      busRead s a = s.params.bootRom.read a.toNat ∧ busStore s a v = { s with mbc := s.mbc.regWrite a.toNat v } ∧
      (∀ w : Byte, busStore (s.setIo 0x50 w) a v = (busStore s a v).setIo 0x50 w)) ∧
    (a.toNat < 0x8000 → s.boot ≠ 0#8 → (s.bootActive && inOverlay s.params a.toNat) = false) ∧
    (0xA000 ≤ a.toNat → a.toNat ≤ 0xBFFF →
      ((∃ e, s.mbc.enableByte = some e ∧ e ≠ 0x0A#8) ∨ s.params.ramSize = 0 →
        busRead s a = 0xFF#8 ∧ busStore s a v = s) ∧
      (s.mbc = .none → s.params.ramSize ≠ 0 →
        busRead s a = s.mem.eram.read ((a.toNat - 0xA000) % s.params.ramSize) ∧
        busStore s a v = { s with mem.eram := s.mem.eram.write ((a.toNat - 0xA000) % s.params.ramSize) v }))

/-- MBC1: the register windows write the enable byte, the 5-bit low field, the 2-bit high field and the mode flag, each
alone; the ROM and RAM windows show the banks these give (R103, R105, R106, R107). -/
def Obligations.Mbc1RegistersAndBanks : Prop :=
  ∀ (s : State) (e b : Byte), s.mbc = .mbc1 e b →
    (∀ (a : Word) (v : Byte), a.toNat < 0x8000 → ∃ e' b', busStore s a v = { s with mbc := .mbc1 e' b' } ∧
      e' = (if a.toNat < 0x2000 then v else e) ∧
      b'.toNat % 32 = (if 0x2000 ≤ a.toNat ∧ a.toNat < 0x4000 then v.toNat % 32 else b.toNat % 32) ∧
      b'.toNat / 32 % 4 = (if 0x4000 ≤ a.toNat ∧ a.toNat < 0x6000 then v.toNat % 4 else b.toNat / 32 % 4) ∧
      b'.toNat / 128 = (if 0x6000 ≤ a.toNat then v.toNat % 2 else b.toNat / 128)) ∧
    (∀ a : Word, a.toNat < 0x8000 → (s.bootActive && inOverlay s.params a.toNat) = false →
      let high := b.toNat / 32 % 4
      let low := if b.toNat % 32 = 0 then 1 else b.toNat % 32
      let bank := if a.toNat < 0x4000 then (if 128 ≤ b.toNat then high * 32 else 0) else high * 32 + low
      busRead s a = s.params.rom.read ((bank * 0x4000 + a.toNat % 0x4000) % s.params.romSize)) ∧
    ∀ (a : Word) (v : Byte), 0xA000 ≤ a.toNat → a.toNat ≤ 0xBFFF → e = 0x0A#8 → s.params.ramSize ≠ 0 →
      let o := ((if 128 ≤ b.toNat then b.toNat / 32 % 4 else 0) * 0x2000 + (a.toNat - 0xA000)) % s.params.ramSize
      busRead s a = s.mem.eram.read o ∧ busStore s a v = { s with mem.eram := s.mem.eram.write o v }

/-- MBC2 and MBC5: register windows, ROM banks (0 reads as 1 on MBC2 only), RAM (R108, R109, R110, R116, R117). -/
def Obligations.Mbc2AndMbc5RegistersAndBanks : Prop :=
  ∀ s : State,
    (∀ (e : Byte) (rb : BitVec 4), s.mbc = .mbc2 e rb →
      (∀ (a : Word) (v : Byte), a.toNat < 0x8000 → busStore s a v = { s with mbc :=
        (if 0x4000 ≤ a.toNat then .mbc2 e rb
          else if a.getLsbD 8 then .mbc2 e (v.setWidth 4) else .mbc2 v rb) }) ∧
      (∀ a : Word, a.toNat < 0x8000 → (s.bootActive && inOverlay s.params a.toNat) = false →
        let bank := if a.toNat < 0x4000 then 0 else if rb = 0#4 then 1 else rb.toNat
        busRead s a = s.params.rom.read ((bank * 0x4000 + a.toNat % 0x4000) % s.params.romSize)) ∧
      ∀ (a : Word) (v : Byte), 0xA000 ≤ a.toNat → a.toNat ≤ 0xBFFF → e = 0x0A#8 → s.params.ramSize = 512 →
        busRead s a = 0xF0#8 ||| (s.mem.eram.read ((a.toNat - 0xA000) % 512) &&& 0x0F#8) ∧
        busStore s a v = { s with mem.eram := s.mem.eram.write ((a.toNat - 0xA000) % 512) (v &&& 0x0F#8) }) ∧
    ∀ (e : Byte) (rb : BitVec 9) (ram : BitVec 4), s.mbc = .mbc5 e rb ram →
      (∀ (a : Word) (v : Byte), a.toNat < 0x8000 → ∃ e' rb' ram', busStore s a v =
          { s with mbc := .mbc5 e' rb' ram' } ∧
        e' = (if a.toNat < 0x2000 then v else e) ∧
        rb'.toNat % 256 = (if 0x2000 ≤ a.toNat ∧ a.toNat < 0x3000 then v.toNat else rb.toNat % 256) ∧
        rb'.toNat / 256 = (if 0x3000 ≤ a.toNat ∧ a.toNat < 0x4000 then v.toNat % 2 else rb.toNat / 256) ∧
        ram'.toNat = (if 0x4000 ≤ a.toNat ∧ a.toNat < 0x6000 then v.toNat % 16 else ram.toNat)) ∧
      (∀ a : Word, a.toNat < 0x8000 → (s.bootActive && inOverlay s.params a.toNat) = false →
        let bank := if a.toNat < 0x4000 then 0 else rb.toNat
        busRead s a = s.params.rom.read ((bank * 0x4000 + a.toNat % 0x4000) % s.params.romSize)) ∧
      ∀ (a : Word) (v : Byte), 0xA000 ≤ a.toNat → a.toNat ≤ 0xBFFF → e = 0x0A#8 → s.params.ramSize ≠ 0 →
        let o := (ram.toNat * 0x2000 + (a.toNat - 0xA000)) % s.params.ramSize
        busRead s a = s.mem.eram.read o ∧ busStore s a v = { s with mem.eram := s.mem.eram.write o v }

/-- MBC3: register windows with the latch on a 0x00 to 0x01 write, ROM banks, and the RAM window as RAM, as the latched
clock, or closed, by `sel` (R111 to R115; the masks and the closed case are the spec's decisions D49, D23). -/
def Obligations.Mbc3RegistersBanksAndClock : Prop :=
  ∀ (s : State) (e : Byte) (rb : BitVec 7) (sel latch : Byte) (live latched : Rtc),
    s.mbc = .mbc3 e rb sel latch live latched →
    (∀ (a : Word) (v : Byte), a.toNat < 0x8000 → busStore s a v = { s with mbc :=
      (if a.toNat < 0x2000 then .mbc3 v rb sel latch live latched
        else if a.toNat < 0x4000 then .mbc3 e (v.setWidth 7) sel latch live latched
        else if a.toNat < 0x6000 then .mbc3 e rb v latch live latched
        else if latch = 0x00#8 ∧ v = 0x01#8 then .mbc3 e rb sel v live live
        else .mbc3 e rb sel v live latched) }) ∧
    (∀ a : Word, a.toNat < 0x8000 → (s.bootActive && inOverlay s.params a.toNat) = false →
      let bank := if a.toNat < 0x4000 then 0 else if rb = 0#7 then 1 else rb.toNat
      busRead s a = s.params.rom.read ((bank * 0x4000 + a.toNat % 0x4000) % s.params.romSize)) ∧
    ∀ (a : Word) (v : Byte), 0xA000 ≤ a.toNat → a.toNat ≤ 0xBFFF → e = 0x0A#8 → s.params.ramSize ≠ 0 →
      (sel.toNat ≤ 3 →
        let o := (sel.toNat * 0x2000 + (a.toNat - 0xA000)) % s.params.ramSize
        busRead s a = s.mem.eram.read o ∧ busStore s a v = { s with mem.eram := s.mem.eram.write o v }) ∧
      (sel = 0x08#8 → busRead s a = latched.s ∧ busStore s a v =
        { s with mbc := .mbc3 e rb sel latch { live with s := v &&& 0x3F#8 } latched }) ∧
      (sel = 0x09#8 → busRead s a = latched.m ∧ busStore s a v =
        { s with mbc := .mbc3 e rb sel latch { live with m := v &&& 0x3F#8 } latched }) ∧
      (sel = 0x0A#8 → busRead s a = latched.h ∧ busStore s a v =
        { s with mbc := .mbc3 e rb sel latch { live with h := v &&& 0x1F#8 } latched }) ∧
      (sel = 0x0B#8 → busRead s a = latched.dl ∧ busStore s a v =
        { s with mbc := .mbc3 e rb sel latch { live with dl := v } latched }) ∧
      (sel = 0x0C#8 → busRead s a = latched.dh ∧ busStore s a v =
        { s with mbc := .mbc3 e rb sel latch { live with dh := v &&& 0xC1#8 } latched }) ∧
      ((4 ≤ sel.toNat ∧ sel.toNat ≤ 7) ∨ 0x0D ≤ sel.toNat → busRead s a = 0xFF#8 ∧ busStore s a v = s)

/-- One tick of a clock whose fields are in range adds one second modulo 512 days and sets the carry when the days
overflow; a halted clock does not move; a field that is not at its last value counts on at its bit width, also when it
was set out of range. `RtcTick` does this to the live clock of MBC3, and changes neither the snapshot nor another
register, nor any other variant; and the ticks due before a step change nothing but the controller (R118, the spec's
decision D49; that the moments of the ticks are a list is the model's, log 5). -/
def Obligations.ClockTickAddsOneSecond : Prop :=
  (∀ r : Rtc,
    (r.dh.getLsbD 6 = true → r.second = r) ∧
    (r.dh.getLsbD 6 = false →
      (r.inRange →
        r.second.inRange ∧ r.second.seconds = (r.seconds + 1) % (512 * 86400) ∧
        r.second.dh &&& 0x7E#8 = r.dh &&& 0x7E#8 ∧
        r.second.dh.getLsbD 7 = (r.dh.getLsbD 7 || decide (r.seconds + 1 = 512 * 86400))) ∧
      (r.s &&& 0x3F#8 ≠ 59#8 → r.second = { r with s := (r.s + 1#8) &&& 0x3F#8 }) ∧
      (r.s &&& 0x3F#8 = 59#8 → r.m &&& 0x3F#8 ≠ 59#8 → r.second = { r with s := 0#8, m := (r.m + 1#8) &&& 0x3F#8 }) ∧
      (r.s &&& 0x3F#8 = 59#8 → r.m &&& 0x3F#8 = 59#8 → r.h &&& 0x1F#8 ≠ 23#8 →
        r.second = { r with s := 0#8, m := 0#8, h := (r.h + 1#8) &&& 0x1F#8 }))) ∧
  (∀ (e : Byte) (rb : BitVec 7) (sel latch : Byte) (live latched : Rtc),
    (Mbc.mbc3 e rb sel latch live latched).rtcTick = .mbc3 e rb sel latch live.second latched) ∧
  (∀ m : Mbc, m.kind ≠ .mbc3 → m.rtcTick = m) ∧
  (∀ (m : Mbc) (n : Nat), m.rtcTicks 0 = m ∧ m.rtcTicks (n + 1) = (m.rtcTicks n).rtcTick) ∧
  ∀ s : State,
    (s.host.rtcTicks = [] → clockMove s = s) ∧
    ∀ n ns, s.host.rtcTicks = n :: ns → clockMove s = { s with mbc := s.mbc.rtcTicks n, host.rtcTicks := ns }

/-! ## Timer and joypad (60_exceptions.md R330 to R340) -/

/-- `TimerAdvance(n)` of the model, in closed form, is the two loops of R330, for periods that are not 0 (R330, the
spec's decision D15; log 9). -/
def Obligations.TimerAdvanceIsTheLoops : Prop :=
  ∀ (s : State) (n : Nat), 0 < s.params.divTickCycles → 0 < timaPeriod s.params s.tac →
    timerAdvance s n = timerAdvanceLoops s n

/-- An increment of TIMA at 0xFF reloads TMA and requests the Timer interrupt in the same increment; any other adds one
and requests nothing (R332, R333). -/
def Obligations.TimaOverflowReloadsAndRequests : Prop :=
  ∀ s : State, s.mem.wf →
    (s.tima = 0xFF#8 → (timaIncrement s).tima = s.tma ∧ (timaIncrement s).ifReg = s.ifReg ||| 0x04#8) ∧
    (s.tima ≠ 0xFF#8 → (timaIncrement s).tima = s.tima + 1#8 ∧ (timaIncrement s).ifReg = s.ifReg) ∧
    (timaIncrement s).tma = s.tma ∧ (timaIncrement s).tac = s.tac ∧ (timaIncrement s).regs = s.regs

/-- A sample requests the Joypad interrupt just when some key of a selected group is pressed now and was not in the
sample before; a read of P1 shows the selected groups' pressed keys as zeros (R340, the spec's
decision D17; 20_memory.md R71). The host samples at the entry of a frame and at no other step, before the interrupt
phase (R313; the list of samples and what follows its end are the model's, log 6). -/
def Obligations.JoypadSampleAndRead : Prop :=
  ∀ (s : State) (k : Keys), s.mem.wf →
    (sampleKeys k s).keys = k ∧ (sampleKeys k s).keysPrev = s.keys ∧
    (sampleKeys k s).ifReg = (if (s.p1.getLsbD 4 = false ∧ ((k.right = true ∧ s.keys.right = false) ∨
          (k.left = true ∧ s.keys.left = false) ∨ (k.up = true ∧ s.keys.up = false) ∨
          (k.down = true ∧ s.keys.down = false))) ∨
        (s.p1.getLsbD 5 = false ∧ ((k.a = true ∧ s.keys.a = false) ∨ (k.b = true ∧ s.keys.b = false) ∨
          (k.select = true ∧ s.keys.select = false) ∨ (k.start = true ∧ s.keys.start = false)))
      then s.ifReg ||| 0x10#8 else s.ifReg) ∧
    (sampleKeys k s).regs = s.regs ∧
    sampleKeys k s = { s with keysPrev := s.keys, keys := k, mem.io := (sampleKeys k s).mem.io } ∧
    (∀ o, o ≠ 0x0F → (sampleKeys k s).io o = s.io o) ∧
    environment s = clockMove (hostMove s) ∧
    (s.host.frameEntry = false → hostMove s = s) ∧
    (∀ ks, s.host.frameEntry = true → s.host.keySamples = k :: ks →
      hostMove s = sampleKeys k { s with host.keySamples := ks }) ∧
    (s.host.frameEntry = true → s.host.keySamples = [] → hostMove s = sampleKeys s.keys s) ∧
    (busRead s 0xFF00#16).getLsbD 0 = !((!s.p1.getLsbD 4 && s.keys.right) || (!s.p1.getLsbD 5 && s.keys.a)) ∧
    (busRead s 0xFF00#16).getLsbD 1 = !((!s.p1.getLsbD 4 && s.keys.left) || (!s.p1.getLsbD 5 && s.keys.b)) ∧
    (busRead s 0xFF00#16).getLsbD 2 = !((!s.p1.getLsbD 4 && s.keys.up) || (!s.p1.getLsbD 5 && s.keys.select)) ∧
    (busRead s 0xFF00#16).getLsbD 3 = !((!s.p1.getLsbD 4 && s.keys.down) || (!s.p1.getLsbD 5 && s.keys.start)) ∧
    busRead s 0xFF00#16 &&& 0xF0#8 = 0xC0#8 ||| (s.p1 &&& 0x30#8)

/-! ## The PPU (60_exceptions.md R350 to R375) -/

/-- The start of a line with the LCD on: LY, the compare bit, the mode, the selected sprites, and the requests of
LY = LYC, mode 2, VBlank and mode 1 (R354, R355, R356, R359, R360; that each event requests by itself, with no blocking,
is the spec's decision D29). -/
def Obligations.LineStartEvents : Prop :=
  ∀ (s : State) (y : Nat), s.mem.wf → s.lcdcBit 7 = true → y < 154 → (s.ppu.cycle + 1) % 70224 = 456 * y →
    let t := ppuDot s
    let equal := decide (BitVec.ofNat 8 y = s.lyc)
    t.ly = BitVec.ofNat 8 y ∧
    t.stat = (s.stat &&& 0xF8#8) ||| (if equal then 0x04#8 else 0x00#8) |||
      (if y < 144 then 0x02#8 else if y = 144 then 0x01#8 else s.stat &&& 0x03#8) ∧
    t.ifReg = s.ifReg ||| (if y = 144 then 0x01#8 else 0x00#8) |||
      (if (equal && s.stat.getLsbD 6) || (decide (y < 144) && s.stat.getLsbD 5) ||
          (decide (y = 144) && s.stat.getLsbD 4) then 0x02#8 else 0x00#8) ∧
    t.ppu.lineSprites = (if y < 144 then selectSprites s y else s.ppu.lineSprites) ∧
    t.ppu.fb = s.ppu.fb ∧ t.ppu.cycle = 456 * y ∧ t.regs = s.regs ∧ t.ime = s.ime ∧ t.run = s.run ∧
    t.mem.vram = s.mem.vram ∧ t.mem.oam = s.mem.oam ∧ t.mem.ie = s.mem.ie ∧ t.mbc = s.mbc ∧ t.timer = s.timer

/-- Dot 80 renders the line, 160 pixels with `pixel y x` in column `x`, and enters mode 3; dot 252 enters mode 0 with its request; at any other dot, and at every
dot with the LCD off, nothing happens but the count, and the blank frame at the wrap (R352, R353, R357, R358,
R362, R375; the LCD-off case is the spec's decision D28, the line rendered at one moment its decision D26). -/
def Obligations.OtherDotEvents : Prop :=
  ∀ s : State, s.mem.wf →
    let c := (s.ppu.cycle + 1) % 70224
    let t := ppuDot s
    (s.lcdcBit 7 = false → t = { s with ppu.cycle := c, ppu.fb := if c = 0 then Ppu.blankFrame else s.ppu.fb }) ∧
    (s.lcdcBit 7 = true → c % 456 ≠ 0 → ¬((c % 456 = 80 ∨ c % 456 = 252) ∧ c / 456 < 144) →
      t = { s with ppu.cycle := c }) ∧
    (s.lcdcBit 7 = true → c % 456 = 80 → c / 456 < 144 →
      t.stat = s.stat ||| 0x03#8 ∧ t.ifReg = s.ifReg ∧ t.ly = s.ly ∧
      t.ppu.fb = s.ppu.fb.set (c / 456) (t.renderLine (c / 456)) ∧ t.ppu.lineSprites = s.ppu.lineSprites ∧
      (t.renderLine (c / 456)).length = 160 ∧
      (∀ x, x < 160 → (t.renderLine (c / 456))[x]? = some (t.pixel (c / 456) x))) ∧
    (s.lcdcBit 7 = true → c % 456 = 252 → c / 456 < 144 →
      t.stat = s.stat &&& 0xFC#8 ∧ t.ifReg = (if s.stat.getLsbD 3 then s.ifReg ||| 0x02#8 else s.ifReg) ∧
      t.ly = s.ly ∧ t.ppu.fb = s.ppu.fb ∧ t.ppu.lineSprites = s.ppu.lineSprites)

/-- `PpuAdvance(n)` is `n` dots, one after another; they move the frame counter by `n` modulo 70224, and a wrap is
reported just when it passes 0 (R313, R351, R352). -/
def Obligations.FrameCounterAdvances : Prop :=
  (∀ (s : State) (n : Nat), ppuAdvance s 0 = s ∧ ppuAdvance s (n + 1) = ppuDot (ppuAdvance s n)) ∧
  ∀ (s : State) (n : Nat), s.ppu.cycle < 70224 →
    (ppuAdvance s n).ppu.cycle = (s.ppu.cycle + n) % 70224 ∧
    ppuWraps s.ppu.cycle n = decide (70224 ≤ s.ppu.cycle + n)

/-- Sprite selection: the first ten sprites in OAM order whose lines cover this one; in CGB mode in OAM order, otherwise
by X and then OAM order (R361; which ten are kept is the spec's decision D38). -/
def Obligations.SpriteSelection : Prop :=
  ∀ (s : State) (line : Nat),
    let sel := selectSprites s line
    let h := if s.lcdc.getLsbD 2 then 16 else 8
    let covers := fun i => (s.mem.oam.read (4 * i)).toNat ≤ line + 16 ∧ line + 16 < (s.mem.oam.read (4 * i)).toNat + h
    sel.length ≤ 10 ∧ (∀ i ∈ sel, i < 40 ∧ covers i) ∧
    (∀ i, i < 40 → covers i → i ∉ sel → sel.length = 10 ∧ ∀ j ∈ sel, j < i) ∧
    (s.params.cgbMode = true → sel.Pairwise (· < ·)) ∧
    (s.params.cgbMode = false → sel.Pairwise fun i j =>
      (s.mem.oam.read (4 * i + 1)).toNat < (s.mem.oam.read (4 * j + 1)).toNat ∨
      ((s.mem.oam.read (4 * i + 1)).toNat = (s.mem.oam.read (4 * j + 1)).toNat ∧ i < j))

/-- What a pixel is made of. Background: blank without CGB when LCDC[0] is 0, else the window where it covers the pixel,
else the scrolled map; tile number, attribute byte, tile data and flips as `mapArith` writes them. Sprite: the first of
the line's sprites with a colour other than 0 there, of `spriteArith`; stated where every sprite of the line still begins
at most 15 lines above it, which only a change of OAM after the selection can break (log 14). Colours: palette RAM in CGB
mode, BGP, OBP0 and OBP1 otherwise. Priority: no sprite pixel, background; the CGB master-priority condition; a
background pixel that is not colour 0 with one of the two priority attributes; otherwise the sprite (R363 to R374; the
window's row, the row of a sprite whose height changed, and the master-priority effect are the spec's decisions D27, D38,
D30). -/
def Obligations.PixelPriority : Prop :=
  ∀ (s : State) (y x : Nat),
    (s.bgOrWindow y x =
      if s.params.cgbMode = false ∧ s.lcdc.getLsbD 0 = false then ⟨0, 0x00#8⟩
      else if s.lcdc.getLsbD 5 = true ∧ s.wy.toNat ≤ y ∧ s.wx.toNat ≤ x + 7 then
        mapArith s (if s.lcdc.getLsbD 6 then 0x1C00 else 0x1800) (x + 7 - s.wx.toNat) (y - s.wy.toNat)
      else
        mapArith s (if s.lcdc.getLsbD 3 then 0x1C00 else 0x1800) ((x + s.scx.toNat) % 256) ((y + s.scy.toNat) % 256)) ∧
    (s.lcdc.getLsbD 1 = false → s.objPixel y x = none) ∧
    (s.lcdc.getLsbD 1 = true →
      (∀ i ∈ s.ppu.lineSprites, (s.mem.oam.read (4 * i)).toNat ≤ y + 16 ∧ y < (s.mem.oam.read (4 * i)).toNat) →
      s.objPixel y x = (s.ppu.lineSprites.find? fun i => spriteArith s i y x != 0).map fun i =>
        ⟨spriteArith s i y x, s.mem.oam.read (4 * i + 3)⟩) ∧
    (∀ p : BgPixel, s.bgColor p =
      if s.params.cgbMode then .color (colorArith s.mem.bgpal (p.attr.toNat % 8) p.index)
      else if s.lcdc.getLsbD 0 = false then .shade 0#2
      else .shade (BitVec.ofNat 2 (s.bgp.toNat / 4 ^ p.index))) ∧
    (∀ p : ObjPixel, s.objColor p =
      if s.params.cgbMode then .color (colorArith s.mem.objpal (p.attr.toNat % 8) p.index)
      else .shade (BitVec.ofNat 2 ((if p.attr.getLsbD 4 then s.obp1 else s.obp0).toNat / 4 ^ p.index))) ∧
    (s.objPixel y x = none → s.pixel y x = s.bgColor (s.bgOrWindow y x)) ∧
    ∀ obj, s.objPixel y x = some obj →
      s.pixel y x =
        if s.params.cgbMode = true ∧ s.lcdc.getLsbD 0 = false then
          (if s.params.masterPriority = .bgOverAll then s.bgColor (s.bgOrWindow y x) else s.objColor obj)
        else if (s.bgOrWindow y x).index ≠ 0 ∧
            ((s.bgOrWindow y x).attr.getLsbD 7 = true ∨ obj.attr.getLsbD 7 = true) then
          s.bgColor (s.bgOrWindow y x)
        else s.objColor obj

/-! ## Reset and invariants -/

/-- The reset state holds the values of 10_state.md R45, for every configuration and variant; `State.reset` is the one
of the default configuration. The values are the spec's own choice (decision D24); the default configuration is the
model's (log 2). -/
def Obligations.ResetValues : Prop :=
  (∀ (p : Params) (k : MbcKind),
    let s := State.resetWith p k
    s.params = p ∧ s.regs.af = 0#16 ∧ s.regs.bc = 0#16 ∧ s.regs.de = 0#16 ∧ s.regs.hl = 0#16 ∧ s.regs.sp = 0#16 ∧
    s.regs.pc = 0#16 ∧ s.ime = .disabled ∧ s.run = .running ∧ s.doubleSpeed = false ∧ s.cycles = 0 ∧
    (∀ o, s.mem.vram.read o = 0#8 ∧ s.mem.eram.read o = 0#8 ∧ s.mem.wram.read o = 0#8 ∧ s.mem.oam.read o = 0#8 ∧
      s.mem.io.read o = 0#8 ∧ s.mem.hram.read o = 0#8 ∧ s.mem.bgpal.read o = 0#8 ∧ s.mem.objpal.read o = 0#8) ∧
    s.mem.ie = 0#8 ∧ s.mbc.kind = k ∧
    s.mbc = (match k with
      | .none => .none
      | .mbc1 => .mbc1 0#8 0#8
      | .mbc2 => .mbc2 0#8 0#4
      | .mbc3 => .mbc3 0#8 0#7 0#8 0#8 ⟨0#8, 0#8, 0#8, 0#8, 0#8⟩ ⟨0#8, 0#8, 0#8, 0#8, 0#8⟩
      | .mbc5 => .mbc5 0#8 1#9 0#4) ∧
    s.timer.divctr = 0#16 ∧ s.timer.divAcc = 0 ∧ s.timer.timaAcc = 0 ∧ s.ppu.cycle = 0 ∧ s.ppu.lineSprites = [] ∧
    (∀ y x, y < 144 → x < 160 → (s.ppu.fb[y]?.bind fun row => row[x]?) = some .blank) ∧
    s.keys = Keys.released ∧ s.keysPrev = Keys.released) ∧
  State.reset = State.resetWith Params.default .none

/-- The invariant of 10_state.md R37 holds after reset, for the default configuration and for every configuration that
keeps the constraints of 00_scope.md R6. -/
def Obligations.ResetSatisfiesTheInvariant : Prop :=
  State.reset.Inv ∧
  ∀ (p : Params) (k : MbcKind), ParamsWf p → (k = .mbc2 → p.ramSize = 512) → (State.resetWith p k).Inv

/-- Every step keeps the invariant of 10_state.md R37. -/
def Obligations.StepKeepsTheInvariant : Prop :=
  ∀ s t : State, s.Inv → step s = .next t → t.Inv

/-- The configuration, with the ROM in it, and the bank controller's variant never change; double speed changes only in
CGB mode (00_scope.md R6, 20_memory.md R63, 10_state.md R28, R32). -/
def Obligations.ConfigurationNeverChanges : Prop :=
  ∀ s t : State, step s = .next t →
    t.params = s.params ∧ t.mbc.kind = s.mbc.kind ∧ (s.params.cgbMode = false → t.doubleSpeed = s.doubleSpeed)

/-- A step takes a multiple of 4 CPU cycles, at least 4 and at most 44, and counts them; in phase C the Timer is advanced
by them, then the PPU by as many dots, or by half as many in double speed, and nothing else happens but that the end of a
frame is noted (60_exceptions.md R300, R306, R308, 70_reset_and_hazards.md R430; the clock ratios are the spec's decision
D10, the two fields that phase C writes for the model are logs 3 and 6). -/
def Obligations.StepTakesFourToFortyFourCycles : Prop :=
  (∀ s t : State, step s = .next t → ∃ k, 1 ≤ k ∧ k ≤ 11 ∧ t.cycles = s.cycles + 4 * k ∧
    ∃ u v, interruptPhase (environment s) = .next u ∧ executePhase u = .next v ∧ v.cyc = 4 * k ∧
      v.cycles = s.cycles ∧ t = advancePhase v ∧
      t = { ppuAdvance (timerAdvance { v with cycles := v.cycles + 4 * k } (4 * k))
              (if v.doubleSpeed then 2 * k else 4 * k) with
        cyc := 0
        host.frameEntry := ppuWraps v.ppu.cycle (if v.doubleSpeed then 2 * k else 4 * k) }) ∧
  ∀ v : State, advancePhase v =
    { ppuAdvance (timerAdvance { v with cycles := v.cycles + v.cyc } v.cyc)
        (if v.doubleSpeed then v.cyc / 2 else v.cyc) with
      cyc := 0
      host.frameEntry := ppuWraps v.ppu.cycle (if v.doubleSpeed then v.cyc / 2 else v.cyc) }

/-- Only `EI`, `DI` and `RETI` write IME; only `HALT` and `STOP` write `run`; only `STOP` changes the speed; no
instruction moves the PPU, the keys or the cycle counter, or changes the configuration (10_state.md R26 to R29,
60_exceptions.md R308). -/
def Obligations.OnlyNamedInstructionsWriteControlState : Prop :=
  ∀ (i : Instr) (s t : State), exec i s = .next t →
    (i ∉ [.ei, .di, .reti] → t.ime = s.ime) ∧ (i ∉ [.halt, .stop] → t.run = s.run) ∧
    (i ≠ .stop → t.doubleSpeed = s.doubleSpeed) ∧ t.ppu = s.ppu ∧ t.keys = s.keys ∧ t.keysPrev = s.keysPrev ∧
    t.cycles = s.cycles ∧ t.params = s.params

/-- `simulate()` ends: where it answers a next state, the frame has ended, whatever the program does
(60_exceptions.md R313). That a frame has ended shows in `host.frameEntry`, the model's own field (log 6). -/
def Obligations.SimulateRunsToTheEndOfTheFrame : Prop :=
  ∀ (s t : State) (sample : Keys), s.ppu.cycle < 70224 → simulate sample s = .next t → t.host.frameEntry = true

end Statements
end

