-- ==== Sys2Proof/Laws/Memory.lean ====
section
/-! SUPPORT. Byte arrays: read after write, and that writing keeps the canonical form and the size. -/

namespace Sys2Proof

@[simp] theorem Memory.read_nil (a : Nat) : Memory.read [] a = 0#8 := rfl

theorem Memory.wf_nil : Memory.wf [] := ⟨.nil, by simp⟩

/-- Writing leaves every other offset as it was, whatever the list. -/
theorem Memory.read_write_other (m : Memory) {a b : Nat} (v : Byte) (h : b ≠ a) : (m.write a v).read b = m.read b := by
  induction m with
  | nil => unfold Memory.write; split <;> simp [Memory.read, Ne.symm h]
  | cons c m ih =>
    obtain ⟨k, w⟩ := c
    unfold Memory.write
    split
    · split <;> simp [Memory.read, Ne.symm h]
    · split
      · subst_vars; split <;> simp [Memory.read, Ne.symm h]
      · simp [Memory.read, ih]

/-- An offset below every key reads 0. -/
theorem Memory.read_below (m : Memory) (a : Nat) (h : ∀ x ∈ m, a < x.1) : m.read a = 0#8 := by
  induction m with
  | nil => rfl
  | cons c m ih =>
    have hc : a < c.1 := h c (List.mem_cons_self ..)
    have : c.1 ≠ a := by omega
    rw [show Memory.read (c :: m) a = if c.1 = a then c.2 else Memory.read m a from rfl, if_neg this]
    exact ih fun x hx => h x (List.mem_cons_of_mem _ hx)

/-- Reading what was written. -/
theorem Memory.read_write_same {m : Memory} (hm : m.wf) (a : Nat) (v : Byte) : (m.write a v).read a = v := by
  obtain ⟨hs, -⟩ := hm
  induction m with
  | nil => unfold Memory.write; split <;> simp_all [Memory.read]
  | cons c m ih =>
    obtain ⟨k, w⟩ := c
    obtain ⟨h1, h2⟩ := List.pairwise_cons.1 hs
    unfold Memory.write
    split
    · split
      · subst_vars
        refine Memory.read_below _ _ fun x hx => ?_
        rcases List.mem_cons.1 hx with rfl | hx
        · assumption
        · have := h1 x hx; simp at this; omega
      · simp [Memory.read]
    · split
      · subst_vars
        split
        · subst_vars; exact Memory.read_below _ _ h1
        · simp [Memory.read]
      · rename_i hk
        have : k ≠ a := fun e => hk e.symm
        simp [Memory.read, this, ih h2]

/-- One byte of a list after a write. -/
theorem Memory.read_write {m : Memory} (hm : m.wf) (a : Nat) (v : Byte) (b : Nat) :
    (m.write a v).read b = if a = b then v else m.read b := by
  split
  · next h => subst h; exact read_write_same hm a v
  · next h => exact read_write_other m v (Ne.symm h)

/-- An entry of the array after a write is an old one or the one written, which is not 0. -/
theorem Memory.mem_write {m : Memory} {a : Nat} {v : Byte} {x : Host.Cell} (h : x ∈ m.write a v) :
    x ∈ m ∨ (x = (a, v) ∧ v ≠ 0#8) := by
  induction m with
  | nil => unfold Memory.write at h; split at h <;> simp_all
  | cons c m ih =>
    obtain ⟨k, w⟩ := c
    unfold Memory.write at h
    split at h
    · split at h
      · exact .inl h
      · rcases List.mem_cons.1 h with rfl | h
        · exact .inr ⟨rfl, ‹_›⟩
        · exact .inl h
    · split at h
      · split at h
        · exact .inl (List.mem_cons_of_mem _ h)
        · rcases List.mem_cons.1 h with rfl | h
          · exact .inr ⟨rfl, ‹_›⟩
          · exact .inl (List.mem_cons_of_mem _ h)
      · rcases List.mem_cons.1 h with rfl | h
        · exact .inl (List.mem_cons_self ..)
        · rcases ih h with h | h
          · exact .inl (List.mem_cons_of_mem _ h)
          · exact .inr h

/-- Writing keeps the canonical form. -/
theorem Memory.wf_write {m : Memory} (hm : m.wf) (a : Nat) (v : Byte) : (m.write a v).wf := by
  refine ⟨?_, fun x hx => ?_⟩
  · obtain ⟨hs, -⟩ := hm
    induction m with
    | nil => unfold Memory.write; split <;> simp
    | cons c m ih =>
      obtain ⟨k, w⟩ := c
      obtain ⟨h1, h2⟩ := List.pairwise_cons.1 hs
      unfold Memory.write
      split
      · split
        · exact hs
        · refine List.pairwise_cons.2 ⟨fun x hx => ?_, hs⟩
          rcases List.mem_cons.1 hx with rfl | hx
          · assumption
          · have := h1 x hx; simp at this ⊢; omega
      · split
        · subst_vars
          split
          · exact h2
          · exact List.pairwise_cons.2 ⟨h1, h2⟩
        · refine List.pairwise_cons.2 ⟨fun x hx => ?_, ih h2⟩
          rcases Memory.mem_write hx with hx | ⟨rfl, -⟩
          · exact h1 x hx
          · simp; omega
  · rcases Memory.mem_write hx with hx | ⟨rfl, hv⟩
    · exact hm.2 x hx
    · exact hv

/-- Writing inside an array keeps its size. -/
theorem Memory.within_write {m : Memory} {n a : Nat} (hm : m.within n) (ha : a < n) (v : Byte) :
    (m.write a v).within n := fun _ hx => by
  rcases Memory.mem_write hx with hx | ⟨rfl, -⟩
  · exact hm _ hx
  · exact ha

/-- Storing what is there already changes nothing. -/
theorem Memory.write_read {m : Memory} (hm : m.wf) (a : Nat) : m.write a (m.read a) = m := by
  obtain ⟨hs, hz⟩ := hm
  induction m with
  | nil => rfl
  | cons c m ih =>
    obtain ⟨k, w⟩ := c
    obtain ⟨h1, h2⟩ := List.pairwise_cons.1 hs
    unfold Memory.write
    split
    · have : Memory.read ((k, w) :: m) a = 0#8 := by
        refine Memory.read_below _ _ fun x hx => ?_
        rcases List.mem_cons.1 hx with rfl | hx
        · assumption
        · have := h1 x hx; simp at this; omega
      rw [if_pos this]
    · split
      · subst_vars
        have hw : w ≠ 0#8 := hz (k, w) (List.mem_cons_self ..)
        simp [Memory.read, hw]
      · rename_i hk
        have : k ≠ a := fun e => hk e.symm
        rw [show Memory.read ((k, w) :: m) a = Memory.read m a by simp [Memory.read, this]]
        rw [ih h2 fun x hx => hz x (List.mem_cons_of_mem _ hx)]

/-- Writing a list of bytes keeps the canonical form. -/
theorem Memory.wf_writeList {m : Memory} (hm : m.wf) (a : Nat) (vs : List Byte) : (m.writeList a vs).wf := by
  induction vs generalizing m a with
  | nil => exact hm
  | cons v vs ih => exact ih (Memory.wf_write hm a v) (a + 1)

end Sys2Proof
end

