-- ==== Sys2Proof/Laws/State.lean ====
section
/-! SUPPORT. One lemma per field per update of State, and the registers' read-after-write lemmas, so that later proofs
need not unfold a record update. -/

namespace Sys2Proof.Machine

/-! ## `State.withRegs` -/

@[simp] theorem State.withRegs_params (s : State) (g : Regs) : (s.withRegs g).params = s.params := rfl
@[simp] theorem State.withRegs_regs (s : State) (g : Regs) : (s.withRegs g).regs = g := rfl
@[simp] theorem State.withRegs_ime (s : State) (g : Regs) : (s.withRegs g).ime = s.ime := rfl
@[simp] theorem State.withRegs_run (s : State) (g : Regs) : (s.withRegs g).run = s.run := rfl
@[simp] theorem State.withRegs_doubleSpeed (s : State) (g : Regs) : (s.withRegs g).doubleSpeed = s.doubleSpeed := rfl
@[simp] theorem State.withRegs_cycles (s : State) (g : Regs) : (s.withRegs g).cycles = s.cycles := rfl
@[simp] theorem State.withRegs_cyc (s : State) (g : Regs) : (s.withRegs g).cyc = s.cyc := rfl
@[simp] theorem State.withRegs_mem (s : State) (g : Regs) : (s.withRegs g).mem = s.mem := rfl
@[simp] theorem State.withRegs_mbc (s : State) (g : Regs) : (s.withRegs g).mbc = s.mbc := rfl
@[simp] theorem State.withRegs_timer (s : State) (g : Regs) : (s.withRegs g).timer = s.timer := rfl
@[simp] theorem State.withRegs_ppu (s : State) (g : Regs) : (s.withRegs g).ppu = s.ppu := rfl
@[simp] theorem State.withRegs_keys (s : State) (g : Regs) : (s.withRegs g).keys = s.keys := rfl
@[simp] theorem State.withRegs_keysPrev (s : State) (g : Regs) : (s.withRegs g).keysPrev = s.keysPrev := rfl
@[simp] theorem State.withRegs_host (s : State) (g : Regs) : (s.withRegs g).host = s.host := rfl

/-! ## `State.setReg8` -/

@[simp] theorem State.setReg8_params (s : State) (r : Reg8) (v : Byte) : (s.setReg8 r v).params = s.params := rfl
@[simp] theorem State.setReg8_regs (s : State) (r : Reg8) (v : Byte) : (s.setReg8 r v).regs = s.regs.set8 r v := rfl
@[simp] theorem State.setReg8_ime (s : State) (r : Reg8) (v : Byte) : (s.setReg8 r v).ime = s.ime := rfl
@[simp] theorem State.setReg8_run (s : State) (r : Reg8) (v : Byte) : (s.setReg8 r v).run = s.run := rfl
@[simp] theorem State.setReg8_doubleSpeed (s : State) (r : Reg8) (v : Byte) : (s.setReg8 r v).doubleSpeed = s.doubleSpeed := rfl
@[simp] theorem State.setReg8_cycles (s : State) (r : Reg8) (v : Byte) : (s.setReg8 r v).cycles = s.cycles := rfl
@[simp] theorem State.setReg8_cyc (s : State) (r : Reg8) (v : Byte) : (s.setReg8 r v).cyc = s.cyc := rfl
@[simp] theorem State.setReg8_mem (s : State) (r : Reg8) (v : Byte) : (s.setReg8 r v).mem = s.mem := rfl
@[simp] theorem State.setReg8_mbc (s : State) (r : Reg8) (v : Byte) : (s.setReg8 r v).mbc = s.mbc := rfl
@[simp] theorem State.setReg8_timer (s : State) (r : Reg8) (v : Byte) : (s.setReg8 r v).timer = s.timer := rfl
@[simp] theorem State.setReg8_ppu (s : State) (r : Reg8) (v : Byte) : (s.setReg8 r v).ppu = s.ppu := rfl
@[simp] theorem State.setReg8_keys (s : State) (r : Reg8) (v : Byte) : (s.setReg8 r v).keys = s.keys := rfl
@[simp] theorem State.setReg8_keysPrev (s : State) (r : Reg8) (v : Byte) : (s.setReg8 r v).keysPrev = s.keysPrev := rfl
@[simp] theorem State.setReg8_host (s : State) (r : Reg8) (v : Byte) : (s.setReg8 r v).host = s.host := rfl

/-! ## `State.setReg16` -/

@[simp] theorem State.setReg16_params (s : State) (rr : Reg16) (v : Word) : (s.setReg16 rr v).params = s.params := rfl
@[simp] theorem State.setReg16_regs (s : State) (rr : Reg16) (v : Word) : (s.setReg16 rr v).regs = s.regs.set16 rr v := rfl
@[simp] theorem State.setReg16_ime (s : State) (rr : Reg16) (v : Word) : (s.setReg16 rr v).ime = s.ime := rfl
@[simp] theorem State.setReg16_run (s : State) (rr : Reg16) (v : Word) : (s.setReg16 rr v).run = s.run := rfl
@[simp] theorem State.setReg16_doubleSpeed (s : State) (rr : Reg16) (v : Word) : (s.setReg16 rr v).doubleSpeed = s.doubleSpeed := rfl
@[simp] theorem State.setReg16_cycles (s : State) (rr : Reg16) (v : Word) : (s.setReg16 rr v).cycles = s.cycles := rfl
@[simp] theorem State.setReg16_cyc (s : State) (rr : Reg16) (v : Word) : (s.setReg16 rr v).cyc = s.cyc := rfl
@[simp] theorem State.setReg16_mem (s : State) (rr : Reg16) (v : Word) : (s.setReg16 rr v).mem = s.mem := rfl
@[simp] theorem State.setReg16_mbc (s : State) (rr : Reg16) (v : Word) : (s.setReg16 rr v).mbc = s.mbc := rfl
@[simp] theorem State.setReg16_timer (s : State) (rr : Reg16) (v : Word) : (s.setReg16 rr v).timer = s.timer := rfl
@[simp] theorem State.setReg16_ppu (s : State) (rr : Reg16) (v : Word) : (s.setReg16 rr v).ppu = s.ppu := rfl
@[simp] theorem State.setReg16_keys (s : State) (rr : Reg16) (v : Word) : (s.setReg16 rr v).keys = s.keys := rfl
@[simp] theorem State.setReg16_keysPrev (s : State) (rr : Reg16) (v : Word) : (s.setReg16 rr v).keysPrev = s.keysPrev := rfl
@[simp] theorem State.setReg16_host (s : State) (rr : Reg16) (v : Word) : (s.setReg16 rr v).host = s.host := rfl

/-! ## `State.setF` -/

@[simp] theorem State.setF_params (s : State) (f : Byte) : (s.setF f).params = s.params := rfl
@[simp] theorem State.setF_regs (s : State) (f : Byte) : (s.setF f).regs = { s.regs with f := f } := rfl
@[simp] theorem State.setF_ime (s : State) (f : Byte) : (s.setF f).ime = s.ime := rfl
@[simp] theorem State.setF_run (s : State) (f : Byte) : (s.setF f).run = s.run := rfl
@[simp] theorem State.setF_doubleSpeed (s : State) (f : Byte) : (s.setF f).doubleSpeed = s.doubleSpeed := rfl
@[simp] theorem State.setF_cycles (s : State) (f : Byte) : (s.setF f).cycles = s.cycles := rfl
@[simp] theorem State.setF_cyc (s : State) (f : Byte) : (s.setF f).cyc = s.cyc := rfl
@[simp] theorem State.setF_mem (s : State) (f : Byte) : (s.setF f).mem = s.mem := rfl
@[simp] theorem State.setF_mbc (s : State) (f : Byte) : (s.setF f).mbc = s.mbc := rfl
@[simp] theorem State.setF_timer (s : State) (f : Byte) : (s.setF f).timer = s.timer := rfl
@[simp] theorem State.setF_ppu (s : State) (f : Byte) : (s.setF f).ppu = s.ppu := rfl
@[simp] theorem State.setF_keys (s : State) (f : Byte) : (s.setF f).keys = s.keys := rfl
@[simp] theorem State.setF_keysPrev (s : State) (f : Byte) : (s.setF f).keysPrev = s.keysPrev := rfl
@[simp] theorem State.setF_host (s : State) (f : Byte) : (s.setF f).host = s.host := rfl

/-! ## `State.setPc` -/

@[simp] theorem State.setPc_params (s : State) (v : Word) : (s.setPc v).params = s.params := rfl
@[simp] theorem State.setPc_regs (s : State) (v : Word) : (s.setPc v).regs = { s.regs with pc := v } := rfl
@[simp] theorem State.setPc_ime (s : State) (v : Word) : (s.setPc v).ime = s.ime := rfl
@[simp] theorem State.setPc_run (s : State) (v : Word) : (s.setPc v).run = s.run := rfl
@[simp] theorem State.setPc_doubleSpeed (s : State) (v : Word) : (s.setPc v).doubleSpeed = s.doubleSpeed := rfl
@[simp] theorem State.setPc_cycles (s : State) (v : Word) : (s.setPc v).cycles = s.cycles := rfl
@[simp] theorem State.setPc_cyc (s : State) (v : Word) : (s.setPc v).cyc = s.cyc := rfl
@[simp] theorem State.setPc_mem (s : State) (v : Word) : (s.setPc v).mem = s.mem := rfl
@[simp] theorem State.setPc_mbc (s : State) (v : Word) : (s.setPc v).mbc = s.mbc := rfl
@[simp] theorem State.setPc_timer (s : State) (v : Word) : (s.setPc v).timer = s.timer := rfl
@[simp] theorem State.setPc_ppu (s : State) (v : Word) : (s.setPc v).ppu = s.ppu := rfl
@[simp] theorem State.setPc_keys (s : State) (v : Word) : (s.setPc v).keys = s.keys := rfl
@[simp] theorem State.setPc_keysPrev (s : State) (v : Word) : (s.setPc v).keysPrev = s.keysPrev := rfl
@[simp] theorem State.setPc_host (s : State) (v : Word) : (s.setPc v).host = s.host := rfl

/-! ## `State.setSp` -/

@[simp] theorem State.setSp_params (s : State) (v : Word) : (s.setSp v).params = s.params := rfl
@[simp] theorem State.setSp_regs (s : State) (v : Word) : (s.setSp v).regs = { s.regs with sp := v } := rfl
@[simp] theorem State.setSp_ime (s : State) (v : Word) : (s.setSp v).ime = s.ime := rfl
@[simp] theorem State.setSp_run (s : State) (v : Word) : (s.setSp v).run = s.run := rfl
@[simp] theorem State.setSp_doubleSpeed (s : State) (v : Word) : (s.setSp v).doubleSpeed = s.doubleSpeed := rfl
@[simp] theorem State.setSp_cycles (s : State) (v : Word) : (s.setSp v).cycles = s.cycles := rfl
@[simp] theorem State.setSp_cyc (s : State) (v : Word) : (s.setSp v).cyc = s.cyc := rfl
@[simp] theorem State.setSp_mem (s : State) (v : Word) : (s.setSp v).mem = s.mem := rfl
@[simp] theorem State.setSp_mbc (s : State) (v : Word) : (s.setSp v).mbc = s.mbc := rfl
@[simp] theorem State.setSp_timer (s : State) (v : Word) : (s.setSp v).timer = s.timer := rfl
@[simp] theorem State.setSp_ppu (s : State) (v : Word) : (s.setSp v).ppu = s.ppu := rfl
@[simp] theorem State.setSp_keys (s : State) (v : Word) : (s.setSp v).keys = s.keys := rfl
@[simp] theorem State.setSp_keysPrev (s : State) (v : Word) : (s.setSp v).keysPrev = s.keysPrev := rfl
@[simp] theorem State.setSp_host (s : State) (v : Word) : (s.setSp v).host = s.host := rfl

/-! ## `State.setIme` -/

@[simp] theorem State.setIme_params (s : State) (v : Ime) : (s.setIme v).params = s.params := rfl
@[simp] theorem State.setIme_regs (s : State) (v : Ime) : (s.setIme v).regs = s.regs := rfl
@[simp] theorem State.setIme_ime (s : State) (v : Ime) : (s.setIme v).ime = v := rfl
@[simp] theorem State.setIme_run (s : State) (v : Ime) : (s.setIme v).run = s.run := rfl
@[simp] theorem State.setIme_doubleSpeed (s : State) (v : Ime) : (s.setIme v).doubleSpeed = s.doubleSpeed := rfl
@[simp] theorem State.setIme_cycles (s : State) (v : Ime) : (s.setIme v).cycles = s.cycles := rfl
@[simp] theorem State.setIme_cyc (s : State) (v : Ime) : (s.setIme v).cyc = s.cyc := rfl
@[simp] theorem State.setIme_mem (s : State) (v : Ime) : (s.setIme v).mem = s.mem := rfl
@[simp] theorem State.setIme_mbc (s : State) (v : Ime) : (s.setIme v).mbc = s.mbc := rfl
@[simp] theorem State.setIme_timer (s : State) (v : Ime) : (s.setIme v).timer = s.timer := rfl
@[simp] theorem State.setIme_ppu (s : State) (v : Ime) : (s.setIme v).ppu = s.ppu := rfl
@[simp] theorem State.setIme_keys (s : State) (v : Ime) : (s.setIme v).keys = s.keys := rfl
@[simp] theorem State.setIme_keysPrev (s : State) (v : Ime) : (s.setIme v).keysPrev = s.keysPrev := rfl
@[simp] theorem State.setIme_host (s : State) (v : Ime) : (s.setIme v).host = s.host := rfl

/-! ## `State.setRun` -/

@[simp] theorem State.setRun_params (s : State) (v : RunState) : (s.setRun v).params = s.params := rfl
@[simp] theorem State.setRun_regs (s : State) (v : RunState) : (s.setRun v).regs = s.regs := rfl
@[simp] theorem State.setRun_ime (s : State) (v : RunState) : (s.setRun v).ime = s.ime := rfl
@[simp] theorem State.setRun_run (s : State) (v : RunState) : (s.setRun v).run = v := rfl
@[simp] theorem State.setRun_doubleSpeed (s : State) (v : RunState) : (s.setRun v).doubleSpeed = s.doubleSpeed := rfl
@[simp] theorem State.setRun_cycles (s : State) (v : RunState) : (s.setRun v).cycles = s.cycles := rfl
@[simp] theorem State.setRun_cyc (s : State) (v : RunState) : (s.setRun v).cyc = s.cyc := rfl
@[simp] theorem State.setRun_mem (s : State) (v : RunState) : (s.setRun v).mem = s.mem := rfl
@[simp] theorem State.setRun_mbc (s : State) (v : RunState) : (s.setRun v).mbc = s.mbc := rfl
@[simp] theorem State.setRun_timer (s : State) (v : RunState) : (s.setRun v).timer = s.timer := rfl
@[simp] theorem State.setRun_ppu (s : State) (v : RunState) : (s.setRun v).ppu = s.ppu := rfl
@[simp] theorem State.setRun_keys (s : State) (v : RunState) : (s.setRun v).keys = s.keys := rfl
@[simp] theorem State.setRun_keysPrev (s : State) (v : RunState) : (s.setRun v).keysPrev = s.keysPrev := rfl
@[simp] theorem State.setRun_host (s : State) (v : RunState) : (s.setRun v).host = s.host := rfl

/-! ## `State.tick` -/

@[simp] theorem State.tick_params (s : State) (n : Nat) : (s.tick n).params = s.params := rfl
@[simp] theorem State.tick_regs (s : State) (n : Nat) : (s.tick n).regs = s.regs := rfl
@[simp] theorem State.tick_ime (s : State) (n : Nat) : (s.tick n).ime = s.ime := rfl
@[simp] theorem State.tick_run (s : State) (n : Nat) : (s.tick n).run = s.run := rfl
@[simp] theorem State.tick_doubleSpeed (s : State) (n : Nat) : (s.tick n).doubleSpeed = s.doubleSpeed := rfl
@[simp] theorem State.tick_cycles (s : State) (n : Nat) : (s.tick n).cycles = s.cycles := rfl
@[simp] theorem State.tick_cyc (s : State) (n : Nat) : (s.tick n).cyc = s.cyc + n := rfl
@[simp] theorem State.tick_mem (s : State) (n : Nat) : (s.tick n).mem = s.mem := rfl
@[simp] theorem State.tick_mbc (s : State) (n : Nat) : (s.tick n).mbc = s.mbc := rfl
@[simp] theorem State.tick_timer (s : State) (n : Nat) : (s.tick n).timer = s.timer := rfl
@[simp] theorem State.tick_ppu (s : State) (n : Nat) : (s.tick n).ppu = s.ppu := rfl
@[simp] theorem State.tick_keys (s : State) (n : Nat) : (s.tick n).keys = s.keys := rfl
@[simp] theorem State.tick_keysPrev (s : State) (n : Nat) : (s.tick n).keysPrev = s.keysPrev := rfl
@[simp] theorem State.tick_host (s : State) (n : Nat) : (s.tick n).host = s.host := rfl

/-! ## `State.setIo` -/

@[simp] theorem State.setIo_params (s : State) (o : Nat) (v : Byte) : (s.setIo o v).params = s.params := rfl
@[simp] theorem State.setIo_regs (s : State) (o : Nat) (v : Byte) : (s.setIo o v).regs = s.regs := rfl
@[simp] theorem State.setIo_ime (s : State) (o : Nat) (v : Byte) : (s.setIo o v).ime = s.ime := rfl
@[simp] theorem State.setIo_run (s : State) (o : Nat) (v : Byte) : (s.setIo o v).run = s.run := rfl
@[simp] theorem State.setIo_doubleSpeed (s : State) (o : Nat) (v : Byte) : (s.setIo o v).doubleSpeed = s.doubleSpeed := rfl
@[simp] theorem State.setIo_cycles (s : State) (o : Nat) (v : Byte) : (s.setIo o v).cycles = s.cycles := rfl
@[simp] theorem State.setIo_cyc (s : State) (o : Nat) (v : Byte) : (s.setIo o v).cyc = s.cyc := rfl
@[simp] theorem State.setIo_mem (s : State) (o : Nat) (v : Byte) : (s.setIo o v).mem = { s.mem with io := s.mem.io.write o v } := rfl
@[simp] theorem State.setIo_mbc (s : State) (o : Nat) (v : Byte) : (s.setIo o v).mbc = s.mbc := rfl
@[simp] theorem State.setIo_timer (s : State) (o : Nat) (v : Byte) : (s.setIo o v).timer = s.timer := rfl
@[simp] theorem State.setIo_ppu (s : State) (o : Nat) (v : Byte) : (s.setIo o v).ppu = s.ppu := rfl
@[simp] theorem State.setIo_keys (s : State) (o : Nat) (v : Byte) : (s.setIo o v).keys = s.keys := rfl
@[simp] theorem State.setIo_keysPrev (s : State) (o : Nat) (v : Byte) : (s.setIo o v).keysPrev = s.keysPrev := rfl
@[simp] theorem State.setIo_host (s : State) (o : Nat) (v : Byte) : (s.setIo o v).host = s.host := rfl

/-! ## Registers -/

@[simp] theorem Regs.get8_set8 (g : Regs) (r : Reg8) (v : Byte) : (g.set8 r v).get8 r = v := by cases r <;> rfl

theorem Regs.get8_set8_other (g : Regs) {r q : Reg8} (v : Byte) (h : q ≠ r) : (g.set8 r v).get8 q = g.get8 q := by
  cases r <;> cases q <;> first | rfl | exact absurd rfl h

@[simp] theorem Regs.set8_f (g : Regs) (r : Reg8) (v : Byte) : (g.set8 r v).f = g.f := by cases r <;> rfl

@[simp] theorem Regs.set8_sp (g : Regs) (r : Reg8) (v : Byte) : (g.set8 r v).sp = g.sp := by cases r <;> rfl

@[simp] theorem Regs.set8_pc (g : Regs) (r : Reg8) (v : Byte) : (g.set8 r v).pc = g.pc := by cases r <;> rfl

@[simp] theorem Regs.set16_f (g : Regs) (rr : Reg16) (v : Word) : (g.set16 rr v).f = g.f := by cases rr <;> rfl

@[simp] theorem Regs.set16_pc (g : Regs) (rr : Reg16) (v : Word) : (g.set16 rr v).pc = g.pc := by cases rr <;> rfl

theorem joinBytes_toNat (h l : Byte) : (joinBytes h l).toNat = h.toNat * 256 + l.toNat := by
  have e : (joinBytes h l).toNat = h.toNat <<< 8 ||| l.toNat := BitVec.toNat_append h l
  rw [e, ← Nat.shiftLeft_add_eq_or_of_lt l.isLt, Nat.shiftLeft_eq]

theorem hiByte_toNat (w : Word) : (hiByte w).toNat = w.toNat / 256 := by
  have := w.isLt
  simp [hiByte, Nat.shiftRight_eq_div_pow]
  omega

theorem loByte_toNat (w : Word) : (loByte w).toNat = w.toNat % 256 := by simp [loByte]

/-- A word is its two halves. -/
theorem joinBytes_halves (w : Word) : joinBytes (hiByte w) (loByte w) = w := by
  apply BitVec.eq_of_toNat_eq
  rw [joinBytes_toNat, hiByte_toNat, loByte_toNat]
  omega

@[simp] theorem hiByte_join (h l : Byte) : hiByte (joinBytes h l) = h := by
  apply BitVec.eq_of_toNat_eq
  have := l.isLt
  rw [hiByte_toNat, joinBytes_toNat]
  omega

@[simp] theorem loByte_join (h l : Byte) : loByte (joinBytes h l) = l := by
  apply BitVec.eq_of_toNat_eq
  have := l.isLt
  rw [loByte_toNat, joinBytes_toNat]
  omega

@[simp] theorem Regs.get16_set16 (g : Regs) (rr : Reg16) (v : Word) : (g.set16 rr v).get16 rr = v := by
  cases rr
  · exact joinBytes_halves v
  · exact joinBytes_halves v
  · exact joinBytes_halves v
  · rfl

theorem Regs.get16S_set16S (g : Regs) {rr : Reg16S} (v : Word) (h : rr ≠ .af) : (g.set16S rr v).get16S rr = v := by
  cases rr
  · exact joinBytes_halves v
  · exact joinBytes_halves v
  · exact joinBytes_halves v
  · exact absurd rfl h

end Sys2Proof.Machine
end

