-- ==== Sys2Proof/Laws/Bus.lean ====
section
/-! SUPPORT. The bus: what a read depends on, what a write can change, that a write does not look at the CPU, and that
every memory operation keeps the canonical form of the arrays. -/

namespace Sys2Proof.Machine

/-! ## Folds over a copy -/

/-- A projection that each step keeps is kept by the fold. -/
theorem foldl_keeps {α β : Type} {f : State → β → State} {p : State → α} (h : ∀ s i, p (f s i) = p s) (l : List β)
    (s : State) : p (l.foldl f s) = p s := by
  induction l generalizing s with
  | nil => rfl
  | cons i l ih => rw [List.foldl_cons, ih, h]

/-- A property that each step keeps is kept by the fold. -/
theorem foldl_invariant {β : Type} {f : State → β → State} {P : State → Prop} (l : List β)
    (h : ∀ s, ∀ i ∈ l, P s → P (f s i)) {s : State} (hs : P s) : P (l.foldl f s) := by
  induction l generalizing s with
  | nil => exact hs
  | cons i l ih =>
    exact ih (fun s j hj => h s j (List.mem_cons_of_mem _ hj)) (h s i (List.mem_cons_self ..) hs)

/-! ## What a read depends on -/

/-- Outside the APU range a read does not look at the count of draws. -/
theorem busRead_host (s : State) (h : HostSide) {x : Word} (hx : inApuRange x = false) :
    busRead { s with host := h } x = busRead s x := by
  have hr : route { s with host := h } x = route s x := rfl
  unfold busRead
  rw [hr]
  split <;> try rfl
  rename_i o ho
  have : ¬(0x10 ≤ o ∧ o ≤ 0x3F) := by
    simp only [inApuRange, decide_eq_false_iff_not] at hx
    simp only [route] at ho
    split at ho <;> try contradiction
    split at ho <;> try contradiction
    split at ho <;> try contradiction
    split at ho <;> try contradiction
    split at ho <;> try contradiction
    split at ho <;> try contradiction
    split at ho <;> try contradiction
    · injection ho with ho; omega
    · split at ho <;> contradiction
  unfold ioRead
  rw [if_neg this, if_neg this]
  rfl

/-- A read depends on the configuration, the arrays, the controller, the Timer, the keys and the speed. -/
theorem busRead_congr {s t : State} (hp : t.params = s.params) (hm : t.mem = s.mem) (hb : t.mbc = s.mbc)
    (ht : t.timer = s.timer) (hk : t.keys = s.keys) (hd : t.doubleSpeed = s.doubleSpeed) {x : Word}
    (hx : inApuRange x = false) : busRead t x = busRead s x := by
  have h : busRead { t with host := s.host } x = busRead s x := by
    cases s; cases t
    simp only at hp hm hb ht hk hd
    subst hp hm hb ht hk hd
    rfl
  rw [← h, busRead_host t s.host hx]

/-! ## What a write can change -/

/-- `t` differs from `s` at most in what the bus reaches: the arrays, the controller, the Timer and the count of
draws. -/
abbrev BusOnly (s t : State) : Prop :=
  t = { s with mem := t.mem, mbc := t.mbc, timer := t.timer, host := { s.host with draws := t.host.draws } }

theorem BusOnly.refl (s : State) : BusOnly s s := rfl

theorem BusOnly.trans {s t u : State} (h : BusOnly s t) (h' : BusOnly t u) : BusOnly s u := by
  unfold BusOnly at *
  rw [h']
  rw [h]

theorem BusOnly.params {s t : State} (h : BusOnly s t) : t.params = s.params := by
  have e := congrArg State.params h; exact e

theorem BusOnly.regs {s t : State} (h : BusOnly s t) : t.regs = s.regs := by
  have e := congrArg State.regs h; exact e

theorem BusOnly.ime {s t : State} (h : BusOnly s t) : t.ime = s.ime := by
  have e := congrArg State.ime h; exact e

theorem BusOnly.run {s t : State} (h : BusOnly s t) : t.run = s.run := by
  have e := congrArg State.run h; exact e

theorem BusOnly.doubleSpeed {s t : State} (h : BusOnly s t) : t.doubleSpeed = s.doubleSpeed := by
  have e := congrArg State.doubleSpeed h; exact e

theorem BusOnly.cycles {s t : State} (h : BusOnly s t) : t.cycles = s.cycles := by
  have e := congrArg State.cycles h; exact e

theorem BusOnly.cyc {s t : State} (h : BusOnly s t) : t.cyc = s.cyc := by
  have e := congrArg State.cyc h; exact e

theorem BusOnly.ppu {s t : State} (h : BusOnly s t) : t.ppu = s.ppu := by
  have e := congrArg State.ppu h; exact e

theorem BusOnly.keys {s t : State} (h : BusOnly s t) : t.keys = s.keys := by
  have e := congrArg State.keys h; exact e

theorem BusOnly.keysPrev {s t : State} (h : BusOnly s t) : t.keysPrev = s.keysPrev := by
  have e := congrArg State.keysPrev h; exact e

theorem BusOnly.frameEntry {s t : State} (h : BusOnly s t) : t.host.frameEntry = s.host.frameEntry := by
  have e := congrArg (fun u : State => u.host.frameEntry) h; exact e

theorem BusOnly.keySamples {s t : State} (h : BusOnly s t) : t.host.keySamples = s.host.keySamples := by
  have e := congrArg (fun u : State => u.host.keySamples) h; exact e

theorem BusOnly.rtcTicks {s t : State} (h : BusOnly s t) : t.host.rtcTicks = s.host.rtcTicks := by
  have e := congrArg (fun u : State => u.host.rtcTicks) h; exact e

theorem afterRead_busOnly (s : State) (a : Word) : BusOnly s (afterRead s a) := by
  unfold afterRead; split <;> rfl

theorem foldl_busOnly {β : Type} {f : State → β → State} (h : ∀ s i, BusOnly s (f s i)) (l : List β) (s : State) :
    BusOnly s (l.foldl f s) := by
  induction l generalizing s with
  | nil => exact .refl s
  | cons i l ih => exact (h s i).trans (ih _)

theorem oamDmaByte_busOnly (page : Byte) (s : State) (i : Nat) : BusOnly s (oamDmaByte page s i) :=
  (afterRead_busOnly s (joinBytes page 0#8 + BitVec.ofNat 16 i)).trans rfl

theorem gdmaByte_busOnly (src : Word) (dst : Nat) (s : State) (i : Nat) : BusOnly s (gdmaByte src dst s i) :=
  (afterRead_busOnly s (src + BitVec.ofNat 16 i)).trans rfl

theorem oamDma_busOnly (s : State) (page : Byte) : BusOnly s (oamDma s page) :=
  foldl_busOnly (oamDmaByte_busOnly page) _ s

theorem gdma_busOnly (s : State) (v : Byte) : BusOnly s (gdma s v) := foldl_busOnly (gdmaByte_busOnly _ _) _ s

theorem ioStore_busOnly (s : State) (o : Nat) (v : Byte) : BusOnly s (ioStore s o v) := rfl

theorem ioWrite_busOnly (s : State) (o : Nat) (v : Byte) : BusOnly s (ioWrite s o v) := by
  refine (ioStore_busOnly s o v).trans ?_
  unfold ioWrite
  dsimp only
  split
  · rfl
  · rfl
  · rfl
  · exact oamDma_busOnly _ _
  · split
    · exact gdma_busOnly _ _
    · exact .refl _
  · split <;> rfl
  · split <;> rfl
  · exact .refl _

theorem eramWrite_busOnly (s : State) (a : Nat) (v : Byte) : BusOnly s (eramWrite s a v) := by
  unfold eramWrite; split <;> rfl

/-- A bus write changes nothing but what the bus reaches. -/
theorem busStore_busOnly (s : State) (a : Word) (v : Byte) : BusOnly s (busStore s a v) := by
  unfold busStore
  split
  · rfl
  · rfl
  · exact eramWrite_busOnly s _ v
  · rfl
  · rfl
  · rfl
  · exact ioWrite_busOnly s _ v
  · rfl
  · rfl

@[simp] theorem busStore_params (s : State) (a : Word) (v : Byte) : (busStore s a v).params = s.params :=
  (busStore_busOnly s a v).params

@[simp] theorem busStore_regs (s : State) (a : Word) (v : Byte) : (busStore s a v).regs = s.regs :=
  (busStore_busOnly s a v).regs

@[simp] theorem busStore_ime (s : State) (a : Word) (v : Byte) : (busStore s a v).ime = s.ime :=
  (busStore_busOnly s a v).ime

@[simp] theorem busStore_run (s : State) (a : Word) (v : Byte) : (busStore s a v).run = s.run :=
  (busStore_busOnly s a v).run

@[simp] theorem busStore_doubleSpeed (s : State) (a : Word) (v : Byte) : (busStore s a v).doubleSpeed = s.doubleSpeed :=
  (busStore_busOnly s a v).doubleSpeed

@[simp] theorem busStore_cycles (s : State) (a : Word) (v : Byte) : (busStore s a v).cycles = s.cycles :=
  (busStore_busOnly s a v).cycles

@[simp] theorem busStore_cyc (s : State) (a : Word) (v : Byte) : (busStore s a v).cyc = s.cyc :=
  (busStore_busOnly s a v).cyc

@[simp] theorem busStore_ppu (s : State) (a : Word) (v : Byte) : (busStore s a v).ppu = s.ppu :=
  (busStore_busOnly s a v).ppu

@[simp] theorem busStore_keys (s : State) (a : Word) (v : Byte) : (busStore s a v).keys = s.keys :=
  (busStore_busOnly s a v).keys

@[simp] theorem busStore_keysPrev (s : State) (a : Word) (v : Byte) : (busStore s a v).keysPrev = s.keysPrev :=
  (busStore_busOnly s a v).keysPrev

@[simp] theorem busStore_frameEntry (s : State) (a : Word) (v : Byte) : (busStore s a v).host.frameEntry = s.host.frameEntry :=
  (busStore_busOnly s a v).frameEntry

@[simp] theorem busStore_keySamples (s : State) (a : Word) (v : Byte) : (busStore s a v).host.keySamples = s.host.keySamples :=
  (busStore_busOnly s a v).keySamples

@[simp] theorem busStore_rtcTicks (s : State) (a : Word) (v : Byte) : (busStore s a v).host.rtcTicks = s.host.rtcTicks :=
  (busStore_busOnly s a v).rtcTicks

@[simp] theorem afterRead_params (s : State) (a : Word) : (afterRead s a).params = s.params :=
  (afterRead_busOnly s a).params

@[simp] theorem afterRead_regs (s : State) (a : Word) : (afterRead s a).regs = s.regs :=
  (afterRead_busOnly s a).regs

@[simp] theorem afterRead_ime (s : State) (a : Word) : (afterRead s a).ime = s.ime :=
  (afterRead_busOnly s a).ime

@[simp] theorem afterRead_run (s : State) (a : Word) : (afterRead s a).run = s.run :=
  (afterRead_busOnly s a).run

@[simp] theorem afterRead_doubleSpeed (s : State) (a : Word) : (afterRead s a).doubleSpeed = s.doubleSpeed :=
  (afterRead_busOnly s a).doubleSpeed

@[simp] theorem afterRead_cycles (s : State) (a : Word) : (afterRead s a).cycles = s.cycles :=
  (afterRead_busOnly s a).cycles

@[simp] theorem afterRead_cyc (s : State) (a : Word) : (afterRead s a).cyc = s.cyc :=
  (afterRead_busOnly s a).cyc

@[simp] theorem afterRead_ppu (s : State) (a : Word) : (afterRead s a).ppu = s.ppu :=
  (afterRead_busOnly s a).ppu

@[simp] theorem afterRead_keys (s : State) (a : Word) : (afterRead s a).keys = s.keys :=
  (afterRead_busOnly s a).keys

@[simp] theorem afterRead_keysPrev (s : State) (a : Word) : (afterRead s a).keysPrev = s.keysPrev :=
  (afterRead_busOnly s a).keysPrev

@[simp] theorem afterRead_frameEntry (s : State) (a : Word) : (afterRead s a).host.frameEntry = s.host.frameEntry :=
  (afterRead_busOnly s a).frameEntry

@[simp] theorem afterRead_keySamples (s : State) (a : Word) : (afterRead s a).host.keySamples = s.host.keySamples :=
  (afterRead_busOnly s a).keySamples

@[simp] theorem afterRead_rtcTicks (s : State) (a : Word) : (afterRead s a).host.rtcTicks = s.host.rtcTicks :=
  (afterRead_busOnly s a).rtcTicks

@[simp] theorem afterRead_mem (s : State) (a : Word) : (afterRead s a).mem = s.mem := by
  unfold afterRead; split <;> rfl

@[simp] theorem afterRead_mbc (s : State) (a : Word) : (afterRead s a).mbc = s.mbc := by
  unfold afterRead; split <;> rfl

@[simp] theorem afterRead_timer (s : State) (a : Word) : (afterRead s a).timer = s.timer := by
  unfold afterRead; split <;> rfl

/-! ## A write does not look at the CPU -/

/-- A function that commutes with each step commutes with the fold. -/
theorem foldl_commutes {β : Type} {f : State → β → State} {p : State → State} (h : ∀ s i, f (p s) i = p (f s i))
    (l : List β) (s : State) : l.foldl f (p s) = p (l.foldl f s) := by
  induction l generalizing s with
  | nil => rfl
  | cons i l ih => rw [List.foldl_cons, List.foldl_cons, h, ih]

/-- The CPU's own fields, replaced. -/
def State.withCpu (s : State) (g : Regs) (i : Ime) (r : RunState) (n : Nat) : State :=
  { s with regs := g, ime := i, run := r, cyc := n }

theorem afterRead_withCpu (s : State) (g : Regs) (i : Ime) (r : RunState) (n : Nat) (a : Word) :
    afterRead (s.withCpu g i r n) a = (afterRead s a).withCpu g i r n := by
  unfold afterRead; split <;> rfl

theorem oamDma_withCpu (s : State) (g : Regs) (i : Ime) (r : RunState) (n : Nat) (page : Byte) :
    oamDma (s.withCpu g i r n) page = (oamDma s page).withCpu g i r n := by
  refine foldl_commutes (p := fun s => s.withCpu g i r n) (fun s k => ?_) _ s
  dsimp only [oamDmaByte]
  rw [afterRead_withCpu]
  rfl

theorem gdma_withCpu (s : State) (g : Regs) (i : Ime) (r : RunState) (n : Nat) (v : Byte) :
    gdma (s.withCpu g i r n) v = (gdma s v).withCpu g i r n := by
  refine foldl_commutes (p := fun s => s.withCpu g i r n) (fun s k => ?_) _ s
  dsimp only [gdmaByte]
  rw [afterRead_withCpu]
  rfl

theorem ioStore_withCpu (s : State) (g : Regs) (i : Ime) (r : RunState) (n : Nat) (o : Nat) (v : Byte) :
    ioStore (s.withCpu g i r n) o v = (ioStore s o v).withCpu g i r n := rfl

theorem ioWrite_withCpu (s : State) (g : Regs) (i : Ime) (r : RunState) (n : Nat) (o : Nat) (v : Byte) :
    ioWrite (s.withCpu g i r n) o v = (ioWrite s o v).withCpu g i r n := by
  unfold ioWrite
  rw [ioStore_withCpu]
  split
  · rfl
  · rfl
  · rfl
  · exact oamDma_withCpu ..
  · change (if s.params.cgbMode then _ else _) = _
    split
    · exact gdma_withCpu ..
    · rfl
  · change (if s.params.cgbMode then _ else _) = _
    split <;> rfl
  · change (if s.params.cgbMode then _ else _) = _
    split <;> rfl
  · rfl

theorem eramWrite_withCpu (s : State) (g : Regs) (i : Ime) (r : RunState) (n : Nat) (a : Nat) (v : Byte) :
    eramWrite (s.withCpu g i r n) a v = (eramWrite s a v).withCpu g i r n := by
  unfold eramWrite
  rw [show eramRoute (s.withCpu g i r n).params (s.withCpu g i r n).mbc a = eramRoute s.params s.mbc a from rfl]
  cases eramRoute s.params s.mbc a <;> rfl

/-- What a bus write does depends on no register, IME, run state or count of cycles, and changes none. -/
theorem busStore_withCpu (s : State) (g : Regs) (i : Ime) (r : RunState) (n : Nat) (a : Word) (v : Byte) :
    busStore (s.withCpu g i r n) a v = (busStore s a v).withCpu g i r n := by
  unfold busStore
  rw [show route (s.withCpu g i r n) a = route s a from rfl]
  split
  · rfl
  · rfl
  · exact eramWrite_withCpu ..
  · rfl
  · rfl
  · rfl
  · exact ioWrite_withCpu ..
  · rfl
  · rfl

/-- Nor does the refusal of a write. -/
theorem busRefusal_withCpu (s : State) (g : Regs) (i : Ime) (r : RunState) (n : Nat) (a : Word) (v : Byte) :
    busRefusal (s.withCpu g i r n) a v = busRefusal s a v := rfl

/-- A write ends in the next state `busStore` gives, or is refused. -/
theorem busWrite_eq_next {s t : State} {a : Word} {v : Byte} :
    busWrite s a v = .next t ↔ busRefusal s a v = none ∧ t = busStore s a v := by
  unfold busWrite
  split <;> rename_i h <;> simp [h, eq_comm]

theorem busWrite_of_accepted {s : State} {a : Word} {v : Byte} (h : busRefusal s a v = none) :
    busWrite s a v = .next (busStore s a v) := busWrite_eq_next.2 ⟨h, rfl⟩

/-- A word write does both byte writes, or is refused. -/
theorem busWrite16_eq_next {s t : State} {a v : Word} :
    busWrite16 s a v = .next t ↔
      acceptsWord s a v ∧ t = busStore (busStore s a (loByte v)) (a + 1#16) (hiByte v) := by
  unfold busWrite16 acceptsWord busWrite
  split <;> rename_i h
  · simp [andThen, h]
  · simp only [andThen, h, true_and]
    split <;> rename_i h' <;> simp [h', eq_comm]

theorem busWrite_eq_refused {s : State} {a : Word} {v : Byte} {r : Refusal} :
    busWrite s a v = .refused r ↔ busRefusal s a v = some r := by
  unfold busWrite
  split <;> rename_i h <;> simp [h]

theorem busWrite16_eq_refused {s : State} {a v : Word} {r : Refusal} :
    busWrite16 s a v = .refused r ↔ wordRefusal s a v = some r := by
  unfold busWrite16 wordRefusal busWrite
  split <;> rename_i h
  · simp [andThen, h]
  · simp only [andThen, h]
    split <;> rename_i h' <;> simp [h']

/-- The refusal of a word does not look at the CPU either. -/
theorem wordRefusal_withCpu (s : State) (g : Regs) (i : Ime) (r : RunState) (n : Nat) (a v : Word) :
    wordRefusal (s.withCpu g i r n) a v = wordRefusal s a v := by
  unfold wordRefusal
  rw [busRefusal_withCpu, busStore_withCpu, busRefusal_withCpu]

/-! ## Every memory operation keeps the canonical form -/

theorem wf_setIo {s : State} (o : Nat) (v : Byte) (h : s.mem.wf) : (s.setIo o v).mem.wf :=
  ⟨h.1, h.2.1, h.2.2.1, h.2.2.2.1, Memory.wf_write h.2.2.2.2.1 o v, h.2.2.2.2.2⟩

theorem wf_request {s : State} (i : Fin 5) (h : s.mem.wf) : (request s i).mem.wf := wf_setIo _ _ h

theorem wf_clearRequest {s : State} (i : Fin 5) (h : s.mem.wf) : (clearRequest s i).mem.wf := wf_setIo _ _ h

theorem wf_compareLine {s : State} (h : s.mem.wf) : (compareLine s).mem.wf := wf_setIo _ _ h

theorem wf_setMode {s : State} (m : Fin 4) (h : s.mem.wf) : (setMode s m).mem.wf := wf_setIo _ _ h

theorem wf_afterRead {s : State} (a : Word) (h : s.mem.wf) : (afterRead s a).mem.wf := by
  rw [afterRead_mem]; exact h

/-- OAM DMA writes OAM and counts the bytes it draws from the APU range, nothing else. -/
theorem oamDma_frame (s : State) (page : Byte) :
    oamDma s page = { s with mem.oam := (oamDma s page).mem.oam, host.draws := (oamDma s page).host.draws } := by
  have h : ∃ m d, oamDma s page = { s with mem.oam := m, host.draws := d } := by
    refine foldl_invariant (f := oamDmaByte page) (P := fun t => ∃ m d, t = { s with mem.oam := m, host.draws := d }) _ ?_
      ⟨s.mem.oam, s.host.draws, rfl⟩
    rintro _ i - ⟨m, d, rfl⟩
    unfold oamDmaByte afterRead
    dsimp only
    split <;> exact ⟨_, _, rfl⟩
  obtain ⟨m, d, h⟩ := h
  rw [h]

/-- General-purpose DMA writes video RAM and counts the bytes it draws, nothing else. -/
theorem gdma_frame (s : State) (v : Byte) :
    gdma s v = { s with mem.vram := (gdma s v).mem.vram, host.draws := (gdma s v).host.draws } := by
  have h : ∃ m d, gdma s v = { s with mem.vram := m, host.draws := d } := by
    refine foldl_invariant (f := gdmaByte s.gdmaSource s.gdmaDest) (P := fun t => ∃ m d, t = { s with mem.vram := m, host.draws := d }) _ ?_
      ⟨s.mem.vram, s.host.draws, rfl⟩
    rintro _ i - ⟨m, d, rfl⟩
    unfold gdmaByte afterRead
    dsimp only
    split <;> exact ⟨_, _, rfl⟩
  obtain ⟨m, d, h⟩ := h
  rw [h]

theorem wf_oamDma {s : State} (page : Byte) (h : s.mem.wf) : (oamDma s page).mem.wf := by
  refine foldl_invariant (P := fun s => s.mem.wf) _ (fun s i _ h => ?_) h
  have h' := wf_afterRead (joinBytes page 0#8 + BitVec.ofNat 16 i) h
  exact ⟨h'.1, h'.2.1, h'.2.2.1, Memory.wf_write h'.2.2.2.1 _ _, h'.2.2.2.2⟩

theorem wf_gdma {s : State} (v : Byte) (h : s.mem.wf) : (gdma s v).mem.wf := by
  refine foldl_invariant (P := fun s => s.mem.wf) _ (fun t i _ h => ?_) h
  have h' := wf_afterRead (s.gdmaSource + BitVec.ofNat 16 i) h
  exact ⟨Memory.wf_write h'.1 _ _, h'.2⟩

theorem wf_bgPaletteWrite {s : State} (v : Byte) (h : s.mem.wf) : (bgPaletteWrite s v).mem.wf :=
  wf_setIo _ _ ⟨h.1, h.2.1, h.2.2.1, h.2.2.2.1, h.2.2.2.2.1, h.2.2.2.2.2.1, Memory.wf_write h.2.2.2.2.2.2.1 _ _,
    h.2.2.2.2.2.2.2⟩

theorem wf_objPaletteWrite {s : State} (v : Byte) (h : s.mem.wf) : (objPaletteWrite s v).mem.wf :=
  wf_setIo _ _ ⟨h.1, h.2.1, h.2.2.1, h.2.2.2.1, h.2.2.2.2.1, h.2.2.2.2.2.1, h.2.2.2.2.2.2.1,
    Memory.wf_write h.2.2.2.2.2.2.2 _ _⟩

theorem wf_ioStore {s : State} (o : Nat) (v : Byte) (h : s.mem.wf) : (ioStore s o v).mem.wf := wf_setIo _ _ h

/-- An address of the I/O range, by its offset. -/
theorem route_io (s : State) {o : Nat} (ho : o < 0x80) : route s (0xFF00#16 + BitVec.ofNat 16 o) = .io o := by
  have e : (0xFF00#16 + BitVec.ofNat 16 o).toNat = 0xFF00 + o := by
    rw [BitVec.toNat_add, BitVec.toNat_ofNat, BitVec.toNat_ofNat]
    omega
  simp only [route, e]
  rw [if_neg (by omega), if_neg (by omega), if_neg (by omega), if_neg (by omega), if_neg (by omega), if_neg (by omega),
    if_pos (by omega), Nat.add_sub_cancel_left]

theorem busStore_io (s : State) {o : Nat} (ho : o < 0x80) (v : Byte) :
    busStore s (0xFF00#16 + BitVec.ofNat 16 o) v = ioWrite s o v := by
  simp only [busStore, route_io s ho]

theorem busRead_io (s : State) {o : Nat} (ho : o < 0x80) :
    busRead s (0xFF00#16 + BitVec.ofNat 16 o) = ioRead s o := by
  simp only [busRead, route_io s ho]

/-- A register without writable bits ignores the store. -/
theorem ioStore_of_readOnly {s : State} (hw : s.mem.wf) {o : Nat} (v : Byte)
    (h : (ioMasks s.params.cgbMode o).1 = 0#8) : ioStore s o v = s := by
  have hv : s.mem.io.read o &&& ~~~0#8 ||| v &&& 0#8 = s.mem.io.read o := by
    rw [BitVec.and_zero, BitVec.or_zero]
    exact BitVec.and_allOnes
  simp only [ioStore, State.setIo, State.io, h, hv]
  rw [Memory.write_read hw.2.2.2.2.1]

theorem wf_ioWrite {s : State} (o : Nat) (v : Byte) (h : s.mem.wf) : (ioWrite s o v).mem.wf := by
  have h' := wf_ioStore o v h
  unfold ioWrite
  dsimp only
  split
  · exact h'
  · exact h'
  · exact wf_compareLine h'
  · exact wf_oamDma v h'
  · split
    · exact wf_gdma v h'
    · exact h'
  · split
    · exact wf_bgPaletteWrite v h'
    · exact h'
  · split
    · exact wf_objPaletteWrite v h'
    · exact h'
  · exact h'

theorem wf_eramWrite {s : State} (a : Nat) (v : Byte) (h : s.mem.wf) : (eramWrite s a v).mem.wf := by
  have h' : ∀ o w, (s.mem.eram.write o w).wf := fun o w => Memory.wf_write h.2.1 o w
  unfold eramWrite
  split
  · exact h
  · exact ⟨h.1, h' _ _, h.2.2⟩
  · exact ⟨h.1, h' _ _, h.2.2⟩
  · exact h

/-- A bus write keeps the canonical form. -/
theorem wf_busStore {s : State} (a : Word) (v : Byte) (h : s.mem.wf) : (busStore s a v).mem.wf := by
  unfold busStore
  split
  · exact h
  · exact ⟨Memory.wf_write h.1 _ _, h.2⟩
  · exact wf_eramWrite _ _ h
  · exact ⟨h.1, h.2.1, Memory.wf_write h.2.2.1 _ _, h.2.2.2⟩
  · exact ⟨h.1, h.2.1, h.2.2.1, Memory.wf_write h.2.2.2.1 _ _, h.2.2.2.2⟩
  · exact h
  · exact wf_ioWrite _ _ h
  · exact ⟨h.1, h.2.1, h.2.2.1, h.2.2.2.1, h.2.2.2.2.1, Memory.wf_write h.2.2.2.2.2.1 _ _, h.2.2.2.2.2.2⟩
  · exact h

/-- Placing a byte keeps the canonical form. -/
theorem wf_pokeByte {s : State} (a : Word) (v : Byte) (h : s.mem.wf) : (pokeByte s a v).mem.wf := by
  unfold pokeByte
  split
  · split <;> exact h
  · exact ⟨Memory.wf_write h.1 _ _, h.2⟩
  · exact wf_eramWrite _ _ h
  · exact ⟨h.1, h.2.1, Memory.wf_write h.2.2.1 _ _, h.2.2.2⟩
  · exact ⟨h.1, h.2.1, h.2.2.1, Memory.wf_write h.2.2.2.1 _ _, h.2.2.2.2⟩
  · exact h
  · exact h
  · exact ⟨h.1, h.2.1, h.2.2.1, h.2.2.2.1, h.2.2.2.2.1, Memory.wf_write h.2.2.2.2.2.1 _ _, h.2.2.2.2.2.2⟩
  · exact h

/-- The last of several ticks, taken alone. -/
theorem Mbc.rtcTicks_succ (m : Mbc) (n : Nat) : m.rtcTicks (n + 1) = (m.rtcTicks n).rtcTick := by
  induction n generalizing m with
  | zero => rfl
  | succ n ih => exact ih m.rtcTick

/-- The memory of the reset state has the canonical form. -/
theorem wf_reset (p : Params) (k : MbcKind) : (State.resetWith p k).mem.wf := by
  show Mem.wf ⟨[], [], [], [], [], [], [], [], 0#8⟩
  decide

end Sys2Proof.Machine
end

