-- ==== Sys2Proof/Laws/Devices.lean ====
section
/-! SUPPORT. What the Timer, the PPU and the moves before a step can change, and the register results of their small
operations. -/

namespace Sys2Proof.Machine

/-! ## The I/O file -/

theorem io_setIo_same {s : State} (h : s.mem.wf) (o : Nat) (v : Byte) : (s.setIo o v).io o = v :=
  Memory.read_write_same h.2.2.2.2.1 _ _

theorem io_setIo_other (s : State) {o o' : Nat} (v : Byte) (h : o' ≠ o) : (s.setIo o v).io o' = s.io o' :=
  Memory.read_write_other _ _ h

/-! ## The devices change the I/O file, the Timer and the PPU's own state, and nothing else (60_exceptions.md R308) -/

/-- `t` is `s` but for the I/O file, the Timer and the PPU's own state. -/
abbrev DevicesOnly (s t : State) : Prop :=
  t = { s with mem := { s.mem with io := t.mem.io }, timer := t.timer, ppu := t.ppu }

theorem DevicesOnly.refl (s : State) : DevicesOnly s s := rfl

theorem DevicesOnly.trans {s t u : State} (h : DevicesOnly s t) (k : DevicesOnly t u) : DevicesOnly s u := by
  unfold DevicesOnly at *
  rw [k, h]

theorem DevicesOnly.params {s t : State} (h : DevicesOnly s t) : t.params = s.params := by rw [h]
theorem DevicesOnly.regs {s t : State} (h : DevicesOnly s t) : t.regs = s.regs := by rw [h]
theorem DevicesOnly.ime {s t : State} (h : DevicesOnly s t) : t.ime = s.ime := by rw [h]
theorem DevicesOnly.run {s t : State} (h : DevicesOnly s t) : t.run = s.run := by rw [h]
theorem DevicesOnly.doubleSpeed {s t : State} (h : DevicesOnly s t) : t.doubleSpeed = s.doubleSpeed := by rw [h]
theorem DevicesOnly.cycles {s t : State} (h : DevicesOnly s t) : t.cycles = s.cycles := by rw [h]
theorem DevicesOnly.cyc {s t : State} (h : DevicesOnly s t) : t.cyc = s.cyc := by rw [h]
theorem DevicesOnly.mbc {s t : State} (h : DevicesOnly s t) : t.mbc = s.mbc := by rw [h]
theorem DevicesOnly.keys {s t : State} (h : DevicesOnly s t) : t.keys = s.keys := by rw [h]
theorem DevicesOnly.keysPrev {s t : State} (h : DevicesOnly s t) : t.keysPrev = s.keysPrev := by rw [h]
theorem DevicesOnly.host {s t : State} (h : DevicesOnly s t) : t.host = s.host := by rw [h]
theorem DevicesOnly.vram {s t : State} (h : DevicesOnly s t) : t.mem.vram = s.mem.vram := by rw [h]
theorem DevicesOnly.eram {s t : State} (h : DevicesOnly s t) : t.mem.eram = s.mem.eram := by rw [h]
theorem DevicesOnly.wram {s t : State} (h : DevicesOnly s t) : t.mem.wram = s.mem.wram := by rw [h]
theorem DevicesOnly.oam {s t : State} (h : DevicesOnly s t) : t.mem.oam = s.mem.oam := by rw [h]
theorem DevicesOnly.hram {s t : State} (h : DevicesOnly s t) : t.mem.hram = s.mem.hram := by rw [h]
theorem DevicesOnly.bgpal {s t : State} (h : DevicesOnly s t) : t.mem.bgpal = s.mem.bgpal := by rw [h]
theorem DevicesOnly.objpal {s t : State} (h : DevicesOnly s t) : t.mem.objpal = s.mem.objpal := by rw [h]
theorem DevicesOnly.ie {s t : State} (h : DevicesOnly s t) : t.mem.ie = s.mem.ie := by rw [h]

theorem setIo_devicesOnly (s : State) (o : Nat) (v : Byte) : DevicesOnly s (s.setIo o v) := rfl

theorem request_devicesOnly (s : State) (i : Fin 5) : DevicesOnly s (request s i) := rfl

theorem compareLine_devicesOnly (s : State) : DevicesOnly s (compareLine s) := rfl

theorem setMode_devicesOnly (s : State) (m : Fin 4) : DevicesOnly s (setMode s m) := rfl

/-! ## The Timer (60_exceptions.md R330 to R334) -/

theorem timaIncrement_devicesOnly (s : State) : DevicesOnly s (timaIncrement s) := by
  unfold timaIncrement
  split <;> rfl

theorem timaIncrements_devicesOnly (n : Nat) (s : State) : DevicesOnly s (timaIncrements s n) := by
  induction n generalizing s with
  | zero => exact .refl s
  | succ n ih => exact (timaIncrement_devicesOnly s).trans (ih _)

theorem divAdvance_devicesOnly (s : State) (n : Nat) : DevicesOnly s (divAdvance s n) := rfl

theorem timaAdvance_devicesOnly (s : State) (n : Nat) : DevicesOnly s (timaAdvance s n) := by
  unfold timaAdvance
  split
  · exact DevicesOnly.trans (t := { s with timer.timaAcc := _ }) rfl (timaIncrements_devicesOnly _ _)
  · exact .refl s

theorem timerAdvance_devicesOnly (s : State) (n : Nat) : DevicesOnly s (timerAdvance s n) :=
  (divAdvance_devicesOnly s n).trans (timaAdvance_devicesOnly _ n)

theorem timaIncrement_timer (s : State) : (timaIncrement s).timer = s.timer := by
  unfold timaIncrement
  split <;> rfl

theorem timaIncrement_ppu (s : State) : (timaIncrement s).ppu = s.ppu := by
  unfold timaIncrement
  split <;> rfl

theorem timaIncrements_ppu (n : Nat) (s : State) : (timaIncrements s n).ppu = s.ppu := by
  induction n generalizing s with
  | zero => rfl
  | succ n ih => exact (ih _).trans (timaIncrement_ppu s)

theorem timerAdvance_ppu (s : State) (n : Nat) : (timerAdvance s n).ppu = s.ppu := by
  unfold timerAdvance timaAdvance
  split
  · exact timaIncrements_ppu _ _
  · rfl

/-! ## The line events of the PPU (60_exceptions.md R353 to R360) -/

theorem statEvent_devicesOnly (b : Nat) (s : State) : DevicesOnly s (statEvent b s) := by
  unfold statEvent
  split <;> rfl

theorem startLine_devicesOnly (y : Nat) (s : State) : DevicesOnly s (startLine y s) := by
  unfold startLine
  dsimp only
  split
  · exact DevicesOnly.trans (t := compareLine (s.setIo 0x44 (BitVec.ofNat 8 y))) rfl (statEvent_devicesOnly 6 _)
  · rfl

theorem enterOamScan_devicesOnly (y : Nat) (s : State) : DevicesOnly s (enterOamScan y s) :=
  ((setMode_devicesOnly s 2).trans (statEvent_devicesOnly 5 _)).trans rfl

theorem enterTransfer_devicesOnly (y : Nat) (s : State) : DevicesOnly s (enterTransfer y s) :=
  DevicesOnly.trans (setMode_devicesOnly s 3) rfl

theorem enterHblank_devicesOnly (s : State) : DevicesOnly s (enterHblank s) :=
  (setMode_devicesOnly s 0).trans (statEvent_devicesOnly 3 _)

theorem enterVblank_devicesOnly (s : State) : DevicesOnly s (enterVblank s) :=
  ((setMode_devicesOnly s 1).trans (request_devicesOnly _ 0)).trans (statEvent_devicesOnly 4 _)

theorem lcdOnDot_devicesOnly (s : State) : DevicesOnly s (lcdOnDot s) := by
  unfold lcdOnDot
  dsimp only
  split
  · have h := startLine_devicesOnly (s.ppu.cycle / dotsPerLine) s
    split
    · exact h.trans (enterOamScan_devicesOnly _ _)
    · split
      · exact h.trans (enterVblank_devicesOnly _)
      · exact h
  · split
    · exact enterTransfer_devicesOnly _ _
    · split
      · exact enterHblank_devicesOnly _
      · exact .refl s

theorem lcdOffDot_devicesOnly (s : State) : DevicesOnly s (lcdOffDot s) := by
  unfold lcdOffDot
  split <;> rfl

theorem ppuDot_devicesOnly (s : State) : DevicesOnly s (ppuDot s) := by
  unfold ppuDot
  dsimp only
  split
  · exact DevicesOnly.trans (t := { s with ppu.cycle := _ }) rfl (lcdOnDot_devicesOnly _)
  · exact DevicesOnly.trans (t := { s with ppu.cycle := _ }) rfl (lcdOffDot_devicesOnly _)

theorem ppuAdvance_devicesOnly (n : Nat) (s : State) : DevicesOnly s (ppuAdvance s n) := by
  induction n generalizing s with
  | zero => exact .refl s
  | succ n ih => exact (ppuDot_devicesOnly s).trans (ih _)

theorem statEvent_ppu (b : Nat) (s : State) : (statEvent b s).ppu = s.ppu := by
  unfold statEvent
  split <;> rfl

theorem startLine_ppu (y : Nat) (s : State) : (startLine y s).ppu = s.ppu := by
  unfold startLine
  dsimp only
  split
  · exact statEvent_ppu _ _
  · rfl

/-- What a STAT event does to the registers it can touch (R360). -/
theorem statEvent_registers (b : Nat) {s : State} (h : s.mem.wf) :
    (statEvent b s).stat = s.stat ∧ (statEvent b s).ly = s.ly ∧ (statEvent b s).lyc = s.lyc ∧
      (statEvent b s).ifReg = s.ifReg ||| (if s.stat.getLsbD b then 0x02#8 else 0x00#8) := by
  unfold statEvent
  split
  · exact ⟨io_setIo_other _ _ (by omega), io_setIo_other _ _ (by omega), io_setIo_other _ _ (by omega),
      io_setIo_same h _ _⟩
  · exact ⟨rfl, rfl, rfl, by simp⟩

/-- What a mode change does to the registers (R356 to R359). -/
theorem setMode_registers (m : Fin 4) {s : State} (h : s.mem.wf) :
    (setMode s m).stat = (s.stat &&& 0xFC#8) ||| BitVec.ofNat 8 m.val ∧ (setMode s m).ly = s.ly ∧
      (setMode s m).lyc = s.lyc ∧ (setMode s m).ifReg = s.ifReg :=
  ⟨io_setIo_same h _ _, io_setIo_other _ _ (by omega), io_setIo_other _ _ (by omega), io_setIo_other _ _ (by omega)⟩

/-- What an interrupt request does to the registers (20_memory.md R77). -/
theorem request_registers (i : Fin 5) {s : State} (h : s.mem.wf) :
    (request s i).stat = s.stat ∧ (request s i).ly = s.ly ∧ (request s i).lyc = s.lyc ∧
      (request s i).ifReg = s.ifReg ||| (1#8 <<< i.val) :=
  ⟨io_setIo_other _ _ (by omega), io_setIo_other _ _ (by omega), io_setIo_other _ _ (by omega), io_setIo_same h _ _⟩

/-! ## Rendering and the framebuffer -/

/-- A pixel does not depend on the framebuffer (R357). -/
theorem firstSprite_fb (s : State) (fb : List (List Pixel)) (y x : Nat) (l : List Nat) :
    State.firstSprite { s with ppu.fb := fb } y x l = s.firstSprite y x l := by
  induction l with
  | nil => rfl
  | cons i is ih =>
    unfold State.firstSprite
    rw [ih]
    rfl

/-- The dots of `PpuAdvance`, the last one taken alone. -/
theorem ppuAdvance_succ (s : State) (n : Nat) : ppuAdvance s (n + 1) = ppuDot (ppuAdvance s n) := by
  induction n generalizing s with
  | zero => rfl
  | succ n ih => exact ih (ppuDot s)

@[simp] theorem length_renderLine (s : State) (y : Nat) : (s.renderLine y).length = 160 := by
  simp [State.renderLine]

/-- Column `x` of a rendered line. -/
theorem getElem?_renderLine (s : State) (y : Nat) {x : Nat} (h : x < 160) :
    (s.renderLine y)[x]? = some (s.pixel y x) := by
  simp [State.renderLine, h]

theorem renderLine_fb (s : State) (fb : List (List Pixel)) (y : Nat) :
    State.renderLine { s with ppu.fb := fb } y = s.renderLine y := by
  unfold State.renderLine
  congr 1
  funext x
  have h : State.objPixel { s with ppu.fb := fb } y x = s.objPixel y x := by
    unfold State.objPixel
    rw [firstSprite_fb]
    rfl
  unfold State.pixel
  dsimp only
  rw [h]
  rfl

theorem renderLine_length (s : State) (y : Nat) : (s.renderLine y).length = 160 := by
  simp [State.renderLine]

/-! ## Sprite selection (60_exceptions.md R361) -/

theorem mem_insertByX (s : State) (i x : Nat) (l : List Nat) : x ∈ insertByX s i l ↔ x = i ∨ x ∈ l := by
  induction l with
  | nil => simp [insertByX]
  | cons j js ih =>
    unfold insertByX
    split <;> simp_all [or_left_comm]

theorem length_insertByX (s : State) (i : Nat) (l : List Nat) : (insertByX s i l).length = l.length + 1 := by
  induction l with
  | nil => rfl
  | cons j js ih =>
    unfold insertByX
    split <;> simp_all

theorem mem_sortByX (s : State) (x : Nat) (l : List Nat) : x ∈ sortByX s l ↔ x ∈ l := by
  induction l with
  | nil => rfl
  | cons i is ih => rw [sortByX, mem_insertByX, ih, List.mem_cons]

theorem length_sortByX (s : State) (l : List Nat) : (sortByX s l).length = l.length := by
  induction l with
  | nil => rfl
  | cons i is ih => rw [sortByX, length_insertByX, ih, List.length_cons]

/-! ## The moves before a step (60_exceptions.md R313, R340, 20_memory.md R118) -/

/-- A key sample changes the keys and, by a request, the I/O file. -/
theorem sampleKeys_eq (k : Keys) (s : State) :
    sampleKeys k s = { s with
      mem := { s.mem with io := (sampleKeys k s).mem.io }
      keysPrev := s.keys
      keys := k } := by
  unfold sampleKeys
  dsimp only
  split <;> rfl

/-- The moves before a step change the keys, the I/O file, the clock of an MBC3 and the host's lists. -/
theorem environment_eq (s : State) :
    environment s = { s with
      mem := { s.mem with io := (environment s).mem.io }
      keysPrev := (environment s).keysPrev
      keys := (environment s).keys
      mbc := (environment s).mbc
      host := { s.host with
        keySamples := (environment s).host.keySamples
        rtcTicks := (environment s).host.rtcTicks } } := by
  have h : ∀ t : State, hostMove s = t → t = { s with
      mem := { s.mem with io := t.mem.io }
      keysPrev := t.keysPrev
      keys := t.keys
      host := { s.host with keySamples := t.host.keySamples } } := by
    intro t ht
    unfold hostMove at ht
    split at ht
    · split at ht <;> (subst ht; rw [sampleKeys_eq])
    · subst ht
      rfl
  have h' := h _ rfl
  unfold environment clockMove
  split <;> (rw [h'])

/-! ## The memory form (10_state.md R37) -/

theorem wf_timaIncrement {s : State} (h : s.mem.wf) : (timaIncrement s).mem.wf := by
  unfold timaIncrement
  split
  · exact wf_request 2 (wf_setIo _ _ h)
  · exact wf_setIo _ _ h

theorem wf_timaIncrements (n : Nat) {s : State} (h : s.mem.wf) : (timaIncrements s n).mem.wf := by
  induction n generalizing s with
  | zero => exact h
  | succ n ih => exact ih (wf_timaIncrement h)

theorem wf_timerAdvance (n : Nat) {s : State} (h : s.mem.wf) : (timerAdvance s n).mem.wf := by
  unfold timerAdvance timaAdvance
  split
  · exact wf_timaIncrements _ h
  · exact h

theorem wf_statEvent (b : Nat) {s : State} (h : s.mem.wf) : (statEvent b s).mem.wf := by
  unfold statEvent
  split
  · exact wf_request 1 h
  · exact h

theorem wf_startLine (y : Nat) {s : State} (h : s.mem.wf) : (startLine y s).mem.wf := by
  unfold startLine
  dsimp only
  split
  · exact wf_statEvent 6 (wf_compareLine (wf_setIo _ _ h))
  · exact wf_compareLine (wf_setIo _ _ h)

theorem wf_ppuDot {s : State} (h : s.mem.wf) : (ppuDot s).mem.wf := by
  have on : ∀ t : State, t.mem.wf → (lcdOnDot t).mem.wf := by
    intro t ht
    unfold lcdOnDot
    dsimp only
    split
    · have hl := wf_startLine (t.ppu.cycle / dotsPerLine) ht
      split
      · exact wf_statEvent 5 (wf_setMode 2 hl)
      · split
        · exact wf_statEvent 4 (wf_request 0 (wf_setMode 1 hl))
        · exact hl
    · split
      · exact wf_setMode 3 ht
      · split
        · exact wf_statEvent 3 (wf_setMode 0 ht)
        · exact ht
  unfold ppuDot
  dsimp only
  split
  · exact on _ h
  · unfold lcdOffDot
    split <;> exact h

theorem wf_ppuAdvance (n : Nat) {s : State} (h : s.mem.wf) : (ppuAdvance s n).mem.wf := by
  induction n generalizing s with
  | zero => exact h
  | succ n ih => exact ih (wf_ppuDot h)

theorem wf_sampleKeys (k : Keys) {s : State} (h : s.mem.wf) : (sampleKeys k s).mem.wf := by
  unfold sampleKeys
  dsimp only
  split
  · exact wf_request 4 h
  · exact h

theorem wf_environment {s : State} (h : s.mem.wf) : (environment s).mem.wf := by
  have hh : (hostMove s).mem.wf := by
    unfold hostMove
    split
    · split <;> exact wf_sampleKeys _ h
    · exact h
  unfold environment clockMove
  split <;> exact hh

end Sys2Proof.Machine
end

