-- ==== Sys2Proof/Laws/Flags.lean ====
section
/-! SUPPORT. The flag register: each flag of `packFlags`, and bits 3 to 0, which are 0 (10_state.md R23). -/

namespace Sys2Proof.Machine

@[simp] theorem flagZ_pack (z n h c : Bool) : flagZ (packFlags z n h c) = z := by
  cases z <;> cases n <;> cases h <;> cases c <;> rfl

@[simp] theorem flagN_pack (z n h c : Bool) : flagN (packFlags z n h c) = n := by
  cases z <;> cases n <;> cases h <;> cases c <;> rfl

@[simp] theorem flagH_pack (z n h c : Bool) : flagH (packFlags z n h c) = h := by
  cases z <;> cases n <;> cases h <;> cases c <;> rfl

@[simp] theorem flagC_pack (z n h c : Bool) : flagC (packFlags z n h c) = c := by
  cases z <;> cases n <;> cases h <;> cases c <;> rfl

@[simp] theorem packFlags_low (z n h c : Bool) : packFlags z n h c &&& 0x0F#8 = 0#8 := by
  cases z <;> cases n <;> cases h <;> cases c <;> rfl

/-- A masked byte has bits 3 to 0 clear: what `POP AF` stores in F. -/
@[simp] theorem maskFlags_low (v : Byte) : (v &&& 0xF0#8) &&& 0x0F#8 = 0#8 := by
  rw [BitVec.and_assoc]
  simp

/-- The low nibble as a number, in the two spellings. -/
theorem nibble_toNat (v : Byte) : (v &&& 0x0F#8).toNat = v.toNat % 16 := by
  rw [BitVec.toNat_and]
  exact Nat.and_two_pow_sub_one_eq_mod v.toNat 4

theorem byte_toNat (w : Word) : (w &&& 0x00FF#16).toNat = w.toNat % 256 := by
  rw [BitVec.toNat_and]
  exact Nat.and_two_pow_sub_one_eq_mod w.toNat 8

theorem wordNibble_toNat (w : Word) : (w &&& 0x000F#16).toNat = w.toNat % 16 := by
  rw [BitVec.toNat_and]
  exact Nat.and_two_pow_sub_one_eq_mod w.toNat 4

theorem low12_toNat (w : Word) : (w &&& 0x0FFF#16).toNat = w.toNat % 0x1000 := by
  rw [BitVec.toNat_and]
  exact Nat.and_two_pow_sub_one_eq_mod w.toNat 12

/-- A byte operation leaves F with bits 3 to 0 clear, given that it does before. -/
abbrev KeepsFlagForm (op : Byte → Byte → Byte × Byte) : Prop := ∀ v f, f &&& 0x0F#8 = 0#8 → (op v f).2 &&& 0x0F#8 = 0#8

theorem incByte_form : KeepsFlagForm incByte := fun _ _ _ => packFlags_low ..

theorem decByte_form : KeepsFlagForm decByte := fun _ _ _ => packFlags_low ..

theorem daaByte_form : KeepsFlagForm daaByte := fun _ _ _ => packFlags_low ..

theorem rotateFlags_form (op : Rot) : KeepsFlagForm (rotateFlags op) := fun _ _ _ => packFlags_low ..

theorem rotateAcc_form (op : Rot) : KeepsFlagForm (rotateAcc op) := fun _ _ _ => packFlags_low ..

@[simp] theorem bitTest_low (b : Fin 8) (v f : Byte) : bitTest b v f &&& 0x0F#8 = 0#8 := packFlags_low ..

end Sys2Proof.Machine
end

