-- ==== Sys2Proof/Laws/Ops.lean ====
section
/-! SUPPORT. One lemma per shared operation of Machine/Ops.lean: everything it can do, in the words of Safety.lean; and
the machine step taken apart into its phases. -/

namespace Sys2Proof.Machine

/-! ## Sequencing -/

theorem next_eq_next {s t : State} : (Host.Outcome.next s : Result) = .next t ↔ t = s := by
  simp [eq_comm]

theorem andThen_eq_next {r : Result} {f : State → Result} {t : State} :
    andThen r f = .next t ↔ ∃ u, r = .next u ∧ f u = .next t := by
  cases r <;> simp [andThen]

theorem andThen_eq_fault {r : Result} {f : State → Result} {e : Fault} :
    andThen r f = .fault e ↔ r = .fault e ∨ ∃ u, r = .next u ∧ f u = .fault e := by
  cases r <;> simp [andThen]

theorem andThen_eq_refused {r : Result} {f : State → Result} {e : Refusal} :
    andThen r f = .refused e ↔ r = .refused e ∨ ∃ u, r = .next u ∧ f u = .refused e := by
  cases r <;> simp [andThen]

@[simp] theorem andThen_next (s : State) (f : State → Result) : andThen (.next s) f = f s := rfl

/-! ## The frame of an operation that stores nothing -/

theorem BusOnly.keepsDevices {s t : State} (h : BusOnly s t) : KeepsDevices s t :=
  ⟨h.params, h.doubleSpeed, h.cycles, h.ppu, h.keys, h.keysPrev, h.frameEntry, h.keySamples, h.rtcTicks⟩

theorem BusOnly.keepsControl {s t : State} (h : BusOnly s t) : KeepsControl s t := ⟨h.ime, h.run⟩

/-- A state that keeps what a read depends on reads the same. -/
theorem noStore_of_kept {s t : State} (hp : t.params = s.params) (hm : t.mem = s.mem) (hb : t.mbc = s.mbc)
    (ht : t.timer = s.timer) (hk : t.keys = s.keys) (hd : t.doubleSpeed = s.doubleSpeed) : NoStore s t :=
  ⟨hm, hb, ht, fun _ hx => busRead_congr hp hm hb ht hk hd hx⟩

/-- The registers and the cycles of a state, replaced: nothing else changes. -/
theorem onlyRegs_withRegs (s : State) (g : Regs) (n : Nat) : OnlyRegs s ((s.withRegs g).tick n) g n :=
  ⟨rfl, rfl, ⟨rfl, rfl⟩, ⟨rfl, rfl, rfl, rfl, rfl, rfl, rfl, rfl, rfl⟩, noStore_of_kept rfl rfl rfl rfl rfl rfl⟩

/-- The same after one read. -/
theorem onlyRegs_afterRead (s : State) (a : Word) (g : Regs) (n : Nat) :
    OnlyRegs s (((afterRead s a).withRegs g).tick n) g n := by
  have h := afterRead_busOnly s a
  exact ⟨rfl, congrArg (· + n) h.cyc, ⟨h.ime, h.run⟩, h.keepsDevices,
    noStore_of_kept h.params (afterRead_mem s a) (afterRead_mbc s a) (afterRead_timer s a) h.keys h.doubleSpeed⟩

/-- The same after the two reads of a word. -/
theorem onlyRegs_afterRead16 (s : State) (a : Word) (g : Regs) (n : Nat) :
    OnlyRegs s (((afterRead16 s a).withRegs g).tick n) g n := by
  have h := (afterRead_busOnly s a).trans (afterRead_busOnly (afterRead s a) (a + 1#16))
  exact ⟨rfl, congrArg (· + n) h.cyc, ⟨h.ime, h.run⟩, h.keepsDevices, noStore_of_kept h.params
    ((afterRead_mem _ _).trans (afterRead_mem _ _)) ((afterRead_mbc _ _).trans (afterRead_mbc _ _))
    ((afterRead_timer _ _).trans (afterRead_timer _ _)) h.keys h.doubleSpeed⟩

theorem fetchedPast_afterFetch (s : State) : FetchedPast s (afterFetch s) 1 := by
  have h := afterRead_busOnly s s.regs.pc
  exact ⟨by simp [afterFetch], h.cyc, ⟨h.ime, h.run⟩, h.keepsDevices,
    noStore_of_kept h.params (afterRead_mem _ _) (afterRead_mbc _ _) (afterRead_timer _ _) h.keys h.doubleSpeed⟩

/-! ## The shapes of instructions -/

theorem loadReg8_eq (r : Reg8) (a : Word) (n : Nat) (s : State) :
    loadReg8 r a n s = .next (((afterRead s a).withRegs (s.regs.set8 r (busRead s a))).tick n) := by
  simp [loadReg8, finish, State.setReg8]

theorem loadAccStep_eq (hl : Word) (s : State) :
    loadAccStep hl s =
      .next (((afterRead s s.regs.hl).withRegs ({ s.regs with a := busRead s s.regs.hl }.setHl hl)).tick 8) := by
  simp [loadAccStep, finish, State.setReg8, State.setReg16, State.withRegs, Regs.set8, Regs.set16]

theorem accumulate_eq (op : Byte → Byte → Byte → Byte × Byte) (b : Byte) (n : Nat) (s : State) :
    accumulate op b n s =
      .next ((s.withRegs { s.regs with
        a := (op s.regs.a b s.regs.f).1
        f := (op s.regs.a b s.regs.f).2 }).tick n) := rfl

theorem accumulateHl_eq (op : Byte → Byte → Byte → Byte × Byte) (s : State) :
    accumulateHl op s =
      .next (((afterRead s s.regs.hl).withRegs { s.regs with
        a := (op s.regs.a (busRead s s.regs.hl) s.regs.f).1
        f := (op s.regs.a (busRead s s.regs.hl) s.regs.f).2 }).tick 8) := by
  simp [accumulateHl, accumulate_eq]

theorem modifyReg8_eq (op : Byte → Byte → Byte × Byte) (r : Reg8) (n : Nat) (s : State) :
    modifyReg8 op r n s =
      .next ((s.withRegs { s.regs.set8 r (op (s.regs.get8 r) s.regs.f).1 with
        f := (op (s.regs.get8 r) s.regs.f).2 }).tick n) := rfl

/-- Everything a store can do: it is refused, or it stores the byte and reports its cycles. -/
theorem storeByte_eq_next {a : Word} {v : Byte} {n : Nat} {s t : State} :
    storeByte a v n s = .next t ↔ busRefusal s a v = none ∧ t = (busStore s a v).tick n := by
  simp [storeByte, andThen_eq_next, busWrite_eq_next, finish, next_eq_next, and_assoc,
    -Host.Outcome.next.injEq]

theorem storeAccStep_eq_next {hl : Word} {s t : State} :
    storeAccStep hl s = .next t ↔
      busRefusal s s.regs.hl s.regs.a = none ∧
        t = ((busStore s s.regs.hl s.regs.a).withRegs (s.regs.setHl hl)).tick 8 := by
  simp [storeAccStep, andThen_eq_next, busWrite_eq_next, finish, State.setReg16, Regs.set16, next_eq_next, and_assoc,
    -Host.Outcome.next.injEq]

/-- Neither a read nor a change of F matters to a refusal. -/
theorem busRefusal_afterRead (s : State) (x a : Word) (v : Byte) :
    busRefusal (afterRead s x) a v = busRefusal s a v := by
  unfold afterRead; split <;> rfl

theorem modifyHl_eq_next {op : Byte → Byte → Byte × Byte} {n : Nat} {s t : State} :
    modifyHl op n s = .next t ↔
      busRefusal s s.regs.hl (op (busRead s s.regs.hl) s.regs.f).1 = none ∧
        t = (busStore ((afterRead s s.regs.hl).setF (op (busRead s s.regs.hl) s.regs.f).2) s.regs.hl
          (op (busRead s s.regs.hl) s.regs.f).1).tick n := by
  have h : ∀ f v, busRefusal ((afterRead s s.regs.hl).setF f) s.regs.hl v = busRefusal s s.regs.hl v :=
    fun f v => busRefusal_afterRead ..
  simp [modifyHl, andThen_eq_next, busWrite_eq_next, finish, h, next_eq_next, and_assoc,
    -Host.Outcome.next.injEq]

theorem jump_eq (target : Word) (n : Nat) (s : State) :
    jump target n s = .next ((s.withRegs { s.regs with pc := target }).tick n) := rfl

/-- Everything a push can do. -/
theorem push16_eq_next {v : Word} {s t : State} :
    push16 s v = .next t ↔
      acceptsWord (s.setSp (s.regs.sp - 2#16)) (s.regs.sp - 2#16) v ∧
        t = busStore (busStore (s.setSp (s.regs.sp - 2#16)) (s.regs.sp - 2#16) (loByte v))
          (s.regs.sp - 2#16 + 1#16) (hiByte v) := by
  simp [push16, busWrite16_eq_next]

theorem call_eq_next {target : Word} {n : Nat} {s t : State} :
    call target n s = .next t ↔ ∃ u, push16 s s.regs.pc = .next u ∧ t = (u.setPc target).tick n := by
  simp [call, andThen_eq_next, finish, next_eq_next, -Host.Outcome.next.injEq]

theorem afterPop_regs (s : State) : (afterPop s).regs = { s.regs with sp := s.regs.sp + 2#16 } := by
  simp [afterPop, afterRead16]

theorem returnTo_eq (n : Nat) (s : State) :
    returnTo n s = .next (((afterRead16 s s.regs.sp).withRegs
      { s.regs with sp := s.regs.sp + 2#16, pc := popWord s }).tick n) := by
  simp [returnTo, finish, afterPop, afterRead16, State.setPc, State.setSp, State.withRegs]

/-! ## Refused writes: the operation is refused, for the bus's reason -/

theorem storeByte_eq_refused {a : Word} {v : Byte} {n : Nat} {s : State} {r : Refusal} :
    storeByte a v n s = .refused r ↔ busRefusal s a v = some r := by
  simp [storeByte, andThen_eq_refused, busWrite_eq_refused, finish]

theorem storeAccStep_eq_refused {hl : Word} {s : State} {r : Refusal} :
    storeAccStep hl s = .refused r ↔ busRefusal s s.regs.hl s.regs.a = some r := by
  simp [storeAccStep, andThen_eq_refused, busWrite_eq_refused, finish]

theorem modifyHl_eq_refused {op : Byte → Byte → Byte × Byte} {n : Nat} {s : State} {r : Refusal} :
    modifyHl op n s = .refused r ↔
      busRefusal s s.regs.hl (op (busRead s s.regs.hl) s.regs.f).1 = some r := by
  have h : ∀ f v, busRefusal ((afterRead s s.regs.hl).setF f) s.regs.hl v = busRefusal s s.regs.hl v :=
    fun f v => busRefusal_afterRead ..
  simp [modifyHl, andThen_eq_refused, busWrite_eq_refused, finish, h]

theorem push16_eq_refused {v : Word} {s : State} {r : Refusal} :
    push16 s v = .refused r ↔ wordRefusal s (s.regs.sp - 2#16) v = some r := by
  have h : wordRefusal (s.setSp (s.regs.sp - 2#16)) (s.regs.sp - 2#16) v = wordRefusal s (s.regs.sp - 2#16) v :=
    wordRefusal_withCpu s { s.regs with sp := s.regs.sp - 2#16 } s.ime s.run s.cyc ..
  simp only [push16, busWrite16_eq_refused, h]

theorem call_eq_refused {target : Word} {n : Nat} {s : State} {r : Refusal} :
    call target n s = .refused r ↔ wordRefusal s (s.regs.sp - 2#16) s.regs.pc = some r := by
  simp [call, andThen_eq_refused, push16_eq_refused, finish]

/-! ## The interrupt phase -/

/-- Everything interrupt entry can do. -/
theorem takeInterrupt_eq_next {i : Fin 5} {s t : State} :
    takeInterrupt i s = .next t ↔ ∃ u, push16 ((clearRequest s i).setIme .disabled) s.regs.pc = .next u ∧
      t = ({ u with cyc := 20 }.setPc (interruptVector i)).setRun .running := by
  simp [takeInterrupt, andThen_eq_next, next_eq_next, -Host.Outcome.next.injEq]

/-- The source that is selected, if one is. -/
theorem interruptCheck_cases (s : State) :
    (interruptCheck s = .next s ∧ ((s.ime ≠ .enabled ∧ s.run = .running) ∨ firstSource (pending s) = none)) ∨
    ∃ i, firstSource (pending s) = some i ∧
      ((s.ime = .enabled ∧ interruptCheck s = takeInterrupt i s) ∨
        (s.ime ≠ .enabled ∧ s.run ≠ .running ∧ interruptCheck s = .next (wake i s))) := by
  unfold interruptCheck
  by_cases he : s.ime = .enabled
  · cases hp : firstSource (pending s) <;> simp [he]
  · by_cases hr : s.run = .running
    · simp [he, hr]
    · cases hp : firstSource (pending s) <;> simp [he, hr]

/-! ## The machine step -/

/-- Everything a step can do: the interrupt phase, then one instruction or four idle cycles, then the devices. -/
theorem step_eq_next {s t : State} :
    step s = .next t ↔ ∃ u v, interruptPhase (environment s) = .next u ∧ executePhase u = .next v ∧
      t = advancePhase v := by
  simp [step, machineStep, andThen_eq_next, next_eq_next, -Host.Outcome.next.injEq]

/-- A running CPU executes, a sleeping one idles. -/
theorem executePhase_eq_next {s t : State} :
    executePhase s = .next t ↔
      (s.run = .running ∧ ∃ i, fetchInstr s = .ok i ∧ exec i (afterInstr s) = .next t) ∨
        (s.run ≠ .running ∧ t = s.tick 4) := by
  unfold executePhase fetchAndExec
  by_cases h : s.run = .running
  · cases fetchInstr s <;> simp [h]
  · simp [h, finish, next_eq_next, -Host.Outcome.next.injEq]

end Sys2Proof.Machine
end

