-- ==== Sys2Proof/Laws/PerInstr.lean ====
section
/-! SUPPORT. Facts made one per instruction. `FirstByteLength`: the encoding of an instruction has its length, and that
length is read off its first byte alone (30_encoding.md R140). -/

namespace Sys2Proof.Laws.FirstByteLength

/-- The encoding has the instruction's length, and its first byte determines it; the prefix byte 0xCB alone is no
instruction, and as a first byte it means two bytes. -/
def Statement (i : Instr) : Prop :=
  (encode i).length = i.length ∧ (i ≠ .prefixCb → instrLength ((encode i).headD 0#8) = i.length)

theorem ldRR (r : Reg8) (r' : Reg8) : Statement (.ldRR r r') := by
  cases r <;> cases r' <;> exact ⟨rfl, fun _ => rfl⟩

theorem ldRN (r : Reg8) (n : Byte) : Statement (.ldRN r n) := by
  cases r <;> exact ⟨rfl, fun _ => by simp only [encode, List.headD_cons, Instr.length]; decide⟩

theorem ldRHl (r : Reg8) : Statement (.ldRHl r) := by
  cases r <;> exact ⟨rfl, fun _ => rfl⟩

theorem ldHlR (r : Reg8) : Statement (.ldHlR r) := by
  cases r <;> exact ⟨rfl, fun _ => rfl⟩

theorem ldHlN (n : Byte) : Statement (.ldHlN n) :=
  ⟨rfl, fun _ => by simp only [encode, List.headD_cons, Instr.length]; decide⟩

theorem ldABc : Statement .ldABc := ⟨rfl, fun _ => rfl⟩

theorem ldADe : Statement .ldADe := ⟨rfl, fun _ => rfl⟩

theorem ldBcA : Statement .ldBcA := ⟨rfl, fun _ => rfl⟩

theorem ldDeA : Statement .ldDeA := ⟨rfl, fun _ => rfl⟩

theorem ldANn (nn : Word) : Statement (.ldANn nn) :=
  ⟨rfl, fun _ => by simp only [encode, List.headD_cons, Instr.length]; decide⟩

theorem ldNnA (nn : Word) : Statement (.ldNnA nn) :=
  ⟨rfl, fun _ => by simp only [encode, List.headD_cons, Instr.length]; decide⟩

theorem ldhAC : Statement .ldhAC := ⟨rfl, fun _ => rfl⟩

theorem ldhCA : Statement .ldhCA := ⟨rfl, fun _ => rfl⟩

theorem ldhAN (n : Byte) : Statement (.ldhAN n) :=
  ⟨rfl, fun _ => by simp only [encode, List.headD_cons, Instr.length]; decide⟩

theorem ldhNA (n : Byte) : Statement (.ldhNA n) :=
  ⟨rfl, fun _ => by simp only [encode, List.headD_cons, Instr.length]; decide⟩

theorem ldAHld : Statement .ldAHld := ⟨rfl, fun _ => rfl⟩

theorem ldHldA : Statement .ldHldA := ⟨rfl, fun _ => rfl⟩

theorem ldAHli : Statement .ldAHli := ⟨rfl, fun _ => rfl⟩

theorem ldHliA : Statement .ldHliA := ⟨rfl, fun _ => rfl⟩

theorem ldRrNn (rr : Reg16) (nn : Word) : Statement (.ldRrNn rr nn) := by
  cases rr <;> exact ⟨rfl, fun _ => by simp only [encode, List.headD_cons, Instr.length]; decide⟩

theorem ldNnSp (nn : Word) : Statement (.ldNnSp nn) :=
  ⟨rfl, fun _ => by simp only [encode, List.headD_cons, Instr.length]; decide⟩

theorem ldSpHl : Statement .ldSpHl := ⟨rfl, fun _ => rfl⟩

theorem ldHlSpE (e : Byte) : Statement (.ldHlSpE e) :=
  ⟨rfl, fun _ => by simp only [encode, List.headD_cons, Instr.length]; decide⟩

theorem push (rr : Reg16S) : Statement (.push rr) := by
  cases rr <;> exact ⟨rfl, fun _ => rfl⟩

theorem pop (rr : Reg16S) : Statement (.pop rr) := by
  cases rr <;> exact ⟨rfl, fun _ => rfl⟩

theorem popAf : Statement .popAf := ⟨rfl, fun _ => rfl⟩

theorem addR (r : Reg8) : Statement (.addR r) := by
  cases r <;> exact ⟨rfl, fun _ => rfl⟩

theorem addHl : Statement .addHl := ⟨rfl, fun _ => rfl⟩

theorem addN (n : Byte) : Statement (.addN n) :=
  ⟨rfl, fun _ => by simp only [encode, List.headD_cons, Instr.length]; decide⟩

theorem adcR (r : Reg8) : Statement (.adcR r) := by
  cases r <;> exact ⟨rfl, fun _ => rfl⟩

theorem adcHl : Statement .adcHl := ⟨rfl, fun _ => rfl⟩

theorem adcN (n : Byte) : Statement (.adcN n) :=
  ⟨rfl, fun _ => by simp only [encode, List.headD_cons, Instr.length]; decide⟩

theorem subR (r : Reg8) : Statement (.subR r) := by
  cases r <;> exact ⟨rfl, fun _ => rfl⟩

theorem subHl : Statement .subHl := ⟨rfl, fun _ => rfl⟩

theorem subN (n : Byte) : Statement (.subN n) :=
  ⟨rfl, fun _ => by simp only [encode, List.headD_cons, Instr.length]; decide⟩

theorem sbcR (r : Reg8) : Statement (.sbcR r) := by
  cases r <;> exact ⟨rfl, fun _ => rfl⟩

theorem sbcHl : Statement .sbcHl := ⟨rfl, fun _ => rfl⟩

theorem sbcN (n : Byte) : Statement (.sbcN n) :=
  ⟨rfl, fun _ => by simp only [encode, List.headD_cons, Instr.length]; decide⟩

theorem andR (r : Reg8) : Statement (.andR r) := by
  cases r <;> exact ⟨rfl, fun _ => rfl⟩

theorem andHl : Statement .andHl := ⟨rfl, fun _ => rfl⟩

theorem andN (n : Byte) : Statement (.andN n) :=
  ⟨rfl, fun _ => by simp only [encode, List.headD_cons, Instr.length]; decide⟩

theorem xorR (r : Reg8) : Statement (.xorR r) := by
  cases r <;> exact ⟨rfl, fun _ => rfl⟩

theorem xorHl : Statement .xorHl := ⟨rfl, fun _ => rfl⟩

theorem xorN (n : Byte) : Statement (.xorN n) :=
  ⟨rfl, fun _ => by simp only [encode, List.headD_cons, Instr.length]; decide⟩

theorem orR (r : Reg8) : Statement (.orR r) := by
  cases r <;> exact ⟨rfl, fun _ => rfl⟩

theorem orHl : Statement .orHl := ⟨rfl, fun _ => rfl⟩

theorem orN (n : Byte) : Statement (.orN n) :=
  ⟨rfl, fun _ => by simp only [encode, List.headD_cons, Instr.length]; decide⟩

theorem cpR (r : Reg8) : Statement (.cpR r) := by
  cases r <;> exact ⟨rfl, fun _ => rfl⟩

theorem cpHl : Statement .cpHl := ⟨rfl, fun _ => rfl⟩

theorem cpN (n : Byte) : Statement (.cpN n) :=
  ⟨rfl, fun _ => by simp only [encode, List.headD_cons, Instr.length]; decide⟩

theorem incR (r : Reg8) : Statement (.incR r) := by
  cases r <;> exact ⟨rfl, fun _ => rfl⟩

theorem incHl : Statement .incHl := ⟨rfl, fun _ => rfl⟩

theorem decR (r : Reg8) : Statement (.decR r) := by
  cases r <;> exact ⟨rfl, fun _ => rfl⟩

theorem decHl : Statement .decHl := ⟨rfl, fun _ => rfl⟩

theorem daa : Statement .daa := ⟨rfl, fun _ => rfl⟩

theorem cpl : Statement .cpl := ⟨rfl, fun _ => rfl⟩

theorem scf : Statement .scf := ⟨rfl, fun _ => rfl⟩

theorem ccf : Statement .ccf := ⟨rfl, fun _ => rfl⟩

theorem addHlRr (rr : Reg16) : Statement (.addHlRr rr) := by
  cases rr <;> exact ⟨rfl, fun _ => rfl⟩

theorem incRr (rr : Reg16) : Statement (.incRr rr) := by
  cases rr <;> exact ⟨rfl, fun _ => rfl⟩

theorem decRr (rr : Reg16) : Statement (.decRr rr) := by
  cases rr <;> exact ⟨rfl, fun _ => rfl⟩

theorem addSpE (e : Byte) : Statement (.addSpE e) :=
  ⟨rfl, fun _ => by simp only [encode, List.headD_cons, Instr.length]; decide⟩

theorem rlca : Statement .rlca := ⟨rfl, fun _ => rfl⟩

theorem rrca : Statement .rrca := ⟨rfl, fun _ => rfl⟩

theorem rla : Statement .rla := ⟨rfl, fun _ => rfl⟩

theorem rra : Statement .rra := ⟨rfl, fun _ => rfl⟩

theorem jpNn (nn : Word) : Statement (.jpNn nn) :=
  ⟨rfl, fun _ => by simp only [encode, List.headD_cons, Instr.length]; decide⟩

theorem jpCcNn (cc : Cond) (nn : Word) : Statement (.jpCcNn cc nn) := by
  cases cc <;> exact ⟨rfl, fun _ => by simp only [encode, List.headD_cons, Instr.length]; decide⟩

theorem jpHl : Statement .jpHl := ⟨rfl, fun _ => rfl⟩

theorem jrE (e : Byte) : Statement (.jrE e) :=
  ⟨rfl, fun _ => by simp only [encode, List.headD_cons, Instr.length]; decide⟩

theorem jrCcE (cc : Cond) (e : Byte) : Statement (.jrCcE cc e) := by
  cases cc <;> exact ⟨rfl, fun _ => by simp only [encode, List.headD_cons, Instr.length]; decide⟩

theorem callNn (nn : Word) : Statement (.callNn nn) :=
  ⟨rfl, fun _ => by simp only [encode, List.headD_cons, Instr.length]; decide⟩

theorem callCcNn (cc : Cond) (nn : Word) : Statement (.callCcNn cc nn) := by
  cases cc <;> exact ⟨rfl, fun _ => by simp only [encode, List.headD_cons, Instr.length]; decide⟩

theorem ret : Statement .ret := ⟨rfl, fun _ => rfl⟩

theorem retCc (cc : Cond) : Statement (.retCc cc) := by
  cases cc <;> exact ⟨rfl, fun _ => rfl⟩

theorem reti : Statement .reti := ⟨rfl, fun _ => rfl⟩

theorem rst (t : Fin 8) : Statement (.rst t) := by
  revert t; unfold Statement; decide

theorem nop : Statement .nop := ⟨rfl, fun _ => rfl⟩

theorem halt : Statement .halt := ⟨rfl, fun _ => rfl⟩

theorem stop : Statement .stop := ⟨rfl, fun _ => rfl⟩

theorem di : Statement .di := ⟨rfl, fun _ => rfl⟩

theorem ei : Statement .ei := ⟨rfl, fun _ => rfl⟩

theorem prefixCb : Statement .prefixCb := ⟨rfl, fun h => absurd rfl h⟩

theorem illegalD3 : Statement .illegalD3 := ⟨rfl, fun _ => rfl⟩

theorem illegalDB : Statement .illegalDB := ⟨rfl, fun _ => rfl⟩

theorem illegalDD : Statement .illegalDD := ⟨rfl, fun _ => rfl⟩

theorem illegalE3 : Statement .illegalE3 := ⟨rfl, fun _ => rfl⟩

theorem illegalE4 : Statement .illegalE4 := ⟨rfl, fun _ => rfl⟩

theorem illegalEB : Statement .illegalEB := ⟨rfl, fun _ => rfl⟩

theorem illegalEC : Statement .illegalEC := ⟨rfl, fun _ => rfl⟩

theorem illegalED : Statement .illegalED := ⟨rfl, fun _ => rfl⟩

theorem illegalF4 : Statement .illegalF4 := ⟨rfl, fun _ => rfl⟩

theorem illegalFC : Statement .illegalFC := ⟨rfl, fun _ => rfl⟩

theorem illegalFD : Statement .illegalFD := ⟨rfl, fun _ => rfl⟩

theorem rlcR (r : Reg8) : Statement (.rlcR r) := by
  cases r <;> exact ⟨rfl, fun _ => rfl⟩

theorem rlcHl : Statement .rlcHl := ⟨rfl, fun _ => rfl⟩

theorem rrcR (r : Reg8) : Statement (.rrcR r) := by
  cases r <;> exact ⟨rfl, fun _ => rfl⟩

theorem rrcHl : Statement .rrcHl := ⟨rfl, fun _ => rfl⟩

theorem rlR (r : Reg8) : Statement (.rlR r) := by
  cases r <;> exact ⟨rfl, fun _ => rfl⟩

theorem rlHl : Statement .rlHl := ⟨rfl, fun _ => rfl⟩

theorem rrR (r : Reg8) : Statement (.rrR r) := by
  cases r <;> exact ⟨rfl, fun _ => rfl⟩

theorem rrHl : Statement .rrHl := ⟨rfl, fun _ => rfl⟩

theorem slaR (r : Reg8) : Statement (.slaR r) := by
  cases r <;> exact ⟨rfl, fun _ => rfl⟩

theorem slaHl : Statement .slaHl := ⟨rfl, fun _ => rfl⟩

theorem sraR (r : Reg8) : Statement (.sraR r) := by
  cases r <;> exact ⟨rfl, fun _ => rfl⟩

theorem sraHl : Statement .sraHl := ⟨rfl, fun _ => rfl⟩

theorem swapR (r : Reg8) : Statement (.swapR r) := by
  cases r <;> exact ⟨rfl, fun _ => rfl⟩

theorem swapHl : Statement .swapHl := ⟨rfl, fun _ => rfl⟩

theorem srlR (r : Reg8) : Statement (.srlR r) := by
  cases r <;> exact ⟨rfl, fun _ => rfl⟩

theorem srlHl : Statement .srlHl := ⟨rfl, fun _ => rfl⟩

theorem bitR (b : Fin 8) (r : Reg8) : Statement (.bitR b r) := ⟨rfl, fun _ => rfl⟩

theorem bitHl (b : Fin 8) : Statement (.bitHl b) := ⟨rfl, fun _ => rfl⟩

theorem resR (b : Fin 8) (r : Reg8) : Statement (.resR b r) := ⟨rfl, fun _ => rfl⟩

theorem resHl (b : Fin 8) : Statement (.resHl b) := ⟨rfl, fun _ => rfl⟩

theorem setR (b : Fin 8) (r : Reg8) : Statement (.setR b r) := ⟨rfl, fun _ => rfl⟩

theorem setHl (b : Fin 8) : Statement (.setHl b) := ⟨rfl, fun _ => rfl⟩

end Sys2Proof.Laws.FirstByteLength
end

