-- ==== Sys2Proof/Tests/Slice0.lean ====
section
/-! SUPPORT. The model's own tests: what WellFormed refuses, every constructor's decoding by a word written out from the
spec's encodings, one step of each instruction against the spec's test vectors and examples, and for every statement
with hypotheses a state and operands that meet them.

Expected values come from the spec: 95_test_vectors.md (the V-numbers), the Example or Corner cases line of a rule, or a
hand calculation from the rule named. -/

namespace Sys2Proof.Tests

set_option Elab.async false

open Sys2Proof Sys2Proof.Machine

/-! ## Well-formedness -/

theorem test_wellFormed_refuses_pop_of_af : (Instr.pop .af).wellFormed = false := by decide

theorem test_wellFormed_refuses_bare_prefix : Instr.prefixCb.wellFormed = false := by decide

theorem test_wellFormed_accepts_pop_af_row : Instr.popAf.wellFormed = true := by decide

/-! ## Decoding: words written out from 30_encoding.md R145 and R146, one for each constructor -/

/-- Each byte list decodes to its instruction with nothing left over. -/
def allDecode (l : List (List Byte × Instr)) : Bool :=
  l.all fun p => match decode p.1 with
    | .ok (i, []) => i == p.2
    | _ => false

theorem test_decode_load8 : allDecode [
    ([0b01_100_011#8], .ldRR .h .e), ([0b00_101_110#8, 0x9C#8], .ldRN .l 0x9C#8), ([0b01_010_110#8], .ldRHl .d),
    ([0b01110_001#8], .ldHlR .c), ([0x36#8, 0x7F#8], .ldHlN 0x7F#8), ([0x0A#8], .ldABc), ([0x1A#8], .ldADe),
    ([0x02#8], .ldBcA), ([0x12#8], .ldDeA), ([0xFA#8, 0x44#8, 0xFF#8], .ldANn 0xFF44#16),
    ([0xEA#8, 0x00#8, 0x20#8], .ldNnA 0x2000#16), ([0xF2#8], .ldhAC), ([0xE2#8], .ldhCA),
    ([0xF0#8, 0x0F#8], .ldhAN 0x0F#8), ([0xE0#8, 0xFF#8], .ldhNA 0xFF#8), ([0x3A#8], .ldAHld), ([0x32#8], .ldHldA),
    ([0x2A#8], .ldAHli), ([0x22#8], .ldHliA)] = true := by
  decide +kernel

theorem test_decode_load16 : allDecode [
    ([0b0011_0001#8, 0xFE#8, 0xFF#8], .ldRrNn .sp 0xFFFE#16), ([0x08#8, 0x00#8, 0xC1#8], .ldNnSp 0xC100#16),
    ([0xF9#8], .ldSpHl), ([0xF8#8, 0x02#8], .ldHlSpE 0x02#8), ([0b1111_0101#8], .push .af), ([0b1101_0001#8], .pop .de),
    ([0xF1#8], .popAf)] = true := by
  decide +kernel

theorem test_decode_alu8 : allDecode [
    ([0x80#8], .addR .b), ([0x86#8], .addHl), ([0xC6#8, 0x01#8], .addN 0x01#8),
    ([0x8B#8], .adcR .e), ([0x8E#8], .adcHl), ([0xCE#8, 0x02#8], .adcN 0x02#8),
    ([0x93#8], .subR .e), ([0x96#8], .subHl), ([0xD6#8, 0x03#8], .subN 0x03#8),
    ([0x9C#8], .sbcR .h), ([0x9E#8], .sbcHl), ([0xDE#8, 0x04#8], .sbcN 0x04#8),
    ([0xA5#8], .andR .l), ([0xA6#8], .andHl), ([0xE6#8, 0x05#8], .andN 0x05#8),
    ([0xAF#8], .xorR .a), ([0xAE#8], .xorHl), ([0xEE#8, 0x06#8], .xorN 0x06#8),
    ([0xB1#8], .orR .c), ([0xB6#8], .orHl), ([0xF6#8, 0x07#8], .orN 0x07#8),
    ([0xBA#8], .cpR .d), ([0xBE#8], .cpHl), ([0xFE#8, 0x40#8], .cpN 0x40#8),
    ([0b00_111_100#8], .incR .a), ([0x34#8], .incHl), ([0b00_000_101#8], .decR .b), ([0x35#8], .decHl),
    ([0x27#8], .daa), ([0x2F#8], .cpl), ([0x37#8], .scf), ([0x3F#8], .ccf)] = true := by
  decide +kernel

theorem test_decode_alu16 : allDecode [
    ([0b00_11_1001#8], .addHlRr .sp), ([0b00_01_0011#8], .incRr .de), ([0b00_00_1011#8], .decRr .bc),
    ([0xE8#8, 0xFF#8], .addSpE 0xFF#8)] = true := by
  decide +kernel

theorem test_decode_accumulator_rotates : allDecode [
    ([0x07#8], .rlca), ([0x0F#8], .rrca), ([0x17#8], .rla), ([0x1F#8], .rra)] = true := by
  decide +kernel

theorem test_decode_control : allDecode [
    ([0xC3#8, 0x50#8, 0x01#8], .jpNn 0x0150#16), ([0b110_11_010#8, 0x34#8, 0x12#8], .jpCcNn .c 0x1234#16),
    ([0xE9#8], .jpHl), ([0x18#8, 0xFE#8], .jrE 0xFE#8), ([0b001_10_000#8, 0x05#8], .jrCcE .nc 0x05#8),
    ([0xCD#8, 0x34#8, 0x12#8], .callNn 0x1234#16), ([0b110_01_100#8, 0x00#8, 0x30#8], .callCcNn .z 0x3000#16),
    ([0xC9#8], .ret), ([0b110_00_000#8], .retCc .nz), ([0xD9#8], .reti), ([0b11_101_111#8], .rst 5)] = true := by
  decide +kernel

theorem test_decode_system : allDecode [
    ([0x00#8], .nop), ([0x76#8], .halt), ([0x10#8, 0x00#8], .stop), ([0xF3#8], .di), ([0xFB#8], .ei),
    ([0xD3#8], .illegalD3), ([0xDB#8], .illegalDB), ([0xDD#8], .illegalDD), ([0xE3#8], .illegalE3),
    ([0xE4#8], .illegalE4), ([0xEB#8], .illegalEB), ([0xEC#8], .illegalEC), ([0xED#8], .illegalED),
    ([0xF4#8], .illegalF4), ([0xFC#8], .illegalFC), ([0xFD#8], .illegalFD)] = true := by
  decide +kernel

theorem test_decode_rotates_and_shifts : allDecode [
    ([0xCB#8, 0b00_000_000#8], .rlcR .b), ([0xCB#8, 0b00_000_110#8], .rlcHl),
    ([0xCB#8, 0b00_001_001#8], .rrcR .c), ([0xCB#8, 0b00_001_110#8], .rrcHl),
    ([0xCB#8, 0b00_010_101#8], .rlR .l), ([0xCB#8, 0b00_010_110#8], .rlHl),
    ([0xCB#8, 0b00_011_111#8], .rrR .a), ([0xCB#8, 0b00_011_110#8], .rrHl),
    ([0xCB#8, 0b00_100_010#8], .slaR .d), ([0xCB#8, 0b00_100_110#8], .slaHl),
    ([0xCB#8, 0b00_101_111#8], .sraR .a), ([0xCB#8, 0b00_101_110#8], .sraHl),
    ([0xCB#8, 0b00_110_111#8], .swapR .a), ([0xCB#8, 0b00_110_110#8], .swapHl),
    ([0xCB#8, 0b00_111_100#8], .srlR .h), ([0xCB#8, 0b00_111_110#8], .srlHl)] = true := by
  decide +kernel

theorem test_decode_bits : allDecode [
    ([0xCB#8, 0b01_111_111#8], .bitR 7 .a), ([0xCB#8, 0b01_100_110#8], .bitHl 4),
    ([0xCB#8, 0b10_000_011#8], .resR 0 .e), ([0xCB#8, 0b10_110_110#8], .resHl 6),
    ([0xCB#8, 0b11_001_100#8], .setR 1 .h), ([0xCB#8, 0b11_011_110#8], .setHl 3)] = true := by
  decide +kernel

/-- `PREFIX CB` is not an instruction of its own (46_system.md R265): its encoding is the byte 0xCB, and the decoder reads
it together with the second byte. -/
theorem test_decode_prefix : encode .prefixCb = [0xCB#8] ∧ allDecode [([0xCB#8, 0x37#8], .swapR .a)] = true := by
  decide +kernel

theorem test_decode_refuses_stop_operand : decode [0x10#8, 0x01#8] = .error (.stopOperand 0x01#8) := rfl

/-! ## The host's two functions -/

theorem test_table_word_of_one_byte : decodeTableWord 8 0x3C = some (.incR .a) := by decide +kernel

theorem test_table_word_of_three_bytes : decodeTableWord 24 0x0150C3 = some (.jpNn 0x0150#16) := by decide +kernel

theorem test_table_word_with_prefix : decodeTableWord 16 0x37CB = some (.swapR .a) := by decide +kernel

/-! ## One step of each instruction -/

/-- The start of the vectors (95_test_vectors.md): the bytes at 0x0100 of the ROM, no controller, the boot overlay
unmapped, SP in work RAM. -/
def start (bytes : List Byte) (cgb : Bool) : State :=
  let p : Params := { Params.default with rom := Memory.writeList [] 0x100 bytes, cgbMode := cgb }
  let s : State := { State.resetWith p .none with regs.pc := 0x0100#16, regs.sp := 0xDFF0#16 }
  s.setIo 0x50 0x01#8

/-- One step answers a next state with `p`, and takes `n` cycles. -/
def after (s : State) (n : Nat) (p : State → Bool) : Bool :=
  match step s with
  | .next t => p t && t.cycles == n
  | _ => false

/-- One step faults with `e`. -/
def faultsWith (s : State) (e : Fault) : Bool :=
  match step s with
  | .fault f => f == e
  | _ => false

/-- One step is refused with `e`. -/
def refusedWith (s : State) (e : Refusal) : Bool :=
  match step s with
  | .refused r => r == e
  | _ => false

theorem test_first_step_from_reset_with_a_word : after (State.reset.withFetchWord 16 0x2A3E) 8
    (fun t => t.regs.a == 0x2A#8 && t.regs.pc == 0x0002#16) = true := by
  decide +kernel

/-! ### 8-bit loads (95_test_vectors.md, V-40) -/

theorem test_V_40_1_LD_r_r : after { start [0x41#8] false with regs.b := 0x11#8, regs.c := 0x22#8 } 4
    (fun t => t.regs.b == 0x22#8 && t.regs.pc == 0x0101#16) = true := by
  decide +kernel

theorem test_V_40_2_LD_r_r : after { start [0x7F#8] false with regs.a := 0x5A#8 } 4
    (fun t => t.regs.pc == 0x0101#16) = true := by
  decide +kernel

theorem test_V_40_3_LD_HL_r :
    after { start [0x73#8] false with regs.e := 0x9C#8, regs.h := 0xC1#8, regs.l := 0x23#8 } 8
    (fun t => t.regs.pc == 0x0101#16 && busRead t 0xC123#16 == 0x9C#8) = true := by
  decide +kernel

theorem test_V_40_4_LD_r_HL :
    after (busStore { start [0x66#8] false with regs.h := 0xC0#8, regs.l := 0x10#8 } 0xC010#16 0xAB#8) 8
    (fun t => t.regs.h == 0xAB#8 && t.regs.pc == 0x0101#16) = true := by
  decide +kernel

theorem test_V_40_5_LD_HL_r : after { start [0x75#8] false with regs.h := 0xC0#8, regs.l := 0x44#8 } 8
    (fun t => t.regs.pc == 0x0101#16 && busRead t 0xC044#16 == 0x44#8) = true := by
  decide +kernel

theorem test_V_40_6_LD_r_n : after { start [0x16#8, 0x7E#8] false with regs.d := 0x00#8 } 8
    (fun t => t.regs.d == 0x7E#8 && t.regs.pc == 0x0102#16) = true := by
  decide +kernel

theorem test_V_40_7_LD_HL_n : after { start [0x36#8, 0x99#8] false with regs.h := 0xC2#8, regs.l := 0x00#8 } 12
    (fun t => t.regs.pc == 0x0102#16 && busRead t 0xC200#16 == 0x99#8) = true := by
  decide +kernel

theorem test_V_40_8_LD_A_BC :
    after (busStore { start [0x0A#8] false with
      regs.b := 0xC0#8, regs.c := 0x05#8, regs.a := 0x00#8 } 0xC005#16 0x77#8) 8
    (fun t => t.regs.a == 0x77#8 && t.regs.pc == 0x0101#16) = true := by
  decide +kernel

theorem test_V_40_9_LD_DE_A :
    after { start [0x12#8] false with regs.d := 0xC0#8, regs.e := 0x06#8, regs.a := 0x3C#8 } 8
    (fun t => t.regs.pc == 0x0101#16 && busRead t 0xC006#16 == 0x3C#8) = true := by
  decide +kernel

theorem test_V_40_10_LD_HLi_A :
    after { start [0x22#8] false with regs.h := 0xC0#8, regs.l := 0xFF#8, regs.a := 0x56#8 } 8
    (fun t => t.regs.h == 0xC1#8 && t.regs.l == 0x00#8 && t.regs.pc == 0x0101#16 &&
      busRead t 0xC0FF#16 == 0x56#8) = true := by
  decide +kernel

theorem test_V_40_11_LD_A_HLi :
    after (busStore { start [0x2A#8] false with
      regs.h := 0xFF#8, regs.l := 0xFF#8, regs.a := 0x00#8 } 0xFFFF#16 0x15#8) 8
    (fun t => t.regs.a == 0x15#8 && t.regs.h == 0x00#8 && t.regs.l == 0x00#8 && t.regs.pc == 0x0101#16) = true := by
  decide +kernel

theorem test_V_40_12_LD_HLd_A :
    after { start [0x32#8] false with regs.h := 0xC0#8, regs.l := 0x00#8, regs.a := 0x42#8 } 8
    (fun t => t.regs.h == 0xBF#8 && t.regs.l == 0xFF#8 && t.regs.pc == 0x0101#16 &&
      busRead t 0xC000#16 == 0x42#8) = true := by
  decide +kernel

theorem test_V_40_13_LD_A_HLd :
    after { start [0x3A#8] false with regs.h := 0x00#8, regs.l := 0x00#8, regs.a := 0x00#8 } 8
    (fun t => t.regs.h == 0xFF#8 && t.regs.l == 0xFF#8 && t.regs.pc == 0x0101#16) = true := by
  decide +kernel

theorem test_V_40_14_LDH_n_A : after { start [0xE0#8, 0x80#8] false with regs.a := 0xA5#8 } 12
    (fun t => t.regs.pc == 0x0102#16 && busRead t 0xFF80#16 == 0xA5#8) = true := by
  decide +kernel

theorem test_V_40_15_LDH_A_n :
    after (busStore { start [0xF0#8, 0x0F#8] false with regs.a := 0x00#8 } 0xFF0F#16 0x05#8) 12
    (fun t => t.regs.a == 0xE5#8 && t.regs.pc == 0x0102#16) = true := by
  decide +kernel

theorem test_V_40_16_LDH_C_A : after { start [0xE2#8] false with regs.a := 0x1F#8, regs.c := 0xFF#8 } 8
    (fun t => t.regs.pc == 0x0101#16 && busRead t 0xFFFF#16 == 0x1F#8) = true := by
  decide +kernel

theorem test_V_40_17_LDH_A_C :
    after (busStore { start [0xF2#8] false with regs.a := 0x00#8, regs.c := 0x07#8 } 0xFF07#16 0x05#8) 8
    (fun t => t.regs.a == 0xFD#8 && t.regs.pc == 0x0101#16) = true := by
  decide +kernel

theorem test_V_40_18_LD_nn_A : after { start [0xEA#8, 0x34#8, 0xC2#8] false with regs.a := 0x6D#8 } 16
    (fun t => t.regs.pc == 0x0103#16 && busRead t 0xC234#16 == 0x6D#8) = true := by
  decide +kernel

theorem test_V_40_19_LD_A_nn :
    after (busStore { start [0xFA#8, 0x00#8, 0xE0#8] false with regs.a := 0x00#8 } 0xC000#16 0x3E#8) 16
    (fun t => t.regs.a == 0x3E#8 && t.regs.pc == 0x0103#16) = true := by
  decide +kernel

theorem test_V_40_20_LD_nn_A : after { start [0xEA#8, 0x00#8, 0x20#8] false with regs.a := 0x03#8 } 16
    (fun t => t.regs.pc == 0x0103#16 && busRead t 0x2000#16 == 0x00#8) = true := by
  decide +kernel

/-! ### 16-bit loads and the stack (95_test_vectors.md, V-41) -/

theorem test_V_41_1_LD_rr_nn : after (start [0x01#8, 0x34#8, 0x12#8] false) 12
    (fun t => t.regs.b == 0x12#8 && t.regs.c == 0x34#8 && t.regs.pc == 0x0103#16) = true := by
  decide +kernel

theorem test_V_41_2_LD_rr_nn : after (start [0x31#8, 0xFE#8, 0xFF#8] false) 12
    (fun t => t.regs.sp == 0xFFFE#16 && t.regs.pc == 0x0103#16) = true := by
  decide +kernel

theorem test_V_41_3_LD_nn_SP : after { start [0x08#8, 0x00#8, 0xC1#8] false with regs.sp := 0xFFF8#16 } 20
    (fun t => t.regs.pc == 0x0103#16 && busRead t 0xC100#16 == 0xF8#8 && busRead t 0xC101#16 == 0xFF#8) = true := by
  decide +kernel

theorem test_V_41_4_LD_nn_SP : after { start [0x08#8, 0xFF#8, 0xCF#8] false with regs.sp := 0xABCD#16 } 20
    (fun t => t.regs.pc == 0x0103#16 && busRead t 0xCFFF#16 == 0xCD#8 && busRead t 0xD000#16 == 0xAB#8) = true := by
  decide +kernel

theorem test_V_41_5_LD_SP_HL : after { start [0xF9#8] false with regs.h := 0xD0#8, regs.l := 0x00#8 } 8
    (fun t => t.regs.sp == 0xD000#16 && t.regs.pc == 0x0101#16) = true := by
  decide +kernel

theorem test_V_41_6_LD_HL_SPie : after { start [0xF8#8, 0x02#8] false with regs.sp := 0xFFF8#16, regs.f := 0xF0#8 } 12
    (fun t => t.regs.f == 0x00#8 && t.regs.h == 0xFF#8 && t.regs.l == 0xFA#8 && t.regs.pc == 0x0102#16) = true := by
  decide +kernel

theorem test_V_41_7_LD_HL_SPie : after { start [0xF8#8, 0xFF#8] false with regs.sp := 0x0000#16, regs.f := 0x00#8 } 12
    (fun t => t.regs.h == 0xFF#8 && t.regs.l == 0xFF#8 && t.regs.pc == 0x0102#16) = true := by
  decide +kernel

theorem test_V_41_10_PUSH_rr :
    after { start [0xC5#8] false with regs.b := 0x12#8, regs.c := 0x34#8, regs.sp := 0xD000#16 } 16
    (fun t => t.regs.sp == 0xCFFE#16 && t.regs.pc == 0x0101#16 && busRead t 0xCFFE#16 == 0x34#8 &&
      busRead t 0xCFFF#16 == 0x12#8) = true := by
  decide +kernel

theorem test_V_41_11_PUSH_rr :
    after { start [0xF5#8] false with regs.a := 0x9A#8, regs.f := 0xB0#8, regs.sp := 0xC102#16 } 16
    (fun t => t.regs.sp == 0xC100#16 && t.regs.pc == 0x0101#16 && busRead t 0xC100#16 == 0xB0#8 &&
      busRead t 0xC101#16 == 0x9A#8) = true := by
  decide +kernel

theorem test_V_41_13_POP_rr :
    after (busStore (busStore { start [0xD1#8] false with
      regs.sp := 0xC100#16 } 0xC100#16 0x78#8) 0xC101#16 0x56#8) 12
    (fun t => t.regs.d == 0x56#8 && t.regs.e == 0x78#8 && t.regs.sp == 0xC102#16 &&
      t.regs.pc == 0x0101#16) = true := by
  decide +kernel

theorem test_V_41_14_POP_AF :
    after (busStore (busStore { start [0xF1#8] false with
      regs.sp := 0xC100#16, regs.a := 0x00#8, regs.f := 0x00#8 } 0xC100#16 0xFF#8) 0xC101#16 0x12#8) 12
    (fun t => t.regs.a == 0x12#8 && t.regs.f == 0xF0#8 && t.regs.sp == 0xC102#16 &&
      t.regs.pc == 0x0101#16) = true := by
  decide +kernel

theorem test_V_41_15_POP_rr :
    after (busStore (busStore { start [0xE1#8] false with
      regs.sp := 0xFFFE#16 } 0xFFFE#16 0x11#8) 0xFFFF#16 0x22#8) 12
    (fun t => t.regs.h == 0x22#8 && t.regs.l == 0x11#8 && t.regs.sp == 0x0000#16 &&
      t.regs.pc == 0x0101#16) = true := by
  decide +kernel

/-! ### 8-bit arithmetic and logic (95_test_vectors.md, V-42) -/

theorem test_V_42_1_ADD_A_r :
    after { start [0x80#8] false with regs.a := 0x3A#8, regs.b := 0xC6#8, regs.f := 0x00#8 } 4
    (fun t => t.regs.a == 0x00#8 && t.regs.f == 0xB0#8 && t.regs.pc == 0x0101#16) = true := by
  decide +kernel

theorem test_V_42_2_ADD_A_r : after { start [0x87#8] false with regs.a := 0x80#8, regs.f := 0x40#8 } 4
    (fun t => t.regs.a == 0x00#8 && t.regs.f == 0x90#8 && t.regs.pc == 0x0101#16) = true := by
  decide +kernel

theorem test_V_42_3_ADD_A_n : after { start [0xC6#8, 0x01#8] false with regs.a := 0x0F#8, regs.f := 0xF0#8 } 8
    (fun t => t.regs.a == 0x10#8 && t.regs.f == 0x20#8 && t.regs.pc == 0x0102#16) = true := by
  decide +kernel

theorem test_V_42_4_ADD_A_HL :
    after (busStore { start [0x86#8] false with
      regs.a := 0x01#8, regs.h := 0xC0#8, regs.l := 0x00#8, regs.f := 0x10#8 } 0xC000#16 0xFE#8) 8
    (fun t => t.regs.a == 0xFF#8 && t.regs.f == 0x00#8 && t.regs.pc == 0x0101#16) = true := by
  decide +kernel

theorem test_V_42_5_ADC_A_r :
    after { start [0x88#8] false with regs.a := 0xFF#8, regs.b := 0x00#8, regs.f := 0x10#8 } 4
    (fun t => t.regs.a == 0x00#8 && t.regs.f == 0xB0#8 && t.regs.pc == 0x0101#16) = true := by
  decide +kernel

theorem test_V_42_6_ADC_A_n : after { start [0xCE#8, 0x0F#8] false with regs.a := 0x00#8, regs.f := 0x10#8 } 8
    (fun t => t.regs.a == 0x10#8 && t.regs.f == 0x20#8 && t.regs.pc == 0x0102#16) = true := by
  decide +kernel

theorem test_V_42_7_ADC_A_r : after { start [0x8F#8] false with regs.a := 0x80#8, regs.f := 0x10#8 } 4
    (fun t => t.regs.a == 0x01#8 && t.regs.pc == 0x0101#16) = true := by
  decide +kernel

theorem test_V_42_8_SUB_r : after { start [0x90#8] false with regs.a := 0x3E#8, regs.b := 0x3E#8, regs.f := 0x00#8 } 4
    (fun t => t.regs.a == 0x00#8 && t.regs.f == 0xC0#8 && t.regs.pc == 0x0101#16) = true := by
  decide +kernel

theorem test_V_42_9_SUB_n : after { start [0xD6#8, 0x0F#8] false with regs.a := 0x3E#8, regs.f := 0x00#8 } 8
    (fun t => t.regs.a == 0x2F#8 && t.regs.f == 0x60#8 && t.regs.pc == 0x0102#16) = true := by
  decide +kernel

theorem test_V_42_10_SUB_HL :
    after (busStore { start [0x96#8] false with
      regs.a := 0x3E#8, regs.h := 0xC0#8, regs.l := 0x00#8, regs.f := 0x00#8 } 0xC000#16 0x40#8) 8
    (fun t => t.regs.a == 0xFE#8 && t.regs.f == 0x50#8 && t.regs.pc == 0x0101#16) = true := by
  decide +kernel

theorem test_V_42_11_SBC_A_r :
    after { start [0x98#8] false with regs.a := 0x00#8, regs.b := 0xFF#8, regs.f := 0x10#8 } 4
    (fun t => t.regs.f == 0xF0#8 && t.regs.pc == 0x0101#16) = true := by
  decide +kernel

theorem test_V_42_12_SBC_A_n : after { start [0xDE#8, 0x00#8] false with regs.a := 0x10#8, regs.f := 0x10#8 } 8
    (fun t => t.regs.a == 0x0F#8 && t.regs.f == 0x60#8 && t.regs.pc == 0x0102#16) = true := by
  decide +kernel

theorem test_V_42_13_SBC_A_r : after { start [0x9F#8] false with regs.a := 0x77#8, regs.f := 0x10#8 } 4
    (fun t => t.regs.a == 0xFF#8 && t.regs.f == 0x70#8 && t.regs.pc == 0x0101#16) = true := by
  decide +kernel

theorem test_V_42_14_AND_r :
    after { start [0xA0#8] false with regs.a := 0x5A#8, regs.b := 0x3F#8, regs.f := 0x10#8 } 4
    (fun t => t.regs.a == 0x1A#8 && t.regs.f == 0x20#8 && t.regs.pc == 0x0101#16) = true := by
  decide +kernel

theorem test_V_42_15_AND_n : after { start [0xE6#8, 0x00#8] false with regs.a := 0xFF#8, regs.f := 0x00#8 } 8
    (fun t => t.regs.a == 0x00#8 && t.regs.f == 0xA0#8 && t.regs.pc == 0x0102#16) = true := by
  decide +kernel

theorem test_V_42_16_XOR_r : after { start [0xAF#8] false with regs.a := 0x9C#8, regs.f := 0xF0#8 } 4
    (fun t => t.regs.a == 0x00#8 && t.regs.f == 0x80#8 && t.regs.pc == 0x0101#16) = true := by
  decide +kernel

theorem test_V_42_17_XOR_n : after { start [0xEE#8, 0x0F#8] false with regs.a := 0xFF#8, regs.f := 0xF0#8 } 8
    (fun t => t.regs.a == 0xF0#8 && t.regs.f == 0x00#8 && t.regs.pc == 0x0102#16) = true := by
  decide +kernel

theorem test_V_42_18_OR_r : after { start [0xB1#8] false with regs.a := 0x00#8, regs.c := 0x00#8, regs.f := 0x70#8 } 4
    (fun t => t.regs.f == 0x80#8 && t.regs.pc == 0x0101#16) = true := by
  decide +kernel

theorem test_V_42_19_OR_n : after { start [0xF6#8, 0x81#8] false with regs.a := 0x12#8, regs.f := 0x00#8 } 8
    (fun t => t.regs.a == 0x93#8 && t.regs.pc == 0x0102#16) = true := by
  decide +kernel

theorem test_V_42_20_CP_r : after { start [0xB8#8] false with regs.a := 0x3C#8, regs.b := 0x2F#8, regs.f := 0x00#8 } 4
    (fun t => t.regs.f == 0x60#8 && t.regs.pc == 0x0101#16) = true := by
  decide +kernel

theorem test_V_42_21_CP_n : after { start [0xFE#8, 0x3C#8] false with regs.a := 0x3C#8, regs.f := 0x00#8 } 8
    (fun t => t.regs.f == 0xC0#8 && t.regs.pc == 0x0102#16) = true := by
  decide +kernel

theorem test_V_42_22_CP_HL :
    after (busStore { start [0xBE#8] false with
      regs.a := 0x3C#8, regs.h := 0xC0#8, regs.l := 0x00#8, regs.f := 0x00#8 } 0xC000#16 0x40#8) 8
    (fun t => t.regs.f == 0x50#8 && t.regs.pc == 0x0101#16) = true := by
  decide +kernel

theorem test_V_42_23_INC_r : after { start [0x3C#8] false with regs.a := 0xFF#8, regs.f := 0x10#8 } 4
    (fun t => t.regs.a == 0x00#8 && t.regs.f == 0xB0#8 && t.regs.pc == 0x0101#16) = true := by
  decide +kernel

theorem test_V_42_24_INC_r : after { start [0x04#8] false with regs.b := 0x0F#8, regs.f := 0xC0#8 } 4
    (fun t => t.regs.f == 0x20#8 && t.regs.b == 0x10#8 && t.regs.pc == 0x0101#16) = true := by
  decide +kernel

theorem test_V_42_25_INC_HL :
    after (busStore { start [0x34#8] false with
      regs.h := 0xC0#8, regs.l := 0x00#8, regs.f := 0x00#8 } 0xC000#16 0x4F#8) 12
    (fun t => t.regs.f == 0x20#8 && t.regs.pc == 0x0101#16 && busRead t 0xC000#16 == 0x50#8) = true := by
  decide +kernel

theorem test_V_42_26_DEC_r : after { start [0x3D#8] false with regs.a := 0x01#8, regs.f := 0x10#8 } 4
    (fun t => t.regs.a == 0x00#8 && t.regs.f == 0xD0#8 && t.regs.pc == 0x0101#16) = true := by
  decide +kernel

theorem test_V_42_27_DEC_r : after { start [0x05#8] false with regs.b := 0x00#8, regs.f := 0x00#8 } 4
    (fun t => t.regs.f == 0x60#8 && t.regs.b == 0xFF#8 && t.regs.pc == 0x0101#16) = true := by
  decide +kernel

theorem test_V_42_28_DEC_HL :
    after (busStore { start [0x35#8] false with
      regs.h := 0xC0#8, regs.l := 0x00#8, regs.f := 0x10#8 } 0xC000#16 0x10#8) 12
    (fun t => t.regs.f == 0x70#8 && t.regs.pc == 0x0101#16 && busRead t 0xC000#16 == 0x0F#8) = true := by
  decide +kernel

theorem test_V_42_29_DAA : after { start [0x27#8] false with regs.a := 0x3C#8, regs.f := 0x00#8 } 4
    (fun t => t.regs.a == 0x42#8 && t.regs.pc == 0x0101#16) = true := by
  decide +kernel

theorem test_V_42_30_DAA : after { start [0x27#8] false with regs.a := 0x9A#8, regs.f := 0x00#8 } 4
    (fun t => t.regs.a == 0x00#8 && t.regs.f == 0x90#8 && t.regs.pc == 0x0101#16) = true := by
  decide +kernel

theorem test_V_42_35_CPL : after { start [0x2F#8] false with regs.a := 0xFF#8, regs.f := 0x10#8 } 4
    (fun t => t.regs.a == 0x00#8 && t.regs.f == 0x70#8 && t.regs.pc == 0x0101#16) = true := by
  decide +kernel

theorem test_V_42_36_SCF : after { start [0x37#8] false with regs.f := 0xE0#8 } 4
    (fun t => t.regs.f == 0x90#8 && t.regs.pc == 0x0101#16) = true := by
  decide +kernel

theorem test_V_42_37_CCF : after { start [0x3F#8] false with regs.f := 0xF0#8 } 4
    (fun t => t.regs.f == 0x80#8 && t.regs.pc == 0x0101#16) = true := by
  decide +kernel

theorem test_V_42_38_CCF : after { start [0x3F#8] false with regs.f := 0x00#8 } 4
    (fun t => t.regs.f == 0x10#8 && t.regs.pc == 0x0101#16) = true := by
  decide +kernel

/-! ### 16-bit arithmetic (95_test_vectors.md, V-43) -/

theorem test_V_43_1_ADD_HL_rr :
    after { start [0x09#8] false with
      regs.h := 0x8A#8, regs.l := 0x23#8, regs.b := 0x06#8, regs.c := 0x05#8, regs.f := 0x80#8 } 8
    (fun t => t.regs.f == 0xA0#8 && t.regs.h == 0x90#8 && t.regs.l == 0x28#8 && t.regs.pc == 0x0101#16) = true := by
  decide +kernel

theorem test_V_43_2_ADD_HL_rr :
    after { start [0x29#8] false with regs.h := 0x88#8, regs.l := 0x00#8, regs.f := 0x00#8 } 8
    (fun t => t.regs.f == 0x30#8 && t.regs.h == 0x10#8 && t.regs.pc == 0x0101#16) = true := by
  decide +kernel

theorem test_V_43_5_INC_rr :
    after { start [0x03#8] false with regs.b := 0xFF#8, regs.c := 0xFF#8, regs.f := 0xF0#8 } 8
    (fun t => t.regs.b == 0x00#8 && t.regs.c == 0x00#8 && t.regs.pc == 0x0101#16) = true := by
  decide +kernel

theorem test_V_43_6_INC_rr : after { start [0x33#8] false with regs.sp := 0x00FF#16, regs.f := 0x00#8 } 8
    (fun t => t.regs.sp == 0x0100#16 && t.regs.pc == 0x0101#16) = true := by
  decide +kernel

theorem test_V_43_7_DEC_rr : after { start [0x3B#8] false with regs.sp := 0x0000#16, regs.f := 0x00#8 } 8
    (fun t => t.regs.sp == 0xFFFF#16 && t.regs.pc == 0x0101#16) = true := by
  decide +kernel

theorem test_V_43_8_DEC_rr :
    after { start [0x2B#8] false with regs.h := 0x10#8, regs.l := 0x00#8, regs.f := 0xF0#8 } 8
    (fun t => t.regs.h == 0x0F#8 && t.regs.l == 0xFF#8 && t.regs.pc == 0x0101#16) = true := by
  decide +kernel

theorem test_V_43_9_ADD_SP_e : after { start [0xE8#8, 0x08#8] false with regs.sp := 0xFFF8#16, regs.f := 0xF0#8 } 16
    (fun t => t.regs.f == 0x30#8 && t.regs.sp == 0x0000#16 && t.regs.pc == 0x0102#16) = true := by
  decide +kernel

theorem test_V_43_10_ADD_SP_e : after { start [0xE8#8, 0xFE#8] false with regs.sp := 0xD000#16, regs.f := 0x00#8 } 16
    (fun t => t.regs.sp == 0xCFFE#16 && t.regs.pc == 0x0102#16) = true := by
  decide +kernel

/-! ### Rotates, shifts and bits (95_test_vectors.md, V-44) -/

theorem test_V_44_1_RLCA : after { start [0x07#8] false with regs.a := 0x85#8, regs.f := 0xF0#8 } 4
    (fun t => t.regs.a == 0x0B#8 && t.regs.f == 0x10#8 && t.regs.pc == 0x0101#16) = true := by
  decide +kernel

theorem test_V_44_2_RLCA : after { start [0x07#8] false with regs.a := 0x00#8, regs.f := 0x00#8 } 4
    (fun t => t.regs.pc == 0x0101#16) = true := by
  decide +kernel

theorem test_V_44_3_RRCA : after { start [0x0F#8] false with regs.a := 0x3B#8, regs.f := 0x00#8 } 4
    (fun t => t.regs.a == 0x9D#8 && t.regs.f == 0x10#8 && t.regs.pc == 0x0101#16) = true := by
  decide +kernel

theorem test_V_44_4_RLA : after { start [0x17#8] false with regs.a := 0x95#8, regs.f := 0x10#8 } 4
    (fun t => t.regs.a == 0x2B#8 && t.regs.pc == 0x0101#16) = true := by
  decide +kernel

theorem test_V_44_5_RLA : after { start [0x17#8] false with regs.a := 0x80#8, regs.f := 0x00#8 } 4
    (fun t => t.regs.a == 0x00#8 && t.regs.f == 0x10#8 && t.regs.pc == 0x0101#16) = true := by
  decide +kernel

theorem test_V_44_6_RRA : after { start [0x1F#8] false with regs.a := 0x81#8, regs.f := 0x00#8 } 4
    (fun t => t.regs.a == 0x40#8 && t.regs.f == 0x10#8 && t.regs.pc == 0x0101#16) = true := by
  decide +kernel

theorem test_V_44_7_RLC_r : after { start [0xCB#8, 0x00#8] false with regs.b := 0x85#8, regs.f := 0x00#8 } 8
    (fun t => t.regs.f == 0x10#8 && t.regs.b == 0x0B#8 && t.regs.pc == 0x0102#16) = true := by
  decide +kernel

theorem test_V_44_8_RLC_HL :
    after (busStore { start [0xCB#8, 0x06#8] false with
      regs.h := 0xC0#8, regs.l := 0x00#8, regs.f := 0x10#8 } 0xC000#16 0x00#8) 16
    (fun t => t.regs.f == 0x80#8 && t.regs.pc == 0x0102#16 && busRead t 0xC000#16 == 0x00#8) = true := by
  decide +kernel

theorem test_V_44_9_RRC_r : after { start [0xCB#8, 0x09#8] false with regs.c := 0x01#8, regs.f := 0x00#8 } 8
    (fun t => t.regs.f == 0x10#8 && t.regs.c == 0x80#8 && t.regs.pc == 0x0102#16) = true := by
  decide +kernel

theorem test_V_44_10_RL_r : after { start [0xCB#8, 0x15#8] false with regs.l := 0x80#8, regs.f := 0x00#8 } 8
    (fun t => t.regs.f == 0x90#8 && t.regs.l == 0x00#8 && t.regs.pc == 0x0102#16) = true := by
  decide +kernel

theorem test_V_44_11_RL_HL :
    after (busStore { start [0xCB#8, 0x16#8] false with
      regs.h := 0xC0#8, regs.l := 0x00#8, regs.f := 0x10#8 } 0xC000#16 0x11#8) 16
    (fun t => t.regs.f == 0x00#8 && t.regs.pc == 0x0102#16 && busRead t 0xC000#16 == 0x23#8) = true := by
  decide +kernel

theorem test_V_44_12_RR_r : after { start [0xCB#8, 0x1F#8] false with regs.a := 0x01#8, regs.f := 0x00#8 } 8
    (fun t => t.regs.a == 0x00#8 && t.regs.f == 0x90#8 && t.regs.pc == 0x0102#16) = true := by
  decide +kernel

theorem test_V_44_13_RR_r : after { start [0xCB#8, 0x1A#8] false with regs.d := 0x8A#8, regs.f := 0x10#8 } 8
    (fun t => t.regs.f == 0x00#8 && t.regs.d == 0xC5#8 && t.regs.pc == 0x0102#16) = true := by
  decide +kernel

theorem test_V_44_14_SLA_r : after { start [0xCB#8, 0x22#8] false with regs.d := 0x80#8, regs.f := 0x00#8 } 8
    (fun t => t.regs.f == 0x90#8 && t.regs.d == 0x00#8 && t.regs.pc == 0x0102#16) = true := by
  decide +kernel

theorem test_V_44_15_SLA_r : after { start [0xCB#8, 0x27#8] false with regs.a := 0xFF#8, regs.f := 0x00#8 } 8
    (fun t => t.regs.a == 0xFE#8 && t.regs.f == 0x10#8 && t.regs.pc == 0x0102#16) = true := by
  decide +kernel

theorem test_V_44_16_SRA_r : after { start [0xCB#8, 0x2F#8] false with regs.a := 0x8A#8, regs.f := 0x00#8 } 8
    (fun t => t.regs.a == 0xC5#8 && t.regs.pc == 0x0102#16) = true := by
  decide +kernel

theorem test_V_44_17_SRA_r : after { start [0xCB#8, 0x28#8] false with regs.b := 0x01#8, regs.f := 0x00#8 } 8
    (fun t => t.regs.f == 0x90#8 && t.regs.b == 0x00#8 && t.regs.pc == 0x0102#16) = true := by
  decide +kernel

theorem test_V_44_18_SWAP_r : after { start [0xCB#8, 0x37#8] false with regs.a := 0xF1#8, regs.f := 0xF0#8 } 8
    (fun t => t.regs.a == 0x1F#8 && t.regs.f == 0x00#8 && t.regs.pc == 0x0102#16) = true := by
  decide +kernel

theorem test_V_44_19_SWAP_HL :
    after (busStore { start [0xCB#8, 0x36#8] false with
      regs.h := 0xC0#8, regs.l := 0x00#8, regs.f := 0x10#8 } 0xC000#16 0x00#8) 16
    (fun t => t.regs.f == 0x80#8 && t.regs.pc == 0x0102#16 && busRead t 0xC000#16 == 0x00#8) = true := by
  decide +kernel

theorem test_V_44_20_SRL_r : after { start [0xCB#8, 0x3F#8] false with regs.a := 0x01#8, regs.f := 0x00#8 } 8
    (fun t => t.regs.a == 0x00#8 && t.regs.f == 0x90#8 && t.regs.pc == 0x0102#16) = true := by
  decide +kernel

theorem test_V_44_21_SRL_r : after { start [0xCB#8, 0x38#8] false with regs.b := 0xFF#8, regs.f := 0x00#8 } 8
    (fun t => t.regs.f == 0x10#8 && t.regs.b == 0x7F#8 && t.regs.pc == 0x0102#16) = true := by
  decide +kernel

theorem test_V_44_22_BIT_b_r : after { start [0xCB#8, 0x7C#8] false with regs.h := 0x80#8, regs.f := 0x10#8 } 8
    (fun t => t.regs.f == 0x30#8 && t.regs.pc == 0x0102#16) = true := by
  decide +kernel

theorem test_V_44_23_BIT_b_r : after { start [0xCB#8, 0x7C#8] false with regs.h := 0x7F#8, regs.f := 0x00#8 } 8
    (fun t => t.regs.f == 0xA0#8 && t.regs.pc == 0x0102#16) = true := by
  decide +kernel

theorem test_V_44_24_BIT_b_HL :
    after (busStore { start [0xCB#8, 0x46#8] false with
      regs.h := 0xC0#8, regs.l := 0x00#8, regs.f := 0x00#8 } 0xC000#16 0xFE#8) 12
    (fun t => t.regs.f == 0xA0#8 && t.regs.pc == 0x0102#16 && busRead t 0xC000#16 == 0xFE#8) = true := by
  decide +kernel

theorem test_V_44_25_RES_b_r : after { start [0xCB#8, 0x87#8] false with regs.a := 0xFF#8, regs.f := 0xF0#8 } 8
    (fun t => t.regs.a == 0xFE#8 && t.regs.pc == 0x0102#16) = true := by
  decide +kernel

theorem test_V_44_26_RES_b_HL :
    after (busStore { start [0xCB#8, 0xBE#8] false with regs.h := 0xC0#8, regs.l := 0x00#8 } 0xC000#16 0xFF#8) 16
    (fun t => t.regs.pc == 0x0102#16 && busRead t 0xC000#16 == 0x7F#8) = true := by
  decide +kernel

theorem test_V_44_27_SET_b_r : after { start [0xCB#8, 0xFD#8] false with regs.l := 0x3B#8 } 8
    (fun t => t.regs.l == 0xBB#8 && t.regs.pc == 0x0102#16) = true := by
  decide +kernel

theorem test_V_44_28_SET_b_HL :
    after (busStore { start [0xCB#8, 0xDE#8] false with regs.h := 0xC0#8, regs.l := 0x00#8 } 0xC000#16 0x00#8) 16
    (fun t => t.regs.pc == 0x0102#16 && busRead t 0xC000#16 == 0x08#8) = true := by
  decide +kernel

/-! ### Jumps, calls, returns (95_test_vectors.md, V-45) -/

theorem test_V_45_1_JP_nn : after (start [0xC3#8, 0x00#8, 0x80#8] false) 16
    (fun t => t.regs.pc == 0x8000#16) = true := by
  decide +kernel

theorem test_V_45_2_JP_cc_nn : after { start [0xC2#8, 0x50#8, 0x01#8] false with regs.f := 0x00#8 } 16
    (fun t => t.regs.pc == 0x0150#16) = true := by
  decide +kernel

theorem test_V_45_3_JP_cc_nn : after { start [0xCA#8, 0x50#8, 0x01#8] false with regs.f := 0x00#8 } 12
    (fun t => t.regs.pc == 0x0103#16) = true := by
  decide +kernel

theorem test_V_45_5_JP_HL : after { start [0xE9#8] false with regs.h := 0xC0#8, regs.l := 0x00#8 } 4
    (fun t => t.regs.pc == 0xC000#16) = true := by
  decide +kernel

theorem test_V_45_6_JR_e : after (start [0x18#8, 0x05#8] false) 12
    (fun t => t.regs.pc == 0x0107#16) = true := by
  decide +kernel

theorem test_V_45_7_JR_e : after (start [0x18#8, 0xFE#8] false) 12
    (fun t => t.regs.pc == 0x0100#16) = true := by
  decide +kernel

theorem test_V_45_9_JR_cc_e : after { start [0x20#8, 0xFA#8] false with regs.f := 0x80#8 } 8
    (fun t => t.regs.pc == 0x0102#16) = true := by
  decide +kernel

theorem test_V_45_10_JR_cc_e : after { start [0x28#8, 0xFA#8] false with regs.f := 0x80#8 } 12
    (fun t => t.regs.pc == 0x00FC#16) = true := by
  decide +kernel

theorem test_V_45_12_CALL_nn : after { start [0xCD#8, 0x34#8, 0x12#8] false with regs.sp := 0xD000#16 } 24
    (fun t => t.regs.sp == 0xCFFE#16 && t.regs.pc == 0x1234#16 && busRead t 0xCFFE#16 == 0x03#8 &&
      busRead t 0xCFFF#16 == 0x01#8) = true := by
  decide +kernel

theorem test_V_45_13_CALL_cc_nn :
    after { start [0xC4#8, 0x34#8, 0x12#8] false with regs.sp := 0xD000#16, regs.f := 0x80#8 } 12
    (fun t => t.regs.pc == 0x0103#16 && busRead t 0xCFFE#16 == 0x00#8 && busRead t 0xCFFF#16 == 0x00#8) = true := by
  decide +kernel

theorem test_V_45_14_CALL_cc_nn :
    after { start [0xDC#8, 0x34#8, 0x12#8] false with regs.sp := 0xD000#16, regs.f := 0x10#8 } 24
    (fun t => t.regs.sp == 0xCFFE#16 && t.regs.pc == 0x1234#16 && busRead t 0xCFFE#16 == 0x03#8 &&
      busRead t 0xCFFF#16 == 0x01#8) = true := by
  decide +kernel

theorem test_V_45_15_RET :
    after (busStore (busStore { start [0xC9#8] false with
      regs.sp := 0xCFFE#16 } 0xCFFE#16 0x03#8) 0xCFFF#16 0x01#8) 16
    (fun t => t.regs.sp == 0xD000#16 && t.regs.pc == 0x0103#16) = true := by
  decide +kernel

theorem test_V_45_16_RET_cc :
    after (busStore (busStore { start [0xC8#8] false with
      regs.sp := 0xCFFE#16, regs.f := 0x80#8 } 0xCFFE#16 0x03#8) 0xCFFF#16 0x01#8) 20
    (fun t => t.regs.sp == 0xD000#16 && t.regs.pc == 0x0103#16) = true := by
  decide +kernel

theorem test_V_45_17_RET_cc :
    after (busStore (busStore { start [0xD0#8] false with
      regs.sp := 0xCFFE#16, regs.f := 0x10#8 } 0xCFFE#16 0x03#8) 0xCFFF#16 0x01#8) 8
    (fun t => t.regs.pc == 0x0101#16) = true := by
  decide +kernel

theorem test_V_45_18_RETI :
    after (busStore (busStore { start [0xD9#8] false with
      regs.sp := 0xCFFE#16 } 0xCFFE#16 0x03#8) 0xCFFF#16 0x01#8) 16
    (fun t => t.regs.sp == 0xD000#16 && t.regs.pc == 0x0103#16 && t.ime == .enabled) = true := by
  decide +kernel

theorem test_V_45_19_RST_t : after { start [0xEF#8] false with regs.sp := 0xD000#16 } 16
    (fun t => t.regs.sp == 0xCFFE#16 && t.regs.pc == 0x0028#16 && busRead t 0xCFFE#16 == 0x01#8 &&
      busRead t 0xCFFF#16 == 0x01#8) = true := by
  decide +kernel

theorem test_V_45_20_RST_t : after { start [0xFF#8] false with regs.sp := 0xD000#16 } 16
    (fun t => t.regs.sp == 0xCFFE#16 && t.regs.pc == 0x0038#16 && busRead t 0xCFFE#16 == 0x01#8 &&
      busRead t 0xCFFF#16 == 0x01#8) = true := by
  decide +kernel

/-! ### System (95_test_vectors.md, V-46) -/

theorem test_V_46_1_NOP : after (start [0x00#8] false) 4
    (fun t => t.regs.pc == 0x0101#16) = true := by
  decide +kernel

theorem test_V_46_2_HALT : after (start [0x76#8] false) 4
    (fun t => t.regs.pc == 0x0101#16 && t.run == .halted) = true := by
  decide +kernel

theorem test_V_46_3_STOP : after (start [0x10#8, 0x00#8] false) 4
    (fun t => t.regs.pc == 0x0102#16 && t.run == .stopped) = true := by
  decide +kernel

theorem test_V_46_4_STOP : after ((start [0x10#8, 0x00#8] true).setIo 0x4D 1#8) 4
    (fun t => t.regs.pc == 0x0102#16 && t.doubleSpeed == true && busRead t 0xFF4D#16 == 0xFE#8) = true := by
  decide +kernel

theorem test_V_46_7_DI : after { start [0xF3#8] false with ime := .enabled } 4
    (fun t => t.regs.pc == 0x0101#16 && t.ime == .disabled) = true := by
  decide +kernel

theorem test_V_46_8_EI : after { start [0xFB#8] false with ime := .disabled } 4
    (fun t => t.regs.pc == 0x0101#16 && t.ime == .scheduled) = true := by
  decide +kernel

theorem test_V_46_9_EI : after { start [0xFB#8] false with ime := .enabled } 4
    (fun t => t.regs.pc == 0x0101#16 && t.ime == .scheduled) = true := by
  decide +kernel
/-! ### Instructions without a vector of their own -/

/-- R166, Example, with the byte in work RAM. -/
theorem test_LD_A_DE : after (busStore { start [0x1A#8] false with regs.d := 0xC1#8, regs.e := 0x04#8 } 0xC104#16 0xCE#8)
    8 (fun t => t.regs.a == 0xCE#8 && t.regs.d == 0xC1#8 && t.regs.e == 0x04#8) = true := by
  decide +kernel

/-- R167, Example. -/
theorem test_LD_BC_A : after { start [0x02#8] false with regs.b := 0xC0#8, regs.c := 0x00#8, regs.a := 0x01#8 } 8
    (fun t => busRead t 0xC000#16 == 0x01#8) = true := by
  decide +kernel

/-- A state with HL = 0xC000, `v` there, and A and F given. -/
def startHl (bytes : List Byte) (v a f : Byte) : State :=
  busStore { start bytes false with regs.h := 0xC0#8, regs.l := 0x00#8, regs.a := a, regs.f := f } 0xC000#16 v

/-- R191, Corner cases: 0x0F + 0x00 + 1. -/
theorem test_ADC_A_HL : after (startHl [0x8E#8] 0x00#8 0x0F#8 0x10#8) 8
    (fun t => t.regs.a == 0x10#8 && t.regs.f == 0x20#8) = true := by
  decide +kernel

/-- R193, Corner cases: 0x00 - 0xFF - 1. -/
theorem test_SBC_A_HL : after (startHl [0x9E#8] 0xFF#8 0x00#8 0x10#8) 8
    (fun t => t.regs.a == 0x00#8 && t.regs.f == 0xF0#8) = true := by
  decide +kernel

/-- R194, Example, from memory. -/
theorem test_AND_HL : after (startHl [0xA6#8] 0x3F#8 0x5A#8 0x90#8) 8
    (fun t => t.regs.a == 0x1A#8 && t.regs.f == 0x20#8) = true := by
  decide +kernel

/-- R195, Example, from memory. -/
theorem test_XOR_HL : after (startHl [0xAE#8] 0x0F#8 0xFF#8 0x70#8) 8
    (fun t => t.regs.a == 0xF0#8 && t.regs.f == 0x00#8) = true := by
  decide +kernel

/-- R196, Example, from memory. -/
theorem test_OR_HL : after (startHl [0xB6#8] 0x03#8 0x5A#8 0xF0#8) 8
    (fun t => t.regs.a == 0x5B#8 && t.regs.f == 0x00#8) = true := by
  decide +kernel

/-- R225, Example, from memory. -/
theorem test_RRC_HL : after (startHl [0xCB#8, 0x0E#8] 0x01#8 0x00#8 0x00#8) 16
    (fun t => busRead t 0xC000#16 == 0x80#8 && t.regs.f == 0x10#8) = true := by
  decide +kernel

/-- R227, Corner cases, from memory. -/
theorem test_RR_HL : after (startHl [0xCB#8, 0x1E#8] 0x01#8 0x00#8 0x00#8) 16
    (fun t => busRead t 0xC000#16 == 0x00#8 && t.regs.f == 0x90#8) = true := by
  decide +kernel

/-- R228, Example, from memory. -/
theorem test_SLA_HL : after (startHl [0xCB#8, 0x26#8] 0xFF#8 0x00#8 0x80#8) 16
    (fun t => busRead t 0xC000#16 == 0xFE#8 && t.regs.f == 0x10#8) = true := by
  decide +kernel

/-- R229, Example, from memory. -/
theorem test_SRA_HL : after (startHl [0xCB#8, 0x2E#8] 0x8A#8 0x00#8 0x10#8) 16
    (fun t => busRead t 0xC000#16 == 0xC5#8 && t.regs.f == 0x00#8) = true := by
  decide +kernel

/-- R231, Example, from memory. -/
theorem test_SRL_HL : after (startHl [0xCB#8, 0x3E#8] 0xFF#8 0x00#8 0x00#8) 16
    (fun t => busRead t 0xC000#16 == 0x7F#8 && t.regs.f == 0x10#8) = true := by
  decide +kernel

/-- R265, Example: the handler of the prefix byte, at the second byte 0x37. -/
theorem test_PREFIX_CB : (match exec .prefixCb { start [0x37#8] false with regs.a := 0xF1#8 } with
    | .next t => t.regs.a == 0x1F#8 && t.regs.f == 0x00#8 && t.regs.pc == 0x0101#16 && t.cyc == 8
    | _ => false) = true := by
  decide +kernel

/-- R266: each of the eleven opcodes. -/
theorem test_ILLEGAL : ([0xD3#8, 0xDB#8, 0xDD#8, 0xE3#8, 0xE4#8, 0xEB#8, 0xEC#8, 0xED#8, 0xF4#8, 0xFC#8, 0xFD#8].all
    fun op => faultsWith (start [op] false) (.illegalOpcode op 0x0100#16)) = true := by
  decide +kernel

/-- V-46-6. -/
theorem test_V_46_6_STOP_operand : refusedWith (start [0x10#8, 0x01#8] false) (.stopOperand 0x01#8) = true := by
  decide +kernel

/-! ### Interrupts and devices -/

/-- R305: VBlank and Timer pending; VBlank is dispatched to 0x0040, the Timer bit stays, 20 + 4 cycles, the NOP of the
handler has run. -/
theorem test_dispatch_priority : after { (start [] false).setIo 0x0F 0x05#8 with ime := .enabled, mem.ie := 0x1F#8 } 24
    (fun t => t.regs.pc == 0x0041#16 && t.ifReg == 0x04#8 && t.ime == .disabled && t.regs.sp == 0xDFEE#16 &&
      busRead t 0xDFEE#16 == 0x00#8 && busRead t 0xDFEF#16 == 0x01#8) = true := by
  decide +kernel

/-- R303, R307: a halted CPU with nothing pending idles four cycles. -/
theorem test_halted_idles : after { start [0x3C#8] false with run := .halted } 4
    (fun t => t.regs.pc == 0x0100#16 && t.run == .halted) = true := by
  decide +kernel

/-- R331: DIV's counter after one NOP is one tick on. -/
theorem test_div_ticks : after (start [0x00#8] false) 4 (fun t => t.timer.divctr == 0x0001#16) = true := by
  decide +kernel

/-- R333: TIMA overflows at the end of the step, reloads TMA and requests the Timer interrupt. -/
theorem test_tima_overflow :
    after ((((start [0x00#8] false).setIo 0x05 0xFF#8).setIo 0x06 0x23#8).setIo 0x07 0x05#8 |> fun s =>
      { s with timer.timaAcc := 12 }) 4
    (fun t => t.tima == 0x23#8 && t.ifReg == 0x04#8 && t.timer.timaAcc == 0) = true := by
  decide +kernel

/-- R359: VBlank at the start of line 144. -/
theorem test_vblank : after { (start [0x00#8] false).setIo 0x40 0x80#8 with ppu.cycle := 144 * 456 - 4 } 4
    (fun t => t.ly == 144#8 && t.stat == 0x01#8 && t.ifReg == 0x01#8) = true := by
  decide +kernel

/-! ## Witnesses: for each statement with hypotheses, a state and operands that meet them -/

theorem witness_wellFormed : (Instr.jpCcNn .c 0x0150#16).wellFormed = true ∧ (Instr.pop .hl).wellFormed = true ∧
    (Instr.bitHl 7).wellFormed = true := by
  decide

theorem witness_decoded_bytes : decode [0xCB#8, 0x37#8, 0x99#8] = .ok (.swapR .a, [0x99#8]) := rfl

theorem witness_only_stop_operand : decode [0x10#8, 0x01#8, 0x00#8] = .error (.stopOperand 0x01#8) ∧
    decode [0x10#8, 0x00#8, 0x00#8] = .ok (.stop, [0x00#8]) := ⟨rfl, rfl⟩

/-- `StepRunsTheDecodedInstruction`: a running CPU at a three-byte instruction. -/
theorem witness_step_runs : ∃ t, (Instr.jpNn 0x8000#16).wellFormed = true ∧
    interruptPhase (environment (start [0xC3#8, 0x00#8, 0x80#8] false)) = .next t ∧ t.run = .running ∧
    fetchBytes t (encode (.jpNn 0x8000#16)).length = encode (.jpNn 0x8000#16) :=
  ⟨_, rfl, rfl, rfl, by decide +kernel⟩

theorem witness_scheduled : ∃ s : State, s.ime = .scheduled := ⟨{ start [] false with ime := .scheduled }, rfl⟩

/-- IME Enabled, with the source of index `i` enabled and requested. -/
def pendingState (i : Nat) : State :=
  { (start [] false).setIo 0x0F (1#8 <<< i) with ime := .enabled, mem.ie := 0x1F#8 }

theorem start_wf (bytes : List Byte) (cgb : Bool) : (start bytes cgb).mem.wf := by
  unfold start
  exact wf_setIo _ _ (wf_reset
    { Params.default with rom := Memory.writeList [] 0x100 bytes, cgbMode := cgb } .none)

theorem pendingState_wf (i : Nat) : (pendingState i).mem.wf := by
  have h : ((start [] false).setIo 0x0F (1#8 <<< i)).mem.wf := wf_setIo _ _ (start_wf [] false)
  exact h

/-- Without CGB features the bus accepts every write (20_memory.md R98 applies in CGB mode only). -/
theorem accepts_of_not_cgb (s : State) (h : s.params.cgbMode = false) (a : Word) (v : Byte) :
    busRefusal s a v = none := by
  unfold busRefusal
  simp [h]

theorem accepts_word_of_not_cgb (s : State) (h : s.params.cgbMode = false) (a v : Word) : acceptsWord s a v :=
  ⟨accepts_of_not_cgb s h _ _, accepts_of_not_cgb _ (by rw [busStore_params]; exact h) _ _⟩

theorem witness_dispatch_first : (pendingState 0).mem.wf ∧ (pendingState 0).ime = .enabled ∧
    firstSource (pending (pendingState 0)) = some 0 ∧
    acceptsWord (clearRequest (pendingState 0) 0) ((pendingState 0).regs.sp - 2#16) (pendingState 0).regs.pc :=
  ⟨pendingState_wf 0, rfl, by decide +kernel, accepts_word_of_not_cgb _ rfl _ _⟩

theorem witness_dispatch_last : (pendingState 4).mem.wf ∧ (pendingState 4).ime = .enabled ∧
    firstSource (pending (pendingState 4)) = some 4 ∧
    acceptsWord (clearRequest (pendingState 4) 4) ((pendingState 4).regs.sp - 2#16) (pendingState 4).regs.pc :=
  ⟨pendingState_wf 4, rfl, by decide +kernel, accepts_word_of_not_cgb _ rfl _ _⟩

theorem witness_sleeping_step : ∃ t, interruptPhase (environment { start [] false with run := .halted }) = .next t ∧
    t.run ≠ .running :=
  ⟨_, rfl, by decide⟩

theorem witness_requests_wait : ∃ s : State, s.ime = .disabled ∧ s.run = .running ∧ firstSource (pending s) = some 2 :=
  ⟨{ pendingState 2 with ime := .disabled }, rfl, rfl, by decide +kernel⟩

theorem witness_nothing_pending : ∃ s : State, s.ime ≠ .scheduled ∧ firstSource (pending s) = none :=
  ⟨start [] false, by decide, by decide +kernel⟩

theorem witness_wake : ∃ s : State, s.mem.wf ∧ s.ime = .disabled ∧ s.run ≠ .running ∧
    firstSource (pending s) = some 4 :=
  ⟨{ pendingState 4 with ime := .disabled, run := .stopped }, pendingState_wf 4, rfl, by decide, by decide +kernel⟩

theorem witness_unassigned_opcode : ∃ (t : State) (p : Instr × Byte), p ∈ illegalOpcodes ∧
    interruptPhase (environment (start [0xFD#8] false)) = .next t ∧ t.run = .running ∧ fetchByte t = p.2 :=
  ⟨_, (.illegalFD, 0xFD#8), by decide, rfl, rfl, by decide +kernel⟩

theorem witness_stop_operand : ∃ t, interruptPhase (environment (start [0x10#8, 0xFF#8] false)) = .next t ∧
    t.run = .running ∧ fetchByte t = 0x10#8 ∧ fetchByte (afterFetch t) = 0xFF#8 :=
  ⟨_, rfl, rfl, by decide +kernel, by decide +kernel⟩

/-- A CGB machine whose HDMA1 to HDMA4 hold a source and a destination. -/
def dmaState (src1 src2 dst1 dst2 : Byte) : State :=
  ((((start [] true).setIo 0x51 src1).setIo 0x52 src2).setIo 0x53 dst1).setIo 0x54 dst2

/-- The three answers of a write to HDMA5: accepted up to the last byte below video RAM, refused one block later, refused
with bit 7 set (R98). -/
theorem witness_hdma : busRefusal (dmaState 0x7F#8 0xF0#8 0x00#8 0x00#8) 0xFF55#16 0x00#8 = none ∧
    busRefusal (dmaState 0x7F#8 0xF0#8 0x00#8 0x00#8) 0xFF55#16 0x01#8 = some (.dmaSource 0x7FF0#16) ∧
    busRefusal (dmaState 0xC0#8 0x00#8 0x00#8 0x00#8) 0xFF55#16 0x80#8 = some (.hblankDma 0x80#8) := by
  decide +kernel

/-- `NothingElseStopsTheMachine`: a fault and both refusals of `exec`, a fault and a refusal of `step`. -/
theorem witness_stops :
    (∃ e, exec .illegalD3 (start [] false) = .fault e) ∧
    (∃ r, exec (.ldHlR .a) { dmaState 0xC0#8 0x00#8 0x00#8 0x00#8 with regs.h := 0xFF#8, regs.l := 0x55#8, regs.a := 0x80#8 } =
      .refused r) ∧
    (∃ e, step (start [0xD3#8] false) = .fault e) ∧ ∃ r, step (start [0x10#8, 0x01#8] false) = .refused r :=
  ⟨⟨_, rfl⟩, ⟨_, rfl⟩, ⟨_, rfl⟩, ⟨_, rfl⟩⟩

/-- A refused word: its low byte at HDMA5 (SP = 0xFF57), and its high byte there (SP = 0xFF56); and a dispatch that is
refused for its push. -/
def refusingState (sp : Word) : State :=
  { dmaState 0xC0#8 0x00#8 0x00#8 0x00#8 with regs.sp := sp, regs.b := 0x80#8, regs.c := 0x80#8, regs.pc := 0x8080#16 }

theorem witness_word_refused :
    wordRefusal (refusingState 0xFF57#16) 0xFF55#16 0x0080#16 = some (.hblankDma 0x80#8) ∧
    wordRefusal (refusingState 0xFF56#16) 0xFF54#16 0x8000#16 = some (.hblankDma 0x80#8) ∧
    condHolds .nz (refusingState 0xFF57#16).regs.f = true := by
  decide +kernel

theorem witness_dispatch_refused : ∃ s : State, s.ime = .enabled ∧ firstSource (pending s) = some 0 ∧
    wordRefusal (clearRequest s 0) (s.regs.sp - 2#16) s.regs.pc = some (.hblankDma 0x80#8) :=
  ⟨{ (refusingState 0xFF57#16).setIo 0x0F 0x01#8 with ime := .enabled, mem.ie := 0x01#8 }, rfl,
    by decide +kernel, by decide +kernel⟩

/-- Every clause that asks the bus to accept a byte or a word: the start state accepts them all. -/
theorem witness_accepts : (∀ a v, busRefusal (start [] false) a v = none) ∧ ∀ a v, acceptsWord (start [] false) a v :=
  ⟨accepts_of_not_cgb _ rfl, accepts_word_of_not_cgb _ rfl⟩

/-- And in CGB mode, at HDMA5 itself and next to it. -/
theorem witness_accepts_cgb : busRefusal (dmaState 0xC0#8 0x00#8 0x00#8 0x00#8) 0xFF55#16 0x00#8 = none ∧
    busRefusal (dmaState 0xC0#8 0x00#8 0x00#8 0x00#8) 0xFF54#16 0x80#8 = none := by
  decide +kernel

/-- `PopReturnsWhatWasPushed` at the lowest stack of work RAM. -/
def stackState : State := { start [] false with regs.sp := 0xC002#16, regs.b := 0x12#8, regs.c := 0x34#8 }

theorem witness_push : stackState.mem.wf ∧ stackState.regs.f &&& 0x0F#8 = 0#8 ∧
    plainRam (stackState.regs.sp - 2#16) = true ∧ plainRam (stackState.regs.sp - 1#16) = true ∧
    (∃ t, exec (.push .bc) stackState = .next t) ∧ ∃ t, exec (.push .af) stackState = .next t :=
  ⟨start_wf [] false, by decide, by decide, by decide, ⟨_, rfl⟩, ⟨_, rfl⟩⟩

theorem witness_accumulator_rotate : (Instr.rra, 0x1F#8, Rot.rr) ∈ [(Instr.rlca, 0x07#8, Rot.rlc),
    (Instr.rrca, 0x0F#8, Rot.rrc), (Instr.rla, 0x17#8, Rot.rl), (Instr.rra, 0x1F#8, Rot.rr)] := by
  decide

/-- `PrefixRunsTheSecondTable`: a register form, a `BIT` of (HL), and a storing (HL) form the bus accepts. -/
theorem witness_prefix : (fetchByte (start [0x37#8] false)).toNat % 8 ≠ 6 ∧
    (fetchByte (start [0x66#8] false)).toNat / 64 = 1 ∧
    ∀ v, busRefusal (afterFetch (start [0xDE#8] false)) (start [0xDE#8] false).regs.hl v = none :=
  ⟨by decide +kernel, by decide +kernel, accepts_of_not_cgb _ rfl _⟩

theorem witness_conditions : condHolds .z 0x80#8 = true ∧ condHolds .z 0x70#8 = false := by decide

theorem witness_stop_armed : ∃ s : State, s.mem.wf ∧ s.params.cgbMode = true ∧ s.key1.getLsbD 0 = true :=
  ⟨(start [] true).setIo 0x4D 0x01#8, wf_setIo _ _ (start_wf _ _), rfl, by decide +kernel⟩

theorem witness_stop_sleeps : (start [] true).mem.wf ∧
    ((start [] true).params.cgbMode && (start [] true).key1.getLsbD 0) = false :=
  ⟨start_wf _ _, by decide +kernel⟩

/-- `BusWriteReachesOneCell`: plain RAM at its edges, and two addresses that a store there cannot change. -/
theorem witness_bus_write : (start [] true).mem.wf ∧ plainRam 0xC000#16 = true ∧ plainRam 0xFE9F#16 = true ∧
    plainRam 0xFFFF#16 = true ∧ sameCell 0xC000#16 0xE000#16 = true ∧ mayChange 0xC000#16 0xC001#16 = false ∧
    mayChange 0xFF70#16 0xCFFF#16 = false ∧ inApuRange 0xFF40#16 = false :=
  ⟨start_wf _ _, by decide, by decide, by decide, by decide, by decide, by decide, by decide⟩

/-- The banks at the ends of their windows: VBK 1; SVBK 0 and 7; the mirror (R64, R65). -/
theorem test_routes :
    route ((start [] true).setIo 0x4F 0x01#8) 0x9FFF#16 = .vram 0x3FFF ∧
    route ((start [] false).setIo 0x4F 0x01#8) 0x9FFF#16 = .vram 0x1FFF ∧
    route ((start [] true).setIo 0x70 0x00#8) 0xD000#16 = .wram 0x1000 ∧
    route ((start [] true).setIo 0x70 0x07#8) 0xDFFF#16 = .wram 0x7FFF ∧
    route ((start [] true).setIo 0x70 0x07#8) 0xFDFF#16 = .wram 0x7DFF := by
  decide +kernel

theorem witness_io_registers : (start [] true).mem.wf ∧ (start [] true).params.cgbMode = true ∧
    (start [] false).params.cgbMode = false ∧ (start [] true).key1 &&& 0xFE#8 = 0#8 :=
  ⟨start_wf _ _, rfl, rfl, by decide +kernel⟩

theorem witness_oam_dma : (start [] false).mem.wf ∧ inApuRange (BitVec.ofNat 16 (0xC1 * 256 + 159)) = false ∧
    inApuRange (BitVec.ofNat 16 (0xFF * 256 + 0x46)) = false ∧
    BitVec.ofNat 16 (0xFF * 256 + 0x46) = (0xFF46#16 : Word) :=
  ⟨start_wf _ _, by decide, by decide, by decide⟩

theorem witness_general_dma : (dmaState 0xC0#8 0x00#8 0x00#8 0x00#8).mem.wf ∧
    (dmaState 0xC0#8 0x00#8 0x00#8 0x00#8).params.cgbMode = true ∧
    busRefusal (dmaState 0xC0#8 0x00#8 0x00#8 0x00#8) 0xFF55#16 0x7F#8 = none :=
  ⟨wf_setIo _ _ (wf_setIo _ _ (wf_setIo _ _ (wf_setIo _ _ (start_wf _ _)))), rfl, by decide +kernel⟩

/-- A machine with a controller and external RAM. -/
def bankState (m : Mbc) (ram : Nat) : State :=
  let s := start [] false
  { s with mbc := m, params.ramSize := ram }

theorem witness_none_controller : (bankState .none 0x2000).mbc = .none ∧ (bankState .none 0x2000).params.ramSize ≠ 0 ∧
    ((bankState .none 0x2000).bootActive && inOverlay (bankState .none 0x2000).params 0x7FFF) = false := by
  decide +kernel

/-- The boot overlay mapped, with 0x0000 to 0x00FF in it. -/
def overlayState : State :=
  let s := State.resetWith { Params.default with bootOverlay := defaultBootOverlay false } .none
  s

theorem witness_boot_overlay : overlayState.boot = 0#8 ∧ inOverlay overlayState.params 0x00FF = true ∧
    inOverlay overlayState.params 0x0100 = false ∧ (start [] false).boot ≠ 0#8 := by
  decide +kernel

theorem witness_ram_gate : (∃ e, (bankState (.mbc1 0x0B#8 0x00#8) 0x2000).mbc.enableByte = some e ∧ e ≠ 0x0A#8) ∧
    (bankState (.mbc1 0x0A#8 0x00#8) 0).params.ramSize = 0 :=
  ⟨⟨0x0B#8, rfl, by decide⟩, rfl⟩

theorem witness_controllers : (bankState (.mbc1 0x0A#8 0x81#8) 0x8000).mbc = .mbc1 0x0A#8 0x81#8 ∧
    (bankState (.mbc2 0x0A#8 0#4) 512).params.ramSize = 512 ∧
    (bankState (.mbc5 0x0A#8 0x1FF#9 15#4) 0x20000).params.ramSize ≠ 0 ∧
    (bankState (.mbc3 0x0A#8 0#7 0x0C#8 0x00#8 Rtc.zero Rtc.zero) 0x8000).params.ramSize ≠ 0 := by
  decide +kernel

theorem witness_clock : Rtc.inRange ⟨59#8, 59#8, 23#8, 0xFF#8, 0x01#8⟩ ∧
    (⟨59#8, 59#8, 23#8, 0xFF#8, 0x01#8⟩ : Rtc).dh.getLsbD 6 = false ∧
    (⟨0#8, 0#8, 0#8, 0#8, 0x40#8⟩ : Rtc).dh.getLsbD 6 = true :=
  ⟨⟨by decide, by decide, by decide⟩, by decide, by decide⟩

/-- The last second of day 511 wraps to day 0 with the carry set (R118). -/
theorem test_clock_wraps : (⟨59#8, 59#8, 23#8, 0xFF#8, 0x01#8⟩ : Rtc).second = ⟨0#8, 0#8, 0#8, 0x00#8, 0x80#8⟩ := by
  decide +kernel

/-- Fields out of range, and a tick that carries into the minutes and into the hours. -/
theorem witness_clock_fields : (63#8 &&& 0x3F#8 : Byte) ≠ 59#8 ∧ (⟨63#8, 0#8, 0#8, 0#8, 0#8⟩ : Rtc).second = Rtc.zero ∧
    (⟨59#8, 63#8, 0#8, 0#8, 0#8⟩ : Rtc).second = Rtc.zero ∧ (⟨59#8, 59#8, 31#8, 0#8, 0#8⟩ : Rtc).second = Rtc.zero ∧
    (∃ m : Mbc, m.kind ≠ .mbc3) ∧ (start [] false).host.rtcTicks = [] ∧ ∃ s : State, s.host.rtcTicks = [2] :=
  ⟨by decide, by decide +kernel, by decide +kernel, by decide +kernel, ⟨.none, by decide⟩, rfl,
    ⟨{ start [] false with host.rtcTicks := [2] }, rfl⟩⟩

/-- A header with a cartridge type and a RAM size code (R405). -/
def header (type ram : Byte) : Memory := [(0x147, type), (0x149, ram)]

/-- `MBC2` has 512 bytes "whatever the code", also a code that no other cartridge may have (R405). -/
theorem test_load_mbc2 : (match State.load Params.default (header 0x06#8 0xFF#8) 0x8000 with
    | .ok s => s.params.ramSize == 512 && s.mbc == .mbc2 0#8 0#4
    | .error _ => false) = true := by decide +kernel

/-- Any other cartridge with that code is a load-time fatal error (R405). -/
theorem test_load_ram_code : (match State.load Params.default (header 0x01#8 0xFF#8) 0x8000 with
    | .ok _ => false
    | .error e => e == .ramSize 0xFF#8) = true := by decide +kernel

theorem witness_timer : 0 < (start [] false).params.divTickCycles ∧
    0 < timaPeriod (start [] false).params (start [] false).tac := by
  decide +kernel

theorem witness_tima : ∃ s : State, s.mem.wf ∧ s.tima = 0xFF#8 :=
  ⟨(start [] false).setIo 0x05 0xFF#8, wf_setIo _ _ (start_wf _ _), by decide +kernel⟩

theorem witness_samples : (start [] false).host.frameEntry = true ∧ (start [] false).host.keySamples = [] ∧
    (∃ s : State, s.host.frameEntry = false) ∧ ∃ s : State, s.host.frameEntry = true ∧
      s.host.keySamples = [Keys.released] :=
  ⟨rfl, rfl, ⟨{ start [] false with host.frameEntry := false }, rfl⟩,
    ⟨{ start [] false with host.keySamples := [Keys.released] }, rfl, rfl⟩⟩

theorem witness_joypad : (start [] false).mem.wf := start_wf _ _

/-- The LCD on, at the dot before `c`. -/
def dotState (c : Nat) : State := { (start [] false).setIo 0x40 0x80#8 with ppu.cycle := c }

theorem dotState_wf (c : Nat) : (dotState c).mem.wf := wf_setIo _ _ (start_wf _ _)

/-- `LineStartEvents` at lines 0, 143, 144 and 153. -/
theorem witness_line_start : (dotState 0).lcdcBit 7 = true ∧
    ((dotState 70223).ppu.cycle + 1) % 70224 = 456 * 0 ∧ ((dotState 65207).ppu.cycle + 1) % 70224 = 456 * 143 ∧
    ((dotState 65663).ppu.cycle + 1) % 70224 = 456 * 144 ∧ ((dotState 69767).ppu.cycle + 1) % 70224 = 456 * 153 := by
  decide +kernel

/-- `OtherDotEvents`: LCD off; a quiet dot; dots 80 and 252 of line 143, and of line 144, where they are quiet. -/
theorem witness_other_dots : (start [] false).lcdcBit 7 = false ∧ (dotState 0).lcdcBit 7 = true ∧
    ((dotState 0).ppu.cycle + 1) % 70224 % 456 ≠ 0 ∧
    ((dotState 65287).ppu.cycle + 1) % 70224 % 456 = 80 ∧ ((dotState 65287).ppu.cycle + 1) % 70224 / 456 < 144 ∧
    ((dotState 65459).ppu.cycle + 1) % 70224 % 456 = 252 ∧ ((dotState 65459).ppu.cycle + 1) % 70224 / 456 < 144 ∧
    ((dotState 65743).ppu.cycle + 1) % 70224 % 456 = 80 ∧ ¬((dotState 65743).ppu.cycle + 1) % 70224 / 456 < 144 := by
  decide +kernel

theorem witness_frame_counter : (dotState 70223).ppu.cycle < 70224 := by decide +kernel

/-- OAM whose first eleven sprites are at the top line, the later ones further left. -/
def spriteState (cgb : Bool) : State :=
  let s := start [] cgb
  { s with mem.oam := (List.range 11).foldl (fun m i =>
      (m.write (4 * i) 16#8).write (4 * i + 1) (BitVec.ofNat 8 (100 - i))) s.mem.oam }

/-- `SpriteSelection`: the eleventh sprite covers line 0 and is left out; the tenth is taken (R361). -/
theorem witness_sprites : (spriteState false).spriteOnLine 0 10 = true ∧ 10 ∉ selectSprites (spriteState false) 0 ∧
    selectSprites (spriteState true) 0 = [0, 1, 2, 3, 4, 5, 6, 7, 8, 9] ∧
    selectSprites (spriteState false) 0 = [9, 8, 7, 6, 5, 4, 3, 2, 1, 0] := by
  decide +kernel

/-- `PixelPriority`: a state with a sprite pixel at (0, 0) and one without. -/
theorem witness_pixel : (∃ (s : State) (obj : ObjPixel), s.objPixel 0 0 = some obj) ∧
    ∃ s : State, s.objPixel 0 0 = none := by
  refine ⟨⟨{ (start [] false).setIo 0x40 0x82#8 with
      ppu.lineSprites := [0], mem.oam := [(0, 16#8), (1, 8#8)], mem.vram := [(0, 0x80#8)] }, ⟨1, 0x00#8⟩, ?_⟩,
    ⟨start [] false, ?_⟩⟩ <;> decide +kernel

/-- Sprite 0 begins at line 0, lines 0 and 15 of it; LCDC[1] is on. -/
def spritePixelState (lcdc : Byte) : State :=
  { (start [] false).setIo 0x40 lcdc with
    ppu.lineSprites := [0], mem.oam := [(0, 16#8), (1, 8#8)], mem.vram := [(0, 0x80#8), (0x1E, 0x01#8)] }

theorem witness_sprite_lines : (spritePixelState 0x86#8).lcdc.getLsbD 1 = true ∧
    (∀ i ∈ (spritePixelState 0x86#8).ppu.lineSprites, ((spritePixelState 0x86#8).mem.oam.read (4 * i)).toNat ≤ 0 + 16 ∧
      0 < ((spritePixelState 0x86#8).mem.oam.read (4 * i)).toNat) ∧
    ∀ i ∈ (spritePixelState 0x86#8).ppu.lineSprites, ((spritePixelState 0x86#8).mem.oam.read (4 * i)).toNat ≤ 15 + 16 ∧
      15 < ((spritePixelState 0x86#8).mem.oam.read (4 * i)).toNat := by
  decide +kernel

/-- Row 7 of the lower tile is the last of an 8 x 16 sprite, column 7; its upper tile has its first pixel set (R363,
R367, R370). -/
theorem test_tall_sprite : (spritePixelState 0x86#8).objPixel 0 0 = some ⟨1, 0x00#8⟩ ∧
    (spritePixelState 0x86#8).objPixel 15 7 = some ⟨1, 0x00#8⟩ ∧ (spritePixelState 0x86#8).objPixel 15 0 = none := by
  decide +kernel

theorem witness_params : ParamsWf { Params.default with ramSize := 512, cgbMode := true } := by decide +kernel

/-- `StepKeepsTheInvariant` and the other statements about a step: a state with the invariant, running an instruction
that stores. -/
theorem witness_invariant : (startHl [0x77#8] 0x11#8 0x22#8 0x10#8).Inv where
  params := by decide +kernel
  mbc2Ram := by decide +kernel
  flags := by decide +kernel
  memForm := by decide +kernel
  memSize := by decide +kernel
  io := by decide +kernel
  timer := by decide +kernel
  ppu := by decide +kernel
  speed := by decide +kernel
  cyc := by decide +kernel

theorem witness_step : ∃ t, step (startHl [0x77#8] 0x11#8 0x22#8 0x10#8) = .next t := ⟨_, rfl⟩

theorem witness_exec : ∃ t, exec .ei (start [] false) = .next t := ⟨_, rfl⟩

/-- `SimulateRunsToTheEndOfTheFrame`, four dots before the end of a frame. -/
theorem witness_simulate : (dotState 70220).ppu.cycle < 70224 ∧
    (match simulate Keys.released (dotState 70220) with
      | .next t => t.host.frameEntry
      | _ => false) = true := by
  decide +kernel

end Sys2Proof.Tests
end

/-! Bank controllers MBC1, MBC2 and MBC5 (20_memory.md R102 to R119): which window of the bus reaches the controller,
what a write to a register window makes of its fields, and which bank the fields show. -/

namespace Sys2Proof.Machine

/-! ## The two windows of the bus that go through the controller (R60, R63) -/

theorem route_rom (s : State) {a : Word} (ha : a.toNat < 0x8000) : route s a = .rom := by
  simp (disch := omega) only [route, if_pos]

theorem route_eram (s : State) {a : Word} (hlo : 0xA000 ≤ a.toNat) (hhi : a.toNat ≤ 0xBFFF) : route s a = .eram := by
  simp (disch := omega) only [route, if_pos, if_neg]

/-- A store below 0x8000 is the controller's register write. -/
theorem busStore_rom (s : State) {a : Word} (v : Byte) (ha : a.toNat < 0x8000) :
    busStore s a v = { s with mbc := s.mbc.regWrite a.toNat v } := by
  simp only [busStore, route_rom s ha]

/-- A read below 0x8000, outside the boot overlay, is `RomAt` of the bank that the controller shows there (R103). -/
theorem busRead_rom (s : State) {a : Word} (ha : a.toNat < 0x8000)
    (hboot : (s.bootActive && inOverlay s.params a.toNat) = false) :
    busRead s a = s.params.rom.read ((s.mbc.romBank a.toNat * 0x4000 + a.toNat % 0x4000) % s.params.romSize) := by
  simp only [busRead, route_rom s ha, hboot, Bool.false_eq_true, if_false, romRead, romOffset, romBankOffset]

/-- Where the controller routes the RAM window to a byte of RAM, that byte is read and written. -/
theorem ramWindow_of_route_ram {s : State} {a : Word} {o : Nat} (v : Byte) (hlo : 0xA000 ≤ a.toNat)
    (hhi : a.toNat ≤ 0xBFFF) (ho : eramRoute s.params s.mbc a.toNat = .ram o) :
    busRead s a = s.mem.eram.read o ∧ busStore s a v = { s with mem.eram := s.mem.eram.write o v } := by
  simp only [busRead, busStore, route_eram s hlo hhi, eramRead, eramWrite, ho, and_self]

/-- Where the controller routes the RAM window to a 4-bit cell, only the low half of the byte is read and written. -/
theorem ramWindow_of_route_nibble {s : State} {a : Word} {o : Nat} (v : Byte) (hlo : 0xA000 ≤ a.toNat)
    (hhi : a.toNat ≤ 0xBFFF) (ho : eramRoute s.params s.mbc a.toNat = .nibble o) :
    busRead s a = 0xF0#8 ||| (s.mem.eram.read o &&& 0x0F#8) ∧
      busStore s a v = { s with mem.eram := s.mem.eram.write o (v &&& 0x0F#8) } := by
  simp only [busRead, busStore, route_eram s hlo hhi, eramRead, eramWrite, ho, and_self]

/-! ## The packed byte of MBC1 (R105, R106) -/

/-- Two bit fields of one length, at `i` and at `j`, are equal numbers when their bits are equal. -/
theorem field_eq_of_bits {b c : Byte} (i j len : Nat)
    (h : ∀ k < len, b.getLsbD (k + i) = c.getLsbD (k + j)) :
    b.toNat / 2 ^ i % 2 ^ len = c.toNat / 2 ^ j % 2 ^ len := by
  refine Nat.eq_of_testBit_eq fun k => ?_
  by_cases hk : k < len
  · simp [Nat.testBit_mod_two_pow, Nat.testBit_div_two_pow, BitVec.testBit_toNat, h k hk]
  · simp [Nat.testBit_mod_two_pow, hk]

/-- The packed byte `b` holds these three fields. -/
def Mbc1Packs (b : Byte) (low high mode : Nat) : Prop :=
  b.toNat % 32 = low ∧ b.toNat / 32 % 4 = high ∧ b.toNat / 128 = mode

/-- The mode flag is the byte's last bit. -/
theorem mbc1_mode_mod_two (b : Byte) : b.toNat / 128 % 2 = b.toNat / 128 := by
  have := b.isLt
  omega

/-- The packed byte has the three fields that three bytes have at the bit positions `i`, `j` and `k`, when their bits
agree there. -/
theorem mbc1Packs_of_bits {b l h m : Byte} (i j k : Nat)
    (hl : ∀ n < 5, b.getLsbD (n + 0) = l.getLsbD (n + i))
    (hh : ∀ n < 2, b.getLsbD (n + 5) = h.getLsbD (n + j))
    (hm : ∀ n < 1, b.getLsbD (n + 7) = m.getLsbD (n + k)) :
    Mbc1Packs b (l.toNat / 2 ^ i % 32) (h.toNat / 2 ^ j % 4) (m.toNat / 2 ^ k % 2) := by
  have low := field_eq_of_bits 0 i 5 hl
  have high := field_eq_of_bits 5 j 2 hh
  have mode := field_eq_of_bits 7 k 1 hm
  exact ⟨by omega, high, (mbc1_mode_mod_two b).symm.trans mode⟩

/-- Writing the low field leaves the high field and the mode flag. -/
theorem mbc1Packs_writeLow (b v : Byte) :
    Mbc1Packs ((b &&& 0xE0#8) ||| (v &&& 0x1F#8)) (v.toNat % 32) (b.toNat / 32 % 4) (b.toNat / 128) := by
  suffices h : Mbc1Packs _ (v.toNat / 2 ^ 0 % 32) (b.toNat / 2 ^ 5 % 4) (b.toNat / 2 ^ 7 % 2) by
    simpa [mbc1_mode_mod_two] using h
  apply mbc1Packs_of_bits 0 5 7 <;> simp only [Nat.forall_lt_succ_right] <;> simp

/-- Writing the high field leaves the low field and the mode flag. -/
theorem mbc1Packs_writeHigh (b v : Byte) :
    Mbc1Packs ((b &&& 0x9F#8) ||| ((v &&& 0x03#8) <<< 5)) (b.toNat % 32) (v.toNat % 4) (b.toNat / 128) := by
  suffices h : Mbc1Packs _ (b.toNat / 2 ^ 0 % 32) (v.toNat / 2 ^ 0 % 4) (b.toNat / 2 ^ 7 % 2) by
    simpa [mbc1_mode_mod_two] using h
  apply mbc1Packs_of_bits 0 0 7 <;> simp only [Nat.forall_lt_succ_right] <;> simp

/-- Writing the mode flag leaves the low and the high field. -/
theorem mbc1Packs_writeMode (b v : Byte) :
    Mbc1Packs ((b &&& 0x7F#8) ||| ((v &&& 0x01#8) <<< 7)) (b.toNat % 32) (b.toNat / 32 % 4) (v.toNat % 2) := by
  suffices h : Mbc1Packs _ (b.toNat / 2 ^ 0 % 32) (b.toNat / 2 ^ 5 % 4) (v.toNat / 2 ^ 0 % 2) by
    simpa [mbc1_mode_mod_two] using h
  apply mbc1Packs_of_bits 0 5 0 <;> simp only [Nat.forall_lt_succ_right] <;> simp

/-- The mode flag is set just in the upper half of the bytes. -/
theorem mbc1Mode_iff (b : Byte) : mbc1Mode b = true ↔ 128 ≤ b.toNat := by
  have h : mbc1Mode b = decide (128 ≤ b.toNat) := (BitVec.msb_eq_getLsbD_last b).symm.trans (BitVec.msb_eq_decide b)
  rw [h, decide_eq_true_iff]

/-! ## MBC1 (R105, R106, R107) -/

/-- Each register window of MBC1 writes its own field and leaves the others. -/
theorem mbc1_regWrite (e b v : Byte) (n : Nat) : ∃ e' b', (Mbc.mbc1 e b).regWrite n v = .mbc1 e' b' ∧
    e' = (if n < 0x2000 then v else e) ∧
    Mbc1Packs b' (if 0x2000 ≤ n ∧ n < 0x4000 then v.toNat % 32 else b.toNat % 32)
      (if 0x4000 ≤ n ∧ n < 0x6000 then v.toNat % 4 else b.toNat / 32 % 4)
      (if 0x6000 ≤ n then v.toNat % 2 else b.toNat / 128) := by
  rcases Nat.lt_or_ge n 0x2000 with h2 | h2
  · refine ⟨v, b, ?_, ?_, ?_⟩ <;> simp (disch := omega) only [Mbc.regWrite, if_pos, if_neg]
    exact ⟨rfl, rfl, rfl⟩
  rcases Nat.lt_or_ge n 0x4000 with h4 | h4
  · refine ⟨e, (b &&& 0xE0#8) ||| (v &&& 0x1F#8), ?_, ?_, ?_⟩ <;>
      simp (disch := omega) only [Mbc.regWrite, if_pos, if_neg]
    exact mbc1Packs_writeLow b v
  rcases Nat.lt_or_ge n 0x6000 with h6 | h6
  · refine ⟨e, (b &&& 0x9F#8) ||| ((v &&& 0x03#8) <<< 5), ?_, ?_, ?_⟩ <;>
      simp (disch := omega) only [Mbc.regWrite, if_pos, if_neg]
    exact mbc1Packs_writeHigh b v
  · refine ⟨e, (b &&& 0x7F#8) ||| ((v &&& 0x01#8) <<< 7), ?_, ?_, ?_⟩ <;>
      simp (disch := omega) only [Mbc.regWrite, if_pos, if_neg]
    exact mbc1Packs_writeMode b v

/-- The banks that the fields of the packed byte give (R106). -/
theorem mbc1_romBank (e b : Byte) (n : Nat) : (Mbc.mbc1 e b).romBank n =
    if n < 0x4000 then (if 128 ≤ b.toNat then b.toNat / 32 % 4 * 32 else 0)
    else b.toNat / 32 % 4 * 32 + if b.toNat % 32 = 0 then 1 else b.toNat % 32 := by
  simp only [Mbc.romBank, mbc1Mode_iff]
  rfl

/-- The open RAM window of MBC1 is RAM, in the bank of the high field in mode 1 and in bank 0 in mode 0 (R107). -/
theorem mbc1_eramRoute (p : Params) (b : Byte) (n : Nat) (hsize : p.ramSize ≠ 0) :
    eramRoute p (.mbc1 0x0A#8 b) n =
      .ram (((if 128 ≤ b.toNat then b.toNat / 32 % 4 else 0) * 0x2000 + (n - 0xA000)) % p.ramSize) := by
  simp only [eramRoute, ne_eq, not_true_eq_false, hsize, or_self, if_false, eramOffset, mbc1Mode_iff, mbc1High]

/-- Settles O42: the register windows by `mbc1_regWrite`, the ROM and the RAM window by the bank each shows. -/
theorem mbc1RegistersAndBanks : Obligations.Mbc1RegistersAndBanks := by
  unfold Obligations.Mbc1RegistersAndBanks
  intro s e b hm
  refine ⟨fun a v ha => ?_, fun a ha hboot => ?_, fun a v hlo hhi he hsize => ?_⟩
  · obtain ⟨e', b', hw, he, hlow, hhigh, hmode⟩ := mbc1_regWrite e b v a.toNat
    exact ⟨e', b', by rw [busStore_rom s v ha, hm, hw], he, hlow, hhigh, hmode⟩
  · simp only [busRead_rom s ha hboot, hm, mbc1_romBank]
  · subst he
    exact ramWindow_of_route_ram v hlo hhi (by rw [hm, mbc1_eramRoute _ _ _ hsize])

/-! ## MBC2 (R108, R109, R110) -/

/-- Bit 8 of an address, as the register window of MBC2 tests it. -/
theorem getLsbD_8_iff (a : Word) : a.getLsbD 8 = true ↔ a.toNat / 0x100 % 2 = 1 := by
  rw [← BitVec.testBit_toNat, Nat.testBit_eq_decide_div_mod_eq, decide_eq_true_iff]

/-- The register window of MBC2 is 0x0000 to 0x3FFF, and bit 8 of the address chooses the register (R108). -/
theorem mbc2_regWrite (e v : Byte) (rb : BitVec 4) (a : Word) : (Mbc.mbc2 e rb).regWrite a.toNat v =
    if 0x4000 ≤ a.toNat then .mbc2 e rb
    else if a.getLsbD 8 then .mbc2 e (v.setWidth 4) else .mbc2 v rb := by
  rw [BitVec.setWidth_eq_extractLsb' (by decide)]
  by_cases ha : 0x4000 ≤ a.toNat
  · simp (disch := omega) only [Mbc.regWrite, if_neg, if_pos]
  by_cases hbit : a.getLsbD 8 = true
  · have := (getLsbD_8_iff a).1 hbit
    simp (disch := omega) only [Mbc.regWrite, if_pos hbit, if_neg, if_pos]
  · have := mt (getLsbD_8_iff a).2 hbit
    simp (disch := omega) only [Mbc.regWrite, if_neg hbit, if_neg, if_pos]

/-- Bank 0 reads as bank 1 in the second window of MBC2 (R109). -/
theorem mbc2_romBank (e : Byte) (rb : BitVec 4) (n : Nat) : (Mbc.mbc2 e rb).romBank n =
    if n < 0x4000 then 0 else if rb = 0#4 then 1 else rb.toNat := by
  have hzero : rb.toNat = 0 ↔ rb = 0#4 := BitVec.toNat_inj (y := 0#4)
  simp only [Mbc.romBank, oneForZero, hzero]

/-- The open RAM window of MBC2 is its 512 cells of 4 bits (R110). -/
theorem mbc2_eramRoute (p : Params) (rb : BitVec 4) (n : Nat) (hsize : p.ramSize ≠ 0) :
    eramRoute p (.mbc2 0x0A#8 rb) n = .nibble ((n - 0xA000) % 512) := by
  simp only [eramRoute, ne_eq, not_true_eq_false, hsize, or_self, if_false]

/-! ## MBC5 (R116, R117) -/

theorem toNat_append_eq {m n : Nat} (x : BitVec m) (y : BitVec n) : (x ++ y).toNat = x.toNat * 2 ^ n + y.toNat := by
  rw [BitVec.toNat_append, ← Nat.shiftLeft_add_eq_or_of_lt y.isLt, Nat.shiftLeft_eq]

/-- Writing the low byte of the ROM bank leaves bit 8. -/
theorem mbc5_writeLow (rb : BitVec 9) (v : Byte) :
    (rb.extractLsb' 8 1 ++ v).toNat = rb.toNat / 256 * 256 + v.toNat := by
  have := rb.isLt
  rw [toNat_append_eq, BitVec.extractLsb'_toNat, Nat.shiftRight_eq_div_pow]
  omega

/-- Writing bit 8 of the ROM bank leaves the low byte. -/
theorem mbc5_writeHigh (rb : BitVec 9) (v : Byte) :
    (v.extractLsb' 0 1 ++ rb.extractLsb' 0 8).toNat = v.toNat % 2 * 256 + rb.toNat % 256 := by
  rw [toNat_append_eq, BitVec.extractLsb'_toNat, BitVec.extractLsb'_toNat]
  rfl

/-- Each register window of MBC5 writes its own field and leaves the others (R116). -/
theorem mbc5_regWrite (e v : Byte) (rb : BitVec 9) (ram : BitVec 4) (n : Nat) : ∃ e' rb' ram',
    (Mbc.mbc5 e rb ram).regWrite n v = .mbc5 e' rb' ram' ∧
    e' = (if n < 0x2000 then v else e) ∧
    rb'.toNat % 256 = (if 0x2000 ≤ n ∧ n < 0x3000 then v.toNat else rb.toNat % 256) ∧
    rb'.toNat / 256 = (if 0x3000 ≤ n ∧ n < 0x4000 then v.toNat % 2 else rb.toNat / 256) ∧
    ram'.toNat = (if 0x4000 ≤ n ∧ n < 0x6000 then v.toNat % 16 else ram.toNat) := by
  have hv := v.isLt
  rcases Nat.lt_or_ge n 0x2000 with h2 | h2
  · refine ⟨v, rb, ram, ?_⟩
    simp (disch := omega) only [Mbc.regWrite, if_pos, if_neg, and_self]
  rcases Nat.lt_or_ge n 0x3000 with h3 | h3
  · refine ⟨e, rb.extractLsb' 8 1 ++ v, ram, ?_⟩
    simp (disch := omega) only [Mbc.regWrite, if_pos, if_neg, mbc5_writeLow, true_and, and_true]
    omega
  rcases Nat.lt_or_ge n 0x4000 with h4 | h4
  · refine ⟨e, v.extractLsb' 0 1 ++ rb.extractLsb' 0 8, ram, ?_⟩
    simp (disch := omega) only [Mbc.regWrite, if_pos, if_neg, mbc5_writeHigh, true_and, and_true]
    omega
  rcases Nat.lt_or_ge n 0x6000 with h6 | h6
  · refine ⟨e, rb, v.extractLsb' 0 4, ?_⟩
    simp (disch := omega) only [Mbc.regWrite, if_pos, if_neg, true_and]
    exact BitVec.extractLsb'_toNat 0 4 v
  · refine ⟨e, rb, ram, ?_⟩
    simp (disch := omega) only [Mbc.regWrite, if_neg, and_self]

/-- MBC5 shows its ROM bank as it is, bank 0 too (R117). -/
theorem mbc5_romBank (e : Byte) (rb : BitVec 9) (ram : BitVec 4) (n : Nat) : (Mbc.mbc5 e rb ram).romBank n =
    if n < 0x4000 then 0 else rb.toNat := rfl

/-- The open RAM window of MBC5 is RAM in the selected bank (R117). -/
theorem mbc5_eramRoute (p : Params) (rb : BitVec 9) (ram : BitVec 4) (n : Nat) (hsize : p.ramSize ≠ 0) :
    eramRoute p (.mbc5 0x0A#8 rb ram) n = .ram ((ram.toNat * 0x2000 + (n - 0xA000)) % p.ramSize) := by
  simp only [eramRoute, ne_eq, not_true_eq_false, hsize, or_self, if_false, eramOffset]

/-- Settles O43, for each of the two controllers by its register window, the bank it shows, and the RAM it reaches. -/
theorem mbc2AndMbc5RegistersAndBanks : Obligations.Mbc2AndMbc5RegistersAndBanks := by
  unfold Obligations.Mbc2AndMbc5RegistersAndBanks
  refine fun s => ⟨fun e rb hm => ⟨fun a v ha => ?_, fun a ha hboot => ?_, fun a v hlo hhi he hsize => ?_⟩,
    fun e rb ram hm => ⟨fun a v ha => ?_, fun a ha hboot => ?_, fun a v hlo hhi he hsize => ?_⟩⟩
  · rw [busStore_rom s v ha, hm, mbc2_regWrite]
  · simp only [busRead_rom s ha hboot, hm, mbc2_romBank]
  · subst he
    exact ramWindow_of_route_nibble v hlo hhi (by rw [hm, mbc2_eramRoute _ _ _ (by omega)])
  · obtain ⟨e', rb', ram', hw, hfields⟩ := mbc5_regWrite e v rb ram a.toNat
    exact ⟨e', rb', ram', by rw [busStore_rom s v ha, hm, hw], hfields⟩
  · simp only [busRead_rom s ha hboot, hm, mbc5_romBank]
  · subst he
    exact ramWindow_of_route_ram v hlo hhi (by rw [hm, mbc5_eramRoute _ _ _ _ hsize])

end Sys2Proof.Machine

/-! The 8-bit loads and stores (40_load8.md R160 to R179), and what one byte store shows on the bus: which addresses
read differently after it, and that plain RAM reads back what was stored (20_memory.md R62, R65, R123). -/

namespace Sys2Proof.Machine

/-! ## Targets and the addresses that reach them (R60, R65) -/

/-- What a target says of the address that reaches it (R60, R64, R65). -/
def Target.Covers (s : State) (n : Nat) : Target → Prop
  | .rom => n ≤ 0x7FFF
  | .vram o => 0x8000 ≤ n ∧ n ≤ 0x9FFF ∧ o = s.vramBank * 0x2000 + (n - 0x8000)
  | .eram => 0xA000 ≤ n ∧ n ≤ 0xBFFF
  | .wram o => 0xC000 ≤ n ∧ n ≤ 0xFDFF ∧ o = s.wramOffset (unmirror n)
  | .oam o => 0xFE00 ≤ n ∧ n ≤ 0xFE9F ∧ n = 0xFE00 + o
  | .unusable => 0xFEA0 ≤ n ∧ n ≤ 0xFEFF
  | .io o => n = 0xFF00 + o ∧ o ≤ 0x7F
  | .hram o => 0xFF80 ≤ n ∧ n ≤ 0xFFFE ∧ n = 0xFF80 + o
  | .ie => n = 0xFFFF

theorem route_covers (s : State) (a : Word) : (route s a).Covers s a.toNat := by
  have := a.isLt
  unfold route
  dsimp only
  repeat' split
  all_goals simp only [Target.Covers, and_true]; omega

/-- An address whose target is known, placed in its range. -/
theorem covers_of_route {s : State} {a : Word} {τ : Target} (h : route s a = τ) : τ.Covers s a.toNat :=
  h ▸ route_covers s a

theorem unmirror_eq_iff {n m : Nat} : unmirror n = unmirror m ↔
    n = m ∨ (0xE000 ≤ n ∧ n ≤ 0xFDFF ∧ n = m + 0x2000) ∨ (0xE000 ≤ m ∧ m ≤ 0xFDFF ∧ m = n + 0x2000) := by
  unfold unmirror
  split <;> split <;> omega

theorem wramBank_pos (s : State) : 0 < s.wramBank := by
  unfold State.wramBank
  split <;> omega

/-- Work RAM's two windows never share an offset: the banked window shows bank 1 or above (R65). -/
theorem wramOffset_inj {s : State} {n m : Nat} (hn : 0xC000 ≤ n ∧ n ≤ 0xDFFF) (hm : 0xC000 ≤ m ∧ m ≤ 0xDFFF)
    (h : s.wramOffset n = s.wramOffset m) : n = m := by
  have := wramBank_pos s
  unfold State.wramOffset at h
  split at h <;> split at h <;> omega

theorem unmirror_wram {n : Nat} (hlo : 0xC000 ≤ n) (hhi : n ≤ 0xFDFF) : 0xC000 ≤ unmirror n ∧ unmirror n ≤ 0xDFFF := by
  unfold unmirror
  split <;> omega

/-- Two addresses that name one byte have one target. -/
theorem route_eq_of_sameCell (s : State) {a x : Word} (h : sameCell a x = true) : route s x = route s a := by
  have hu : unmirror a.toNat = unmirror x.toNat := by simpa [sameCell] using h
  rcases unmirror_eq_iff.1 hu with he | ⟨hlo, hhi, he⟩ | ⟨hlo, hhi, he⟩
  · rw [BitVec.eq_of_toNat_eq he]
  · simp (disch := omega) only [route, if_pos, if_neg, hu]
  · simp (disch := omega) only [route, if_pos, if_neg, hu]

/-- A target that is one byte is reached by that byte's addresses only. -/
theorem sameCell_of_route_eq {s : State} {a x : Word} (h : route s x = route s a) (hrom : route s a ≠ .rom)
    (heram : route s a ≠ .eram) (hun : route s a ≠ .unusable) : sameCell a x = true := by
  have ha := route_covers s a
  have hx := route_covers s x
  rw [h] at hx
  have hu : unmirror a.toNat = unmirror x.toNat := by
    generalize route s a = τ at *
    cases τ with
    | wram o =>
      obtain ⟨halo, hahi, rfl⟩ := ha
      obtain ⟨hxlo, hxhi, he⟩ := hx
      exact wramOffset_inj (unmirror_wram halo hahi) (unmirror_wram hxlo hxhi) he
    | rom => contradiction
    | eram => contradiction
    | unusable => contradiction
    | _ => simp only [Target.Covers] at ha hx; congr 1; omega
  simpa [sameCell] using hu

/-! ## Reads after a store to plain memory (R64, R65, R67, R68, R100) -/

/-- A read sees, of the arrays that a plain store writes, the one cell its target names. -/
theorem busRead_withArrays {s : State} {x : Word} {vram wram oam hram : Memory} {ie : Byte}
    (hv : ∀ o, route s x = .vram o → vram.read o = s.mem.vram.read o)
    (hw : ∀ o, route s x = .wram o → wram.read o = s.mem.wram.read o)
    (ho : ∀ o, route s x = .oam o → oam.read o = s.mem.oam.read o)
    (hh : ∀ o, route s x = .hram o → hram.read o = s.mem.hram.read o)
    (hi : route s x = .ie → ie = s.mem.ie) :
    busRead { s with mem := { s.mem with vram := vram, wram := wram, oam := oam, hram := hram, ie := ie } } x =
      busRead s x := by
  have hr : route { s with mem := { s.mem with vram := vram, wram := wram, oam := oam, hram := hram, ie := ie } } x =
      route s x := rfl
  unfold busRead
  rw [hr]
  cases hx : route s x with
  | vram o => exact hv o hx
  | wram o => exact hw o hx
  | oam o => exact ho o hx
  | hram o => exact hh o hx
  | ie => exact hi hx
  | rom | eram | unusable | io => rfl

/-- The addresses of plain RAM are those that reach a byte of an array which a store writes and does nothing else to. -/
theorem plainRam_iff_route (s : State) (a : Word) : plainRam a = true ↔
    (∃ o, route s a = .vram o ∨ route s a = .wram o ∨ route s a = .oam o ∨ route s a = .hram o) ∨ route s a = .ie := by
  have hc := route_covers s a
  unfold plainRam
  cases ha : route s a <;> simp [ha, Target.Covers] at hc ⊢ <;> omega

/-- A store to plain RAM shows at its own cell only. -/
theorem busRead_busStore_plainRam_other {s : State} {a x : Word} (v : Byte) (hp : plainRam a = true)
    (h : route s x ≠ route s a) : busRead (busStore s a v) x = busRead s x := by
  have hne {τ : Nat → Target} {o p : Nat} (ha : route s a = τ o) (hx : route s x = τ p) : p ≠ o := by
    rintro rfl
    exact h (hx.trans ha.symm)
  rcases (plainRam_iff_route s a).1 hp with ⟨o, ha | ha | ha | ha⟩ | ha <;> simp only [busStore, ha]
  · exact busRead_withArrays (fun p hx => Memory.read_write_other _ v (hne ha hx)) (fun _ _ => rfl) (fun _ _ => rfl)
      (fun _ _ => rfl) (fun _ => rfl)
  · exact busRead_withArrays (fun _ _ => rfl) (fun p hx => Memory.read_write_other _ v (hne ha hx)) (fun _ _ => rfl)
      (fun _ _ => rfl) (fun _ => rfl)
  · exact busRead_withArrays (fun _ _ => rfl) (fun _ _ => rfl) (fun p hx => Memory.read_write_other _ v (hne ha hx))
      (fun _ _ => rfl) (fun _ => rfl)
  · exact busRead_withArrays (fun _ _ => rfl) (fun _ _ => rfl) (fun _ _ => rfl)
      (fun p hx => Memory.read_write_other _ v (hne ha hx)) (fun _ => rfl)
  · exact busRead_withArrays (fun _ _ => rfl) (fun _ _ => rfl) (fun _ _ => rfl) (fun _ _ => rfl)
      (fun hx => absurd (hx.trans ha.symm) h)

/-- Plain RAM, its mirror included, reads back what was stored (R62, R65). -/
theorem busRead_busStore_plainRam_same {s : State} {a x : Word} (v : Byte) (hwf : s.mem.wf) (hp : plainRam a = true)
    (h : route s x = route s a) : busRead (busStore s a v) x = v := by
  obtain ⟨hvram, -, hwram, hoam, -, hhram, -, -⟩ := hwf
  have hr : route (busStore s a v) x = route s a := by
    rcases (plainRam_iff_route s a).1 hp with ⟨o, ha | ha | ha | ha⟩ | ha <;> simp only [busStore, ha] <;>
      exact h.trans ha
  unfold busRead
  rw [hr]
  rcases (plainRam_iff_route s a).1 hp with ⟨o, ha | ha | ha | ha⟩ | ha <;> simp only [busStore, ha]
  · exact Memory.read_write_same hvram o v
  · exact Memory.read_write_same hwram o v
  · exact Memory.read_write_same hoam o v
  · exact Memory.read_write_same hhram o v

/-! ## Reads after a store to the bank controller (R63, R104 to R119) -/

/-- The controller and its RAM show below 0x8000, where the ROM bank counts, and in the RAM window. -/
theorem busRead_withController {s : State} {x : Word} {m : Mbc} {e : Memory} (heram : route s x ≠ .eram)
    (hrom : route s x = .rom → m.romBank x.toNat = s.mbc.romBank x.toNat) :
    busRead { s with mbc := m, mem.eram := e } x = busRead s x := by
  have hr : route { s with mbc := m, mem.eram := e } x = route s x := rfl
  unfold busRead
  rw [hr]
  cases hx : route s x with
  | rom =>
    simp only [romRead, romOffset, hrom hx]
    rfl
  | eram => contradiction
  | vram | wram | oam | unusable | io | hram | ie => rfl

/-- A clock write moves no ROM bank. -/
theorem clockWrite_romBank (m : Mbc) (i : Nat) (v : Byte) (n : Nat) : (m.clockWrite i v).romBank n = m.romBank n := by
  cases m <;> rfl

/-- A store to the RAM window shows in the RAM window only. -/
theorem busRead_eramWrite (s : State) (n : Nat) (v : Byte) {x : Word} (heram : route s x ≠ .eram) :
    busRead (eramWrite s n v) x = busRead s x := by
  unfold eramWrite
  cases eramRoute s.params s.mbc n with
  | closed => rfl
  | ram o => exact busRead_withController heram fun _ => rfl
  | nibble o => exact busRead_withController heram fun _ => rfl
  | clock i => exact busRead_withController heram fun _ => clockWrite_romBank _ i v _

/-! ## Reads after a store to the I/O range (R70, R123) -/

/-- What the read of one register looks at: its own byte, and for the special reads the configuration, keys, speed,
count of draws, divider, and the palette array with its index (R70). -/
theorem ioRead_congr {s t : State} {p : Nat} (hp : t.params = s.params) (hk : t.keys = s.keys)
    (hd : t.doubleSpeed = s.doubleSpeed) (hn : t.host.draws = s.host.draws) (hreg : t.io p = s.io p)
    (hdiv : p = 0x04 → t.timer.divctr = s.timer.divctr)
    (hbg : p = 0x69 → t.mem.bgpal = s.mem.bgpal ∧ t.bcps = s.bcps)
    (hobj : p = 0x6B → t.mem.objpal = s.mem.objpal ∧ t.ocps = s.ocps) : ioRead t p = ioRead s p := by
  simp only [ioRead, hp, hd, hn]
  refine ite_congr rfl (fun _ => rfl) fun _ => ite_congr rfl (fun hp1 => ?_) fun _ =>
    ite_congr rfl (fun h4 => ?_) fun _ => ite_congr rfl (fun hkey => ?_) fun _ =>
    ite_congr rfl (fun h69 => ?_) fun _ => ite_congr rfl (fun h6B => ?_) fun _ => ?_
  · have e : t.p1 = s.p1 := by rw [hp1] at hreg; exact hreg
    unfold State.p1Read State.directionSelected State.actionSelected
    rw [e, hk]
  · rw [State.div, State.div, hdiv h4]
  · have e : t.key1 = s.key1 := by rw [hkey.1] at hreg; exact hreg
    rw [e]
  · obtain ⟨hpal, hindex⟩ := hbg h69.1
    rw [hpal, hindex]
  · obtain ⟨hpal, hindex⟩ := hobj h6B.1
    rw [hpal, hindex]
  · rw [hreg]

/-- `io[o]` shows at address `m`: at the register's own address, or where the register selects what is read (R64, R65,
R66, R96, R97). -/
def IoShowsAt (o m : Nat) : Prop :=
  m = 0xFF00 + o ∨ (o = 0x4F ∧ 0x8000 ≤ m ∧ m ≤ 0x9FFF) ∨ (o = 0x50 ∧ m ≤ 0x7FFF) ∨
    (o = 0x68 ∧ m = 0xFF69) ∨ (o = 0x6A ∧ m = 0xFF6B) ∨ (o = 0x70 ∧ 0xD000 ≤ unmirror m ∧ unmirror m ≤ 0xDFFF)

theorem setIo_io_other (s : State) {o p : Nat} (w : Byte) (h : p ≠ o) : (s.setIo o w).io p = s.io p :=
  Memory.read_write_other _ w h

theorem route_setIo {s : State} {x : Word} {o : Nat} (w : Byte) (h : ¬IoShowsAt o x.toNat) :
    route (s.setIo o w) x = route s x := by
  unfold IoShowsAt at h
  unfold route
  refine ite_congr rfl (fun _ => rfl) fun _ => ite_congr rfl (fun hv => ?_) fun _ =>
    ite_congr rfl (fun _ => rfl) fun _ => ite_congr rfl (fun hw => ?_) fun _ => rfl
  · have hvbk : (s.setIo o w).vbk = s.vbk := setIo_io_other s w (by omega)
    rw [State.vramBank, State.vramBank, hvbk, State.setIo_params]
  · have hu := unmirror_wram (n := x.toNat) (by omega) hw
    refine congrArg Target.wram (ite_congr rfl (fun _ => rfl) fun _ => ?_)
    have hsvbk : (s.setIo o w).svbk = s.svbk := setIo_io_other s w (by omega)
    rw [State.wramBank, State.wramBank, hsvbk, State.setIo_params]

theorem ioRead_setIo {s : State} {o p : Nat} (w : Byte) (h : ¬IoShowsAt o (0xFF00 + p)) :
    ioRead (s.setIo o w) p = ioRead s p := by
  unfold IoShowsAt at h
  exact ioRead_congr rfl rfl rfl rfl (setIo_io_other s w (by omega)) (fun _ => rfl)
    (fun _ => ⟨rfl, setIo_io_other s w (by omega)⟩) (fun _ => ⟨rfl, setIo_io_other s w (by omega)⟩)

/-- A store to a register shows where the register does. -/
theorem busRead_setIo {s : State} {x : Word} {o : Nat} (w : Byte) (h : ¬IoShowsAt o x.toNat) :
    busRead (s.setIo o w) x = busRead s x := by
  unfold busRead
  rw [route_setIo w h]
  cases hx : route s x with
  | rom =>
    have hn : x.toNat ≤ 0x7FFF := covers_of_route hx
    have hb : (s.setIo o w).boot = s.boot := setIo_io_other s w (by unfold IoShowsAt at h; omega)
    simp only [State.bootActive, hb]
    rfl
  | io p =>
    obtain ⟨hn, -⟩ := covers_of_route hx
    exact ioRead_setIo w (hn ▸ h)
  | _ => rfl

/-- The Timer and the palette arrays show at DIV, BCPD and OCPD. -/
theorem busRead_withIoSources {s : State} {x : Word} {u : Timer} {bg obj : Memory}
    (hdiv : x.toNat = 0xFF04 → u.divctr = s.timer.divctr) (hbg : x.toNat = 0xFF69 → bg = s.mem.bgpal)
    (hobj : x.toNat = 0xFF6B → obj = s.mem.objpal) :
    busRead { s with timer := u, mem := { s.mem with bgpal := bg, objpal := obj } } x = busRead s x := by
  have hr : route { s with timer := u, mem := { s.mem with bgpal := bg, objpal := obj } } x = route s x := rfl
  unfold busRead
  rw [hr]
  cases hx : route s x with
  | io p =>
    obtain ⟨hn, -⟩ := covers_of_route hx
    exact ioRead_congr rfl rfl rfl rfl rfl (fun h => hdiv (by omega)) (fun h => ⟨hbg (by omega), rfl⟩)
      (fun h => ⟨hobj (by omega), rfl⟩)
  | _ => rfl

/-- OAM DMA shows in OAM only (R83). -/
theorem busRead_oamDma (s : State) (page : Byte) {x : Word} (hapu : inApuRange x = false)
    (hoam : ¬(0xFE00 ≤ x.toNat ∧ x.toNat ≤ 0xFE9F)) : busRead (oamDma s page) x = busRead s x := by
  rw [oamDma_frame]
  generalize (oamDma s page).mem.oam = m
  refine (busRead_host { s with mem.oam := m } _ hapu).trans
    (busRead_withArrays (fun _ _ => rfl) (fun _ _ => rfl) (fun p hx => ?_) (fun _ _ => rfl) (fun _ => rfl))
  obtain ⟨hlo, hhi, -⟩ := covers_of_route hx
  exact absurd ⟨hlo, hhi⟩ hoam

/-- General-purpose DMA shows in video RAM only (R98). -/
theorem busRead_gdma (s : State) (v : Byte) {x : Word} (hapu : inApuRange x = false)
    (hvram : ¬(0x8000 ≤ x.toNat ∧ x.toNat ≤ 0x9FFF)) : busRead (gdma s v) x = busRead s x := by
  rw [gdma_frame]
  generalize (gdma s v).mem.vram = m
  refine (busRead_host { s with mem.vram := m } _ hapu).trans
    (busRead_withArrays (fun p hx => ?_) (fun _ _ => rfl) (fun _ _ => rfl) (fun _ _ => rfl) (fun _ => rfl))
  obtain ⟨hlo, hhi, -⟩ := covers_of_route hx
  exact absurd ⟨hlo, hhi⟩ hvram

/-- What `mayChange` leaves out for a store to the I/O range. -/
theorem not_shows_of_mayChange_io {a x : Word} {o : Nat} (ha : a.toNat = 0xFF00 + o) (h : mayChange a x = false) :
    ¬IoShowsAt o x.toNat ∧ (o = 0x45 → x.toNat ≠ 0xFF41) ∧ (o = 0x46 → ¬(0xFE00 ≤ x.toNat ∧ x.toNat ≤ 0xFE9F)) ∧
      (o = 0x55 → ¬(0x8000 ≤ x.toNat ∧ x.toNat ≤ 0x9FFF)) ∧ (o = 0x69 → x.toNat ≠ 0xFF68) ∧
      (o = 0x6B → x.toNat ≠ 0xFF6A) := by
  simp only [mayChange, ha, Bool.or_eq_false_iff, Bool.and_eq_false_imp, beq_iff_eq, beq_eq_false_iff_ne,
    decide_eq_false_iff_not, and_assoc] at h
  obtain ⟨hcell, -, -, hlyc, hoam, hvbk, hboot, hgdma, hbcps, hbcpd, hocps, hocpd, hsvbk⟩ := h
  have haddr {k : Nat} (e : o = k) : 0xFF00 + o = 0xFF00 + k := congrArg (0xFF00 + ·) e
  refine ⟨?_, fun e => hlyc (haddr e), fun e => hoam (haddr e), fun e => hgdma (haddr e), fun e => hbcpd (haddr e),
    fun e => hocpd (haddr e)⟩
  rintro (hown | ⟨e, hm⟩ | ⟨e, hm⟩ | ⟨e, hm⟩ | ⟨e, hm⟩ | ⟨e, hm⟩)
  · simp [sameCell, hown, ha] at hcell
  · exact hvbk (haddr e) hm
  · exact hboot (haddr e) hm
  · exact hbcps (haddr e) hm
  · exact hocps (haddr e) hm
  · exact hsvbk (haddr e) hm

/-- A store to a register shows where the register does, and where its side effect does (R123). -/
theorem busRead_ioWrite {s : State} {a x : Word} {o : Nat} (v : Byte) (ha : a.toNat = 0xFF00 + o)
    (hapu : inApuRange x = false) (h : mayChange a x = false) : busRead (ioWrite s o v) x = busRead s x := by
  obtain ⟨hown, hlyc, hoam, hgdma, hbcpd, hocpd⟩ := not_shows_of_mayChange_io ha h
  have hreg : x.toNat ≠ 0xFF00 + o := fun e => hown (.inl e)
  have hstore : busRead (ioStore s o v) x = busRead s x := busRead_setIo _ hown
  unfold ioWrite
  dsimp only
  generalize ioStore s o v = t at hstore
  rw [← hstore]
  split
  · -- DIV
    exact busRead_withIoSources (fun e => absurd e hreg) (fun _ => rfl) (fun _ => rfl)
  · -- TAC
    exact busRead_withIoSources (fun _ => rfl) (fun _ => rfl) (fun _ => rfl)
  · -- LYC: the comparison is written to STAT
    exact busRead_setIo _ (by unfold IoShowsAt; omega)
  · -- DMA
    exact busRead_oamDma t v hapu (hoam rfl)
  · -- HDMA5
    split
    · exact busRead_gdma t v hapu (hgdma rfl)
    · rfl
  · -- BCPD: the data, then the index step in BCPS
    split
    · refine (busRead_setIo _ (by unfold IoShowsAt; omega)).trans ?_
      exact busRead_withIoSources (fun _ => rfl) (fun e => absurd e hreg) (fun _ => rfl)
    · rfl
  · -- OCPD, as BCPD
    split
    · refine (busRead_setIo _ (by unfold IoShowsAt; omega)).trans ?_
      exact busRead_withIoSources (fun _ => rfl) (fun _ => rfl) (fun e => absurd e hreg)
    · rfl
  · -- every other register is storage
    rfl

/-- What `mayChange` leaves out for a store to the controller's two windows. -/
theorem route_of_mayChange_controller (s : State) {a x : Word} (h : mayChange a x = false) :
    (route s a = .rom → route s x ≠ .rom ∧ route s x ≠ .eram) ∧ (route s a = .eram → route s x ≠ .eram) := by
  simp only [mayChange, Bool.or_eq_false_iff, Bool.and_eq_false_iff, decide_eq_false_iff_not, and_assoc] at h
  obtain ⟨-, hrom, heram, -⟩ := h
  refine ⟨fun ha => ⟨fun hx => ?_, fun hx => ?_⟩, fun ha hx => ?_⟩ <;>
  · have hca := covers_of_route ha
    have hcx := covers_of_route hx
    simp only [Target.Covers] at hca hcx
    omega

theorem route_ne_of_mayChange (s : State) {a x : Word} (hp : plainRam a = true) (h : mayChange a x = false) :
    route s x ≠ route s a := fun hr => by
  have hcell : sameCell a x = true := by
    rcases (plainRam_iff_route s a).1 hp with ⟨o, ha | ha | ha | ha⟩ | ha <;>
    exact sameCell_of_route_eq hr (by simp [ha]) (by simp [ha]) (by simp [ha])
  simp [mayChange, hcell] at h

/-- A store at `a` shows nowhere but where `mayChange` says. -/
theorem busRead_busStore_of_mayChange (s : State) {a x : Word} (v : Byte) (hapu : inApuRange x = false)
    (h : mayChange a x = false) : busRead (busStore s a v) x = busRead s x := by
  obtain ⟨hrom, heram⟩ := route_of_mayChange_controller s h
  cases ha : route s a with
  | rom =>
    simp only [busStore, ha]
    exact busRead_withController (hrom ha).2 fun hx => absurd hx (hrom ha).1
  | eram =>
    simp only [busStore, ha]
    exact busRead_eramWrite s _ v (heram ha)
  | io o =>
    simp only [busStore, ha]
    exact busRead_ioWrite v (covers_of_route ha).1 hapu h
  | unusable => simp only [busStore, ha]
  | vram | wram | oam | hram | ie =>
    have hp : plainRam a = true := (plainRam_iff_route s a).2 (by simp [ha])
    exact busRead_busStore_plainRam_other v hp (route_ne_of_mayChange s hp h)

/-- The one bus write of `v` at `a`, as the store statements describe it (R62, R123). -/
theorem storedAt_busStore (s : State) (a : Word) (v : Byte) : StoredAt s (busStore s a v) a v :=
  ⟨rfl, rfl, rfl, fun _ hapu h => busRead_busStore_of_mayChange s v hapu h,
    fun hwf hp _ hx => busRead_busStore_plainRam_same v hwf hp (route_eq_of_sameCell s hx)⟩

/-- Neither the registers nor the cycles show on the bus. -/
theorem regsAndStore_withRegs (s : State) (g : Regs) (a : Word) (v : Byte) (n : Nat) :
    RegsAndStore s (((busStore s a v).withRegs g).tick n) g a v n := by
  have h := busStore_busOnly s a v
  exact ⟨rfl, congrArg (· + n) h.cyc, h.keepsControl, h.keepsDevices, storedAt_busStore s a v⟩

/-! ## The shapes of 8-bit loads (R179): each completes, with its frame -/

theorem completes_withRegs {i : Instr} {s : State} {g : Regs} {n : Nat}
    (h : exec i s = finish n (s.withRegs g)) : Completes i s (fun t => OnlyRegs s t g n) :=
  ⟨_, h, onlyRegs_withRegs s g n⟩

theorem completes_loadReg8 {i : Instr} {s : State} {r : Reg8} {a : Word} {n : Nat}
    (h : exec i s = loadReg8 r a n s) :
    Completes i s (fun t => OnlyRegs s t (s.regs.set8 r (busRead s a)) n) :=
  ⟨_, h.trans (loadReg8_eq r a n s), onlyRegs_afterRead s a _ n⟩

theorem completes_loadAccStep {i : Instr} {s : State} {hl : Word} (h : exec i s = loadAccStep hl s) :
    Completes i s (fun t => OnlyRegs s t ({ s.regs with a := busRead s s.regs.hl }.setHl hl) 8) :=
  ⟨_, h.trans (loadAccStep_eq hl s), onlyRegs_afterRead s s.regs.hl _ 8⟩

theorem completes_storeByte {i : Instr} {s : State} {a : Word} {v : Byte} {n : Nat}
    (h : exec i s = storeByte a v n s) (hr : busRefusal s a v = none) :
    Completes i s (fun t => RegsAndStore s t s.regs a v n) := by
  have hself : (busStore s a v).withRegs s.regs = busStore s a v := by rw [← busStore_regs s a v]; rfl
  exact ⟨_, h.trans (storeByte_eq_next.2 ⟨hr, rfl⟩), hself ▸ regsAndStore_withRegs s s.regs a v n⟩

theorem completes_storeAccStep {i : Instr} {s : State} {hl : Word} (h : exec i s = storeAccStep hl s)
    (hr : busRefusal s s.regs.hl s.regs.a = none) :
    Completes i s (fun t => RegsAndStore s t (s.regs.setHl hl) s.regs.hl s.regs.a 8) :=
  ⟨_, h.trans (storeAccStep_eq_next.2 ⟨hr, rfl⟩), regsAndStore_withRegs s _ s.regs.hl s.regs.a 8⟩

/-! ## The obligations -/

/-- Settles O13: both forms replace the registers and report their cycles. -/
theorem registerLoadsWriteOnlyTheirRegister : Obligations.RegisterLoadsWriteOnlyTheirRegister := by
  unfold Obligations.RegisterLoadsWriteOnlyTheirRegister
  exact fun s => ⟨fun r r' => ⟨rfl, completes_withRegs rfl⟩, fun r n => ⟨rfl, completes_withRegs rfl⟩⟩

/-- Settles O14: every load has the shape `loadReg8`, or `loadAccStep` where HL is stepped. -/
theorem memoryLoadsReadTheirAddress : Obligations.MemoryLoadsReadTheirAddress := by
  unfold Obligations.MemoryLoadsReadTheirAddress
  refine fun s => ⟨fun r => ⟨rfl, ?_⟩, ⟨rfl, ?_⟩, ⟨rfl, ?_⟩, fun nn => ⟨rfl, ?_⟩, ⟨rfl, ?_⟩, fun n => ⟨rfl, ?_⟩,
    ⟨rfl, ?_⟩, ⟨rfl, ?_⟩⟩
  case refine_1 => exact completes_loadReg8 rfl
  case refine_2 | refine_3 | refine_4 | refine_5 | refine_6 => exact completes_loadReg8 (r := .a) rfl
  case refine_7 | refine_8 => exact completes_loadAccStep rfl

/-- Settles O15: every store has the shape `storeByte`, or `storeAccStep` where HL is stepped; what the write leaves
unchanged is `storedAt_busStore`. -/
theorem byteStoresWriteTheirAddress : Obligations.ByteStoresWriteTheirAddress := by
  unfold Obligations.ByteStoresWriteTheirAddress
  refine fun s => ⟨fun r => ⟨rfl, fun hr => ?_⟩, fun n => ⟨rfl, fun hr => ?_⟩, ⟨rfl, fun hr => ?_⟩,
    ⟨rfl, fun hr => ?_⟩, fun nn => ⟨rfl, fun hr => ?_⟩, ⟨rfl, fun hr => ?_⟩, fun n => ⟨rfl, fun hr => ?_⟩,
    ⟨rfl, fun hr => ?_⟩, ⟨rfl, fun hr => ?_⟩⟩
  case refine_8 | refine_9 => exact completes_storeAccStep rfl hr
  all_goals exact completes_storeByte rfl hr

end Sys2Proof.Machine

/-! The 16-bit loads and the stack (41_load16_stack.md R180 to R186), with `ADD SP,e` (43_alu16.md R213): the shapes
of their meanings, each with its frame. -/

namespace Sys2Proof.Machine

/-! ## Completed instructions and the registers they leave -/

theorem Completes.imp {i : Instr} {s : State} {P Q : State → Prop} (h : Completes i s P) (hpq : ∀ t, P t → Q t) :
    Completes i s Q := by
  obtain ⟨t, hexec, ht⟩ := h
  exact ⟨t, hexec, hpq t ht⟩

theorem OnlyRegs.regs_eq {s t : State} {g : Regs} {n : Nat} (h : OnlyRegs s t g n) : t.regs = g := h.1

/-! ## The bus's two writes of a word (R120) -/

/-- A bus write depends on no register and changes none. -/
theorem busStore_withRegs (s : State) (g : Regs) (a : Word) (v : Byte) :
    busStore (s.withRegs g) a v = (busStore s a v).withRegs g := by
  have h := busStore_busOnly s a v
  calc busStore (s.withRegs g) a v
    _ = (busStore s a v).withCpu g s.ime s.run s.cyc := busStore_withCpu s g s.ime s.run s.cyc a v
    _ = (busStore s a v).withRegs g := by rw [← h.ime, ← h.run, ← h.cyc]; rfl

theorem acceptsWord_withRegs (s : State) (g : Regs) (a v : Word) :
    acceptsWord (s.withRegs g) a v ↔ acceptsWord s a v := by
  unfold acceptsWord
  rw [busStore_withRegs]
  rfl

/-- As `regsAndStore_withRegs`, for both bytes of a word. -/
theorem regsAndWord_withRegs (s : State) (g : Regs) (a v : Word) (n : Nat) :
    RegsAndWord s (((busStore (busStore s a (loByte v)) (a + 1#16) (hiByte v)).withRegs g).tick n) g a v n := by
  have h := (busStore_busOnly s a (loByte v)).trans (busStore_busOnly _ (a + 1#16) (hiByte v))
  exact ⟨rfl, congrArg (· + n) h.cyc, h.keepsControl, h.keepsDevices, storedAt_busStore s a (loByte v),
    storedAt_busStore _ (a + 1#16) (hiByte v)⟩

/-- Replace the registers, then store a word: `LD (nn),SP`, which keeps them, and the pushes, which lower SP first. -/
theorem completes_storeWord {i : Instr} {s : State} {g : Regs} {a v : Word} {n : Nat}
    (h : exec i s = andThen (busWrite16 (s.withRegs g) a v) (finish n)) (ha : acceptsWord s a v) :
    Completes i s (fun t => RegsAndWord s t g a v n) := by
  have hw := busWrite16_eq_next.2 ⟨(acceptsWord_withRegs s g a v).2 ha, rfl⟩
  rw [busStore_withRegs, busStore_withRegs] at hw
  exact ⟨_, h.trans (by rw [hw]; rfl), regsAndWord_withRegs s g a v n⟩

/-! ## Pops (R185, R186) -/

/-- A pop leaves its caller the registers with SP raised; what the instruction makes of them is all that changes. -/
theorem completes_pop {i : Instr} {s : State} {write : Regs → Regs} {n : Nat}
    (h : exec i s = finish n ((afterPop s).withRegs (write (afterPop s).regs))) :
    Completes i s (fun t => OnlyRegs s t (write { s.regs with sp := s.regs.sp + 2#16 }) n) := by
  rw [afterPop_regs] at h
  exact ⟨_, h, onlyRegs_afterRead16 s s.regs.sp _ n⟩

/-! ## SP plus a displacement (R183, R213) -/

theorem hasFlags_pack (z n h c : Bool) : HasFlags (packFlags z n h c) z n h c :=
  ⟨flagZ_pack z n h c, flagN_pack z n h c, flagH_pack z n h c, flagC_pack z n h c, packFlags_low z n h c⟩

/-- H and C are the carries out of bits 3 and 7 of the low byte plus the unsigned displacement byte. -/
theorem hasFlags_addDisplacement (sp : Word) (e : Byte) : HasFlags (addDisplacement sp e).2 false false
    (decide ((sp &&& 0x000F#16).toNat + (e &&& 0x0F#8).toNat > 0x0F))
    (decide ((sp &&& 0x00FF#16).toNat + e.toNat > 0xFF)) := by
  rw [wordNibble_toNat, nibble_toNat, byte_toNat]
  exact hasFlags_pack ..

/-! ## The obligations -/

/-- Settles O16: the two register loads replace the registers; `LD (nn),SP` stores a word and keeps them. -/
theorem wordLoadsAndStoreOfSp : Obligations.WordLoadsAndStoreOfSp := by
  unfold Obligations.WordLoadsAndStoreOfSp
  refine fun s => ⟨fun rr nn => ⟨rfl, ?_⟩, ⟨rfl, completes_withRegs rfl⟩, fun nn => ⟨rfl, fun ha => ?_⟩⟩
  · have hload : Completes (.ldRrNn rr nn) s (fun t => OnlyRegs s t (s.regs.set16 rr nn) 12) := completes_withRegs rfl
    exact hload.imp fun t ht => ⟨ht, by rw [ht.regs_eq, Regs.get16_set16]⟩
  · exact completes_storeWord rfl ha

/-- Settles O17: both forms take their sum and F from `addDisplacement`. -/
theorem spPlusDisplacement : Obligations.SpPlusDisplacement := by
  unfold Obligations.SpPlusDisplacement
  intro s e
  have hflags := hasFlags_addDisplacement s.regs.sp e
  exact ⟨⟨rfl, _, rfl, onlyRegs_withRegs s _ 12, hflags⟩, ⟨rfl, _, rfl, onlyRegs_withRegs s _ 16, hflags⟩⟩

/-- Settles O18: a push stores the pair as a word at the lowered SP; a pop writes the popped word to the pair, for
AF through the mask that clears bits 3 to 0 of F. -/
theorem pushAndPop : Obligations.PushAndPop := by
  unfold Obligations.PushAndPop
  refine fun s => ⟨fun rr => ⟨rfl, fun ha => ?_⟩, fun rr hrr => ⟨rfl, ?_⟩, ⟨rfl, ?_⟩⟩
  · exact completes_storeWord rfl ha
  · have hpop : Completes (.pop rr) s (fun t =>
        OnlyRegs s t ({ s.regs with sp := s.regs.sp + 2#16 }.set16S rr (popWord s)) 12) :=
      completes_pop (write := (Regs.set16S · rr (popWord s))) rfl
    exact hpop.imp fun t ht => ⟨ht, by rw [ht.regs_eq, Regs.get16S_set16S _ _ hrr, popWord]⟩
  · exact completes_pop (write := (Regs.setAf · (popWord s))) rfl

end Sys2Proof.Machine

/-! The 8-bit arithmetic and logic (42_alu8.md R189 to R205): the shapes of the accumulator operations and of
read-modify-write, each with its frame, and the flags of each operation. -/

namespace Sys2Proof.Machine

/-! ## F as the completed state shows it -/

/-- F is named by its flags, and the frame by the F that is there afterwards. -/
theorem OnlyRegs.withFlags {s t : State} {g : Regs} {f : Byte} {k : Nat} {z n h c : Bool}
    (ht : OnlyRegs s t { g with f := f } k) (hf : HasFlags f z n h c) :
    OnlyRegs s t { g with f := t.regs.f } k ∧ HasFlags t.regs.f z n h c := by
  have hreg : t.regs.f = f := congrArg Regs.f ht.regs_eq
  rw [hreg]
  exact ⟨ht, hf⟩

theorem RegsAndStore.regs_eq {s t : State} {g : Regs} {a : Word} {v : Byte} {n : Nat}
    (h : RegsAndStore s t g a v n) : t.regs = g := h.1

/-- As `OnlyRegs.withFlags`, with a byte stored. -/
theorem RegsAndStore.withFlags {s t : State} {g : Regs} {f : Byte} {a : Word} {v : Byte} {k : Nat} {z n h c : Bool}
    (ht : RegsAndStore s t { g with f := f } a v k) (hf : HasFlags f z n h c) :
    RegsAndStore s t { g with f := t.regs.f } a v k ∧ HasFlags t.regs.f z n h c := by
  have hreg : t.regs.f = f := congrArg Regs.f ht.regs_eq
  rw [hreg]
  exact ⟨ht, hf⟩

/-! ## A store at the address just read (R199) -/

/-- A store to the APU range is storage (20_memory.md R84). -/
theorem busStore_apu (s : State) {a : Word} (v : Byte) (h : inApuRange a = true) :
    busStore s a v = ioStore s (a.toNat - 0xFF00) v := by
  have ha : 0xFF10 ≤ a.toNat ∧ a.toNat ≤ 0xFF3F := of_decide_eq_true h
  have hroute : route s a = .io (a.toNat - 0xFF00) := by
    simp (disch := omega) only [route, if_pos, if_neg]
  simp only [busStore, hroute, ioWrite]
  split
  case h_8 => rfl -- no register with a side effect
  all_goals omega

/-- The read counts a draw in the APU range, where the store is storage, and changes nothing elsewhere: the store is
the store without the read. -/
theorem storedAt_afterRead (s : State) (a : Word) (v : Byte) : StoredAt s (busStore (afterRead s a) a v) a v := by
  cases hapu : inApuRange a with
  | false =>
    have hread : afterRead s a = s := by simp only [afterRead, hapu, Bool.false_eq_true, if_false]
    rw [hread]
    exact storedAt_busStore s a v
  | true =>
    have hstore : busStore (afterRead s a) a v = { busStore s a v with host := (afterRead s a).host } := by
      simp only [busStore_apu _ v hapu, afterRead, hapu, if_true]
      rfl
    obtain ⟨-, -, -, hother, -⟩ := storedAt_busStore s a v
    have hplain : plainRam a = false := by
      simp only [inApuRange, plainRam, decide_eq_true_iff, decide_eq_false_iff_not] at hapu ⊢
      omega
    rw [hstore]
    exact ⟨rfl, rfl, rfl, fun x hx hm => (busRead_host _ _ hx).trans (hother x hx hm),
      fun _ hp => absurd (hplain.symm.trans hp) Bool.false_ne_true⟩

theorem regsAndStore_afterRead (s : State) (g : Regs) (a : Word) (v : Byte) (n : Nat) :
    RegsAndStore s (((busStore (afterRead s a) a v).withRegs g).tick n) g a v n := by
  have h := (afterRead_busOnly s a).trans (busStore_busOnly (afterRead s a) a v)
  exact ⟨rfl, congrArg (· + n) h.cyc, h.keepsControl, h.keepsDevices, storedAt_afterRead s a v⟩

/-! ## The shapes of 8-bit arithmetic: each completes, with its frame -/

theorem completes_modifyReg8 {i : Instr} {s : State} {r : Reg8} {n : Nat} (op : Byte → Byte → Byte × Byte)
    (h : exec i s = modifyReg8 op r n s) :
    Completes i s (fun t => OnlyRegs s t { s.regs.set8 r (op (s.regs.get8 r) s.regs.f).1 with
      f := (op (s.regs.get8 r) s.regs.f).2 } n) :=
  ⟨_, h.trans (modifyReg8_eq op r n s), onlyRegs_withRegs s _ n⟩

theorem completes_modifyHl {i : Instr} {s : State} {n : Nat} (op : Byte → Byte → Byte × Byte)
    (h : exec i s = modifyHl op n s) (hr : busRefusal s s.regs.hl (op (busRead s s.regs.hl) s.regs.f).1 = none) :
    Completes i s (fun t => RegsAndStore s t { s.regs with f := (op (busRead s s.regs.hl) s.regs.f).2 } s.regs.hl
      (op (busRead s s.regs.hl) s.regs.f).1 n) := by
  have hnext := modifyHl_eq_next (n := n).2 ⟨hr, rfl⟩
  rw [State.setF, busStore_withRegs, afterRead_regs] at hnext
  exact ⟨_, h.trans hnext, regsAndStore_afterRead s _ s.regs.hl _ n⟩

/-- An accumulator operation writes its result and its flags in each of its three forms (R189). -/
theorem threeForms_accumulate {reg : Reg8 → Instr} {mem : Instr} {imm : Byte → Instr} {s : State}
    {P : Byte → Nat → State → Prop} (op : Byte → Byte → Byte → Byte × Byte)
    (hreg : ∀ r, exec (reg r) s = accumulate op (s.reg8 r) 4 s) (hmem : exec mem s = accumulateHl op s)
    (himm : ∀ n, exec (imm n) s = accumulate op n 8 s)
    (hP : ∀ b k t, t.regs.a = (op s.regs.a b s.regs.f).1 → t.regs.f = (op s.regs.a b s.regs.f).2 →
      OnlyRegs s t { s.regs with a := (op s.regs.a b s.regs.f).1, f := t.regs.f } k → P b k t) :
    ThreeForms reg mem imm s P :=
  ⟨fun r => ⟨_, (hreg r).trans (accumulate_eq ..), hP _ _ _ rfl rfl (onlyRegs_withRegs s _ 4)⟩,
    ⟨_, hmem.trans (accumulateHl_eq ..), hP _ _ _ rfl rfl (onlyRegs_afterRead s s.regs.hl _ 8)⟩,
    fun n => ⟨_, (himm n).trans (accumulate_eq ..), hP _ _ _ rfl rfl (onlyRegs_withRegs s _ 8)⟩⟩

/-! ## The flags of each operation -/

/-- A test of the low nibble, in the two spellings. -/
theorem nibble_beq (v : Byte) {k : Nat} (hk : k < 16) :
    (v &&& 0x0F#8 == BitVec.ofNat 8 k) = decide (v.toNat % 16 = k) := by
  have h : v &&& 0x0F#8 = BitVec.ofNat 8 k ↔ v.toNat % 16 = k := by
    rw [← BitVec.toNat_inj, nibble_toNat, BitVec.toNat_ofNat, Nat.mod_eq_of_lt (by omega : k < 2 ^ 8)]
  exact decide_eq_decide.2 h

theorem hasFlags_addWithCarry (a b : Byte) (c : Nat) :
    HasFlags (addWithCarry a b c).2 ((addWithCarry a b c).1 == 0#8) false
      (decide ((a &&& 0x0F#8).toNat + (b &&& 0x0F#8).toNat + c > 0x0F)) (decide (a.toNat + b.toNat + c > 0xFF)) := by
  rw [nibble_toNat, nibble_toNat]
  exact hasFlags_pack ..

theorem hasFlags_subWithBorrow (a b : Byte) (c : Nat) :
    HasFlags (subWithBorrow a b c).2 ((subWithBorrow a b c).1 == 0#8) true
      (decide ((a &&& 0x0F#8).toNat < (b &&& 0x0F#8).toNat + c)) (decide (a.toNat < b.toNat + c)) := by
  rw [nibble_toNat, nibble_toNat]
  exact hasFlags_pack ..

/-- The difference narrowed once is the difference of bytes. -/
theorem subWithBorrow_fst (a b : Byte) (c : Nat) : (subWithBorrow a b c).1 = a - b - BitVec.ofNat 8 c := by
  simp only [subWithBorrow, Int.sub_eq_add_neg, BitVec.sub_eq_add_neg, BitVec.ofInt_add, BitVec.ofInt_neg,
    BitVec.ofInt_natCast, BitVec.ofNat_toNat, BitVec.setWidth_eq]

theorem aluSub_fst (a b f : Byte) : (aluSub a b f).1 = a - b := by
  rw [aluSub, subWithBorrow_fst]
  exact BitVec.sub_zero _

/-- The zero flag of a comparison says that the operands are equal. -/
theorem sub_beq_zero (a b : Byte) : (a - b == 0#8) = (a == b) :=
  decide_eq_decide.2 (by rw [BitVec.sub_eq_iff_eq_add, BitVec.zero_add])

theorem hasFlags_incByte (v f : Byte) :
    HasFlags (incByte v f).2 (v + 1#8 == 0#8) false (v &&& 0x0F#8 == 0x0F#8) (flagC f) := by
  rw [nibble_beq v (by decide)]
  exact hasFlags_pack ..

theorem hasFlags_decByte (v f : Byte) :
    HasFlags (decByte v f).2 (v - 1#8 == 0#8) true (v &&& 0x0F#8 == 0x00#8) (flagC f) := by
  rw [nibble_beq v (by decide)]
  exact hasFlags_pack ..

/-! ## Decimal adjustment (R202) -/

/-- The high adjustment, 0x60, leaves the low nibble. -/
theorem nibble_add_0x60 (a : Byte) : (a + 0x60#8) &&& 0x0F#8 = a &&& 0x0F#8 := by
  apply BitVec.eq_of_toNat_eq
  rw [nibble_toNat, nibble_toNat, BitVec.toNat_add, BitVec.toNat_ofNat]
  omega

/-- After a subtraction the two adjustments follow C and H alone. -/
theorem daaByte_of_sub {a f : Byte} (hn : flagN f = true) :
    let a1 := if flagC f then a - 0x60#8 else a
    let a2 := if flagH f then a1 - 0x06#8 else a1
    daaByte a f = (a2, packFlags (a2 == 0#8) true false (flagC f)) := by
  cases hc : flagC f <;> cases hh : flagH f <;> simp [daaByte, hn, hc, hh]

/-- After an addition the low adjustment may look at the nibble before or after the high one. -/
theorem daaByte_of_add {a f : Byte} (hn : flagN f = false) :
    let high := flagC f || decide (a.toNat > 0x99)
    let a1 := if high then a + 0x60#8 else a
    let a2 := if flagH f || decide ((a1 &&& 0x0F#8).toNat > 0x09) then a1 + 0x06#8 else a1
    daaByte a f = (a2, packFlags (a2 == 0#8) false false high) := by
  intro high a1 a2
  have hnibble : a1 &&& 0x0F#8 = a &&& 0x0F#8 := by
    cases hh : high <;> simp only [a1, hh, if_true, Bool.false_eq_true, if_false, nibble_add_0x60]
  have ha2 : a + (if high then 0x60#8 else 0#8) +
      (if flagH f || decide (a.toNat % 16 > 0x09) then 0x06#8 else 0#8) = a2 := by
    simp only [a2, hnibble, nibble_toNat, a1]
    cases high <;> cases flagH f || decide (a.toNat % 16 > 0x09) <;> simp
  simp only [daaByte, hn, Bool.not_false, Bool.true_and, Bool.false_eq_true, if_false, ← ha2, high]

/-! ## Complement (R203) -/

/-- `CPL` on a byte, with the complement in place of the model's exclusive or with 0xFF. -/
def cplByte (a f : Byte) : Byte × Byte := (~~~a, packFlags (flagZ f) true true (flagC f))

theorem exec_cpl_eq (s : State) : exec .cpl s = modifyReg8 cplByte .a 4 s := by
  have hxor : ∀ a : Byte, a ^^^ 0xFF#8 = ~~~a := fun _ => BitVec.xor_allOnes
  change execCpl s = _
  simp only [execCpl, modifyReg8, cplByte, hxor]

/-! ## The obligations -/

/-- Settles O20: F is `hasFlags_addWithCarry`, with no carry in and with C. -/
theorem addAndAdcResults : Obligations.AddAndAdcResults := by
  unfold Obligations.AddAndAdcResults
  refine fun s => ⟨⟨fun _ => rfl, rfl, fun _ => rfl⟩, ⟨fun _ => rfl, rfl, fun _ => rfl⟩,
    threeForms_accumulate aluAdd (fun _ => rfl) rfl (fun _ => rfl) fun b k t ha hf ht => ⟨ht, ?_⟩,
    threeForms_accumulate aluAdc (fun _ => rfl) rfl (fun _ => rfl) fun b k t ha hf ht => ⟨ht, ?_⟩⟩
  all_goals
    rw [ha, hf]
    exact hasFlags_addWithCarry ..

/-- Settles O21: the difference is `subWithBorrow_fst` and F is `hasFlags_subWithBorrow`; `CP` takes F alone. -/
theorem subSbcAndCpResults : Obligations.SubSbcAndCpResults := by
  unfold Obligations.SubSbcAndCpResults
  refine fun s => ⟨⟨fun _ => rfl, rfl, fun _ => rfl⟩, ⟨fun _ => rfl, rfl, fun _ => rfl⟩,
    ⟨fun _ => rfl, rfl, fun _ => rfl⟩,
    threeForms_accumulate aluSub (fun _ => rfl) rfl (fun _ => rfl) fun b k t ha hf ht => ⟨?_, ?_⟩,
    threeForms_accumulate aluSbc (fun _ => rfl) rfl (fun _ => rfl) fun b k t ha hf ht => ⟨?_, ?_⟩,
    threeForms_accumulate aluCp (fun _ => rfl) rfl (fun _ => rfl) fun b k t _ hf ht => ⟨ht, ?_⟩⟩
  · rw [← aluSub_fst s.regs.a b s.regs.f]
    exact ht
  · rw [ha, hf]
    exact hasFlags_subWithBorrow ..
  · rw [← subWithBorrow_fst]
    exact ht
  · rw [ha, hf]
    exact hasFlags_subWithBorrow ..
  · rw [hf, ← sub_beq_zero]
    exact aluSub_fst s.regs.a b s.regs.f ▸ hasFlags_subWithBorrow ..

/-- Settles O22: each operation packs its flags as they are stated. -/
theorem logicResults : Obligations.LogicResults := by
  unfold Obligations.LogicResults
  refine fun s => ⟨⟨fun _ => rfl, rfl, fun _ => rfl⟩, ⟨fun _ => rfl, rfl, fun _ => rfl⟩,
    ⟨fun _ => rfl, rfl, fun _ => rfl⟩,
    threeForms_accumulate aluAnd (fun _ => rfl) rfl (fun _ => rfl) fun b k t ha hf ht => ⟨ht, ?_⟩,
    threeForms_accumulate aluXor (fun _ => rfl) rfl (fun _ => rfl) fun b k t ha hf ht => ⟨ht, ?_⟩,
    threeForms_accumulate aluOr (fun _ => rfl) rfl (fun _ => rfl) fun b k t ha hf ht => ⟨ht, ?_⟩⟩
  all_goals
    rw [ha, hf]
    exact hasFlags_pack ..

/-- Settles O23: the register forms are `modifyReg8` and the forms on the byte at HL are `modifyHl`, of one operation
each. -/
theorem incAndDecKeepCarry : Obligations.IncAndDecKeepCarry := by
  unfold Obligations.IncAndDecKeepCarry
  refine fun s => ⟨fun r => ⟨rfl, ?_⟩, fun r => ⟨rfl, ?_⟩, ⟨rfl, fun hr => ?_⟩, ⟨rfl, fun hr => ?_⟩⟩
  · exact (completes_modifyReg8 incByte rfl).imp fun t ht => ht.withFlags (hasFlags_incByte ..)
  · exact (completes_modifyReg8 decByte rfl).imp fun t ht => ht.withFlags (hasFlags_decByte ..)
  · exact (completes_modifyHl incByte rfl hr).imp fun t ht => ht.withFlags (hasFlags_incByte ..)
  · exact (completes_modifyHl decByte rfl hr).imp fun t ht => ht.withFlags (hasFlags_decByte ..)

/-- Settles O24: `DAA` by the case of N; the other three pack their flags as they are stated. -/
theorem daaCplScfAndCcf : Obligations.DaaCplScfAndCcf := by
  unfold Obligations.DaaCplScfAndCcf
  refine fun s => ⟨⟨rfl, ?_⟩, ⟨rfl, ?_⟩, ⟨rfl, ?_⟩, ⟨rfl, ?_⟩⟩
  · have hdaa : Completes .daa s (fun t => OnlyRegs s t { s.regs with
        a := (daaByte s.regs.a s.regs.f).1
        f := (daaByte s.regs.a s.regs.f).2 } 4) := completes_modifyReg8 (r := .a) daaByte rfl
    cases hn : flagN s.regs.f with
    | true =>
      rw [daaByte_of_sub hn] at hdaa
      exact hdaa.imp fun t ht => ht.withFlags (g := { s.regs with a := _ }) (hasFlags_pack ..)
    | false =>
      rw [daaByte_of_add hn] at hdaa
      exact hdaa.imp fun t ht => ht.withFlags (g := { s.regs with a := _ }) (hasFlags_pack ..)
  · exact (completes_modifyReg8 cplByte (exec_cpl_eq s)).imp fun t ht => ht.withFlags (hasFlags_pack ..)
  · exact (completes_withRegs rfl).imp fun t ht => ht.withFlags (hasFlags_pack ..)
  · exact (completes_withRegs rfl).imp fun t ht => ht.withFlags (hasFlags_pack ..)

end Sys2Proof.Machine

/-! The 16-bit arithmetic (43_alu16.md R210 to R212): a pair replaced, with its frame, and the flags of `ADD HL,rr`. -/

namespace Sys2Proof.Machine

/-! ## A pair replaced: `INC rr` and `DEC rr` (R211, R212) -/

/-- The pair reads back what was written, and its halves (or SP) are all that changes: no flag does. -/
theorem completes_setReg16 {i : Instr} {s : State} {rr : Reg16} {v : Word} {n : Nat}
    (h : exec i s = finish n (s.setReg16 rr v)) :
    Completes i s (fun t => OnlyRegs s t (s.regs.set16 rr v) n ∧ t.regs.get16 rr = v) :=
  (completes_withRegs h).imp fun _ ht => ⟨ht, by rw [ht.regs_eq, Regs.get16_set16]⟩

/-! ## `ADD HL,rr` (R210) -/

/-- Z is kept; H and C are the carries out of bits 11 and 15. -/
theorem hasFlags_addWord (a b : Word) (f : Byte) : HasFlags (addWord a b f).2 (flagZ f) false
    (decide ((a &&& 0x0FFF#16).toNat + (b &&& 0x0FFF#16).toNat > 0x0FFF)) (decide (a.toNat + b.toNat > 0xFFFF)) := by
  rw [low12_toNat, low12_toNat]
  exact hasFlags_pack ..

/-- HL takes the sum and F the flags of `addWord`; F is no half of HL, so the order of the two writes is not seen. -/
theorem completes_addHlRr (s : State) (rr : Reg16) :
    Completes (.addHlRr rr) s (fun t => OnlyRegs s t { s.regs.setHl (s.regs.hl + s.regs.get16 rr) with
      f := (addWord s.regs.hl (s.regs.get16 rr) s.regs.f).2 } 8) :=
  completes_withRegs rfl

/-! ## The obligations -/

/-- Settles O25: `ADD HL,rr` is `completes_addHlRr` with the flags of `hasFlags_addWord`; `INC rr` and `DEC rr` replace
their pair. -/
theorem wordArithmetic : Obligations.WordArithmetic := by
  unfold Obligations.WordArithmetic
  refine fun s rr => ⟨⟨rfl, ?_⟩, ⟨rfl, completes_setReg16 rfl⟩, ⟨rfl, completes_setReg16 rfl⟩⟩
  exact (completes_addHlRr s rr).imp fun t ht => ht.withFlags (hasFlags_addWord ..)

end Sys2Proof.Machine

/-! The rotates, shifts and bit operations (44_rotate_shift_bit.md R219 to R234): the model's shifts and ORs of bytes as
arithmetic on numbers, and the shape of each group of instructions, with its frame. -/

namespace Sys2Proof.Machine

/-! ## Shifts and ORs of bytes as arithmetic -/

theorem shiftLeft_eq_ofNat (v : Byte) (n : Nat) : v <<< n = BitVec.ofNat 8 (2 ^ n * v.toNat) := by
  apply BitVec.eq_of_toNat_eq
  rw [BitVec.toNat_shiftLeft, BitVec.toNat_ofNat, Nat.shiftLeft_eq, Nat.mul_comm]

theorem ushiftRight_eq_ofNat (v : Byte) (n : Nat) : v >>> n = BitVec.ofNat 8 (v.toNat / 2 ^ n) := by
  rw [← Nat.shiftRight_eq_div_pow, ← BitVec.toNat_ushiftRight, BitVec.ofNat_toNat, BitVec.setWidth_eq]

/-- An OR of a number's high part with a low part is their sum. -/
theorem ofNat_or_eq_add {n low : Nat} (h : low < 2 ^ n) (high : Nat) :
    BitVec.ofNat 8 (2 ^ n * high) ||| BitVec.ofNat 8 low = BitVec.ofNat 8 (2 ^ n * high + low) := by
  rw [Nat.two_pow_add_eq_or_of_lt h, BitVec.ofNat_or]

theorem bit_lt_two (b : Bool) : bit b < 2 := by cases b <;> decide

/-- A left shift by one with the bit `c` entering at the bottom. -/
theorem shiftLeft_one_or (v : Byte) (c : Bool) :
    v <<< 1 ||| BitVec.ofNat 8 (bit c) = BitVec.ofNat 8 (2 * v.toNat + bit c) := by
  rw [shiftLeft_eq_ofNat]
  exact ofNat_or_eq_add (n := 1) (bit_lt_two c) v.toNat

/-- A right shift by one with the bit `c` entering at the top. -/
theorem ushiftRight_one_or (v : Byte) (c : Bool) :
    v >>> 1 ||| BitVec.ofNat 8 (bit c * 0x80) = BitVec.ofNat 8 (v.toNat / 2 + 128 * bit c) := by
  have hlow : v.toNat / 2 < 2 ^ 7 := by have := v.isLt; omega
  rw [ushiftRight_eq_ofNat, BitVec.or_comm, Nat.mul_comm, Nat.add_comm]
  exact ofNat_or_eq_add hlow (bit c)

/-! ## The bit shifted out -/

theorem getLsbD_seven_eq_decide (v : Byte) : v.getLsbD 7 = decide (128 ≤ v.toNat) :=
  (BitVec.msb_eq_getLsbD_last v).symm.trans (BitVec.msb_eq_decide v)

theorem getLsbD_zero_eq_decide (v : Byte) : v.getLsbD 0 = decide (v.toNat % 2 = 1) := Nat.testBit_zero v.toNat

/-- Bit 7, moved to bit 0. -/
theorem ushiftRight_seven (v : Byte) : v >>> 7 = BitVec.ofNat 8 (bit (v.getLsbD 7)) := by
  have hbit : v.toNat / 2 ^ 7 = bit (v.getLsbD 7) := by
    have := v.isLt
    simp only [getLsbD_seven_eq_decide, bit, decide_eq_true_eq]
    split <;> omega
  rw [ushiftRight_eq_ofNat, hbit]

/-- Bit 0, moved to bit 7. -/
theorem shiftLeft_seven (v : Byte) : v <<< 7 = BitVec.ofNat 8 (bit (v.getLsbD 0) * 0x80) := by
  have hbit : bit (v.getLsbD 0) = v.toNat % 2 := by
    simp only [getLsbD_zero_eq_decide, bit, decide_eq_true_eq]
    split <;> omega
  apply BitVec.eq_of_toNat_eq
  rw [shiftLeft_eq_ofNat, hbit, BitVec.toNat_ofNat, BitVec.toNat_ofNat]
  omega

/-- Bit 7, kept in place. -/
theorem and_0x80 (v : Byte) : v &&& 0x80#8 = BitVec.ofNat 8 (bit (v.getLsbD 7) * 0x80) := by
  have hand : v &&& 0x80#8 = if v.getLsbD 7 = true then 0x80#8 else 0#8 := BitVec.and_twoPow v 7
  rw [hand]
  cases v.getLsbD 7 <;> rfl

/-- The two nibbles exchanged. -/
theorem swapNibbles_eq_ofNat (v : Byte) :
    v <<< 4 ||| v >>> 4 = BitVec.ofNat 8 (v.toNat % 16 * 16 + v.toNat / 16) := by
  have hlow : v.toNat / 2 ^ 4 < 2 ^ 4 := by have := v.isLt; omega
  rw [shiftLeft_eq_ofNat, ushiftRight_eq_ofNat, ofNat_or_eq_add hlow]
  apply BitVec.eq_of_toNat_eq
  rw [BitVec.toNat_ofNat, BitVec.toNat_ofNat]
  omega

/-- Each rotate and shift on bytes is the arithmetic of R224 to R231, narrowed once. -/
theorem rotate_eq_arith (op : Rot) (v : Byte) (c : Bool) :
    rotate op v c = (BitVec.ofNat 8 (rotateArith op v.toNat c).1, (rotateArith op v.toNat c).2) := by
  simp only [rotateArith, ← getLsbD_seven_eq_decide, ← getLsbD_zero_eq_decide]
  cases op <;> refine Prod.ext ?_ rfl <;> simp only [rotate]
  case rlc => rw [ushiftRight_seven, shiftLeft_one_or]
  case rrc => rw [shiftLeft_seven, ushiftRight_one_or]
  case rl => exact shiftLeft_one_or v c
  case rr => exact ushiftRight_one_or v c
  case sla => exact shiftLeft_eq_ofNat v 1
  case sra => rw [and_0x80, ushiftRight_one_or]
  case swap => exact swapNibbles_eq_ofNat v
  case srl => exact ushiftRight_eq_ofNat v 1

/-! ## The CB-table rotates and shifts (R219) -/

theorem exec_rotateReg (op : Rot) (r : Reg8) (s : State) :
    exec (rotateReg op r) s = modifyReg8 (rotateFlags op) r 8 s := by cases op <;> rfl

theorem exec_rotateHl (op : Rot) (s : State) : exec (rotateHl op) s = modifyHl (rotateFlags op) 16 s := by
  cases op <;> rfl

theorem encode_rotateReg (op : Rot) (r : Reg8) :
    encode (rotateReg op r) = [0xCB#8, opcode 0 (rotateCode op) r.code] := by cases op <;> rfl

theorem encode_rotateHl (op : Rot) : encode (rotateHl op) = [0xCB#8, opcode 0 (rotateCode op) 6] := by
  cases op <;> rfl

theorem rotateFlags_fst (op : Rot) (v f : Byte) :
    (rotateFlags op v f).1 = BitVec.ofNat 8 (rotateArith op v.toNat (flagC f)).1 := by
  rw [rotateFlags, rotate_eq_arith]

theorem hasFlags_rotateFlags (op : Rot) (v f : Byte) : HasFlags (rotateFlags op v f).2
    ((rotateFlags op v f).1 == 0#8) false false (rotateArith op v.toNat (flagC f)).2 := by
  rw [rotateFlags, rotate_eq_arith]
  exact hasFlags_pack ..

/-! ## The accumulator rotates (R220 to R223) -/

theorem rotateAcc_fst (op : Rot) (v f : Byte) :
    (rotateAcc op v f).1 = BitVec.ofNat 8 (rotateArith op v.toNat (flagC f)).1 := by
  rw [rotateAcc, rotate_eq_arith]

theorem hasFlags_rotateAcc (op : Rot) (v f : Byte) :
    HasFlags (rotateAcc op v f).2 false false false (rotateArith op v.toNat (flagC f)).2 := by
  rw [rotateAcc, rotate_eq_arith]
  exact hasFlags_pack ..

theorem completes_rotateAcc {i : Instr} {s : State} {op : Rot} (h : exec i s = modifyReg8 (rotateAcc op) .a 4 s) :
    Completes i s (fun t =>
      OnlyRegs s t { s.regs with
        a := BitVec.ofNat 8 (rotateArith op s.regs.a.toNat (flagC s.regs.f)).1
        f := t.regs.f } 4 ∧
      HasFlags t.regs.f false false false (rotateArith op s.regs.a.toNat (flagC s.regs.f)).2) := by
  rw [← rotateAcc_fst]
  exact (completes_modifyReg8 (r := .a) (rotateAcc op) h).imp fun t ht =>
    ht.withFlags (g := { s.regs with a := _ }) (hasFlags_rotateAcc ..)

/-! ## BIT, RES and SET (R232 to R234) -/

/-- One read, and the registers replaced. -/
theorem completes_readWithRegs {i : Instr} {s : State} {a : Word} {g : Regs} {n : Nat}
    (h : exec i s = finish n ((afterRead s a).withRegs g)) : Completes i s (fun t => OnlyRegs s t g n) :=
  ⟨_, h, onlyRegs_afterRead s a g n⟩

/-- The read before the test leaves the registers. -/
theorem exec_bitHl_eq (b : Fin 8) (s : State) : exec (.bitHl b) s =
    finish 12 ((afterRead s s.regs.hl).withRegs { s.regs with f := bitTest b (busRead s s.regs.hl) s.regs.f }) := by
  change execBitHl b s = _
  rw [execBitHl, State.setF, afterRead_regs]

theorem getLsbD_clearBit (b : Fin 8) (v : Byte) {k : Nat} (hk : k < 8) :
    (clearBit b v).getLsbD k = (v.getLsbD k && decide (k ≠ b.val)) := by
  simp [clearBit, ← BitVec.twoPow_eq, hk]

theorem getLsbD_setBit (b : Fin 8) (v : Byte) (k : Nat) :
    (setBit b v).getLsbD k = (v.getLsbD k || decide (k = b.val)) := by
  simp [setBit, ← BitVec.twoPow_eq, BitVec.getLsbD_twoPow, eq_comm]

/-- A register replaced by a function of it that writes no flag. -/
theorem completes_mapReg8 {i : Instr} {s : State} {r : Reg8} {n : Nat} (op : Byte → Byte)
    (h : exec i s = modifyReg8 (fun v f => (op v, f)) r n s) :
    Completes i s (fun t => OnlyRegs s t (s.regs.set8 r (op (s.regs.get8 r))) n) := by
  have hmod := completes_modifyReg8 _ h
  rwa [← Regs.set8_f s.regs r (op (s.regs.get8 r))] at hmod

/-! ## The obligations -/

/-- Settles O27: both forms are of the one operation `rotateFlags`, which is the arithmetic by `rotate_eq_arith`. -/
theorem rotatesAndShifts : Obligations.RotatesAndShifts := by
  unfold Obligations.RotatesAndShifts
  refine fun s op => ⟨fun r => ⟨encode_rotateReg op r, ?_⟩, encode_rotateHl op, fun hr => ?_⟩
  · rw [← rotateFlags_fst]
    exact (completes_modifyReg8 _ (exec_rotateReg op r s)).imp fun t ht => ht.withFlags (hasFlags_rotateFlags ..)
  · rw [← rotateFlags_fst] at hr ⊢
    exact (completes_modifyHl _ (exec_rotateHl op s) hr).imp fun t ht => ht.withFlags (hasFlags_rotateFlags ..)

/-- Settles O26: the four are `rotateAcc` of one operation each. -/
theorem accumulatorRotatesClearZ : Obligations.AccumulatorRotatesClearZ := by
  unfold Obligations.AccumulatorRotatesClearZ
  intro s p hp
  simp only [List.mem_cons, List.not_mem_nil, or_false] at hp
  obtain rfl | rfl | rfl | rfl := hp
  all_goals exact ⟨rfl, completes_rotateAcc rfl⟩

/-- Settles O28: `BIT` replaces F by `bitTest`, which packs the flags as they are stated. -/
theorem bitTestWritesOnlyFlags : Obligations.BitTestWritesOnlyFlags := by
  unfold Obligations.BitTestWritesOnlyFlags
  refine fun s b => ⟨fun r => ⟨rfl, ?_⟩, rfl, ?_⟩
  · exact (completes_withRegs rfl).imp fun t ht => ht.withFlags (hasFlags_pack ..)
  · exact (completes_readWithRegs (exec_bitHl_eq b s)).imp fun t ht => ht.withFlags (hasFlags_pack ..)

/-- Settles O29: the register forms map a register and the forms on the byte at HL are `modifyHl`; neither writes F. -/
theorem resAndSetChangeOneBit : Obligations.ResAndSetChangeOneBit := by
  unfold Obligations.ResAndSetChangeOneBit
  exact fun s b v => ⟨fun k hk => ⟨getLsbD_clearBit b v hk, getLsbD_setBit b v k⟩,
    fun r => ⟨rfl, rfl, completes_mapReg8 (clearBit b) rfl, completes_mapReg8 (setBit b) rfl⟩, rfl, rfl,
    fun hr => completes_modifyHl (fun v f => (clearBit b v, f)) rfl hr,
    fun hr => completes_modifyHl (fun v f => (setBit b v, f)) rfl hr⟩

end Sys2Proof.Machine

/-! The jumps, calls and restarts (45_control.md R240 to R247, R251): the shape of each group, with its frame, and the
choice a conditional instruction makes. -/

namespace Sys2Proof.Machine

/-! ## Jumps, and the choice by a condition (R241 to R245) -/

theorem completes_jump {i : Instr} {s : State} {target : Word} {n : Nat} (h : exec i s = jump target n s) :
    Completes i s (fun t => OnlyRegs s t { s.regs with pc := target } n) :=
  completes_withRegs (h.trans (jump_eq target n s))

/-- An instruction that only reports its cycles leaves every register, PC included: it runs with PC already past its
bytes. -/
theorem completes_finish {i : Instr} {s : State} {n : Nat} (h : exec i s = finish n s) :
    Completes i s (fun t => OnlyRegs s t s.regs n) :=
  completes_withRegs h

/-- An instruction that chooses between two meanings completes as the chosen one does. -/
theorem completes_ite {i : Instr} {s : State} {c : Bool} {taken other : Result} {P Q : State → Prop}
    (h : exec i s = if c then taken else other) (hP : exec i s = taken → Completes i s P)
    (hQ : exec i s = other → Completes i s Q) : Completes i s (fun t => if c then P t else Q t) := by
  cases c with
  | true => exact hP h
  | false => exact hQ h

/-! ## Calls (R246, R247, R251) -/

/-- The push is of the PC the call was given, at the lowered SP; PC becomes the target after it. -/
theorem completes_call {i : Instr} {s : State} {target : Word} {n : Nat} (h : exec i s = call target n s)
    (ha : acceptsWord s (s.regs.sp - 2#16) s.regs.pc) :
    Completes i s (fun t => RegsAndWord s t { s.regs with sp := s.regs.sp - 2#16, pc := target }
      (s.regs.sp - 2#16) s.regs.pc n) := by
  have hpush := push16_eq_next.2 ⟨(acceptsWord_withRegs s _ _ _).2 ha, rfl⟩
  rw [State.setSp, busStore_withRegs, busStore_withRegs] at hpush
  exact ⟨_, h.trans (call_eq_next.2 ⟨_, hpush, rfl⟩), regsAndWord_withRegs s _ _ _ n⟩

/-! ## The obligations -/

/-- Settles O31: every jump taken replaces PC alone, and one not taken only reports its cycles. -/
theorem jumpsChangeOnlyPc : Obligations.JumpsChangeOnlyPc := by
  unfold Obligations.JumpsChangeOnlyPc
  exact ⟨fun f => ⟨rfl, rfl, rfl, rfl⟩, fun s => ⟨fun nn => ⟨rfl, completes_jump rfl⟩,
    fun cc nn => ⟨rfl, completes_ite rfl completes_jump completes_finish⟩, ⟨rfl, completes_jump rfl⟩,
    fun e => ⟨rfl, completes_jump rfl⟩, fun cc e => ⟨rfl, completes_ite rfl completes_jump completes_finish⟩⟩⟩

/-- Settles O32: `CALL nn`, a `CALL cc,nn` whose condition holds and `RST t` are `call` of their target; a call not
taken only reports its cycles. -/
theorem callsPushTheReturnAddress : Obligations.CallsPushTheReturnAddress := by
  unfold Obligations.CallsPushTheReturnAddress
  refine fun s => ⟨fun nn => ⟨rfl, completes_call rfl⟩, fun cc nn => ⟨rfl, fun hc => ?_, fun hc => ?_⟩,
    fun k => ⟨rfl, completes_call rfl⟩⟩
  · have htaken : exec (.callCcNn cc nn) s = call nn 24 s := if_pos hc
    exact completes_call htaken
  · have hother : exec (.callCcNn cc nn) s = finish 12 s := if_neg (Bool.eq_false_iff.1 hc)
    exact completes_finish hother

end Sys2Proof.Machine

/-! An increment of TIMA (60_exceptions.md R332, R333): which registers of the I/O file it writes, and what it leaves
there, at 0xFF and below. -/

namespace Sys2Proof.Machine

/-- At 0xFF the increment is the reload, then the Timer's request. -/
theorem timaIncrement_of_overflow {s : State} (h : s.tima = 0xFF#8) :
    timaIncrement s = request (s.setIo 0x05 s.tma) 2 :=
  if_pos h

/-- Below 0xFF the increment stores TIMA and requests nothing. -/
theorem timaIncrement_of_ne {s : State} (h : s.tima ≠ 0xFF#8) : timaIncrement s = s.setIo 0x05 (s.tima + 1#8) :=
  if_neg h

/-- A request writes IF and no other register of the I/O file. -/
theorem request_io_other (s : State) (i : Fin 5) {o : Nat} (h : o ≠ 0x0F) : (request s i).io o = s.io o :=
  io_setIo_other s _ h

/-- An increment of TIMA writes TIMA and IF and no other register of the I/O file. -/
theorem timaIncrement_io_other (s : State) {o : Nat} (htima : o ≠ 0x05) (hif : o ≠ 0x0F) :
    (timaIncrement s).io o = s.io o := by
  by_cases h : s.tima = 0xFF#8
  · rw [timaIncrement_of_overflow h, request_io_other _ _ hif, io_setIo_other _ _ htima]
  · rw [timaIncrement_of_ne h, io_setIo_other _ _ htima]

/-- The overflow's two effects: the request comes after the reload and leaves TIMA at TMA. -/
theorem timaIncrement_registers_of_overflow {s : State} (hwf : s.mem.wf) (h : s.tima = 0xFF#8) :
    (timaIncrement s).tima = s.tma ∧ (timaIncrement s).ifReg = s.ifReg ||| 0x04#8 := by
  have hreload : (s.setIo 0x05 s.tma).tima = s.tma := io_setIo_same hwf _ _
  have hif : (s.setIo 0x05 s.tma).ifReg = s.ifReg := io_setIo_other s _ (by decide)
  obtain ⟨-, -, -, hrequest⟩ := request_registers 2 (wf_setIo 0x05 s.tma hwf)
  rw [timaIncrement_of_overflow h]
  exact ⟨(request_io_other _ 2 (by decide)).trans hreload, hrequest.trans (by rw [hif]; rfl)⟩

/-- Below 0xFF TIMA counts one up and IF is kept. -/
theorem timaIncrement_registers_of_ne {s : State} (hwf : s.mem.wf) (h : s.tima ≠ 0xFF#8) :
    (timaIncrement s).tima = s.tima + 1#8 ∧ (timaIncrement s).ifReg = s.ifReg := by
  rw [timaIncrement_of_ne h]
  exact ⟨io_setIo_same hwf _ _, io_setIo_other s _ (by decide)⟩

/-- Settles O47: the two registers an increment writes by the case of TIMA; TMA and TAC are other registers of the I/O
file, and the CPU's registers are no device's. -/
theorem timaOverflowReloadsAndRequests : Obligations.TimaOverflowReloadsAndRequests := by
  unfold Obligations.TimaOverflowReloadsAndRequests
  exact fun s hwf => ⟨timaIncrement_registers_of_overflow hwf, timaIncrement_registers_of_ne hwf,
    timaIncrement_io_other s (by decide) (by decide), timaIncrement_io_other s (by decide) (by decide),
    (timaIncrement_devicesOnly s).regs⟩

end Sys2Proof.Machine

/-! The decoder and the encoder (30_encoding.md R140 to R149): each table row's bytes are the encoding of the instruction
the row decodes to, and an encoding decodes to its instruction. -/

namespace Sys2Proof

/-! ## Opcode fields and immediate words (R141, R143) -/

/-- An opcode byte is its three fields. -/
theorem opcode_fields (op : Byte) : opcode (op.toNat / 64) (op.toNat / 8 % 8) (op.toNat % 8) = op := by
  apply BitVec.eq_of_toNat_eq
  have := op.isLt
  rw [opcode, BitVec.toNat_ofNat]
  omega

/-- An immediate word is its two bytes, the low one at the lower address. -/
theorem append_immWord (nn : Word) : nn.extractLsb' 8 8 ++ nn.extractLsb' 0 8 = nn := Machine.joinBytes_halves nn

/-- The four values of a two-bit field. -/
theorem quarter_cases {n : Nat} (h : n < 4) : n = 0 ∨ n = 1 ∨ n = 2 ∨ n = 3 := by
  omega

/-- The eight values of a three-bit field. -/
theorem octal_cases {n : Nat} (h : n < 8) :
    n = 0 ∨ n = 1 ∨ n = 2 ∨ n = 3 ∨ n = 4 ∨ n = 5 ∨ n = 6 ∨ n = 7 := by
  omega

/-- The eight values of an operand of three bits. -/
theorem fin8_cases (b : Fin 8) : b = 0 ∨ b = 1 ∨ b = 2 ∨ b = 3 ∨ b = 4 ∨ b = 5 ∨ b = 6 ∨ b = 7 := by
  omega

theorem immWord_append (lo hi : Byte) : immWord (hi ++ lo) = [lo, hi] := by
  have hlo : (hi ++ lo).extractLsb' 0 8 = lo := Machine.loByte_join hi lo
  have hhi : (hi ++ lo).extractLsb' 8 8 = hi := Machine.hiByte_join hi lo
  rw [immWord, hlo, hhi]

/-! ## From bytes to an instruction and back (R145, R146, R149) -/

/-- An instruction read from the opcode byte `op` and the bytes `operands`: it is one a program can hold, and its
encoding is those bytes, as many as `op` says. -/
def ReadFrom (i : Instr) (op : Byte) (operands : List Byte) : Prop :=
  i.wellFormed = true ∧ encode i = (op :: operands).take (instrLength op)

theorem readFrom_quarter0 (nn : Word) {y z : Nat} (hy : y < 8) (hz : z < 8)
    (hstop : (y, z) = (2, 0) → nn.extractLsb' 0 8 = 0#8) :
    ReadFrom (decodeQuarter0 y z (nn.extractLsb' 0 8) nn) (opcode 0 y z) (immWord nn) := by
  by_cases h : (y, z) = (2, 0)
  · obtain ⟨rfl, rfl⟩ := Prod.mk.inj h
    refine ⟨rfl, ?_⟩
    rw [immWord, hstop rfl]
    rfl
  · clear hstop
    obtain rfl | rfl | rfl | rfl | rfl | rfl | rfl | rfl := octal_cases hy <;>
      obtain rfl | rfl | rfl | rfl | rfl | rfl | rfl | rfl := octal_cases hz
    -- the row y = 2, z = 0
    case neg.inr.inr.inl.inl => exact absurd rfl h
    all_goals exact ⟨rfl, rfl⟩

theorem readFrom_quarter1 (nn : Word) {y z : Nat} (hy : y < 8) (hz : z < 8) :
    ReadFrom (decodeQuarter1 y z) (opcode 1 y z) (immWord nn) := by
  obtain rfl | rfl | rfl | rfl | rfl | rfl | rfl | rfl := octal_cases hy <;>
    obtain rfl | rfl | rfl | rfl | rfl | rfl | rfl | rfl := octal_cases hz <;> exact ⟨rfl, rfl⟩

theorem readFrom_quarter2 (nn : Word) {y z : Nat} (hy : y < 8) (hz : z < 8) :
    ReadFrom (decodeQuarter2 y z) (opcode 2 y z) (immWord nn) := by
  obtain rfl | rfl | rfl | rfl | rfl | rfl | rfl | rfl := octal_cases hy <;>
    obtain rfl | rfl | rfl | rfl | rfl | rfl | rfl | rfl := octal_cases hz <;> exact ⟨rfl, rfl⟩

theorem readFrom_quarter3 (nn : Word) {y z : Nat} (hy : y < 8) (hz : z < 8) (hcb : (y, z) ≠ (1, 3)) :
    ReadFrom (decodeQuarter3 y z (nn.extractLsb' 0 8) nn) (opcode 3 y z) (immWord nn) := by
  obtain rfl | rfl | rfl | rfl | rfl | rfl | rfl | rfl := octal_cases hy <;>
    obtain rfl | rfl | rfl | rfl | rfl | rfl | rfl | rfl := octal_cases hz
  -- the row y = 1, z = 3
  case inr.inl.inr.inr.inr.inl => exact absurd rfl hcb
  all_goals exact ⟨rfl, rfl⟩

/-- Every row of the base table but the byte 0xCB, and STOP with its second byte 0x00. -/
theorem readFrom_decodeBase {op : Byte} (nn : Word) (hcb : op ≠ 0xCB#8)
    (hstop : op = 0x10#8 → nn.extractLsb' 0 8 = 0#8) :
    ReadFrom (decodeBase op (nn.extractLsb' 0 8) nn) op (immWord nn) := by
  have hfields := opcode_fields op
  have hx : op.toNat / 64 < 4 := by have := op.isLt; omega
  have hy : op.toNat / 8 % 8 < 8 := Nat.mod_lt _ (by decide)
  have hz : op.toNat % 8 < 8 := Nat.mod_lt _ (by decide)
  unfold decodeBase
  dsimp only
  generalize op.toNat / 64 = x at *
  generalize op.toNat / 8 % 8 = y at *
  generalize op.toNat % 8 = z at *
  subst hfields
  obtain rfl | rfl | rfl | rfl := quarter_cases hx
  · exact readFrom_quarter0 nn hy hz fun h => hstop (by obtain ⟨rfl, rfl⟩ := Prod.mk.inj h; rfl)
  · exact readFrom_quarter1 nn hy hz
  · exact readFrom_quarter2 nn hy hz
  · exact readFrom_quarter3 nn hy hz fun h => hcb (by obtain ⟨rfl, rfl⟩ := Prod.mk.inj h; rfl)

/-- Every row of the second table. -/
theorem readFrom_decodeCb (b1 b2 : Byte) : ReadFrom (decodeCb b1) 0xCB#8 [b1, b2] := by
  have hrow : ∀ b : Byte, (decodeCb b).wellFormed = true ∧ encode (decodeCb b) = [0xCB#8, b] := by decide
  exact hrow b1

/-- Where the decoder answers an instruction, the bytes it read are its encoding. -/
theorem readFrom_decodeOp {op b1 b2 : Byte} {i : Instr} (h : decodeOp op b1 b2 = .ok i) : ReadFrom i op [b1, b2] := by
  unfold decodeOp at h
  split at h
  next hcb =>
    cases h
    exact hcb ▸ readFrom_decodeCb b1 b2
  next hcb =>
    split at h
    next => cases h
    next hstop =>
      cases h
      have hlo : (b2 ++ b1).extractLsb' 0 8 = b1 := Machine.loByte_join b2 b1
      have hbase := readFrom_decodeBase (b2 ++ b1) hcb fun hop => hlo.trans (by simpa [hop] using hstop)
      rwa [immWord_append, hlo] at hbase

/-- The one refusal is STOP's second byte (46_system.md R262). -/
theorem decodeOp_eq_error {op b1 b2 b : Byte} :
    decodeOp op b1 b2 = .error b ↔ op = 0x10#8 ∧ b1 ≠ 0x00#8 ∧ b = b1 := by
  unfold decodeOp
  by_cases hcb : op = 0xCB#8
  · simp [hcb]
  · by_cases hstop : op = 0x10#8 ∧ b1 ≠ 0x00#8
    · simp [hstop, eq_comm]
    · rw [if_neg hcb, if_neg hstop]
      exact ⟨fun h => (nomatch h), fun ⟨hop, hb1, _⟩ => absurd ⟨hop, hb1⟩ hstop⟩

/-! ## Lengths (R140) -/

theorem length_le_three (i : Instr) : i.length ≤ 3 := by
  unfold Instr.length
  split <;> decide

/-- No instruction is longer than three bytes. -/
theorem instrLength_le_three (op : Byte) : instrLength op ≤ 3 := by
  unfold instrLength
  split
  · decide
  · exact length_le_three _

theorem one_le_instrLength (op : Byte) : 1 ≤ instrLength op := by
  have hlength : ∀ i : Instr, 1 ≤ i.length := fun i => by unfold Instr.length; split <;> decide
  unfold instrLength
  split
  · decide
  · exact hlength _

theorem ReadFrom.length_encode {i : Instr} {op b1 b2 : Byte} (h : ReadFrom i op [b1, b2]) :
    (encode i).length = instrLength op := by
  obtain ⟨-, hencode⟩ := h
  rw [hencode, List.length_take]
  exact Nat.min_eq_left (instrLength_le_three op)

/-! ## From an instruction to bytes and back -/

/-- The instruction at the head of bytes that may be too few: what is missing reads as 0. -/
def decodeHead (bytes : List Byte) : Except Byte Instr :=
  decodeOp (bytes.getD 0 0#8) (bytes.getD 1 0#8) (bytes.getD 2 0#8)

theorem decodeHead_one {op : Byte} {i : Instr} (rest : List Byte) (h : ∀ b1 b2, decodeOp op b1 b2 = .ok i) :
    decodeHead (op :: rest) = .ok i := h ..

theorem decodeHead_two {op b1 : Byte} {i : Instr} (rest : List Byte) (h : ∀ b2, decodeOp op b1 b2 = .ok i) :
    decodeHead (op :: b1 :: rest) = .ok i := h ..

/-- A row of the base table with an immediate word. -/
theorem decodeHead_immWord {op : Byte} {nn : Word} {i : Instr} (rest : List Byte)
    (h : op ≠ 0xCB#8 ∧ op ≠ 0x10#8 ∧ decodeBase op (nn.extractLsb' 0 8) nn = i) :
    decodeHead (op :: immWord nn ++ rest) = .ok i := by
  obtain ⟨hcb, hstop, rfl⟩ := h
  have hop : ∀ b1 b2, decodeOp op b1 b2 = .ok (decodeBase op b1 (b2 ++ b1)) := fun b1 b2 => by
    rw [decodeOp, if_neg hcb, if_neg (fun hs => hstop hs.1)]
  refine (hop (nn.extractLsb' 0 8) (nn.extractLsb' 8 8)).trans ?_
  rw [append_immWord]

/-- The head of an encoding is the instruction, with every operand. -/
theorem decodeHead_encode {i : Instr} (hi : i.wellFormed = true) (rest : List Byte) :
    decodeHead (encode i ++ rest) = .ok i := by
  cases i
  case prefixCb => cases hi
  case pop rr =>
    cases rr
    case af => cases hi
    all_goals exact decodeHead_one rest fun _ _ => rfl
  case ldANn | ldNnA | ldNnSp | jpNn | callNn => exact decodeHead_immWord rest ⟨by decide, by decide, rfl⟩
  case ldRrNn rr nn => cases rr <;> exact decodeHead_immWord rest ⟨by decide, by decide, rfl⟩
  case jpCcNn cc nn | callCcNn cc nn => cases cc <;> exact decodeHead_immWord rest ⟨by decide, by decide, rfl⟩
  case jrCcE cc e => cases cc <;> exact decodeHead_two rest fun _ => rfl
  case ldRN r n => cases r <;> exact decodeHead_two rest fun _ => rfl
  case ldHlN | ldhAN | ldhNA | ldHlSpE | addN | adcN | subN | sbcN | andN | xorN | orN | cpN | addSpE | jrE | stop |
    rlcHl | rrcHl | rlHl | rrHl | slaHl | sraHl | swapHl | srlHl => exact decodeHead_two rest fun _ => rfl
  case rlcR r | rrcR r | rlR r | rrR r | slaR r | sraR r | swapR r | srlR r =>
    cases r <;> exact decodeHead_two rest fun _ => rfl
  case bitR b r | resR b r | setR b r =>
    cases r <;> obtain rfl | rfl | rfl | rfl | rfl | rfl | rfl | rfl := fin8_cases b <;>
      exact decodeHead_two rest fun _ => rfl
  case bitHl b | resHl b | setHl b =>
    obtain rfl | rfl | rfl | rfl | rfl | rfl | rfl | rfl := fin8_cases b <;>
      exact decodeHead_two rest fun _ => rfl
  case rst t =>
    obtain rfl | rfl | rfl | rfl | rfl | rfl | rfl | rfl := fin8_cases t <;>
      exact decodeHead_one rest fun _ _ => rfl
  case retCc cc => cases cc <;> exact decodeHead_one rest fun _ _ => rfl
  case addHlRr rr | incRr rr | decRr rr | push rr => cases rr <;> exact decodeHead_one rest fun _ _ => rfl
  case ldRR r r' => cases r <;> cases r' <;> exact decodeHead_one rest fun _ _ => rfl
  case ldRHl r | ldHlR r | addR r | adcR r | subR r | sbcR r | andR r | xorR r | orR r | cpR r | incR r | decR r =>
    cases r <;> exact decodeHead_one rest fun _ _ => rfl
  all_goals exact decodeHead_one rest fun _ _ => rfl

/-! ## The decoder on lists of bytes (R149) -/

/-- With its operand bytes there, an instruction is what `decodeOp` makes of the first three bytes. -/
theorem decode_cons {op : Byte} {bs : List Byte} (h : instrLength op ≤ bs.length + 1) :
    decode (op :: bs) = match decodeHead (op :: bs) with
      | .ok i => .ok (i, (op :: bs).drop (instrLength op))
      | .error b => .error (.stopOperand b) := by
  have hdrop : (op :: bs).drop (instrLength op) = bs.drop (instrLength op - 1) := by
    obtain ⟨n, hn⟩ := Nat.exists_eq_add_of_le' (one_le_instrLength op)
    rw [hn, List.drop_succ_cons, Nat.add_sub_cancel]
  rw [decode, if_neg (Nat.not_lt.2 h), hdrop]
  rfl

theorem encode_eq_cons (i : Instr) : ∃ op bs, encode i = op :: bs := by
  cases h : encode i with
  | nil => cases i <;> cases h
  | cons op bs => exact ⟨op, bs, rfl⟩

/-- The first byte of an encoding says how many bytes it has. -/
theorem length_encode_append {i : Instr} {op : Byte} {bs : List Byte} (hi : i.wellFormed = true)
    (h : encode i = op :: bs) : bs.length + 1 = instrLength op := by
  have hhead := decodeHead_encode hi []
  rw [h, List.append_nil] at hhead
  have hlength : (encode i).length = instrLength op := (readFrom_decodeOp hhead).length_encode
  rw [← hlength, h, List.length_cons]

/-- Settles O1: an encoding's first byte gives its length, so the decoder takes it off the list whole, and
`decodeHead_encode` is the instruction it makes of it. -/
theorem decodeEncodeRoundTrip : Obligations.DecodeEncodeRoundTrip := by
  unfold Obligations.DecodeEncodeRoundTrip
  intro i rest hi
  obtain ⟨op, bs, hbytes⟩ := encode_eq_cons i
  have hlength := length_encode_append hi hbytes
  have hhead := decodeHead_encode hi rest
  rw [hbytes, List.cons_append] at hhead ⊢
  rw [decode_cons (by simp; omega), hhead, ← hlength]
  simp

/-- The three bytes that `decodeHead` looks at are those of the list, as far as the list goes. -/
theorem take_head {bytes : List Byte} {n : Nat} (hn : n ≤ 3) (hlen : n ≤ bytes.length) :
    [bytes.getD 0 0#8, bytes.getD 1 0#8, bytes.getD 2 0#8].take n = bytes.take n := by
  obtain rfl | rfl | rfl | rfl : n = 0 ∨ n = 1 ∨ n = 2 ∨ n = 3 := by omega
  · rfl
  · obtain ⟨a, bs, rfl⟩ := List.exists_cons_of_length_pos hlen
    rfl
  · match bytes with
    | _ :: _ :: _ => rfl
  · match bytes with
    | _ :: _ :: _ :: _ => rfl

/-- Settles O2: the decoder takes the instruction's length off the list, and the bytes it took are the encoding by
`readFrom_decodeOp`. -/
theorem decodedBytesAreTheEncoding : Obligations.DecodedBytesAreTheEncoding := by
  unfold Obligations.DecodedBytesAreTheEncoding
  intro bytes rest i h
  cases bytes with
  | nil => cases h
  | cons op bs =>
    by_cases hlen : instrLength op ≤ bs.length + 1
    · rw [decode_cons hlen] at h
      cases hhead : decodeHead (op :: bs) with
      | error b => rw [hhead] at h; cases h
      | ok j =>
        rw [hhead] at h
        cases h
        obtain ⟨hi, hencode⟩ := readFrom_decodeOp hhead
        have hbytes : encode i = (op :: bs).take (instrLength op) :=
          hencode.trans (take_head (bytes := op :: bs) (instrLength_le_three op) hlen)
        exact ⟨hi, by rw [hbytes, List.take_append_drop]⟩
    · rw [decode, if_pos (Nat.not_le.1 hlen)] at h
      cases h

/-- Settles O3: three bytes are enough for every instruction, and `decodeOp` refuses in one case. -/
theorem onlyStopOperandIsRefused : Obligations.OnlyStopOperandIsRefused := by
  unfold Obligations.OnlyStopOperandIsRefused
  intro op b1 b2 rest
  have hlen : instrLength op ≤ (b1 :: b2 :: rest).length + 1 :=
    Nat.le_trans (instrLength_le_three op) (by simp)
  have hhead : decodeHead (op :: b1 :: b2 :: rest) = decodeOp op b1 b2 := rfl
  rw [decode_cons hlen, hhead]
  refine ⟨fun hstop => ?_, fun hstop => ?_⟩
  · obtain ⟨rfl, hb1⟩ := hstop
    simp [decodeOp, hb1]
  · unfold decodeOp
    by_cases hcb : op = 0xCB#8
    · exact ⟨_, _, by rw [if_pos hcb]⟩
    · exact ⟨_, _, by rw [if_neg hcb, if_neg hstop]⟩

/-- Settles O4: each word runs through the decoder. -/
theorem writtenOutWordsDecode : Obligations.WrittenOutWordsDecode := by
  unfold Obligations.WrittenOutWordsDecode
  exact ⟨rfl, rfl, rfl, rfl, rfl, rfl, rfl, rfl, rfl, rfl, rfl, rfl, rfl, rfl, rfl⟩
end Sys2Proof

/-! What an instruction can do, said once: the one inversion lemma of `exec` (10_state.md R26 to R29, 60_exceptions.md
R308, 70_reset_and_hazards.md R430). -/

namespace Sys2Proof.Machine

/-! ## Runs of bus accesses -/

/-- `t` is reached from `s` by reads and writes of the bus and by changes of the CPU's own fields. -/
inductive Accesses (s : State) : State → Prop where
  | refl : Accesses s s
  | cpu {t : State} (g : Regs) (i : Ime) (r : RunState) (n : Nat) : Accesses s t → Accesses s (t.withCpu g i r n)
  | read {t : State} (a : Word) : Accesses s t → Accesses s (afterRead t a)
  | store {t : State} (a : Word) (v : Byte) : Accesses s t → Accesses s (busStore t a v)

/-- What every bus access keeps, and what does not look at the CPU, is kept by a run of accesses. -/
theorem Accesses.keeps {P : State → Prop} {s t : State} (h : Accesses s t)
    (hcpu : ∀ s g i r n, P s → P (s.withCpu g i r n)) (hread : ∀ s a, P s → P (afterRead s a))
    (hstore : ∀ s a v, P s → P (busStore s a v)) (hs : P s) : P t := by
  induction h with
  | refl => exact hs
  | cpu g i r n _ ih => exact hcpu _ g i r n ih
  | read a _ ih => exact hread _ a ih
  | store a v _ ih => exact hstore _ a v ih

theorem Accesses.trans {s t u : State} (h : Accesses s t) (k : Accesses t u) : Accesses s u := by
  induction k with
  | refl => exact h
  | cpu g i r n _ ih => exact ih.cpu g i r n
  | read a _ ih => exact ih.read a
  | store a v _ ih => exact ih.store a v

theorem Accesses.regs {s t : State} (h : Accesses s t) (g : Regs) : Accesses s (t.withRegs g) :=
  h.cpu g t.ime t.run t.cyc

/-- PC and IME written, as `RETI` does. -/
theorem Accesses.returned {s t : State} (h : Accesses s t) (v : Word) (i : Ime) (n : Nat) :
    Accesses s (((t.setPc v).setIme i).tick n) :=
  h.cpu { t.regs with pc := v } i t.run (t.cyc + n)

/-- A run of accesses leaves the configuration, the speed, the cycles, the PPU, the keys and the host's lists. -/
theorem Accesses.keepsDevices {s t : State} (h : Accesses s t) : KeepsDevices s t :=
  h.keeps (P := KeepsDevices s) (fun _ _ _ _ _ hP => hP)
    (fun u a hP => by simpa [KeepsDevices] using hP) (fun u a v hP => by simpa [KeepsDevices] using hP)
    ⟨rfl, rfl, rfl, rfl, rfl, rfl, rfl, rfl, rfl⟩

/-! ## Outcomes of an instruction -/

/-- Bits 3 to 0 of F are 0 (10_state.md R23). -/
abbrev FlagForm (s : State) : Prop := s.regs.f &&& 0x0F#8 = 0#8

/-- One of the two refusals of a write to HDMA5 (20_memory.md R98). -/
def IsDmaRefusal (r : Refusal) : Prop := (∃ v, r = .hblankDma v) ∨ ∃ src, r = .dmaSource src

/-- `t` is inside or at the end of an instruction begun in `s` which has reported no cycles yet: the bus was accessed
and the registers changed, IME and the run state not. -/
structure Within (s t : State) : Prop where
  accesses : Accesses s t
  ime : t.ime = s.ime
  run : t.run = s.run
  cyc : t.cyc = s.cyc
  flags : FlagForm s → FlagForm t

theorem Within.refl (s : State) : Within s s := ⟨.refl, rfl, rfl, rfl, id⟩

theorem Within.read {s t : State} (h : Within s t) (a : Word) : Within s (afterRead t a) :=
  ⟨h.accesses.read a, by simp [h.ime], by simp [h.run], by simp [h.cyc], by simpa [FlagForm] using h.flags⟩

theorem Within.store {s t : State} (h : Within s t) (a : Word) (v : Byte) : Within s (busStore t a v) :=
  ⟨h.accesses.store a v, by simp [h.ime], by simp [h.run], by simp [h.cyc], by simpa [FlagForm] using h.flags⟩

theorem Within.regs {s t : State} (h : Within s t) {g : Regs}
    (hf : t.regs.f &&& 0x0F#8 = 0#8 → g.f &&& 0x0F#8 = 0#8) : Within s (t.withRegs g) :=
  ⟨h.accesses.regs g, h.ime, h.run, h.cyc, fun hs => hf (h.flags hs)⟩

/-- The end of an instruction: `Within`, and a multiple of 4 cycles, 4 to 24, reported. -/
def Done (s t : State) : Prop := ∃ u n, Within s u ∧ n ∈ [4, 8, 12, 16, 20, 24] ∧ t = u.tick n

/-- The outcome is a next state that satisfies `P`, or the refusal of a write to HDMA5: no fault and no other refusal. -/
def NextOrDmaRefusal (P : State → Prop) : Result → Prop
  | .next t => P t
  | .fault _ => False
  | .refused r => IsDmaRefusal r

theorem NextOrDmaRefusal.imp {P Q : State → Prop} {r : Result} (h : NextOrDmaRefusal P r) (hpq : ∀ t, P t → Q t) :
    NextOrDmaRefusal Q r := by
  cases r with
  | next t => exact hpq t h
  | fault e => exact h
  | refused x => exact h

/-- The outcome of an instruction that is no unassigned opcode and writes neither IME nor the run state nor the speed. -/
abbrev Ordinary (s : State) : Result → Prop := NextOrDmaRefusal (Done s)

/-! ## The shapes of instructions are ordinary -/

theorem ordinary_finish {s u : State} {n : Nat} (h : Within s u) (hn : n ∈ [4, 8, 12, 16, 20, 24]) :
    Ordinary s (finish n u) := ⟨u, n, h, hn, rfl⟩

theorem isDmaRefusal_of_busRefusal {s : State} {a : Word} {v : Byte} {r : Refusal} (h : busRefusal s a v = some r) :
    IsDmaRefusal r := by
  unfold busRefusal hdmaRefusal at h
  split at h
  · split at h
    · cases h; exact .inl ⟨_, rfl⟩
    · split at h
      · cases h; exact .inr ⟨_, rfl⟩
      · cases h
  · cases h

/-- A bus write is refused for HDMA5, or the instruction goes on after the store. -/
theorem nextOrDmaRefusal_busWrite {P : State → Prop} {u : State} {a : Word} {v : Byte} {f : State → Result}
    (h : NextOrDmaRefusal P (f (busStore u a v))) : NextOrDmaRefusal P (andThen (busWrite u a v) f) := by
  unfold busWrite
  split
  next r hr => exact isDmaRefusal_of_busRefusal hr
  next => exact h

theorem nextOrDmaRefusal_busWrite16 {P : State → Prop} {u : State} {a v : Word} {f : State → Result}
    (h : ∀ t, Within u t → NextOrDmaRefusal P (f t)) : NextOrDmaRefusal P (andThen (busWrite16 u a v) f) := by
  have hbytes : andThen (busWrite16 u a v) f =
      andThen (busWrite u a (loByte v)) fun t => andThen (busWrite t (a + 1#16) (hiByte v)) f := by
    unfold busWrite16
    cases busWrite u a (loByte v) <;> rfl
  rw [hbytes]
  exact nextOrDmaRefusal_busWrite (nextOrDmaRefusal_busWrite (h _ (((Within.refl u).store _ _).store _ _)))

theorem ordinary_loadReg8 (r : Reg8) (a : Word) {n : Nat} (s : State) (hn : n ∈ [4, 8, 12, 16, 20, 24]) :
    Ordinary s (loadReg8 r a n s) :=
  ordinary_finish (((Within.refl s).read a).regs (by simp)) hn

theorem ordinary_loadAccStep (hl : Word) (s : State) : Ordinary s (loadAccStep hl s) :=
  ordinary_finish ((((Within.refl s).read _).regs (by simp)).regs (by simp)) (by decide)

theorem ordinary_storeByte (a : Word) (v : Byte) {n : Nat} (s : State) (hn : n ∈ [4, 8, 12, 16, 20, 24]) :
    Ordinary s (storeByte a v n s) :=
  nextOrDmaRefusal_busWrite (ordinary_finish ((Within.refl s).store a v) hn)

theorem ordinary_storeAccStep (hl : Word) (s : State) : Ordinary s (storeAccStep hl s) :=
  nextOrDmaRefusal_busWrite (ordinary_finish (((Within.refl s).store _ _).regs (by simp)) (by decide))

/-- An accumulator operation leaves F with bits 3 to 0 clear. -/
abbrev MakesFlagForm (op : Byte → Byte → Byte → Byte × Byte) : Prop := ∀ a b f, (op a b f).2 &&& 0x0F#8 = 0#8

theorem ordinary_accumulate {op : Byte → Byte → Byte → Byte × Byte} (hop : MakesFlagForm op) (b : Byte) {n : Nat}
    (s : State) (hn : n ∈ [4, 8, 12, 16, 20, 24]) : Ordinary s (accumulate op b n s) :=
  ordinary_finish ((Within.refl s).regs fun _ => hop ..) hn

theorem ordinary_accumulateHl {op : Byte → Byte → Byte → Byte × Byte} (hop : MakesFlagForm op) (s : State) :
    Ordinary s (accumulateHl op s) :=
  ordinary_finish (((Within.refl s).read _).regs fun _ => hop ..) (by decide)

theorem ordinary_modifyReg8 {op : Byte → Byte → Byte × Byte} (hop : KeepsFlagForm op) (r : Reg8) {n : Nat} (s : State)
    (hn : n ∈ [4, 8, 12, 16, 20, 24]) : Ordinary s (modifyReg8 op r n s) := by
  rw [modifyReg8_eq]
  exact ordinary_finish ((Within.refl s).regs (hop _ _)) hn

theorem ordinary_modifyHl {op : Byte → Byte → Byte × Byte} (hop : KeepsFlagForm op) {n : Nat} (s : State)
    (hn : n ∈ [4, 8, 12, 16, 20, 24]) : Ordinary s (modifyHl op n s) :=
  nextOrDmaRefusal_busWrite (ordinary_finish
    ((((Within.refl s).read _).regs fun hf => hop _ _ (by simpa using hf)).store _ _) hn)

theorem ordinary_jump (target : Word) {n : Nat} (s : State) (hn : n ∈ [4, 8, 12, 16, 20, 24]) :
    Ordinary s (jump target n s) :=
  ordinary_finish ((Within.refl s).regs id) hn

/-- A push, and whatever comes after it. -/
theorem nextOrDmaRefusal_push16 {P : State → Prop} {s : State} {v : Word} {f : State → Result}
    (h : ∀ t, Within s t → NextOrDmaRefusal P (f t)) : NextOrDmaRefusal P (andThen (push16 s v) f) :=
  nextOrDmaRefusal_busWrite16 fun t ht =>
    h t ⟨((Accesses.refl (s := s)).regs _).trans ht.accesses, ht.ime, ht.run, ht.cyc, ht.flags⟩

theorem ordinary_call (target : Word) {n : Nat} (s : State) (hn : n ∈ [4, 8, 12, 16, 20, 24]) :
    Ordinary s (call target n s) :=
  nextOrDmaRefusal_push16 fun _ ht => ordinary_finish (ht.regs id) hn

theorem within_afterPop (s : State) : Within s (afterPop s) :=
  (((Within.refl s).read _).read _).regs (by simp [afterRead16])

theorem ordinary_returnTo {n : Nat} (s : State) (hn : n ∈ [4, 8, 12, 16, 20, 24]) : Ordinary s (returnTo n s) :=
  ordinary_finish ((within_afterPop s).regs id) hn

/-- The instruction of a table row that is chosen by a condition. -/
theorem ordinary_ite {s : State} {c : Bool} {q r : Result} (hq : Ordinary s q) (hr : Ordinary s r) :
    Ordinary s (if c then q else r) := by
  cases c
  · exact hr
  · exact hq

/-! ## `exec` -/

/-- The instructions that write IME, the run state or the speed. -/
def controlInstrs : List Instr := [.ei, .di, .reti, .halt, .stop]

/-- Every instruction of the two tables is ordinary, but for those named. -/
theorem exec_ordinary_of_ne_prefixCb {i : Instr} (s : State) (hcontrol : i ∉ controlInstrs)
    (hillegal : i ∉ illegalOpcodes.map Prod.fst) (hprefix : i ≠ .prefixCb) : Ordinary s (exec i s) := by
  cases i
  case ei | di | reti | halt | stop => exact absurd (by decide) hcontrol
  case prefixCb => exact absurd rfl hprefix
  case illegalD3 | illegalDB | illegalDD | illegalE3 | illegalE4 | illegalEB | illegalEC | illegalED | illegalF4 |
    illegalFC | illegalFD => exact absurd (by decide) hillegal
  case ldRHl | ldABc | ldADe | ldANn | ldhAC | ldhAN => exact ordinary_loadReg8 _ _ s (by decide)
  case ldAHld | ldAHli => exact ordinary_loadAccStep _ s
  case ldHlR | ldHlN | ldBcA | ldDeA | ldNnA | ldhCA | ldhNA => exact ordinary_storeByte _ _ s (by decide)
  case ldHldA | ldHliA => exact ordinary_storeAccStep _ s
  case addR | addN | adcR | adcN | subR | subN | sbcR | sbcN | andR | andN | xorR | xorN | orR | orN | cpR | cpN =>
    refine ordinary_accumulate ?_ _ s ?_
    · exact fun _ _ _ => packFlags_low ..
    · decide
  case addHl | adcHl | subHl | sbcHl | andHl | xorHl | orHl | cpHl =>
    exact ordinary_accumulateHl (fun _ _ _ => packFlags_low ..) s
  case incR | decR | daa | rlca | rrca | rla | rra | rlcR | rrcR | rlR | rrR | slaR | sraR | swapR | srlR =>
    refine ordinary_modifyReg8 ?_ _ s ?_
    · exact fun _ _ _ => packFlags_low ..
    · decide
  case incHl | decHl | rlcHl | rrcHl | rlHl | rrHl | slaHl | sraHl | swapHl | srlHl =>
    refine ordinary_modifyHl ?_ s ?_
    · exact fun _ _ _ => packFlags_low ..
    · decide
  case cpl => exact exec_cpl_eq s ▸ ordinary_modifyReg8 (fun _ _ _ => packFlags_low ..) .a s (by decide)
  case resR b r => exact ordinary_modifyReg8 (op := fun v f => (clearBit b v, f)) (fun _ _ => id) r s (by decide)
  case setR b r => exact ordinary_modifyReg8 (op := fun v f => (setBit b v, f)) (fun _ _ => id) r s (by decide)
  case resHl b => exact ordinary_modifyHl (op := fun v f => (clearBit b v, f)) (fun _ _ => id) s (by decide)
  case setHl b => exact ordinary_modifyHl (op := fun v f => (setBit b v, f)) (fun _ _ => id) s (by decide)
  case bitR | scf | ccf =>
    refine ordinary_finish ((Within.refl s).regs ?_) ?_
    · exact fun _ => packFlags_low ..
    · decide
  case bitHl =>
    refine ordinary_finish (((Within.refl s).read _).regs ?_) ?_
    · exact fun _ => packFlags_low ..
    · decide
  case nop => exact ordinary_finish (Within.refl s) (by decide)
  case ldRR | ldRN | ldRrNn | incRr | decRr =>
    refine ordinary_finish ((Within.refl s).regs ?_) ?_
    · simp
    · decide
  case ldSpHl => exact ordinary_finish ((Within.refl s).regs id) (by decide)
  case ldHlSpE | addSpE | addHlRr =>
    refine ordinary_finish (((Within.refl s).regs ?_).regs ?_) ?_
    · simp
    · exact fun _ => packFlags_low ..
    · decide
  case ldNnSp => exact nextOrDmaRefusal_busWrite16 fun t ht => ordinary_finish ht (by decide)
  case push => exact nextOrDmaRefusal_push16 fun t ht => ordinary_finish ht (by decide)
  case pop rr =>
    cases rr
    case af =>
      refine ordinary_finish ((within_afterPop s).regs ?_) ?_
      · exact fun _ => maskFlags_low _
      · decide
    all_goals exact ordinary_finish ((within_afterPop s).regs id) (by decide)
  case popAf =>
    refine ordinary_finish ((within_afterPop s).regs ?_) ?_
    · exact fun _ => maskFlags_low _
    · decide
  case jpNn | jpHl | jrE => exact ordinary_jump _ s (by decide)
  case jpCcNn | jrCcE =>
    exact ordinary_ite (ordinary_jump _ s (by decide)) (ordinary_finish (Within.refl s) (by decide))
  case callNn | rst => exact ordinary_call _ s (by decide)
  case callCcNn => exact ordinary_ite (ordinary_call _ s (by decide)) (ordinary_finish (Within.refl s) (by decide))
  case ret => exact ordinary_returnTo s (by decide)
  case retCc => exact ordinary_ite (ordinary_returnTo s (by decide)) (ordinary_finish (Within.refl s) (by decide))

/-- The byte 0xCB runs the instruction of the second table that the next byte names (46_system.md R265). -/
theorem exec_prefixCb (s : State) : exec .prefixCb s = exec (decodeCb (fetchByte s)) (afterFetch s) := by
  have hx : (fetchByte s).toNat / 64 < 4 := by have := (fetchByte s).isLt; omega
  have hy : (fetchByte s).toNat / 8 % 8 < 8 := Nat.mod_lt _ (by decide)
  change execPrefixCb s = _
  unfold execPrefixCb decodeCb
  dsimp only
  generalize afterFetch s = t
  generalize (fetchByte s).toNat / 64 = x at *
  generalize (fetchByte s).toNat / 8 % 8 = y at *
  cases Reg8.ofCode ((fetchByte s).toNat % 8) <;> obtain rfl | rfl | rfl | rfl := quarter_cases hx <;>
    obtain rfl | rfl | rfl | rfl | rfl | rfl | rfl | rfl := octal_cases hy <;> rfl

theorem decodeCb_ne : ∀ b : Byte,
    decodeCb b ∉ controlInstrs ∧ decodeCb b ∉ illegalOpcodes.map Prod.fst ∧ decodeCb b ≠ .prefixCb := by decide

theorem within_afterFetch (s : State) : Within s (afterFetch s) := ((Within.refl s).read _).regs (by simp)

theorem Within.trans {s t u : State} (h : Within s t) (k : Within t u) : Within s u :=
  ⟨h.accesses.trans k.accesses, k.ime.trans h.ime, k.run.trans h.run, k.cyc.trans h.cyc, k.flags ∘ h.flags⟩

/-- What is ordinary after a part of an instruction is ordinary for the whole. -/
theorem Ordinary.of_within {s u : State} {r : Result} (hu : Within s u) (h : Ordinary u r) : Ordinary s r :=
  h.imp fun _ ⟨v, n, hv, hn, ht⟩ => ⟨v, n, hu.trans hv, hn, ht⟩

theorem exec_ordinary {i : Instr} (s : State) (hcontrol : i ∉ controlInstrs)
    (hillegal : i ∉ illegalOpcodes.map Prod.fst) : Ordinary s (exec i s) := by
  by_cases hprefix : i = .prefixCb
  · subst hprefix
    obtain ⟨hc, hi, hp⟩ := decodeCb_ne (fetchByte s)
    rw [exec_prefixCb]
    exact Ordinary.of_within (within_afterFetch s) (exec_ordinary_of_ne_prefixCb _ hc hi hp)
  · exact exec_ordinary_of_ne_prefixCb s hcontrol hillegal hprefix

/-- The unassigned opcodes fault (46_system.md R266). -/
theorem exec_illegal (s : State) {p : Instr × Byte} (hp : p ∈ illegalOpcodes) :
    exec p.1 s = .fault (.illegalOpcode p.2 (s.regs.pc - 1#16)) := by
  simp only [illegalOpcodes, List.mem_cons, List.not_mem_nil, or_false] at hp
  obtain rfl | rfl | rfl | rfl | rfl | rfl | rfl | rfl | rfl | rfl | rfl := hp <;> rfl

/-- Everything that `exec` can answer, by the kind of the instruction. -/
theorem exec_cases (i : Instr) (s : State) :
    (i ∈ controlInstrs ∧ ∃ t, exec i s = .next t) ∨
    (∃ op, (i, op) ∈ illegalOpcodes ∧ exec i s = .fault (.illegalOpcode op (s.regs.pc - 1#16))) ∨
    (i ∉ controlInstrs ∧ Ordinary s (exec i s)) := by
  by_cases hcontrol : i ∈ controlInstrs
  · refine .inl ⟨hcontrol, ?_⟩
    simp only [controlInstrs, List.mem_cons, List.not_mem_nil, or_false] at hcontrol
    obtain rfl | rfl | rfl | rfl | rfl := hcontrol <;> exact ⟨_, rfl⟩
  by_cases hillegal : i ∈ illegalOpcodes.map Prod.fst
  · obtain ⟨⟨j, op⟩, hp, rfl⟩ := List.mem_map.1 hillegal
    exact .inr (.inl ⟨op, hp, exec_illegal s hp⟩)
  · exact .inr (.inr ⟨hcontrol, exec_ordinary s hcontrol hillegal⟩)

/-- Everything that a completed instruction can have done: the five that write IME, the run state or the speed each by
their own state, any other one as `Done` says. -/
theorem exec_next_cases {i : Instr} {s t : State} (h : exec i s = .next t) :
    (i ∉ controlInstrs ∧ Done s t) ∨
    (i = .ei ∧ t = (s.setIme .scheduled).tick 4) ∨ (i = .di ∧ t = (s.setIme .disabled).tick 4) ∨
    (i = .reti ∧ t = (((afterPop s).setPc (popWord s)).setIme .enabled).tick 16) ∨
    (i = .halt ∧ t = (s.setRun .halted).tick 4) ∨
    (i = .stop ∧ t = (if speedSwitchArmed s then switchSpeed s else s.setRun .stopped).tick 4) := by
  rcases exec_cases i s with ⟨hi, -⟩ | ⟨op, -, he⟩ | ⟨hi, ho⟩
  · simp only [controlInstrs, List.mem_cons, List.not_mem_nil, or_false] at hi
    obtain rfl | rfl | rfl | rfl | rfl := hi
    case inl => exact .inr (.inl ⟨rfl, (Host.Outcome.next.inj h).symm⟩)
    case inr.inl => exact .inr (.inr (.inl ⟨rfl, (Host.Outcome.next.inj h).symm⟩))
    case inr.inr.inl => exact .inr (.inr (.inr (.inl ⟨rfl, (Host.Outcome.next.inj h).symm⟩)))
    case inr.inr.inr.inl => exact .inr (.inr (.inr (.inr (.inl ⟨rfl, (Host.Outcome.next.inj h).symm⟩))))
    case inr.inr.inr.inr => exact .inr (.inr (.inr (.inr (.inr ⟨rfl, (Host.Outcome.next.inj h).symm⟩))))
  · rw [h] at he; cases he
  · rw [h] at ho; exact .inl ⟨hi, ho⟩

/-- Every instruction but STOP is a run of bus accesses. -/
theorem exec_accesses {i : Instr} {s t : State} (h : exec i s = .next t) (hstop : i ≠ .stop) : Accesses s t := by
  have hself : Accesses s s := .refl
  rcases exec_next_cases h with ⟨-, u, n, hu, -, rfl⟩ | ⟨-, rfl⟩ | ⟨-, rfl⟩ | ⟨-, rfl⟩ | ⟨-, rfl⟩ | ⟨hi, -⟩
  · exact hu.accesses.cpu u.regs u.ime u.run (u.cyc + n)
  · exact hself.cpu s.regs .scheduled s.run (s.cyc + 4)
  · exact hself.cpu s.regs .disabled s.run (s.cyc + 4)
  · exact (within_afterPop s).accesses.returned ..
  · exact hself.cpu s.regs s.ime .halted (s.cyc + 4)
  · exact absurd hi hstop

/-- Every instruction keeps bits 3 to 0 of F clear (10_state.md R23). -/
theorem exec_flagForm {i : Instr} {s t : State} (h : exec i s = .next t) (hs : FlagForm s) : FlagForm t := by
  rcases exec_next_cases h with ⟨-, u, n, hu, -, rfl⟩ | ⟨-, rfl⟩ | ⟨-, rfl⟩ | ⟨-, rfl⟩ | ⟨-, rfl⟩ | ⟨-, rfl⟩
  · exact hu.flags hs
  · exact hs
  · exact hs
  · exact (within_afterPop s).flags hs
  · exact hs
  · split <;> exact hs

/-- Every instruction reports a multiple of 4 cycles, 4 to 24 (70_reset_and_hazards.md R430). -/
theorem exec_cycles {i : Instr} {s t : State} (h : exec i s = .next t) :
    ∃ k, 1 ≤ k ∧ k ≤ 6 ∧ t.cyc = s.cyc + 4 * k := by
  rcases exec_next_cases h with ⟨-, u, n, hu, hn, rfl⟩ | ⟨-, rfl⟩ | ⟨-, rfl⟩ | ⟨-, rfl⟩ | ⟨-, rfl⟩ | ⟨-, rfl⟩
  · simp only [List.mem_cons, List.not_mem_nil, or_false] at hn
    exact ⟨n / 4, by omega, by omega, by rw [State.tick_cyc, hu.cyc]; omega⟩
  · exact ⟨1, by decide, by decide, rfl⟩
  · exact ⟨1, by decide, by decide, rfl⟩
  · exact ⟨4, by decide, by decide, congrArg (· + 16) (within_afterPop s).cyc⟩
  · exact ⟨1, by decide, by decide, rfl⟩
  · exact ⟨1, by decide, by decide, by split <;> rfl⟩

/-- Settles O59: STOP changes the run state or the speed, any other instruction is a run of bus accesses, and those that
write IME or the run state are named by `exec_next_cases`. -/
theorem onlyNamedInstructionsWriteControlState : Obligations.OnlyNamedInstructionsWriteControlState := by
  unfold Obligations.OnlyNamedInstructionsWriteControlState
  intro i s t h
  have hime : i ∉ [.ei, .di, .reti] → t.ime = s.ime := by
    intro hi
    rcases exec_next_cases h with ⟨-, u, n, hu, -, rfl⟩ | ⟨rfl, -⟩ | ⟨rfl, -⟩ | ⟨rfl, -⟩ | ⟨-, rfl⟩ | ⟨-, rfl⟩
    · exact hu.ime
    · exact absurd (by decide) hi
    · exact absurd (by decide) hi
    · exact absurd (by decide) hi
    · rfl
    · split <;> rfl
  have hrun : i ∉ [.halt, .stop] → t.run = s.run := by
    intro hi
    rcases exec_next_cases h with ⟨-, u, n, hu, -, rfl⟩ | ⟨-, rfl⟩ | ⟨-, rfl⟩ | ⟨-, rfl⟩ | ⟨rfl, -⟩ | ⟨rfl, -⟩
    · exact hu.run
    · rfl
    · rfl
    · exact (within_afterPop s).run
    · exact absurd (by decide) hi
    · exact absurd (by decide) hi
  by_cases hstop : i = .stop
  · subst hstop
    cases h
    refine ⟨hime, hrun, fun hi => absurd rfl hi, ?_⟩
    split <;> exact ⟨rfl, rfl, rfl, rfl, rfl⟩
  · obtain ⟨hparams, hspeed, hcycles, hppu, hkeys, hprev, -⟩ := (exec_accesses h hstop).keepsDevices
    exact ⟨hime, hrun, fun _ => hspeed, hppu, hkeys, hprev, hcycles, hparams⟩

/-! ## The interrupt phase and the step -/

/-- What the interrupt phase leaves: a request may be cleared and the CPU's fields and the stack written; 20 cycles for
a dispatch, none otherwise (60_exceptions.md R302 to R304). -/
structure AfterInterrupts (s t : State) : Prop where
  accesses : ∃ u, (u = s ∨ ∃ i, u = clearRequest s i) ∧ Accesses u t
  cyc : t.cyc = 0 ∨ t.cyc = 20
  flags : FlagForm s → FlagForm t

theorem AfterInterrupts.of_idle {s t : State} (h : AfterInterrupts { s with cyc := 0 } t) : AfterInterrupts s t := by
  obtain ⟨⟨u, hu, hacc⟩, hcyc, hflags⟩ := h
  refine ⟨?_, hcyc, hflags⟩
  rcases hu with rfl | ⟨i, rfl⟩
  · exact ⟨s, .inl rfl, (Accesses.refl.cpu s.regs s.ime s.run 0).trans hacc⟩
  · exact ⟨clearRequest s i, .inr ⟨i, rfl⟩, (Accesses.refl.cpu s.regs s.ime s.run 0).trans hacc⟩

theorem takeInterrupt_outcome (i : Fin 5) (s : State) :
    NextOrDmaRefusal (AfterInterrupts s) (takeInterrupt i s) := by
  refine nextOrDmaRefusal_push16 fun t ht => ?_
  have hstart : Accesses (clearRequest s i) ((clearRequest s i).setIme .disabled) :=
    Accesses.refl.cpu s.regs .disabled s.run s.cyc
  exact ⟨⟨_, .inr ⟨i, rfl⟩, (hstart.trans ht.accesses).cpu _ t.ime .running 20⟩, .inr rfl, ht.flags⟩

/-- The interrupt phase has a next state, or a refused push: it never faults. -/
theorem interruptPhase_outcome (s : State) : NextOrDmaRefusal (AfterInterrupts s) (interruptPhase s) := by
  have hidle : NextOrDmaRefusal (AfterInterrupts { s with cyc := 0 }) (interruptCheck { s with cyc := 0 }) := by
    rcases interruptCheck_cases { s with cyc := 0 } with ⟨he, -⟩ | ⟨i, -, ⟨-, he⟩ | ⟨-, -, he⟩⟩ <;> rw [he]
    · exact ⟨⟨_, .inl rfl, .refl⟩, .inl rfl, id⟩
    · exact takeInterrupt_outcome i _
    · unfold wake
      split
      · exact ⟨⟨_, .inr ⟨i, rfl⟩, Accesses.refl.cpu s.regs s.ime .running 0⟩, .inl rfl, id⟩
      · exact ⟨⟨_, .inl rfl, Accesses.refl.cpu s.regs s.ime .running 0⟩, .inl rfl, id⟩
  unfold interruptPhase
  dsimp only
  split
  · exact ⟨⟨s, .inl rfl, Accesses.refl.cpu s.regs .enabled s.run 0⟩, .inl rfl, id⟩
  · exact hidle.imp fun _ => AfterInterrupts.of_idle

theorem interruptPhase_next {s t : State} (h : interruptPhase s = .next t) : AfterInterrupts s t := by
  have ho := interruptPhase_outcome s
  rwa [h] at ho

/-! ## Faults and refusals of a step -/

theorem exec_eq_fault {i : Instr} {s : State} {e : Fault} (h : exec i s = .fault e) :
    ∃ op, (i, op) ∈ illegalOpcodes ∧ e = .illegalOpcode op (s.regs.pc - 1#16) := by
  rcases exec_cases i s with ⟨-, t, ht⟩ | ⟨op, hp, he⟩ | ⟨-, ho⟩
  · cases ht.symm.trans h
  · cases he.symm.trans h
    exact ⟨op, hp, rfl⟩
  · rw [h] at ho
    exact ho.elim

theorem exec_eq_refused {i : Instr} {s : State} {r : Refusal} (h : exec i s = .refused r) : IsDmaRefusal r := by
  rcases exec_cases i s with ⟨-, t, ht⟩ | ⟨op, hp, he⟩ | ⟨-, ho⟩
  · cases ht.symm.trans h
  · cases he.symm.trans h
  · rw [h] at ho
    exact ho

theorem executePhase_of_running {s : State} (h : s.run = .running) : executePhase s = fetchAndExec s := if_pos h

theorem executePhase_of_sleeping {s : State} (h : s.run ≠ .running) : executePhase s = .next (s.tick 4) := if_neg h

theorem fetchAndExec_of_ok {s : State} {i : Instr} (h : fetchInstr s = .ok i) :
    fetchAndExec s = exec i (afterInstr s) := by
  unfold fetchAndExec
  rw [h]

theorem fetchAndExec_of_error {s : State} {b : Byte} (h : fetchInstr s = .error b) :
    fetchAndExec s = .refused (.stopOperand b) := by
  unfold fetchAndExec
  rw [h]

theorem executePhase_eq_fault {s : State} {e : Fault} (h : executePhase s = .fault e) :
    ∃ p pc, p ∈ illegalOpcodes ∧ e = .illegalOpcode p.2 pc := by
  by_cases hrun : s.run = .running
  · rw [executePhase_of_running hrun] at h
    cases hfetch : fetchInstr s with
    | ok i =>
      rw [fetchAndExec_of_ok hfetch] at h
      obtain ⟨op, hp, he⟩ := exec_eq_fault h
      exact ⟨_, _, hp, he⟩
    | error b => cases (fetchAndExec_of_error hfetch).symm.trans h
  · cases (executePhase_of_sleeping hrun).symm.trans h

theorem executePhase_eq_refused {s : State} {r : Refusal} (h : executePhase s = .refused r) :
    IsDmaRefusal r ∨ ∃ b, b ≠ 0x00#8 ∧ r = .stopOperand b := by
  by_cases hrun : s.run = .running
  · rw [executePhase_of_running hrun] at h
    cases hfetch : fetchInstr s with
    | ok i =>
      rw [fetchAndExec_of_ok hfetch] at h
      exact .inl (exec_eq_refused h)
    | error b =>
      obtain ⟨-, hb, he⟩ := decodeOp_eq_error.1 hfetch
      cases (fetchAndExec_of_error hfetch).symm.trans h
      exact .inr ⟨b, he ▸ hb, rfl⟩
  · cases (executePhase_of_sleeping hrun).symm.trans h

theorem step_eq_fault {s : State} {e : Fault} : step s = .fault e ↔ interruptPhase (environment s) = .fault e ∨
    ∃ u, interruptPhase (environment s) = .next u ∧ executePhase u = .fault e := by
  simp [step, machineStep, andThen_eq_fault]

theorem step_eq_refused {s : State} {r : Refusal} : step s = .refused r ↔
    interruptPhase (environment s) = .refused r ∨
      ∃ u, interruptPhase (environment s) = .next u ∧ executePhase u = .refused r := by
  simp [step, machineStep, andThen_eq_refused]

/-- Settles O12: `exec_cases` has no other fault and no other refusal, and the interrupt phase can only have a push
refused. -/
theorem nothingElseStopsTheMachine : Obligations.NothingElseStopsTheMachine := by
  unfold Obligations.NothingElseStopsTheMachine
  refine ⟨fun s i e h => exec_eq_fault h, fun s i r h => exec_eq_refused h, fun s e h => ?_, fun s r h => ?_⟩
  · have hphase := interruptPhase_outcome (environment s)
    rcases step_eq_fault.1 h with hi | ⟨u, -, hu⟩
    · rw [hi] at hphase
      exact hphase.elim
    · exact executePhase_eq_fault hu
  · have hphase := interruptPhase_outcome (environment s)
    rcases step_eq_refused.1 h with hi | ⟨u, -, hu⟩
    · rw [hi] at hphase
      exact or_assoc.1 (.inl hphase)
    · exact or_assoc.1 (executePhase_eq_refused hu)

end Sys2Proof.Machine

/-! The invariant of 10_state.md R37, phase by phase: what the bus, the Timer, the PPU, the moves before a step and the
instructions keep of it. -/

namespace Sys2Proof.Machine

/-! ## Bits that no register of the I/O file has (R37 (g)) -/

/-- The registers of R37 (g) with the bits that they do not have. -/
def missingBits : List (Nat × Byte) :=
  [(0x0F, 0xE0#8), (0x07, 0xF8#8), (0x41, 0x80#8), (0x4D, 0xFE#8), (0x4F, 0xFE#8), (0x70, 0xF8#8), (0x68, 0x40#8),
    (0x6A, 0x40#8)]

theorem ioWf_iff (s : State) : IoWf s ↔ ∀ p ∈ missingBits, s.io p.1 &&& p.2 = 0#8 := by
  simp only [missingBits, List.forall_mem_cons, List.not_mem_nil, false_imp_iff, implies_true, and_true]
  rfl

/-- A byte whose missing bits are 0 may be stored. -/
theorem ioWf_setIo {s : State} {o : Nat} {v : Byte} (hwf : s.mem.wf) (h : IoWf s)
    (hv : ∀ m, (o, m) ∈ missingBits → v &&& m = 0#8) : IoWf (s.setIo o v) := by
  rw [ioWf_iff] at h ⊢
  intro p hp
  by_cases ho : p.1 = o
  · subst ho
    rw [io_setIo_same hwf]
    exact hv p.2 hp
  · rw [io_setIo_other s v ho]
    exact h p hp

/-- No register's write mask has a bit that the register does not have (20_memory.md R70). -/
theorem ioMasks_missing (cgb : Bool) : ∀ p ∈ missingBits, (ioMasks cgb p.1).1 &&& p.2 = 0#8 := by
  cases cgb <;> decide

theorem or_and_eq_zero {a b m : Byte} (ha : a &&& m = 0#8) (hb : b &&& m = 0#8) : (a ||| b) &&& m = 0#8 := by
  rw [BitVec.and_or_distrib_right, ha, hb, BitVec.or_zero]

theorem and_and_eq_zero {a m : Byte} (b : Byte) (ha : a &&& m = 0#8) : (a &&& b) &&& m = 0#8 := by
  rw [BitVec.and_assoc, BitVec.and_comm b, ← BitVec.and_assoc, ha, BitVec.zero_and]

/-- A store under a mask adds no bit outside the mask. -/
theorem maskedStore_and_eq_zero {x w m : Byte} (v : Byte) (hx : x &&& m = 0#8) (hw : w &&& m = 0#8) :
    ((x &&& ~~~w) ||| (v &&& w)) &&& m = 0#8 :=
  or_and_eq_zero (and_and_eq_zero _ hx) (by rw [BitVec.and_assoc, hw, BitVec.and_zero])

/-! ## The part of the invariant that the bus reaches -/

/-- The invariant of the configuration, the arrays, the I/O file and the controller. -/
structure StoreInv (s : State) : Prop where
  params : ParamsWf s.params
  mbc2Ram : s.mbc.kind = .mbc2 → s.params.ramSize = 512
  memForm : s.mem.wf
  memSize : s.mem.sized s.params.ramSize
  io : IoWf s

/-- The same with the Timer: all that the bus, the Timer and the line events can touch, but for the PPU's own state. -/
structure BusInv (s : State) : Prop extends StoreInv s where
  timer : TimerWf s

theorem timaPeriod_pos {p : Params} (h : ParamsWf p) (tac : Byte) : 0 < timaPeriod p tac := by
  obtain ⟨-, -, -, -, -, -, -, h0, h1, h2, h3⟩ := h
  unfold timaPeriod
  split <;> assumption

/-- `TimerWf` looks at the configuration, the Timer and TAC. -/
theorem timerWf_congr {s t : State} (hp : t.params = s.params) (ht : t.timer = s.timer) (htac : t.tac = s.tac)
    (h : TimerWf s) : TimerWf t := by
  unfold TimerWf
  rw [hp, ht, htac]
  exact h

theorem StoreInv.setIo {s : State} {o : Nat} {v : Byte} (h : StoreInv s) (ho : o < 128)
    (hv : ∀ m, (o, m) ∈ missingBits → v &&& m = 0#8) : StoreInv (s.setIo o v) := by
  obtain ⟨hvram, heram, hwram, hoam, hio, hrest⟩ := h.memSize
  exact ⟨h.params, h.mbc2Ram, wf_setIo o v h.memForm,
    ⟨hvram, heram, hwram, hoam, Memory.within_write hio ho v, hrest⟩, ioWf_setIo h.memForm h.io hv⟩

theorem BusInv.setIo {s : State} {o : Nat} {v : Byte} (h : BusInv s) (ho : o < 128) (htac : o ≠ 0x07)
    (hv : ∀ m, (o, m) ∈ missingBits → v &&& m = 0#8) : BusInv (s.setIo o v) :=
  ⟨h.toStoreInv.setIo ho hv, timerWf_congr (s := s) rfl rfl (io_setIo_other s v htac.symm) h.timer⟩

/-- The missing bits of one register of R37 (g), from the one entry it has. -/
theorem BusInv.setIo_of_mem {s : State} {o : Nat} {v m : Byte} (h : BusInv s) (htac : o ≠ 0x07)
    (hm : (o, m) ∈ missingBits) (hv : v &&& m = 0#8) : BusInv (s.setIo o v) := by
  have hentry : ∀ p ∈ missingBits, p.1 < 128 ∧ ∀ q ∈ missingBits, p.1 = q.1 → p.2 = q.2 := by decide
  obtain ⟨ho, hunique⟩ := hentry _ hm
  refine h.setIo ho htac fun m' hm' => ?_
  have hmm : m = m' := hunique _ hm' rfl
  exact hmm ▸ hv

theorem BusInv.missing {s : State} (h : BusInv s) {o : Nat} {m : Byte} (hm : (o, m) ∈ missingBits) :
    s.io o &&& m = 0#8 := (ioWf_iff s).1 h.io _ hm

theorem StoreInv.ioStore {s : State} {o : Nat} (h : StoreInv s) (ho : o < 128) (v : Byte) :
    StoreInv (ioStore s o v) :=
  h.setIo ho fun _ hm => maskedStore_and_eq_zero v ((ioWf_iff s).1 h.io _ hm) (ioMasks_missing _ _ hm)

/-! ## Requests, the compare bit and the mode (60_exceptions.md R301, R355 to R360) -/

theorem BusInv.request {s : State} (h : BusInv s) (i : Fin 5) : BusInv (request s i) :=
  h.setIo_of_mem (m := 0xE0#8) (by decide) (by decide)
    (or_and_eq_zero (h.missing (by decide)) (by revert i; decide))

theorem BusInv.clearRequest {s : State} (h : BusInv s) (i : Fin 5) : BusInv (clearRequest s i) :=
  h.setIo_of_mem (m := 0xE0#8) (by decide) (by decide) (and_and_eq_zero _ (h.missing (by decide)))

theorem BusInv.compareLine {s : State} (h : BusInv s) : BusInv (compareLine s) :=
  h.setIo_of_mem (m := 0x80#8) (by decide) (by decide)
    (or_and_eq_zero (and_and_eq_zero _ (h.missing (by decide))) (by split <;> decide))

theorem BusInv.setMode {s : State} (h : BusInv s) (m : Fin 4) : BusInv (setMode s m) :=
  h.setIo_of_mem (m := 0x80#8) (by decide) (by decide)
    (or_and_eq_zero (and_and_eq_zero _ (h.missing (by decide))) (by revert m; decide))

/-! ## Bus writes -/

/-- A store to one array, inside it. -/
theorem BusInv.withMem {s : State} {m : Mem} (h : BusInv s) (hio : m.io = s.mem.io) (hform : m.wf)
    (hsize : m.sized s.params.ramSize) : BusInv { s with mem := m } := by
  have hreg : ∀ o, State.io { s with mem := m } o = s.io o := fun o => by unfold State.io; rw [hio]
  refine ⟨⟨h.params, h.mbc2Ram, hform, hsize, (ioWf_iff _).2 fun p hp => ?_⟩, timerWf_congr (s := s) rfl rfl (hreg 7) h.timer⟩
  rw [hreg]
  exact (ioWf_iff s).1 h.io p hp

theorem BusInv.writeVram {s : State} (h : BusInv s) {o : Nat} (ho : o < 0x4000) (v : Byte) :
    BusInv { s with mem.vram := s.mem.vram.write o v } := by
  obtain ⟨hf, hforms⟩ := h.memForm
  obtain ⟨hs, hsizes⟩ := h.memSize
  exact h.withMem rfl ⟨Memory.wf_write hf o v, hforms⟩ ⟨Memory.within_write hs ho v, hsizes⟩

theorem BusInv.writeEram {s : State} (h : BusInv s) {o : Nat} (ho : o < s.params.ramSize) (v : Byte) :
    BusInv { s with mem.eram := s.mem.eram.write o v } := by
  obtain ⟨hf0, hf, hforms⟩ := h.memForm
  obtain ⟨hs0, hs, hsizes⟩ := h.memSize
  exact h.withMem rfl ⟨hf0, Memory.wf_write hf o v, hforms⟩ ⟨hs0, Memory.within_write hs ho v, hsizes⟩

theorem BusInv.writeWram {s : State} (h : BusInv s) {o : Nat} (ho : o < 0x8000) (v : Byte) :
    BusInv { s with mem.wram := s.mem.wram.write o v } := by
  obtain ⟨hf0, hf1, hf, hforms⟩ := h.memForm
  obtain ⟨hs0, hs1, hs, hsizes⟩ := h.memSize
  exact h.withMem rfl ⟨hf0, hf1, Memory.wf_write hf o v, hforms⟩ ⟨hs0, hs1, Memory.within_write hs ho v, hsizes⟩

theorem BusInv.writeOam {s : State} (h : BusInv s) {o : Nat} (ho : o < 160) (v : Byte) :
    BusInv { s with mem.oam := s.mem.oam.write o v } := by
  obtain ⟨hf0, hf1, hf2, hf, hforms⟩ := h.memForm
  obtain ⟨hs0, hs1, hs2, hs, hsizes⟩ := h.memSize
  exact h.withMem rfl ⟨hf0, hf1, hf2, Memory.wf_write hf o v, hforms⟩
    ⟨hs0, hs1, hs2, Memory.within_write hs ho v, hsizes⟩

theorem BusInv.writeHram {s : State} (h : BusInv s) {o : Nat} (ho : o < 127) (v : Byte) :
    BusInv { s with mem.hram := s.mem.hram.write o v } := by
  obtain ⟨hf0, hf1, hf2, hf3, hf4, hf, hforms⟩ := h.memForm
  obtain ⟨hs0, hs1, hs2, hs3, hs4, hs, hsizes⟩ := h.memSize
  exact h.withMem rfl ⟨hf0, hf1, hf2, hf3, hf4, Memory.wf_write hf o v, hforms⟩
    ⟨hs0, hs1, hs2, hs3, hs4, Memory.within_write hs ho v, hsizes⟩

theorem BusInv.writeBgpal {s : State} (h : BusInv s) {o : Nat} (ho : o < 64) (v : Byte) :
    BusInv { s with mem.bgpal := s.mem.bgpal.write o v } := by
  obtain ⟨hf0, hf1, hf2, hf3, hf4, hf5, hf, hforms⟩ := h.memForm
  obtain ⟨hs0, hs1, hs2, hs3, hs4, hs5, hs, hsizes⟩ := h.memSize
  exact h.withMem rfl ⟨hf0, hf1, hf2, hf3, hf4, hf5, Memory.wf_write hf o v, hforms⟩
    ⟨hs0, hs1, hs2, hs3, hs4, hs5, Memory.within_write hs ho v, hsizes⟩

theorem BusInv.writeObjpal {s : State} (h : BusInv s) {o : Nat} (ho : o < 64) (v : Byte) :
    BusInv { s with mem.objpal := s.mem.objpal.write o v } := by
  obtain ⟨hf0, hf1, hf2, hf3, hf4, hf5, hf6, hf⟩ := h.memForm
  obtain ⟨hs0, hs1, hs2, hs3, hs4, hs5, hs6, hs⟩ := h.memSize
  exact h.withMem rfl ⟨hf0, hf1, hf2, hf3, hf4, hf5, hf6, Memory.wf_write hf o v⟩
    ⟨hs0, hs1, hs2, hs3, hs4, hs5, hs6, Memory.within_write hs ho v⟩

theorem BusInv.withMbc {s : State} {m : Mbc} (h : BusInv s) (hkind : m.kind = s.mbc.kind) :
    BusInv { s with mbc := m } :=
  ⟨⟨h.params, fun hm => h.mbc2Ram (hkind.symm.trans hm), h.memForm, h.memSize, h.io⟩, h.timer⟩

theorem BusInv.withTimer {s : State} {u : Timer} (h : BusInv s)
    (hu : u.divAcc < s.params.divTickCycles ∧ u.timaAcc < timaPeriod s.params s.tac) : BusInv { s with timer := u } :=
  ⟨⟨h.params, h.mbc2Ram, h.memForm, h.memSize, h.io⟩, hu⟩

theorem BusInv.withHost {s : State} (h : BusInv s) (host : HostSide) : BusInv { s with host := host } :=
  ⟨⟨h.params, h.mbc2Ram, h.memForm, h.memSize, h.io⟩, h.timer⟩

theorem BusInv.afterRead {s : State} (h : BusInv s) (a : Word) : BusInv (afterRead s a) := by
  unfold Machine.afterRead
  split
  · exact h.withHost _
  · exact h

theorem BusInv.withCpu {s : State} (h : BusInv s) (g : Regs) (i : Ime) (r : RunState) (n : Nat) :
    BusInv (s.withCpu g i r n) :=
  ⟨⟨h.params, h.mbc2Ram, h.memForm, h.memSize, h.io⟩, h.timer⟩

theorem vramBank_le (s : State) : s.vramBank ≤ 1 := by
  unfold State.vramBank
  split <;> omega

theorem wramOffset_lt (s : State) {n : Nat} (hn : 0xC000 ≤ n ∧ n ≤ 0xDFFF) : s.wramOffset n < 0x8000 := by
  have hbank : s.wramBank ≤ 7 := by unfold State.wramBank; split <;> omega
  unfold State.wramOffset
  split <;> omega

theorem BusInv.oamDma {s : State} (h : BusInv s) (page : Byte) : BusInv (oamDma s page) :=
  foldl_invariant _ (fun _ _ hi ht => (ht.afterRead _).writeOam (List.mem_range.1 hi) _) h

theorem BusInv.gdma {s : State} (h : BusInv s) (v : Byte) : BusInv (gdma s v) := by
  refine foldl_invariant _ (fun t i _ ht => (ht.afterRead _).writeVram ?_ _) h
  have hbank := vramBank_le t
  omega

theorem paletteIndex_lt (ps : Byte) : paletteIndex ps < 64 := Nat.mod_lt _ (by decide)

theorem paletteStep_missing {ps : Byte} (h : ps &&& 0x40#8 = 0#8) : paletteStep ps &&& 0x40#8 = 0#8 := by
  have hstep : ∀ n < 64, (0x80#8 ||| BitVec.ofNat 8 n) &&& 0x40#8 = 0#8 := by decide
  unfold paletteStep
  split
  · exact hstep _ (Nat.mod_lt _ (by decide))
  · exact h

theorem BusInv.bgPaletteWrite {s : State} (h : BusInv s) (v : Byte) : BusInv (bgPaletteWrite s v) :=
  (h.writeBgpal (paletteIndex_lt _) v).setIo_of_mem (m := 0x40#8) (by decide) (by decide)
    (paletteStep_missing (h.missing (by decide)))

theorem BusInv.objPaletteWrite {s : State} (h : BusInv s) (v : Byte) : BusInv (objPaletteWrite s v) :=
  (h.writeObjpal (paletteIndex_lt _) v).setIo_of_mem (m := 0x40#8) (by decide) (by decide)
    (paletteStep_missing (h.missing (by decide)))

theorem BusInv.ioStore {s : State} (h : BusInv s) {o : Nat} (ho : o < 128) (htac : o ≠ 0x07) (v : Byte) :
    BusInv (ioStore s o v) :=
  ⟨h.toStoreInv.ioStore ho v, timerWf_congr (s := s) rfl rfl (io_setIo_other s _ htac.symm) h.timer⟩

theorem BusInv.divReset {s : State} (h : BusInv s) : BusInv (divReset s) := by
  obtain ⟨-, -, -, -, -, -, hdiv, -⟩ := h.params
  obtain ⟨-, htima⟩ := h.timer
  exact h.withTimer ⟨hdiv, htima⟩

/-- A write to TAC may change the period; the accumulator it clears is below any. -/
theorem BusInv.writeTac {s : State} (h : BusInv s) (v : Byte) : BusInv (timaAccReset (Machine.ioStore s 0x07 v)) := by
  have hs := h.toStoreInv.ioStore (o := 0x07) (by decide) v
  obtain ⟨hdiv, -⟩ := h.timer
  exact ⟨⟨hs.params, hs.mbc2Ram, hs.memForm, hs.memSize, hs.io⟩, hdiv, timaPeriod_pos h.params _⟩

theorem BusInv.ioWrite {s : State} (h : BusInv s) {o : Nat} (ho : o < 128) (v : Byte) : BusInv (ioWrite s o v) := by
  by_cases htac : o = 0x07
  · subst htac
    exact h.writeTac v
  have hstore := h.ioStore ho htac v
  unfold Machine.ioWrite
  dsimp only
  split
  · exact hstore.divReset
  · exact absurd rfl htac
  · exact hstore.compareLine
  · exact hstore.oamDma v
  · split
    · exact hstore.gdma v
    · exact hstore
  · split
    · exact hstore.bgPaletteWrite v
    · exact hstore
  · split
    · exact hstore.objPaletteWrite v
    · exact hstore
  · exact hstore

/-- A register write keeps the variant (10_state.md R32). -/
theorem kind_regWrite (m : Mbc) (a : Nat) (v : Byte) : (m.regWrite a v).kind = m.kind := by
  cases m <;> simp only [Mbc.regWrite] <;> repeat' split
  all_goals rfl

theorem kind_clockWrite (m : Mbc) (i : Nat) (v : Byte) : (m.clockWrite i v).kind = m.kind := by
  cases m <;> rfl

/-- The RAM window reaches bytes of the external RAM only: a 4-bit cell only with MBC2, which has 512 of them. -/
theorem eramRoute_lt {p : Params} {m : Mbc} (a : Nat) (hmbc2 : m.kind = .mbc2 → p.ramSize = 512) :
    (∀ o, eramRoute p m a = .ram o → o < p.ramSize) ∧ ∀ o, eramRoute p m a = .nibble o → o < p.ramSize := by
  have hmod : ∀ n, p.ramSize ≠ 0 → n % p.ramSize < p.ramSize := fun n h => Nat.mod_lt n (Nat.pos_of_ne_zero h)
  cases m with
  | none =>
    simp only [eramRoute]
    split <;> simp_all
  | mbc1 enable bank =>
    simp only [eramRoute, eramOffset]
    split <;> simp_all
  | mbc2 enable romBank =>
    have h512 : ∀ n, n % 512 < p.ramSize := fun n =>
      Nat.lt_of_lt_of_eq (Nat.mod_lt n (by decide)) (hmbc2 rfl).symm
    simp only [eramRoute]
    split <;> simp_all
  | mbc3 enable romBank sel latch live latched =>
    simp only [eramRoute, eramOffset]
    repeat' split
    all_goals simp_all
  | mbc5 enable romBank ramBank =>
    simp only [eramRoute, eramOffset]
    split <;> simp_all

theorem BusInv.eramWrite {s : State} (h : BusInv s) (a : Nat) (v : Byte) : BusInv (eramWrite s a v) := by
  obtain ⟨hram, hnibble⟩ := eramRoute_lt a h.mbc2Ram
  unfold Machine.eramWrite
  split
  next => exact h
  next o ho => exact h.writeEram (hram o ho) v
  next o ho => exact h.writeEram (hnibble o ho) _
  next i _ => exact h.withMbc (kind_clockWrite _ i v)

theorem BusInv.busStore {s : State} (h : BusInv s) (a : Word) (v : Byte) : BusInv (busStore s a v) := by
  have hcovers := route_covers s a
  unfold Machine.busStore
  cases hroute : route s a <;> rw [hroute] at hcovers <;> simp only [Target.Covers] at hcovers <;> dsimp only
  case rom => exact h.withMbc (kind_regWrite ..)
  case vram o =>
    have hbank := vramBank_le s
    exact h.writeVram (by omega) v
  case eram => exact h.eramWrite _ v
  case wram o =>
    obtain ⟨hlo, hhi, rfl⟩ := hcovers
    exact h.writeWram (wramOffset_lt s (unmirror_wram hlo hhi)) v
  case oam o => exact h.writeOam (by omega) v
  case unusable => exact h
  case io o => exact h.ioWrite (by omega) v
  case hram o => exact h.writeHram (by omega) v
  case ie => exact h.withMem rfl h.memForm h.memSize

/-- A run of bus accesses keeps it. -/
theorem BusInv.accesses {s t : State} (h : BusInv s) (ha : Accesses s t) : BusInv t :=
  ha.keeps (fun _ g i r n hs => hs.withCpu g i r n) (fun _ a hs => hs.afterRead a) (fun _ a v hs => hs.busStore a v) h


/-! ## The Timer (60_exceptions.md R330 to R334) -/

theorem BusInv.timaIncrement {s : State} (h : BusInv s) : BusInv (timaIncrement s) := by
  have hstore : ∀ v, BusInv (s.setIo 0x05 v) := fun v =>
    h.setIo (by decide) (by decide) fun m hm => absurd hm (by revert m; decide)
  unfold Machine.timaIncrement
  split
  · exact (hstore _).request 2
  · exact hstore _

theorem BusInv.timaIncrements {s : State} (h : BusInv s) (n : Nat) : BusInv (timaIncrements s n) := by
  induction n generalizing s with
  | zero => exact h
  | succ n ih => exact ih h.timaIncrement

theorem BusInv.divAdvance {s : State} (h : BusInv s) (n : Nat) : BusInv (divAdvance s n) := by
  obtain ⟨-, -, -, -, -, -, hdiv, -⟩ := h.params
  obtain ⟨-, htima⟩ := h.timer
  exact h.withTimer ⟨Nat.mod_lt _ hdiv, htima⟩

theorem BusInv.timerAdvance {s : State} (h : BusInv s) (n : Nat) : BusInv (timerAdvance s n) := by
  have hd := h.divAdvance n
  obtain ⟨hdiv, -⟩ := hd.timer
  unfold Machine.timerAdvance timaAdvance
  dsimp only
  split
  · apply BusInv.timaIncrements
    exact hd.withTimer ⟨hdiv, Nat.mod_lt _ (timaPeriod_pos hd.params _)⟩
  · exact hd

/-! ## The PPU (60_exceptions.md R350 to R362) -/

/-- The invariant of all that the devices touch. -/
structure DeviceInv (s : State) : Prop extends BusInv s where
  ppu : PpuWf s.ppu

theorem BusInv.withPpu {s : State} {p : Ppu} (h : BusInv s) (hp : PpuWf p) : DeviceInv { s with ppu := p } :=
  ⟨⟨⟨h.params, h.mbc2Ram, h.memForm, h.memSize, h.io⟩, h.timer⟩, hp⟩

theorem BusInv.statEvent {s : State} (h : BusInv s) (b : Nat) : BusInv (statEvent b s) := by
  unfold Machine.statEvent
  split
  · exact h.request 1
  · exact h

theorem BusInv.startLine {s : State} (h : BusInv s) (y : Nat) : BusInv (startLine y s) := by
  have hcompare := (h.setIo (o := 0x44) (v := BitVec.ofNat 8 y) (by decide) (by decide)
    fun m hm => absurd hm (by revert m; decide)).compareLine
  unfold Machine.startLine
  dsimp only
  split
  · exact hcompare.statEvent 6
  · exact hcompare

/-- The selection is of at most ten sprites of OAM (R37 (e)). -/
theorem selectSprites_wf (s : State) (line : Nat) :
    (selectSprites s line).length ≤ 10 ∧ ∀ i ∈ selectSprites s line, i < 40 := by
  have hmem : ∀ i ∈ ((List.range 40).filter (s.spriteOnLine line)).take 10, i < 40 := fun i hi =>
    List.mem_range.1 ((List.mem_filter.1 (List.mem_of_mem_take hi)).1)
  have hlen : (((List.range 40).filter (s.spriteOnLine line)).take 10).length ≤ 10 := List.length_take_le ..
  unfold selectSprites
  dsimp only
  split
  · exact ⟨hlen, hmem⟩
  · exact ⟨Nat.le_trans (Nat.le_of_eq (length_sortByX s _)) hlen, fun i hi => hmem i ((mem_sortByX s i _).1 hi)⟩

theorem DeviceInv.enterOamScan {s : State} (h : DeviceInv s) (y : Nat) : DeviceInv (enterOamScan y s) := by
  obtain ⟨hcycle, -, -, hrows, hcols⟩ := h.ppu
  obtain ⟨hlen, hmem⟩ := selectSprites_wf (Machine.statEvent 5 (setMode s 2)) y
  have hppu : (Machine.statEvent 5 (setMode s 2)).ppu = s.ppu := statEvent_ppu ..
  refine ((h.toBusInv.setMode 2).statEvent 5).withPpu ?_
  exact ⟨by rw [hppu]; exact hcycle, hlen, hmem, by rw [hppu]; exact hrows, by rw [hppu]; exact hcols⟩

theorem DeviceInv.enterTransfer {s : State} (h : DeviceInv s) (y : Nat) : DeviceInv (enterTransfer y s) := by
  obtain ⟨hcycle, hlen, hmem, hrows, hcols⟩ := h.ppu
  refine (h.toBusInv.setMode 3).withPpu ⟨hcycle, hlen, hmem, ?_, fun row hrow => ?_⟩
  · exact List.length_set.trans hrows
  · rcases List.mem_or_eq_of_mem_set hrow with hold | rfl
    · exact hcols row hold
    · exact length_renderLine ..

/-- A line event that leaves the PPU's own state. -/
theorem DeviceInv.of_busInv {s t : State} (h : BusInv t) (hp : t.ppu = s.ppu) (hs : PpuWf s.ppu) : DeviceInv t :=
  ⟨h, hp ▸ hs⟩

theorem DeviceInv.lcdOnDot {s : State} (h : DeviceInv s) : DeviceInv (lcdOnDot s) := by
  have hline : ∀ y, DeviceInv (Machine.startLine y s) := fun y =>
    .of_busInv (h.toBusInv.startLine y) (startLine_ppu y s) h.ppu
  unfold Machine.lcdOnDot
  dsimp only
  split
  · split
    · exact (hline _).enterOamScan _
    · split
      · exact .of_busInv ((((hline _).toBusInv.setMode 1).request 0).statEvent 4) (statEvent_ppu ..) (hline _).ppu
      · exact hline _
  · split
    · exact h.enterTransfer _
    · split
      · exact .of_busInv ((h.toBusInv.setMode 0).statEvent 3) (statEvent_ppu ..) h.ppu
      · exact h

theorem DeviceInv.lcdOffDot {s : State} (h : DeviceInv s) : DeviceInv (lcdOffDot s) := by
  obtain ⟨hcycle, hlen, hmem, -, -⟩ := h.ppu
  unfold Machine.lcdOffDot
  split
  · refine h.toBusInv.withPpu ⟨hcycle, hlen, hmem, List.length_replicate, fun row hrow => ?_⟩
    rw [List.eq_of_mem_replicate hrow, List.length_replicate]
  · exact h

theorem DeviceInv.ppuDot {s : State} (h : DeviceInv s) : DeviceInv (ppuDot s) := by
  obtain ⟨-, hrest⟩ := h.ppu
  have hcount : DeviceInv { s with ppu.cycle := (s.ppu.cycle + 1) % dotsPerFrame } :=
    h.toBusInv.withPpu ⟨Nat.mod_lt _ (by decide), hrest⟩
  unfold Machine.ppuDot
  dsimp only
  split
  · exact hcount.lcdOnDot
  · exact hcount.lcdOffDot

theorem DeviceInv.ppuAdvance {s : State} (h : DeviceInv s) (n : Nat) : DeviceInv (ppuAdvance s n) := by
  induction n generalizing s with
  | zero => exact h
  | succ n ih => exact ih h.ppuDot

/-! ## The moves before a step (60_exceptions.md R313, R340, 20_memory.md R118) -/

theorem kind_rtcTicks (m : Mbc) (n : Nat) : (m.rtcTicks n).kind = m.kind := by
  have htick : ∀ m : Mbc, m.rtcTick.kind = m.kind := fun m => by cases m <;> rfl
  induction n generalizing m with
  | zero => rfl
  | succ n ih => exact (ih _).trans (htick m)

theorem BusInv.withKeys {s : State} (h : BusInv s) (prev now : Keys) :
    BusInv { s with keysPrev := prev, keys := now } :=
  ⟨⟨h.params, h.mbc2Ram, h.memForm, h.memSize, h.io⟩, h.timer⟩

theorem BusInv.sampleKeys {s : State} (h : BusInv s) (k : Keys) : BusInv (sampleKeys k s) := by
  unfold Machine.sampleKeys
  dsimp only
  split
  · exact (h.withKeys _ _).request 4
  · exact h.withKeys _ _

theorem BusInv.environment {s : State} (h : BusInv s) : BusInv (environment s) := by
  have hhost : BusInv (hostMove s) := by
    unfold hostMove
    split
    · split
      · exact (h.withHost _).sampleKeys _
      · exact h.sampleKeys _
    · exact h
  unfold Machine.environment clockMove
  split
  · exact (hhost.withMbc (kind_rtcTicks ..)).withHost _
  · exact hhost

/-! ## The step -/

/-- The invariant inside a step: all of R37 but that the step's cycles are 0. -/
structure MidStepInv (s : State) : Prop extends DeviceInv s where
  flags : FlagForm s
  speed : s.doubleSpeed = true → s.params.cgbMode = true

theorem inv_iff (s : State) : s.Inv ↔ MidStepInv s ∧ s.cyc = 0 :=
  ⟨fun h => ⟨⟨⟨⟨⟨h.params, h.mbc2Ram, h.memForm, h.memSize, h.io⟩, h.timer⟩, h.ppu⟩, h.flags, h.speed⟩, h.cyc⟩,
    fun ⟨h, hcyc⟩ => ⟨h.params, h.mbc2Ram, h.flags, h.memForm, h.memSize, h.io, h.timer, h.ppu, h.speed, hcyc⟩⟩

theorem MidStepInv.environment {s : State} (h : MidStepInv s) : MidStepInv (environment s) := by
  have hbus := h.toBusInv.environment
  rw [environment_eq] at hbus ⊢
  exact ⟨⟨hbus, h.ppu⟩, h.flags, h.speed⟩

/-- What a run of bus accesses keeps, but for the flags. -/
theorem MidStepInv.of_accesses {s t : State} (h : MidStepInv s) (ha : Accesses s t) (hflags : FlagForm t) :
    MidStepInv t := by
  obtain ⟨hparams, hspeed, -, hppu, -⟩ := ha.keepsDevices
  refine ⟨⟨h.toBusInv.accesses ha, hppu ▸ h.ppu⟩, hflags, fun hd => ?_⟩
  rw [hparams]
  exact h.speed (hspeed ▸ hd)

theorem MidStepInv.interruptPhase {s t : State} (h : MidStepInv s) (ht : interruptPhase s = .next t) :
    MidStepInv t := by
  have hafter := interruptPhase_next ht
  obtain ⟨u, hu, hacc⟩ := hafter.accesses
  have hstart : MidStepInv u := by
    rcases hu with rfl | ⟨i, rfl⟩
    · exact h
    · exact ⟨⟨h.toBusInv.clearRequest i, h.ppu⟩, h.flags, h.speed⟩
  exact hstart.of_accesses hacc (hafter.flags h.flags)

theorem BusInv.switchSpeed {s : State} (h : BusInv s) : BusInv (switchSpeed s) := by
  have hspeed : BusInv { s with doubleSpeed := !s.doubleSpeed } :=
    ⟨⟨h.params, h.mbc2Ram, h.memForm, h.memSize, h.io⟩, h.timer⟩
  exact hspeed.setIo_of_mem (m := 0xFE#8) (by decide) (by decide) (and_and_eq_zero _ (h.missing (by decide)))

theorem MidStepInv.stop {s : State} (h : MidStepInv s) :
    MidStepInv ((if speedSwitchArmed s then switchSpeed s else s.setRun .stopped).tick 4) := by
  split
  next harmed =>
    have hcgb : s.params.cgbMode = true := (Bool.and_eq_true_iff.1 harmed).1
    exact ⟨⟨h.toBusInv.switchSpeed.withCpu s.regs s.ime s.run (s.cyc + 4), h.ppu⟩, h.flags, fun _ => hcgb⟩
  next => exact h.of_accesses (Accesses.refl.cpu s.regs s.ime .stopped (s.cyc + 4)) h.flags

theorem MidStepInv.exec {i : Instr} {s t : State} (h : MidStepInv s) (ht : exec i s = .next t) : MidStepInv t := by
  by_cases hstop : i = .stop
  · subst hstop
    cases ht
    exact h.stop
  · exact h.of_accesses (exec_accesses ht hstop) (exec_flagForm ht h.flags)

theorem within_afterFetches (s : State) (n : Nat) : Within s (afterFetches s n) := by
  induction n generalizing s with
  | zero => exact .refl s
  | succ n ih => exact (within_afterFetch s).trans (ih _)

theorem MidStepInv.executePhase {s t : State} (h : MidStepInv s) (ht : executePhase s = .next t) : MidStepInv t := by
  rcases executePhase_eq_next.1 ht with ⟨-, i, -, hexec⟩ | ⟨-, rfl⟩
  · have hfetch : Within s (afterInstr s) := within_afterFetches s _
    exact (h.of_accesses hfetch.accesses (hfetch.flags h.flags)).exec hexec
  · exact h.of_accesses (Accesses.refl.cpu s.regs s.ime s.run (s.cyc + 4)) h.flags

theorem MidStepInv.advancePhase {s : State} (h : MidStepInv s) : (advancePhase s).Inv := by
  have hcount : BusInv { s with cycles := s.cycles + s.cyc } :=
    ⟨⟨h.params, h.mbc2Ram, h.memForm, h.memSize, h.io⟩, h.timer⟩
  have htimer : DeviceInv (Machine.timerAdvance { s with cycles := s.cycles + s.cyc } s.cyc) :=
    .of_busInv (hcount.timerAdvance s.cyc) (timerAdvance_ppu ..) h.ppu
  have hdev := (timerAdvance_devicesOnly { s with cycles := s.cycles + s.cyc } s.cyc).trans
    (ppuAdvance_devicesOnly (ppuCycles s) _)
  have hppu := htimer.ppuAdvance (ppuCycles s)
  unfold Machine.advancePhase
  dsimp only
  generalize Machine.ppuAdvance _ (ppuCycles s) = u at *
  refine ⟨hppu.params, hppu.mbc2Ram, ?_, hppu.memForm, hppu.memSize, hppu.io, hppu.timer, hppu.ppu, ?_, rfl⟩
  · exact (congrArg (fun g : Regs => g.f &&& 0x0F#8) hdev.regs).trans h.flags
  · intro hd
    have hspeed : s.doubleSpeed = true := hdev.doubleSpeed.symm.trans hd
    exact (congrArg Params.cgbMode hdev.params).trans (h.speed hspeed)

/-- Settles O56: each phase keeps the invariant but for the step's cycles, which the last phase clears. -/
theorem stepKeepsTheInvariant : Obligations.StepKeepsTheInvariant := by
  unfold Obligations.StepKeepsTheInvariant
  intro s t hs ht
  obtain ⟨u, v, hu, hv, rfl⟩ := step_eq_next.1 ht
  obtain ⟨hmid, -⟩ := (inv_iff s).1 hs
  exact ((hmid.environment.interruptPhase hu).executePhase hv).advancePhase

end Sys2Proof.Machine

/-! The dots of the PPU (60_exceptions.md R351 to R362): one equation of `ppuDot` for each kind of dot, the registers after
each line event, the frame counter, and the selection of the sprites of a line. -/

namespace Sys2Proof.Machine

/-! ## One dot, by kind (R352 to R354) -/

/-- The frame counter moved on by one dot. -/
def countDot (s : State) : State := { s with ppu.cycle := (s.ppu.cycle + 1) % 70224 }

theorem ppuDot_of_lcdOn {s : State} (h : s.lcdcBit 7 = true) : ppuDot s = lcdOnDot (countDot s) := if_pos h

/-- With the LCD off nothing happens but the blank frame at the wrap (R353). -/
theorem ppuDot_of_lcdOff {s : State} (h : s.lcdcBit 7 = false) : ppuDot s = lcdOffDot (countDot s) :=
  if_neg (Bool.eq_false_iff.1 h)

/-- The events of the first dot of line `y` (R355, R356, R359). -/
def lineStart (y : Nat) (s : State) : State :=
  if y < 144 then enterOamScan y (startLine y s) else if y = 144 then enterVblank (startLine y s) else startLine y s

theorem lcdOnDot_of_lineStart {s : State} {y : Nat} (h : s.ppu.cycle = 456 * y) : lcdOnDot s = lineStart y s := by
  have hline : s.ppu.cycle / dotsPerLine = y := by rw [h]; exact Nat.mul_div_cancel_left y (by decide)
  have hdot : s.ppu.cycle % dotsPerLine = 0 := by rw [h]; exact Nat.mul_mod_right 456 y
  unfold lcdOnDot lineStart
  simp only [hline, hdot, if_true]

theorem lcdOnDot_of_dot80 {s : State} (hdot : s.ppu.cycle % 456 = 80) (hy : s.ppu.cycle / 456 < 144) :
    lcdOnDot s = enterTransfer (s.ppu.cycle / 456) s := by
  simp [lcdOnDot, dotsPerLine, hdot, hy]

theorem lcdOnDot_of_dot252 {s : State} (hdot : s.ppu.cycle % 456 = 252) (hy : s.ppu.cycle / 456 < 144) :
    lcdOnDot s = enterHblank s := by
  simp [lcdOnDot, dotsPerLine, hdot, hy]

theorem lcdOnDot_of_quiet {s : State} (h0 : s.ppu.cycle % 456 ≠ 0)
    (h : ¬((s.ppu.cycle % 456 = 80 ∨ s.ppu.cycle % 456 = 252) ∧ s.ppu.cycle / 456 < 144)) : lcdOnDot s = s := by
  unfold lcdOnDot dotsPerLine
  dsimp only
  rw [if_neg h0, if_neg (by omega), if_neg (by omega)]

/-! ## What the dots keep -/

theorem lineStart_cycle (y : Nat) (s : State) : (lineStart y s).ppu.cycle = s.ppu.cycle := by
  have hstart := congrArg Ppu.cycle (startLine_ppu y s)
  unfold lineStart
  split
  · exact (congrArg Ppu.cycle (statEvent_ppu 5 _)).trans hstart
  · split
    · exact (congrArg Ppu.cycle (statEvent_ppu 4 _)).trans hstart
    · exact hstart

theorem lcdOnDot_cycle (s : State) : (lcdOnDot s).ppu.cycle = s.ppu.cycle := by
  unfold lcdOnDot
  dsimp only
  split
  · exact lineStart_cycle _ s
  · split
    · rfl
    · split
      · exact congrArg Ppu.cycle (statEvent_ppu 3 _)
      · rfl

/-- A dot moves the frame counter by one, modulo the frame (R351). -/
theorem ppuDot_cycle (s : State) : (ppuDot s).ppu.cycle = (s.ppu.cycle + 1) % 70224 := by
  cases h : s.lcdcBit 7 with
  | true => rw [ppuDot_of_lcdOn h, lcdOnDot_cycle]; rfl
  | false =>
    rw [ppuDot_of_lcdOff h]
    unfold lcdOffDot
    split <;> rfl

/-! ## The frame counter (R313, R351, R352) -/

theorem ppuAdvance_cycle (n : Nat) {s : State} (h : s.ppu.cycle < 70224) :
    (ppuAdvance s n).ppu.cycle = (s.ppu.cycle + n) % 70224 := by
  induction n with
  | zero => exact (Nat.mod_eq_of_lt h).symm
  | succ n ih => rw [ppuAdvance_succ, ppuDot_cycle, ih, Nat.mod_add_mod, Nat.add_assoc]

/-- A run of dots shorter than a frame's rest does not wrap, a longer one does. -/
theorem ppuWraps_eq (n : Nat) {c : Nat} (h : c < 70224) : ppuWraps c n = decide (70224 ≤ c + n) := by
  induction n generalizing c with
  | zero => simpa [ppuWraps] using h
  | succ n ih =>
    have hnext : (c + 1) % dotsPerFrame < 70224 := Nat.mod_lt _ (by decide)
    rw [ppuWraps, ih hnext]
    by_cases hlast : c + 1 = 70224
    · rw [hlast]
      simp [dotsPerFrame]
      omega
    · rw [Nat.mod_eq_of_lt (show c + 1 < dotsPerFrame by unfold dotsPerFrame; omega)]
      simp
      omega

/-- Settles O51: by induction over the dots. -/
theorem frameCounterAdvances : Obligations.FrameCounterAdvances := by
  unfold Obligations.FrameCounterAdvances
  exact ⟨fun s n => ⟨rfl, ppuAdvance_succ s n⟩, fun s n h => ⟨ppuAdvance_cycle n h, ppuWraps_eq n h⟩⟩

/-! ## The registers after the start of a line (R355, R356, R359) -/

/-- What the comparison does to the registers (R82, R355). -/
theorem compareLine_registers {s : State} (h : s.mem.wf) :
    (compareLine s).stat = (s.stat &&& 0xFB#8) ||| (if s.ly = s.lyc then 0x04#8 else 0x00#8) ∧
      (compareLine s).ly = s.ly ∧ (compareLine s).lyc = s.lyc ∧ (compareLine s).ifReg = s.ifReg :=
  ⟨io_setIo_same h _ _, io_setIo_other s _ (by decide), io_setIo_other s _ (by decide),
    io_setIo_other s _ (by decide)⟩

/-- LY and LYC compared: STAT bit 2, and the request if STAT bit 6 enables it. -/
theorem startLine_registers (y : Nat) {s : State} (h : s.mem.wf) :
    (startLine y s).ly = BitVec.ofNat 8 y ∧ (startLine y s).lyc = s.lyc ∧
    (startLine y s).stat = (s.stat &&& 0xFB#8) ||| (if BitVec.ofNat 8 y = s.lyc then 0x04#8 else 0x00#8) ∧
    (startLine y s).ifReg =
      s.ifReg ||| (if decide (BitVec.ofNat 8 y = s.lyc) && s.stat.getLsbD 6 then 0x02#8 else 0x00#8) := by
  have hwf := wf_setIo 0x44 (BitVec.ofNat 8 y) h
  have hly : (s.setIo 0x44 (BitVec.ofNat 8 y)).ly = BitVec.ofNat 8 y := io_setIo_same h _ _
  have hlyc : (s.setIo 0x44 (BitVec.ofNat 8 y)).lyc = s.lyc := io_setIo_other s _ (by decide)
  have hstat : (s.setIo 0x44 (BitVec.ofNat 8 y)).stat = s.stat := io_setIo_other s _ (by decide)
  have hif : (s.setIo 0x44 (BitVec.ofNat 8 y)).ifReg = s.ifReg := io_setIo_other s _ (by decide)
  obtain ⟨cstat, cly, clyc, cif⟩ := compareLine_registers hwf
  obtain ⟨estat, ely, elyc, eif⟩ := statEvent_registers 6 (wf_compareLine hwf)
  rw [hly, hlyc, hstat] at cstat
  rw [hly] at cly
  rw [hlyc] at clyc
  rw [hif] at cif
  rw [cstat, cif] at eif
  unfold startLine
  dsimp only
  rw [cstat]
  by_cases hequal : BitVec.ofNat 8 y = s.lyc
  · rw [if_pos hequal] at eif ⊢
    rw [if_pos (by simp), ely, elyc, estat, cly, clyc, cstat, eif, if_pos hequal]
    simp [hequal]
  · rw [if_neg hequal] at eif ⊢
    rw [if_neg (by simp), cly, clyc, cstat, cif, if_neg hequal]
    simp [hequal]

/-- Sprite selection looks at the configuration, OAM and LCDC. -/
theorem selectSprites_congr {s t : State} (hp : t.params = s.params) (ho : t.mem.oam = s.mem.oam)
    (hl : t.lcdc = s.lcdc) (line : Nat) : selectSprites t line = selectSprites s line := by
  have hon : t.spriteOnLine line = s.spriteOnLine line := by
    funext i
    unfold State.spriteOnLine State.spriteHeight State.lcdcBit State.spriteY State.oamByte
    rw [ho, hl]
  have hinsert : ∀ i l, insertByX t i l = insertByX s i l := by
    intro i l
    induction l with
    | nil => rfl
    | cons j js ih =>
      unfold insertByX State.spriteX State.oamByte
      rw [ho, ih]
  have hsort : ∀ l, sortByX t l = sortByX s l := by
    intro l
    induction l with
    | nil => rfl
    | cons i is ih => rw [sortByX, sortByX, ih, hinsert]
  unfold selectSprites
  dsimp only
  rw [hp, hon, hsort]

/-- No line event writes a register but IF, STAT and LY. -/
theorem statEvent_io_other (b : Nat) (s : State) {o : Nat} (h : o ≠ 0x0F) : (statEvent b s).io o = s.io o := by
  unfold statEvent
  split
  · exact request_io_other s 1 h
  · rfl

theorem startLine_io_other (y : Nat) (s : State) {o : Nat} (hif : o ≠ 0x0F) (hstat : o ≠ 0x41) (hly : o ≠ 0x44) :
    (startLine y s).io o = s.io o := by
  have hcompare : (compareLine (s.setIo 0x44 (BitVec.ofNat 8 y))).io o = s.io o :=
    (io_setIo_other _ _ hstat).trans (io_setIo_other _ _ hly)
  unfold startLine
  dsimp only
  split
  · exact (statEvent_io_other 6 _ hif).trans hcompare
  · exact hcompare

/-- Lines 0 to 143 begin in mode 2, with the request of STAT bit 5 and the sprites of the line (R356). -/
theorem enterOamScan_registers (y : Nat) {s : State} (h : s.mem.wf) :
    (enterOamScan y s).ly = s.ly ∧ (enterOamScan y s).stat = (s.stat &&& 0xFC#8) ||| 0x02#8 ∧
    (enterOamScan y s).ifReg = s.ifReg ||| (if s.stat.getLsbD 5 then 0x02#8 else 0x00#8) ∧
    (enterOamScan y s).ppu = { s.ppu with lineSprites := selectSprites s y } := by
  obtain ⟨mstat, mly, -, mif⟩ := setMode_registers 2 h
  obtain ⟨estat, ely, -, eif⟩ := statEvent_registers 5 (wf_setMode 2 h)
  have hmode : (BitVec.ofNat 8 (2 : Fin 4).val) = 0x02#8 := rfl
  rw [hmode] at mstat
  have hbit : (setMode s 2).stat.getLsbD 5 = s.stat.getLsbD 5 := by rw [mstat]; simp
  have hdev := (setMode_devicesOnly s 2).trans (statEvent_devicesOnly 5 _)
  have hlcdc : (statEvent 5 (setMode s 2)).lcdc = s.lcdc :=
    (statEvent_io_other 5 _ (by decide)).trans (io_setIo_other s _ (by decide))
  have hppu : (statEvent 5 (setMode s 2)).ppu = s.ppu := statEvent_ppu ..
  refine ⟨ely.trans mly, estat.trans mstat, by rw [← mif, ← hbit]; exact eif, ?_⟩
  rw [← selectSprites_congr hdev.params hdev.oam hlcdc, ← hppu]
  rfl

/-- Line 144 begins mode 1, with the VBlank request and that of STAT bit 4 (R359). -/
theorem enterVblank_registers {s : State} (h : s.mem.wf) :
    (enterVblank s).ly = s.ly ∧ (enterVblank s).stat = (s.stat &&& 0xFC#8) ||| 0x01#8 ∧
    (enterVblank s).ifReg = s.ifReg ||| 0x01#8 ||| (if s.stat.getLsbD 4 then 0x02#8 else 0x00#8) ∧
    (enterVblank s).ppu = s.ppu := by
  obtain ⟨mstat, mly, -, mif⟩ := setMode_registers 1 h
  obtain ⟨rstat, rly, -, rif⟩ := request_registers 0 (wf_setMode 1 h)
  obtain ⟨estat, ely, -, eif⟩ := statEvent_registers 4 (wf_request 0 (wf_setMode 1 h))
  have hmode : (BitVec.ofNat 8 (1 : Fin 4).val) = 0x01#8 := rfl
  rw [hmode] at mstat
  have hbit : (request (setMode s 1) 0).stat.getLsbD 4 = s.stat.getLsbD 4 := by rw [rstat, mstat]; simp
  refine ⟨(ely.trans rly).trans mly, (estat.trans rstat).trans mstat, ?_, statEvent_ppu ..⟩
  rw [← hbit, ← mif]
  exact eif.trans (by rw [rif]; rfl)

theorem statEvent_timer (b : Nat) (s : State) : (statEvent b s).timer = s.timer := by
  unfold statEvent
  split <;> rfl

theorem startLine_timer (y : Nat) (s : State) : (startLine y s).timer = s.timer := by
  unfold startLine
  dsimp only
  split
  · exact statEvent_timer _ _
  · rfl

theorem lineStart_timer (y : Nat) (s : State) : (lineStart y s).timer = s.timer := by
  unfold lineStart
  split
  · exact (statEvent_timer _ _).trans (startLine_timer y s)
  · split
    · exact (statEvent_timer _ _).trans (startLine_timer y s)
    · exact startLine_timer y s

/-- STAT after the comparison and a mode change: neither looks at the other's bits. -/
theorem stat_compare_mode (b : Byte) (equal : Bool) :
    ((b &&& 0xFB#8) ||| (if equal then 0x04#8 else 0x00#8)) &&& 0xFC#8 =
      (b &&& 0xF8#8) ||| (if equal then 0x04#8 else 0x00#8) := by
  cases equal <;> simp [BitVec.and_or_distrib_right, BitVec.and_assoc]

/-- STAT after the comparison alone keeps the mode. -/
theorem stat_compare_keep (b : Byte) (equal : Bool) :
    (b &&& 0xFB#8) ||| (if equal then 0x04#8 else 0x00#8) =
      (b &&& 0xF8#8) ||| (if equal then 0x04#8 else 0x00#8) ||| (b &&& 0x03#8) := by
  have hsplit : b &&& 0xFB#8 = (b &&& 0xF8#8) ||| (b &&& 0x03#8) := by
    rw [← BitVec.and_or_distrib_left]
    rfl
  rw [hsplit, BitVec.or_assoc, BitVec.or_comm (b &&& 0x03#8), ← BitVec.or_assoc]

theorem getLsbD_stat_compare (b : Byte) (equal : Bool) {k : Nat} (hk : k < 8) (h2 : k ≠ 2) :
    ((b &&& 0xFB#8) ||| (if equal then 0x04#8 else 0x00#8)).getLsbD k = b.getLsbD k := by
  cases equal <;> obtain rfl | rfl | rfl | rfl | rfl | rfl | rfl | rfl := octal_cases hk <;> simp_all

/-- Two conditions of the LCD-STAT request make one request. -/
theorem or_requests (b : Byte) (p q : Bool) :
    b ||| (if p then 0x02#8 else 0x00#8) ||| (if q then 0x02#8 else 0x00#8) =
      b ||| (if p || q then 0x02#8 else 0x00#8) := by
  cases p <;> cases q <;> simp [BitVec.or_assoc]

theorem or_requests_vblank (b : Byte) (p q : Bool) :
    b ||| (if p then 0x02#8 else 0x00#8) ||| 0x01#8 ||| (if q then 0x02#8 else 0x00#8) =
      b ||| 0x01#8 ||| (if p || q then 0x02#8 else 0x00#8) := by
  rw [← or_requests, BitVec.or_assoc b, BitVec.or_comm _ 0x01#8, ← BitVec.or_assoc b]

/-- The registers and the PPU's own state after the first dot of a line. -/
theorem lineStart_registers (y : Nat) {s : State} (h : s.mem.wf) :
    let equal := decide (BitVec.ofNat 8 y = s.lyc)
    (lineStart y s).ly = BitVec.ofNat 8 y ∧
    (lineStart y s).stat = (s.stat &&& 0xF8#8) ||| (if equal then 0x04#8 else 0x00#8) |||
      (if y < 144 then 0x02#8 else if y = 144 then 0x01#8 else s.stat &&& 0x03#8) ∧
    (lineStart y s).ifReg = s.ifReg ||| (if y = 144 then 0x01#8 else 0x00#8) |||
      (if (equal && s.stat.getLsbD 6) || (decide (y < 144) && s.stat.getLsbD 5) ||
          (decide (y = 144) && s.stat.getLsbD 4) then 0x02#8 else 0x00#8) ∧
    (lineStart y s).ppu =
      { s.ppu with lineSprites := if y < 144 then selectSprites s y else s.ppu.lineSprites } := by
  have hwf := wf_startLine y h
  have hppu := startLine_ppu y s
  obtain ⟨sly, -, sstat, sif⟩ := startLine_registers y h
  have hequal : (if BitVec.ofNat 8 y = s.lyc then 0x04#8 else 0x00#8) =
      if decide (BitVec.ofNat 8 y = s.lyc) = true then 0x04#8 else 0x00#8 := by simp
  rw [hequal] at sstat
  intro equal
  change (startLine y s).stat = (s.stat &&& 0xFB#8) ||| (if equal then 0x04#8 else 0x00#8) at sstat
  change (startLine y s).ifReg = s.ifReg ||| (if equal && s.stat.getLsbD 6 then 0x02#8 else 0x00#8) at sif
  unfold lineStart
  by_cases hvisible : y < 144
  · obtain ⟨ely, estat, eif, eppu⟩ := enterOamScan_registers y hwf
    have hselect : selectSprites (startLine y s) y = selectSprites s y :=
      selectSprites_congr (startLine_devicesOnly y s).params (startLine_devicesOnly y s).oam
        (startLine_io_other y s (by decide) (by decide) (by decide)) y
    have h144 : y ≠ 144 := by omega
    simp only [hvisible, h144, if_true, if_false, decide_true, decide_false, Bool.true_and, Bool.false_and,
      Bool.or_false, BitVec.or_zero]
    rw [ely, estat, eif, eppu, sly, sif, sstat, hppu, hselect, stat_compare_mode,
      getLsbD_stat_compare _ _ (by decide) (by decide), or_requests]
    exact ⟨rfl, rfl, rfl, rfl⟩
  · by_cases h144 : y = 144
    · obtain ⟨vly, vstat, vif, vppu⟩ := enterVblank_registers hwf
      have h144' : (y = 144) = True := eq_true h144
      simp only [hvisible, h144', if_true, if_false, decide_true, decide_false, Bool.true_and, Bool.false_and,
        Bool.or_false]
      rw [vly, vstat, vif, vppu, sly, sif, sstat, hppu, stat_compare_mode,
        getLsbD_stat_compare _ _ (by decide) (by decide), or_requests_vblank]
      exact ⟨rfl, rfl, rfl, rfl⟩
    · simp only [hvisible, h144, if_false, decide_false, Bool.false_and, Bool.or_false, BitVec.or_zero]
      rw [sly, sif, sstat, hppu, stat_compare_keep]
      exact ⟨rfl, rfl, rfl, rfl⟩

/-- Settles O49: the first dot of a line is `lineStart`, and no dot reaches beyond the devices. -/
theorem lineStartEvents : Obligations.LineStartEvents := by
  unfold Obligations.LineStartEvents
  intro s y hwf hon _ hcycle
  have hdot : ppuDot s = lineStart y (countDot s) :=
    (ppuDot_of_lcdOn hon).trans (lcdOnDot_of_lineStart hcycle)
  have hdev := ppuDot_devicesOnly s
  obtain ⟨hly, hstat, hif, hppu⟩ := lineStart_registers y (s := countDot s) hwf
  have htimer : (ppuDot s).timer = s.timer := by rw [hdot]; exact lineStart_timer y _
  rw [← hdot] at hly hstat hif hppu
  refine ⟨hly, hstat, hif, ?_, ?_, ?_, hdev.regs, hdev.ime, hdev.run, hdev.vram, hdev.oam, hdev.ie, hdev.mbc, htimer⟩
  · rw [hppu, selectSprites_congr (s := s) (t := countDot s) rfl rfl rfl]
    rfl
  · rw [hppu]
    rfl
  · rw [ppuDot_cycle, hcycle]

/-! ## The other dots (R352, R353, R357, R358) -/

/-- Mode 3 (R357): the line is rendered as the state after the dot shows it. -/
theorem enterTransfer_registers (y : Nat) {s : State} (h : s.mem.wf) :
    (enterTransfer y s).stat = s.stat ||| 0x03#8 ∧ (enterTransfer y s).ifReg = s.ifReg ∧
    (enterTransfer y s).ly = s.ly ∧
    (enterTransfer y s).ppu = { s.ppu with fb := s.ppu.fb.set y ((enterTransfer y s).renderLine y) } := by
  obtain ⟨mstat, mly, -, mif⟩ := setMode_registers 3 h
  have hmode : (s.stat &&& 0xFC#8) ||| 0x03#8 = s.stat ||| 0x03#8 := by
    generalize s.stat = b
    exact (show ∀ b : Byte, (b &&& 0xFC#8) ||| 0x03#8 = b ||| 0x03#8 by decide) b
  refine ⟨mstat.trans hmode, mif, mly, ?_⟩
  have hrender : (enterTransfer y s).renderLine y = (setMode s 3).renderLine y := renderLine_fb (setMode s 3) _ y
  rw [hrender]
  rfl

/-- Mode 0 (R358), with the request of STAT bit 3. -/
theorem enterHblank_registers {s : State} (h : s.mem.wf) :
    (enterHblank s).stat = s.stat &&& 0xFC#8 ∧
    (enterHblank s).ifReg = (if s.stat.getLsbD 3 then s.ifReg ||| 0x02#8 else s.ifReg) ∧
    (enterHblank s).ly = s.ly ∧ (enterHblank s).ppu = s.ppu := by
  obtain ⟨mstat, mly, -, mif⟩ := setMode_registers 0 h
  obtain ⟨estat, ely, -, eif⟩ := statEvent_registers 3 (wf_setMode 0 h)
  have hstat : (setMode s 0).stat = s.stat &&& 0xFC#8 := mstat.trans (BitVec.or_zero)
  have hbit : (setMode s 0).stat.getLsbD 3 = s.stat.getLsbD 3 := by rw [hstat]; simp
  refine ⟨estat.trans hstat, ?_, ely.trans mly, statEvent_ppu ..⟩
  rw [show (enterHblank s).ifReg = _ from eif, mif, hbit]
  split <;> simp

/-- Settles O50: each kind of dot by its own equation of `ppuDot`. -/
theorem otherDotEvents : Obligations.OtherDotEvents := by
  unfold Obligations.OtherDotEvents
  intro s hwf c t
  refine ⟨fun hoff => ?_, fun hon h0 hquiet => ?_, fun hon h80 hy => ?_, fun hon h252 hy => ?_⟩
  · rw [show t = _ from ppuDot_of_lcdOff hoff]
    unfold lcdOffDot
    by_cases hc : c = 0
    · have hc' : (countDot s).ppu.cycle = 0 := hc
      rw [if_pos hc, if_pos hc']
      rfl
    · have hc' : (countDot s).ppu.cycle ≠ 0 := hc
      rw [if_neg hc, if_neg hc']
      rfl
  · exact (ppuDot_of_lcdOn hon).trans (lcdOnDot_of_quiet h0 hquiet)
  · have ht : t = enterTransfer (c / 456) (countDot s) :=
      (ppuDot_of_lcdOn hon).trans (lcdOnDot_of_dot80 h80 hy)
    obtain ⟨hstat, hif, hly, hppu⟩ := enterTransfer_registers (c / 456) (s := countDot s) hwf
    rw [← ht] at hstat hif hly hppu
    refine ⟨hstat, hif, hly, ?_, ?_, length_renderLine .., fun x hx => getElem?_renderLine _ _ hx⟩
    · exact congrArg Ppu.fb hppu
    · rw [hppu]
      rfl
  · have ht : t = enterHblank (countDot s) := (ppuDot_of_lcdOn hon).trans (lcdOnDot_of_dot252 h252 hy)
    obtain ⟨hstat, hif, hly, hppu⟩ := enterHblank_registers (s := countDot s) hwf
    rw [← ht] at hstat hif hly hppu
    exact ⟨hstat, hif, hly, by rw [hppu]; rfl, by rw [hppu]; rfl⟩

/-! ## The sprites of a line (R361) -/

/-- The first `k` elements of a list in order: an element of the list that is not among them has `k` before it. -/
theorem not_mem_take_of_pairwise {l : List Nat} {k i : Nat} (hl : l.Pairwise (· < ·)) (hi : i ∈ l)
    (hn : i ∉ l.take k) : (l.take k).length = k ∧ ∀ j ∈ l.take k, j < i := by
  have hdrop : i ∈ l.drop k := by
    rw [← List.take_append_drop k l] at hi
    exact (List.mem_append.1 hi).resolve_left hn
  rw [← List.take_append_drop k l] at hl
  obtain ⟨-, -, hcross⟩ := List.pairwise_append.1 hl
  refine ⟨?_, fun j hj => hcross j hj i hdrop⟩
  have hpos : 0 < (l.drop k).length := List.length_pos_of_mem hdrop
  rw [List.length_drop] at hpos
  rw [List.length_take]
  omega

/-- By X, then by place in OAM. -/
def XOrder (s : State) (i j : Nat) : Prop := s.spriteX i < s.spriteX j ∨ (s.spriteX i = s.spriteX j ∧ i < j)

theorem xOrder_trans {s : State} {i j k : Nat} (h : XOrder s i j) (h' : XOrder s j k) : XOrder s i k := by
  unfold XOrder at *
  omega

/-- A sprite that comes before all of a list in OAM keeps its place among equal X. -/
theorem pairwise_insertByX {s : State} {i : Nat} {l : List Nat} (hl : l.Pairwise (XOrder s)) (hi : ∀ j ∈ l, i < j) :
    (insertByX s i l).Pairwise (XOrder s) := by
  induction l with
  | nil => exact List.pairwise_singleton _ _
  | cons j js ih =>
    obtain ⟨hj, hjs⟩ := List.pairwise_cons.1 hl
    have hij : i < j := hi j (List.mem_cons_self ..)
    unfold insertByX
    split
    next hx =>
      have hfirst : XOrder s i j := by unfold XOrder; omega
      refine List.pairwise_cons.2 ⟨fun k hk => ?_, hl⟩
      rcases List.mem_cons.1 hk with rfl | hk
      · exact hfirst
      · exact xOrder_trans hfirst (hj k hk)
    next hx =>
      refine List.pairwise_cons.2 ⟨fun k hk => ?_, ih hjs fun k hk => hi k (List.mem_cons_of_mem _ hk)⟩
      rcases (mem_insertByX s i k js).1 hk with rfl | hk
      · exact .inl (Nat.lt_of_not_le hx)
      · exact hj k hk

theorem pairwise_sortByX {s : State} {l : List Nat} (hl : l.Pairwise (· < ·)) : (sortByX s l).Pairwise (XOrder s) := by
  induction l with
  | nil => exact .nil
  | cons i is ih =>
    obtain ⟨hi, his⟩ := List.pairwise_cons.1 hl
    exact pairwise_insertByX (ih his) fun j hj => hi j ((mem_sortByX s j is).1 hj)

/-- The sprites of OAM that cover a line, in OAM order. -/
def coveringSprites (s : State) (line : Nat) : List Nat := (List.range 40).filter (s.spriteOnLine line)

theorem pairwise_coveringSprites (s : State) (line : Nat) : (coveringSprites s line).Pairwise (· < ·) :=
  List.pairwise_lt_range.filter _

theorem mem_coveringSprites (s : State) (line i : Nat) : i ∈ coveringSprites s line ↔
    i < 40 ∧ (s.mem.oam.read (4 * i)).toNat ≤ line + 16 ∧
      line + 16 < (s.mem.oam.read (4 * i)).toNat + if s.lcdc.getLsbD 2 then 16 else 8 := by
  simp [coveringSprites, State.spriteOnLine, State.spriteY, State.oamByte, State.spriteHeight, State.lcdcBit]

theorem mem_selectSprites (s : State) (line i : Nat) :
    i ∈ selectSprites s line ↔ i ∈ (coveringSprites s line).take 10 := by
  unfold selectSprites
  dsimp only
  split
  · rfl
  · exact mem_sortByX ..

theorem length_selectSprites (s : State) (line : Nat) :
    (selectSprites s line).length = ((coveringSprites s line).take 10).length := by
  unfold selectSprites
  dsimp only
  split
  · rfl
  · exact length_sortByX ..

/-- Settles O52: the selection has the members and the length of the first ten covering sprites, which are in OAM order;
without CGB they are sorted. -/
theorem spriteSelection : Obligations.SpriteSelection := by
  unfold Obligations.SpriteSelection
  intro s line sel h covers
  have hpair := pairwise_coveringSprites s line
  have htake : ((coveringSprites s line).take 10).Pairwise (· < ·) := hpair.sublist (List.take_sublist ..)
  refine ⟨?_, fun i hi => ?_, fun i hlt hi hn => ?_, fun hcgb => ?_, fun hcgb => ?_⟩
  · exact Nat.le_trans (Nat.le_of_eq (length_selectSprites s line)) (List.length_take_le ..)
  · exact (mem_coveringSprites s line i).1 (List.mem_of_mem_take ((mem_selectSprites s line i).1 hi))
  · have hmem : i ∈ coveringSprites s line := (mem_coveringSprites s line i).2 ⟨hlt, hi⟩
    obtain ⟨hlen, hbefore⟩ := not_mem_take_of_pairwise hpair hmem fun hin => hn ((mem_selectSprites s line i).2 hin)
    exact ⟨(length_selectSprites s line).trans hlen, fun j hj => hbefore j ((mem_selectSprites s line j).1 hj)⟩
  · have hsel : sel = (coveringSprites s line).take 10 := if_pos hcgb
    rw [hsel]
    exact htake
  · have hsel : sel = sortByX s ((coveringSprites s line).take 10) := if_neg (Bool.eq_false_iff.1 hcgb)
    rw [hsel]
    exact pairwise_sortByX htake

end Sys2Proof.Machine

/-! What a pixel is made of (60_exceptions.md R363 to R373): tiles, sprites and colours of the model as numbers. -/

namespace Sys2Proof.Machine

/-! ## Bits and bytes as numbers -/

/-- A bit of a byte as a number. -/
theorem bit_getLsbD (b : Byte) (i : Nat) : bit (b.getLsbD i) = b.toNat / 2 ^ i % 2 := by
  have hbit : bit (b.getLsbD i) = (b.toNat.testBit i).toNat := by
    change bit (b.toNat.testBit i) = _
    cases b.toNat.testBit i <;> rfl
  rw [hbit, Nat.toNat_testBit]

theorem and_0xFE_toNat (n : Byte) : (n &&& 0xFE#8).toNat = n.toNat - n.toNat % 2 :=
  (show ∀ n : Byte, (n &&& 0xFE#8).toNat = n.toNat - n.toNat % 2 by decide +kernel) n

theorem or_0x01_toNat (n : Byte) : (n ||| 0x01#8).toNat = n.toNat - n.toNat % 2 + 1 :=
  (show ∀ n : Byte, (n ||| 0x01#8).toNat = n.toNat - n.toNat % 2 + 1 by decide +kernel) n

/-! ## Tiles (R363 to R365) -/

theorem tilePixel_eq_tileArith (s : State) (bank t r c : Nat) : s.tilePixel bank t r c = tileArith s bank t r c := by
  unfold State.tilePixel tileArith
  dsimp only
  rw [bit_getLsbD, bit_getLsbD]
  rfl

theorem mapPixel_eq_mapArith (s : State) (base bx byy : Nat) : s.mapPixel base bx byy = mapArith s base bx byy := by
  have h0 : ∀ o, s.vramByte 0 o = s.mem.vram.read o := fun o => by simp [State.vramByte]
  have h1 : ∀ o, s.vramByte 1 o = s.mem.vram.read (0x2000 + o) := fun o => by simp [State.vramByte]
  unfold State.mapPixel mapArith State.bgTileOffset
  simp only [h0, h1, tilePixel_eq_tileArith, bit_getLsbD]
  rfl

/-- The background, the window or the blank of a pixel (R366). -/
theorem bgOrWindow_eq (s : State) (y x : Nat) : s.bgOrWindow y x =
    if s.params.cgbMode = false ∧ s.lcdc.getLsbD 0 = false then ⟨0, 0x00#8⟩
    else if s.lcdc.getLsbD 5 = true ∧ s.wy.toNat ≤ y ∧ s.wx.toNat ≤ x + 7 then
      mapArith s (if s.lcdc.getLsbD 6 then 0x1C00 else 0x1800) (x + 7 - s.wx.toNat) (y - s.wy.toNat)
    else
      mapArith s (if s.lcdc.getLsbD 3 then 0x1C00 else 0x1800) ((x + s.scx.toNat) % 256) ((y + s.scy.toNat) % 256) := by
  simp [State.bgOrWindow, State.bgBlank, State.windowCovers, State.windowPixel, State.bgPixel, State.lcdcBit, mapBase,
    mapPixel_eq_mapArith]

/-! ## Sprites (R367 to R370) -/

/-- The tile data of a sprite that begins at most 15 lines above `y`: the row is a number of lines, and the tile of an
8 x 16 sprite is an even one and the next. -/
theorem tilePixel_sprite (s : State) {i y : Nat} (bank c : Nat) (hy : s.spriteY i ≤ y + 16) (hy' : y < s.spriteY i) :
    let n := (s.oamByte i 2).toNat
    let attr := s.oamByte i 3
    let down := y + 16 - s.spriteY i
    let row := s.spriteRow i y attr
    s.tilePixel bank (16 * s.spriteTile i row) (row % 8).toNat c =
      if s.lcdc.getLsbD 2 then
        let r := if attr.getLsbD 6 then 15 - down else down
        tileArith s bank (16 * (if r < 8 then n - n % 2 else n - n % 2 + 1)) (r % 8) c
      else tileArith s bank (16 * n) (if attr.getLsbD 6 then 7 - down % 8 else down % 8) c := by
  intro n attr down row
  rw [tilePixel_eq_tileArith]
  have hdown : (y : Int) + 16 - s.spriteY i = (down : Nat) := by omega
  have hlt : down < 16 := by omega
  have hrow : row = if attr.getLsbD 6 then s.spriteHeight - 1 - (down : Int) else down := by
    rw [← hdown]
    rfl
  clear_value down row
  unfold State.spriteTile State.spriteHeight State.lcdcBit at *
  generalize s.lcdc.getLsbD 2 = tall at hrow ⊢
  cases tall
  · have hr : (row % 8).toNat = if attr.getLsbD 6 then 7 - down % 8 else down % 8 := by
      rw [hrow]
      cases attr.getLsbD 6 <;> simp <;> omega
    simp [hr, n]
  · have hr : row = ((if attr.getLsbD 6 then 15 - down else down : Nat) : Int) := by
      rw [hrow]
      cases attr.getLsbD 6
      · rfl
      · simp
        omega
    generalize (if attr.getLsbD 6 then 15 - down else down : Nat) = r at hr
    have hmod : (row % 8).toNat = r % 8 := by omega
    have htile : (if row < 8 then s.oamByte i 2 &&& 0xFE#8 else s.oamByte i 2 ||| 0x01#8).toNat =
        if r < 8 then n - n % 2 else n - n % 2 + 1 := by
      by_cases h8 : r < 8
      · rw [if_pos h8, if_pos (by omega), and_0xFE_toNat]
      · rw [if_neg h8, if_neg (by omega), or_0x01_toNat]
    simp only [if_true, htile, hmod]

/-- A sprite that covers the column has the colour index of `spriteArith`; one that does not has none, and `spriteArith`
is 0. -/
theorem spriteIndex_eq (s : State) {i y : Nat} (x : Nat) (hy : s.spriteY i ≤ y + 16) (hy' : y < s.spriteY i) :
    s.spriteIndex i y x = some (spriteArith s i y x) ∨ (s.spriteIndex i y x = none ∧ spriteArith s i y x = 0) := by
  have htile := fun bank c => tilePixel_sprite s bank c hy hy'
  by_cases hcovers : s.spriteX i ≤ x + 8 ∧ x + 8 < s.spriteX i + 8
  · have harith : ¬(x + 8 < s.spriteX i ∨ 8 ≤ x + 8 - s.spriteX i) := by omega
    refine .inl ?_
    unfold State.spriteIndex
    rw [if_pos hcovers]
    dsimp only at htile ⊢
    rw [htile, bit_getLsbD]
    exact congrArg some (if_neg harith).symm
  · have harith : x + 8 < s.spriteX i ∨ 8 ≤ x + 8 - s.spriteX i := by omega
    exact .inr ⟨if_neg hcovers, if_pos harith⟩

/-- The sprite pixel is the first opaque one (R368). -/
theorem firstSprite_eq (s : State) (y x : Nat) (l : List Nat)
    (h : ∀ i ∈ l, s.spriteY i ≤ y + 16 ∧ y < s.spriteY i) :
    s.firstSprite y x l =
      (l.find? fun i => spriteArith s i y x != 0).map fun i => ⟨spriteArith s i y x, s.oamByte i 3⟩ := by
  induction l with
  | nil => rfl
  | cons i is ih =>
    obtain ⟨hi, his⟩ := List.forall_mem_cons.1 h
    rw [State.firstSprite, ih his, List.find?_cons]
    rcases spriteIndex_eq s x hi.1 hi.2 with he | ⟨he, hzero⟩
    · rw [he]
      by_cases hzero : spriteArith s i y x = 0
      · simp [hzero]
      · rw [bne_iff_ne.2 hzero]
        exact if_pos hzero
    · rw [he]
      simp [hzero]

/-! ## Colours (R373, R374) -/

theorem paletteColor_eq_colorArith (pal : Memory) (p i : Nat) : paletteColor pal p i = colorArith pal p i := by
  apply BitVec.eq_of_toNat_eq
  rw [paletteColor, colorArith, BitVec.extractLsb'_toNat, joinBytes_toNat, BitVec.toNat_ofNat, Nat.shiftRight_zero]

theorem shadeOf_eq (pal : Byte) (i : Nat) : shadeOf pal i = BitVec.ofNat 2 (pal.toNat / 4 ^ i) := by
  apply BitVec.eq_of_toNat_eq
  rw [shadeOf, BitVec.extractLsb'_toNat, BitVec.toNat_ofNat, Nat.shiftRight_eq_div_pow, Nat.pow_mul]

theorem bgColor_eq (s : State) (p : BgPixel) : s.bgColor p =
    if s.params.cgbMode then .color (colorArith s.mem.bgpal (p.attr.toNat % 8) p.index)
    else if s.lcdc.getLsbD 0 = false then .shade 0#2
    else .shade (BitVec.ofNat 2 (s.bgp.toNat / 4 ^ p.index)) := by
  unfold State.bgColor State.bgBlank State.lcdcBit
  rw [paletteColor_eq_colorArith, shadeOf_eq]
  cases s.params.cgbMode <;> simp

theorem objColor_eq (s : State) (p : ObjPixel) : s.objColor p =
    if s.params.cgbMode then .color (colorArith s.mem.objpal (p.attr.toNat % 8) p.index)
    else .shade (BitVec.ofNat 2 ((if p.attr.getLsbD 4 then s.obp1 else s.obp0).toNat / 4 ^ p.index)) := by
  rw [State.objColor, paletteColor_eq_colorArith, shadeOf_eq]

/-! ## Priority (R372) -/

/-- A sprite pixel and the background under it. -/
theorem pixel_of_some {s : State} {y x : Nat} {obj : ObjPixel} (h : s.objPixel y x = some obj) :
    s.pixel y x =
      if s.params.cgbMode = true ∧ s.lcdc.getLsbD 0 = false then
        (if s.params.masterPriority = .bgOverAll then s.bgColor (s.bgOrWindow y x) else s.objColor obj)
      else if (s.bgOrWindow y x).index ≠ 0 ∧
          ((s.bgOrWindow y x).attr.getLsbD 7 = true ∨ obj.attr.getLsbD 7 = true) then
        s.bgColor (s.bgOrWindow y x)
      else s.objColor obj := by
  unfold State.pixel State.spriteShown State.lcdcBit
  rw [h]
  dsimp only
  by_cases hmaster : s.params.cgbMode = true ∧ s.lcdc.getLsbD 0 = false
  · obtain ⟨hcgb, hoff⟩ := hmaster
    rw [hcgb, hoff]
    cases s.params.masterPriority <;> rfl
  · have hshown : ¬(s.params.cgbMode && !s.lcdc.getLsbD 0) = true := fun hand =>
      hmaster ⟨(Bool.and_eq_true_iff.1 hand).1, by simpa using (Bool.and_eq_true_iff.1 hand).2⟩
    rw [if_neg hmaster, if_neg hshown, ← ite_not]
    refine ite_congr (propext ?_) (fun _ => rfl) fun _ => rfl
    simp only [Bool.not_eq_true', Bool.not_eq_false, Bool.and_eq_true, Bool.or_eq_true, bne_iff_ne]

/-- Settles O53: each clause by the equation of its part. -/
theorem pixelPriority : Obligations.PixelPriority := by
  unfold Obligations.PixelPriority
  intro s y x
  refine ⟨bgOrWindow_eq s y x, fun hoff => ?_, fun hon hlines => ?_, bgColor_eq s, objColor_eq s, fun hnone => ?_,
    fun obj hobj => pixel_of_some hobj⟩
  · exact if_neg (Bool.eq_false_iff.1 hoff)
  · exact (if_pos hon).trans (firstSprite_eq s y x _ hlines)
  · rw [State.pixel, hnone]

end Sys2Proof.Machine

/-! The machine step (60_exceptions.md R300 to R313): what every step keeps, its cycles, the end of a frame, and the step
of a running CPU as the instruction at PC. -/

namespace Sys2Proof.Machine

/-! ## What no step changes (00_scope.md R6, 10_state.md R28, R32) -/

/-- The configuration and the variant are as before, and outside CGB mode the speed is. -/
def SameHardware (s t : State) : Prop :=
  t.params = s.params ∧ t.mbc.kind = s.mbc.kind ∧ (s.params.cgbMode = false → t.doubleSpeed = s.doubleSpeed)

theorem SameHardware.trans {s t u : State} (h : SameHardware s t) (k : SameHardware t u) : SameHardware s u := by
  obtain ⟨hparams, hkind, hspeed⟩ := h
  obtain ⟨kparams, kkind, kspeed⟩ := k
  exact ⟨kparams.trans hparams, kkind.trans hkind, fun hcgb => (kspeed (hparams ▸ hcgb)).trans (hspeed hcgb)⟩

/-- A write to an I/O register, by what it can reach beside the I/O file (20_memory.md R123). -/
structure IoWriteFrame (s t : State) (o : Nat) : Prop where
  mbc : t.mbc = s.mbc
  eram : t.mem.eram = s.mem.eram
  wram : t.mem.wram = s.mem.wram
  hram : t.mem.hram = s.mem.hram
  ie : t.mem.ie = s.mem.ie
  vram : o ≠ 0x55 → t.mem.vram = s.mem.vram
  oam : o ≠ 0x46 → t.mem.oam = s.mem.oam
  bgpal : o ≠ 0x69 → t.mem.bgpal = s.mem.bgpal
  objpal : o ≠ 0x6B → t.mem.objpal = s.mem.objpal
  timer : o ≠ 0x04 → o ≠ 0x07 → t.timer = s.timer
  host : o ≠ 0x46 → o ≠ 0x55 → t.host = s.host

/-- A store under the mask alone. -/
theorem ioWriteFrame_ioStore (s : State) (o : Nat) (v : Byte) : IoWriteFrame s (ioStore s o v) o := by
  constructor <;> intros <;> rfl

theorem ioWriteFrame (s : State) (o : Nat) (v : Byte) : IoWriteFrame s (ioWrite s o v) o := by
  have hstore := ioWriteFrame_ioStore s o v
  unfold ioWrite
  dsimp only
  generalize ioStore s o v = t at hstore
  split
  case h_1 => exact { hstore with timer := fun h => absurd rfl h }
  case h_2 => exact { hstore with timer := fun _ h => absurd rfl h }
  case h_3 => exact { hstore with mbc := hstore.mbc }
  case h_4 =>
    rw [oamDma_frame]
    exact { hstore with oam := fun h => absurd rfl h, host := fun h => absurd rfl h }
  case h_5 =>
    split
    · rw [gdma_frame]
      exact { hstore with vram := fun h => absurd rfl h, host := fun _ h => absurd rfl h }
    · exact hstore
  case h_6 =>
    split
    · exact { hstore with bgpal := fun h => absurd rfl h }
    · exact hstore
  case h_7 =>
    split
    · exact { hstore with objpal := fun h => absurd rfl h }
    · exact hstore
  case h_8 => exact hstore

theorem kind_busStore (s : State) (a : Word) (v : Byte) : (busStore s a v).mbc.kind = s.mbc.kind := by
  unfold busStore
  split
  case h_1 => exact kind_regWrite ..
  case h_3 =>
    unfold eramWrite
    split
    case h_4 => exact kind_clockWrite ..
    all_goals rfl
  case h_7 => exact congrArg Mbc.kind (ioWriteFrame ..).mbc
  all_goals rfl

theorem sameHardware_of_accesses {s t : State} (h : Accesses s t) : SameHardware s t := by
  obtain ⟨hparams, hspeed, -⟩ := h.keepsDevices
  have hkind : t.mbc.kind = s.mbc.kind := h.keeps (P := fun u => u.mbc.kind = s.mbc.kind) (fun _ _ _ _ _ hP => hP)
    (fun u a hP => (congrArg Mbc.kind (afterRead_mbc u a)).trans hP) (fun u a v hP => (kind_busStore u a v).trans hP) rfl
  exact ⟨hparams, hkind, fun _ => hspeed⟩

theorem sameHardware_environment (s : State) : SameHardware s (environment s) := by
  have hkeys : (hostMove s).mbc = s.mbc := by
    unfold hostMove
    split
    · split <;> rw [sampleKeys_eq]
    · rfl
  refine ⟨by rw [environment_eq], ?_, fun _ => by rw [environment_eq]⟩
  unfold environment clockMove
  split
  · exact (kind_rtcTicks _ _).trans (congrArg Mbc.kind hkeys)
  · exact congrArg Mbc.kind hkeys

theorem sameHardware_interruptPhase {s t : State} (h : interruptPhase s = .next t) : SameHardware s t := by
  obtain ⟨u, hu, hacc⟩ := (interruptPhase_next h).accesses
  have hclear : SameHardware s u := by
    rcases hu with rfl | ⟨i, rfl⟩
    · exact ⟨rfl, rfl, fun _ => rfl⟩
    · exact ⟨rfl, rfl, fun _ => rfl⟩
  exact hclear.trans (sameHardware_of_accesses hacc)

/-- STOP switches the speed in CGB mode only (46_system.md R262). -/
theorem sameHardware_exec {i : Instr} {s t : State} (h : exec i s = .next t) : SameHardware s t := by
  by_cases hstop : i = .stop
  · subst hstop
    cases h
    split
    next harmed =>
      have hcgb : s.params.cgbMode = true := (Bool.and_eq_true_iff.1 harmed).1
      exact ⟨rfl, rfl, fun hno => absurd (hcgb.symm.trans hno) (by decide)⟩
    next => exact ⟨rfl, rfl, fun _ => rfl⟩
  · exact sameHardware_of_accesses (exec_accesses h hstop)

theorem sameHardware_executePhase {s t : State} (h : executePhase s = .next t) : SameHardware s t := by
  rcases executePhase_eq_next.1 h with ⟨-, i, -, hexec⟩ | ⟨-, rfl⟩
  · exact (sameHardware_of_accesses (within_afterFetches s _).accesses).trans (sameHardware_exec hexec)
  · exact ⟨rfl, rfl, fun _ => rfl⟩

/-- Phase C moves the devices only. -/
theorem advancePhase_devicesOnly (s : State) :
    DevicesOnly { s with cycles := s.cycles + s.cyc, cyc := 0, host.frameEntry := ppuWraps s.ppu.cycle (ppuCycles s) }
      (advancePhase s) := by
  have hdev := (timerAdvance_devicesOnly { s with cycles := s.cycles + s.cyc } s.cyc).trans
    (ppuAdvance_devicesOnly (ppuCycles s) _)
  unfold advancePhase
  dsimp only
  generalize ppuAdvance _ (ppuCycles s) = u at *
  unfold DevicesOnly at *
  rw [hdev]

/-- Settles O57: each phase of the step keeps the hardware. -/
theorem configurationNeverChanges : Obligations.ConfigurationNeverChanges := by
  unfold Obligations.ConfigurationNeverChanges
  intro s t h
  obtain ⟨u, v, hu, hv, rfl⟩ := step_eq_next.1 h
  have hdev := advancePhase_devicesOnly v
  have hadvance : SameHardware v (advancePhase v) :=
    ⟨hdev.params, congrArg Mbc.kind hdev.mbc, fun _ => hdev.doubleSpeed⟩
  exact (((sameHardware_environment s).trans (sameHardware_interruptPhase hu)).trans
    (sameHardware_executePhase hv)).trans hadvance

/-! ## The cycles of a step (R300, R306, R308) -/

/-- The phases before the devices' advance count no cycles and move no PPU. -/
def BeforeAdvance (s t : State) : Prop := t.cycles = s.cycles ∧ t.ppu = s.ppu

theorem beforeAdvance_of_accesses {s t : State} (h : Accesses s t) : BeforeAdvance s t := by
  obtain ⟨-, -, hcycles, hppu, -⟩ := h.keepsDevices
  exact ⟨hcycles, hppu⟩

theorem beforeAdvance_interruptPhase {s u : State} (h : interruptPhase (environment s) = .next u) :
    BeforeAdvance s u := by
  obtain ⟨w, hw, hacc⟩ := (interruptPhase_next h).accesses
  obtain ⟨hcycles, hppu⟩ := beforeAdvance_of_accesses hacc
  have hclear : BeforeAdvance s w := by
    have henv : BeforeAdvance s (environment s) := ⟨by rw [environment_eq], by rw [environment_eq]⟩
    rcases hw with rfl | ⟨i, rfl⟩
    · exact henv
    · exact henv
  exact ⟨hcycles.trans hclear.1, hppu.trans hclear.2⟩

/-- Phase B reports 4 to 24 cycles. -/
theorem executePhase_cycles {s t : State} (h : executePhase s = .next t) :
    BeforeAdvance s t ∧ ∃ k, 1 ≤ k ∧ k ≤ 6 ∧ t.cyc = s.cyc + 4 * k := by
  rcases executePhase_eq_next.1 h with ⟨-, i, -, hexec⟩ | ⟨-, rfl⟩
  · have hfetch : Within s (afterInstr s) := within_afterFetches s _
    obtain ⟨hcycles, hppu⟩ := beforeAdvance_of_accesses hfetch.accesses
    obtain ⟨-, -, -, eppu, -, -, ecycles, -⟩ := onlyNamedInstructionsWriteControlState i _ t hexec
    obtain ⟨k, hlo, hhi, hcyc⟩ := exec_cycles hexec
    exact ⟨⟨ecycles.trans hcycles, eppu.trans hppu⟩, k, hlo, hhi, by rw [hcyc, hfetch.cyc]⟩
  · exact ⟨⟨rfl, rfl⟩, 1, by decide, by decide, rfl⟩

/-- The step's cycles before phase C: at most 20 for a dispatch and 24 for an instruction. -/
theorem step_cycles {s u v : State} (hu : interruptPhase (environment s) = .next u) (hv : executePhase u = .next v) :
    BeforeAdvance s v ∧ ∃ k, 1 ≤ k ∧ k ≤ 11 ∧ v.cyc = 4 * k := by
  obtain ⟨ucycles, uppu⟩ := beforeAdvance_interruptPhase hu
  obtain ⟨⟨vcycles, vppu⟩, k, hlo, hhi, hcyc⟩ := executePhase_cycles hv
  refine ⟨⟨vcycles.trans ucycles, vppu.trans uppu⟩, ?_⟩
  rcases (interruptPhase_next hu).cyc with hidle | hdispatch
  · exact ⟨k, hlo, by omega, by omega⟩
  · exact ⟨k + 5, by omega, by omega, by omega⟩

theorem ppuCycles_of_cyc {v : State} {k : Nat} (h : v.cyc = 4 * k) :
    ppuCycles v = if v.doubleSpeed then 2 * k else 4 * k := by
  unfold ppuCycles
  split <;> omega

/-- Settles O58: `step_cycles` bounds the cycles, and phase C is `advancePhase` by definition. -/
theorem stepTakesFourToFortyFourCycles : Obligations.StepTakesFourToFortyFourCycles := by
  unfold Obligations.StepTakesFourToFortyFourCycles
  refine ⟨fun s t h => ?_, fun v => rfl⟩
  obtain ⟨u, v, hu, hv, rfl⟩ := step_eq_next.1 h
  obtain ⟨⟨hcycles, -⟩, k, hlo, hhi, hcyc⟩ := step_cycles hu hv
  refine ⟨k, hlo, hhi, ?_, u, v, hu, hv, hcyc, hcycles, rfl, ?_⟩
  · rw [(advancePhase_devicesOnly v).cycles, hcycles, hcyc]
  · rw [← ppuCycles_of_cyc hcyc, ← hcyc]
    rfl

/-! ## The end of a frame (R313) -/

theorem advancePhase_ppuCycle {v : State} (h : v.ppu.cycle < 70224) :
    (advancePhase v).ppu.cycle = (v.ppu.cycle + ppuCycles v) % 70224 ∧
      (advancePhase v).host.frameEntry = decide (70224 ≤ v.ppu.cycle + ppuCycles v) := by
  have htimer := timerAdvance_ppu { v with cycles := v.cycles + v.cyc } v.cyc
  have hadvance := ppuAdvance_cycle (ppuCycles v) (s := timerAdvance { v with cycles := v.cycles + v.cyc } v.cyc)
    (by rw [htimer]; exact h)
  rw [htimer] at hadvance
  exact ⟨hadvance, ppuWraps_eq _ h⟩

/-- A step moves the frame counter by at least two dots, and notes the end of a frame just when it passes it. -/
theorem step_frame {s t : State} (hs : s.ppu.cycle < 70224) (h : step s = .next t) :
    ∃ n, 2 ≤ n ∧ t.ppu.cycle = (s.ppu.cycle + n) % 70224 ∧
      t.host.frameEntry = decide (70224 ≤ s.ppu.cycle + n) := by
  obtain ⟨u, v, hu, hv, rfl⟩ := step_eq_next.1 h
  obtain ⟨⟨-, hppu⟩, k, hlo, -, hcyc⟩ := step_cycles hu hv
  rw [← hppu] at hs ⊢
  refine ⟨ppuCycles v, ?_, advancePhase_ppuCycle hs⟩
  rw [ppuCycles_of_cyc hcyc]
  split <;> omega

/-- Enough steps end the frame: each that does not leaves the counter two dots further. -/
theorem frameSteps_frameEntry {fuel : Nat} {s t : State} (hs : s.ppu.cycle < 70224)
    (hfuel : 70224 ≤ s.ppu.cycle + 2 * fuel) (h : frameSteps fuel s = .next t) : t.host.frameEntry = true := by
  induction fuel generalizing s with
  | zero => omega
  | succ fuel ih =>
    obtain ⟨u, hstep, hrest⟩ := andThen_eq_next.1 h
    obtain ⟨n, hn, hcycle, hentry⟩ := step_frame hs hstep
    by_cases hend : u.host.frameEntry = true
    · rw [if_pos hend] at hrest
      cases hrest
      exact hend
    · rw [if_neg hend] at hrest
      have hlt : s.ppu.cycle + n < 70224 := by simpa [hentry] using hend
      rw [Nat.mod_eq_of_lt hlt] at hcycle
      exact ih (by omega) (by omega) hrest

/-- Settles O60: `frameFuel` steps of two dots are a frame. -/
theorem simulateRunsToTheEndOfTheFrame : Obligations.SimulateRunsToTheEndOfTheFrame := by
  unfold Obligations.SimulateRunsToTheEndOfTheFrame
  intro s t sample hs h
  have hfuel : 70224 ≤ s.ppu.cycle + 2 * frameFuel := Nat.le_add_left 70224 s.ppu.cycle
  exact frameSteps_frameEntry
    (s := { s with host.frameEntry := true, host.keySamples := sample :: s.host.keySamples }) hs hfuel h

/-! ## The instruction at PC (10_state.md R22) -/

/-- Where the bytes at PC are an encoding, that instruction is fetched, and its bytes only. -/
theorem fetchInstr_of_fetchBytes {s : State} {i : Instr} (hi : i.wellFormed = true)
    (h : fetchBytes s (encode i).length = encode i) :
    fetchInstr s = .ok i ∧ afterInstr s = afterFetches s (encode i).length := by
  obtain ⟨op, bs, hbytes⟩ := encode_eq_cons i
  have hlength := length_encode_append hi hbytes
  have hop : fetchByte s = op := by
    rw [hbytes] at h
    exact (List.cons.inj h).1
  have hlen : instrLength (fetchByte s) = (encode i).length := by rw [hop, hbytes, ← hlength]; rfl
  have hhead := decodeHead_encode hi []
  rw [List.append_nil] at hhead
  refine ⟨?_, congrArg (afterFetches s) hlen⟩
  unfold fetchInstr
  rw [hlen, h]
  exact hhead

theorem KeepsDevices.trans {s t u : State} (h : KeepsDevices s t) (k : KeepsDevices t u) : KeepsDevices s u := by
  simp_all [KeepsDevices]

theorem NoStore.trans {s t u : State} (h : NoStore s t) (k : NoStore t u) : NoStore s u := by
  simp_all [NoStore]

theorem FetchedPast.trans {s t u : State} {m n : Nat} (h : FetchedPast s t m) (k : FetchedPast t u n) :
    FetchedPast s u (m + n) := by
  obtain ⟨hregs, hcyc, hcontrol, hdevices, hstore⟩ := h
  obtain ⟨kregs, kcyc, kcontrol, kdevices, kstore⟩ := k
  refine ⟨?_, kcyc.trans hcyc, ⟨kcontrol.1.trans hcontrol.1, kcontrol.2.trans hcontrol.2⟩, hdevices.trans kdevices,
    hstore.trans kstore⟩
  rw [kregs, hregs, BitVec.ofNat_add, BitVec.add_assoc]

theorem fetchedPast_afterFetches (s : State) (n : Nat) : FetchedPast s (afterFetches s n) n := by
  induction n generalizing s with
  | zero =>
    exact ⟨by simp [afterFetches], rfl, ⟨rfl, rfl⟩, ⟨rfl, rfl, rfl, rfl, rfl, rfl, rfl, rfl, rfl⟩,
      noStore_of_kept rfl rfl rfl rfl rfl rfl⟩
  | succ n ih =>
    have hpast := (fetchedPast_afterFetch s).trans (ih (afterFetch s))
    rwa [Nat.add_comm] at hpast

theorem step_of_executePhase {s t : State} (h : interruptPhase (environment s) = .next t) :
    step s = andThen (executePhase t) fun u => .next (advancePhase u) := by
  unfold step machineStep
  rw [h]
  rfl

/-- The step of a running CPU. -/
theorem step_of_fetchBytes {s t : State} {i : Instr} (hi : i.wellFormed = true)
    (h : interruptPhase (environment s) = .next t) (hrun : t.run = .running)
    (hbytes : fetchBytes t (encode i).length = encode i) :
    step s = andThen (exec i (afterFetches t (encode i).length)) fun u => .next (advancePhase u) := by
  obtain ⟨hfetch, hafter⟩ := fetchInstr_of_fetchBytes hi hbytes
  rw [step_of_executePhase h, executePhase_of_running hrun, fetchAndExec_of_ok hfetch, hafter]

/-- Settles O5: the fetch gives the encoded instruction, and moves PC past its bytes only. -/
theorem stepRunsTheDecodedInstruction : Obligations.StepRunsTheDecodedInstruction := by
  unfold Obligations.StepRunsTheDecodedInstruction
  exact fun s t i hi h hrun hbytes => ⟨step_of_fetchBytes hi h hrun hbytes, fetchedPast_afterFetches t _⟩

/-! ## The unassigned opcodes (46_system.md R266) -/

theorem illegalOpcodes_encoded : ∀ p ∈ illegalOpcodes, p.1.wellFormed = true ∧ encode p.1 = [p.2] := by decide

/-- Settles O10: an unassigned opcode is one byte, so the address it was fetched from is the PC of the step. -/
theorem unassignedOpcodesFault : Obligations.UnassignedOpcodesFault := by
  unfold Obligations.UnassignedOpcodesFault
  refine ⟨fun s p hp => ⟨(illegalOpcodes_encoded p hp).2, exec_illegal s hp⟩, fun s t p hp h hrun hop => ?_⟩
  obtain ⟨hwf, hencode⟩ := illegalOpcodes_encoded p hp
  have hbytes : fetchBytes t (encode p.1).length = encode p.1 := by
    rw [hencode]
    exact congrArg (· :: []) hop
  have hpc : (afterFetches t 1).regs.pc - 1#16 = t.regs.pc := BitVec.add_sub_cancel t.regs.pc 1#16
  rw [step_of_fetchBytes hwf h hrun hbytes, exec_illegal _ hp, hencode]
  exact congrArg (fun a => Host.Outcome.fault (Fault.illegalOpcode p.2 a)) hpc

end Sys2Proof.Machine

/-! Interrupts (60_exceptions.md R301 to R307) and refused steps (46_system.md R262, 20_memory.md R98). -/

namespace Sys2Proof.Machine

/-! ## The selected source (R303, R305) -/

theorem getLsbD_pending (s : State) (i : Fin 5) :
    (pending s).getLsbD i = (s.mem.ie.getLsbD i && s.ifReg.getLsbD i) := by
  have hmask : (0x1F#8).getLsbD i = true := (show ∀ i : Fin 5, (0x1F#8).getLsbD i = true by decide) i
  rw [pending, BitVec.getLsbD_and, hmask, Bool.and_true, BitVec.getLsbD_and]

/-- The order of the checks is the order of the indices; of a mask, only the 256 values are asked. -/
theorem firstSource_eq_some : ∀ (mask : Byte) (i : Fin 5), firstSource mask = some i ↔
    mask.getLsbD i = true ∧ ∀ j < i, mask.getLsbD j = false := by decide

theorem firstSource_eq_none : ∀ mask : Byte, firstSource mask = none ↔ ∀ i : Fin 5, mask.getLsbD i = false := by
  decide

theorem pending_eq_zero (s : State) : pending s = 0#8 ↔ ∀ i : Fin 5, (pending s).getLsbD i = false := by
  refine ⟨fun h i => by rw [h]; exact BitVec.getLsbD_zero, fun h => BitVec.eq_of_getLsbD_eq fun k hk => ?_⟩
  rw [BitVec.getLsbD_zero]
  by_cases h5 : k < 5
  · exact h ⟨k, h5⟩
  · have hmask : (0x1F#8).getLsbD k = false :=
      (show ∀ k < 8, ¬k < 5 → (0x1F#8).getLsbD k = false by decide) k hk h5
    rw [pending, BitVec.getLsbD_and, hmask, Bool.and_false]

/-- Settles O7: the selection is the least index with its bit set in the pending mask, and the mask holds no other bit. -/
theorem leastPendingSourceIsSelected : Obligations.LeastPendingSourceIsSelected := by
  unfold Obligations.LeastPendingSourceIsSelected
  intro s
  refine ⟨fun i => ?_, ?_⟩
  · rw [firstSource_eq_some, getLsbD_pending]
    exact and_congr_right fun _ => forall_congr' fun j => by rw [getLsbD_pending]
  · exact (firstSource_eq_none _).trans (pending_eq_zero s).symm

/-! ## The interrupt phase (R302 to R304, R307) -/

/-- Settles O6: the promotion is the whole phase. -/
theorem scheduledPromotesWithoutDispatch : Obligations.ScheduledPromotesWithoutDispatch := by
  unfold Obligations.ScheduledPromotesWithoutDispatch
  exact fun s h => if_pos h

theorem interruptPhase_of_ne_scheduled {s : State} (h : s.ime ≠ .scheduled) :
    interruptPhase s = interruptCheck { s with cyc := 0 } := if_neg h

theorem interruptCheck_of_enabled {s : State} {i : Fin 5} (h : s.ime = .enabled)
    (hi : firstSource (pending s) = some i) : interruptCheck s = takeInterrupt i s := by
  simp [interruptCheck, h, hi]

theorem interruptCheck_of_none {s : State} (h : firstSource (pending s) = none) : interruptCheck s = .next s := by
  simp [interruptCheck, h]

theorem interruptCheck_of_running {s : State} (h : s.ime = .disabled) (hrun : s.run = .running) :
    interruptCheck s = .next s := by
  simp [interruptCheck, h, hrun]

theorem interruptCheck_of_sleeping {s : State} {i : Fin 5} (h : s.ime = .disabled) (hrun : s.run ≠ .running)
    (hi : firstSource (pending s) = some i) : interruptCheck s = .next (wake i s) := by
  simp [interruptCheck, h, hrun, hi]

/-- The phase with IME Enabled and a pending source. -/
theorem interruptPhase_of_enabled {s : State} {i : Fin 5} (h : s.ime = .enabled)
    (hi : firstSource (pending s) = some i) : interruptPhase s = takeInterrupt i { s with cyc := 0 } :=
  (interruptPhase_of_ne_scheduled (by rw [h]; decide)).trans (interruptCheck_of_enabled h hi)

theorem acceptsWord_withCpu (s : State) (g : Regs) (i : Ime) (r : RunState) (n : Nat) (a v : Word) :
    acceptsWord (s.withCpu g i r n) a v ↔ acceptsWord s a v := by
  unfold acceptsWord
  rw [busStore_withCpu]
  rfl

/-- A push, with the CPU's fields apart from what the bus reaches. -/
theorem push16_withCpu {s : State} {g : Regs} {v : Word} (i : Ime) (r : RunState) (n : Nat)
    (h : acceptsWord s (g.sp - 2#16) v) : push16 (s.withCpu g i r n) v =
      .next ((busStore (busStore s (g.sp - 2#16) (loByte v)) (g.sp - 2#16 + 1#16) (hiByte v)).withCpu
        { g with sp := g.sp - 2#16 } i r n) := by
  rw [← busStore_withCpu, ← busStore_withCpu]
  exact push16_eq_next.2 ⟨(acceptsWord_withCpu s _ i r n _ v).2 h, rfl⟩

/-- The request bit of a source, cleared. -/
theorem clearRequest_ifReg {s : State} (h : s.mem.wf) (i : Fin 5) :
    (clearRequest s i).ifReg = s.ifReg &&& ~~~(1#8 <<< i.val) := io_setIo_same h _ _

/-- A dispatch, with the CPU's fields apart from what the bus reaches. -/
theorem takeInterrupt_withCpu {s : State} {g : Regs} {i : Fin 5} (m : Ime) (r : RunState) (n : Nat)
    (h : acceptsWord (clearRequest s i) (g.sp - 2#16) g.pc) : takeInterrupt i (s.withCpu g m r n) =
      .next ((busStore (busStore (clearRequest s i) (g.sp - 2#16) (loByte g.pc)) (g.sp - 2#16 + 1#16)
        (hiByte g.pc)).withCpu { g with sp := g.sp - 2#16, pc := interruptVector i } .disabled .running 20) := by
  have hpush := push16_withCpu .disabled r n h
  generalize busStore (busStore (clearRequest s i) _ _) _ _ = u at hpush ⊢
  exact takeInterrupt_eq_next.2 ⟨_, hpush, rfl⟩

/-- Settles O8: the push is made with the request cleared and IME Disabled, and the CPU's own fields do not show on the
bus. -/
theorem dispatchSavesPcAndVectors : Obligations.DispatchSavesPcAndVectors := by
  unfold Obligations.DispatchSavesPcAndVectors
  intro s i hwf hime hi hacc
  have htake := takeInterrupt_withCpu s.ime s.run 0 hacc
  have hbus := (busStore_busOnly (clearRequest s i) (s.regs.sp - 2#16) (loByte s.regs.pc)).trans
    (busStore_busOnly _ (s.regs.sp - 2#16 + 1#16) (hiByte s.regs.pc))
  have hstored := storedAt_busStore (busStore (clearRequest s i) (s.regs.sp - 2#16) (loByte s.regs.pc))
    (s.regs.sp - 2#16 + 1#16) (hiByte s.regs.pc)
  exact ⟨clearRequest_ifReg hwf i, _, (interruptPhase_of_enabled hime hi).trans htake, rfl, rfl, rfl, rfl,
    hbus.keepsDevices, storedAt_busStore .., hstored⟩

/-- A request bit shows at IF only. -/
theorem busRead_clearRequest (s : State) (i : Fin 5) {x : Word} (hx : x ≠ 0xFF0F#16) :
    busRead (clearRequest s i) x = busRead s x := by
  have hne : x.toNat ≠ 0xFF0F := fun h => hx (BitVec.eq_of_toNat_eq h)
  exact busRead_setIo _ (by unfold IoShowsAt; omega)

/-- Waking clears at most the request. -/
theorem wake_outcome {s : State} (i : Fin 5) (hwf : s.mem.wf) :
    KeepsDevices s (wake i s) ∧ (wake i s).mbc = s.mbc ∧ (wake i s).timer = s.timer ∧
      (wake i s).ifReg = (if s.params.haltWakeClearsIf then s.ifReg &&& ~~~(1#8 <<< i.val) else s.ifReg) ∧
      ∀ x, x ≠ 0xFF0F#16 → inApuRange x = false → busRead (wake i s) x = busRead s x := by
  have hdev : ∀ t : State, (t = clearRequest s i ∨ t = s) → KeepsDevices s (t.setRun .running) ∧ t.mbc = s.mbc ∧
      t.timer = s.timer ∧ ∀ x, x ≠ 0xFF0F#16 → inApuRange x = false → busRead (t.setRun .running) x = busRead s x := by
    rintro t (rfl | rfl)
    · exact ⟨⟨rfl, rfl, rfl, rfl, rfl, rfl, rfl, rfl, rfl⟩, rfl, rfl, fun x hx hapu =>
        (busRead_congr rfl rfl rfl rfl rfl rfl hapu).trans (busRead_clearRequest s i hx)⟩
    · exact ⟨⟨rfl, rfl, rfl, rfl, rfl, rfl, rfl, rfl, rfl⟩, rfl, rfl, fun x _ hapu =>
        busRead_congr rfl rfl rfl rfl rfl rfl hapu⟩
  unfold wake
  cases s.params.haltWakeClearsIf
  · obtain ⟨hkeep, hmbc, htimer, hread⟩ := hdev s (.inr rfl)
    exact ⟨hkeep, hmbc, htimer, rfl, hread⟩
  · obtain ⟨hkeep, hmbc, htimer, hread⟩ := hdev _ (.inl rfl)
    exact ⟨hkeep, hmbc, htimer, clearRequest_ifReg hwf i, hread⟩

/-- Settles O9: the cases of the interrupt check without a dispatch. -/
theorem interruptsWaitOrWake : Obligations.InterruptsWaitOrWake := by
  unfold Obligations.InterruptsWaitOrWake
  intro s
  have hcheck : s.ime = .disabled → interruptPhase s = interruptCheck { s with cyc := 0 } := fun h =>
    interruptPhase_of_ne_scheduled (by rw [h]; decide)
  refine ⟨fun t h hrun => ?_, fun h hrun => ?_, fun h hnone => ?_, fun i hwf h hrun hi => ?_⟩
  · rw [step_of_executePhase h, executePhase_of_sleeping hrun]
    rfl
  · exact (hcheck h).trans (interruptCheck_of_running h hrun)
  · exact (interruptPhase_of_ne_scheduled h).trans (interruptCheck_of_none hnone)
  · have hphase := (hcheck h).trans (interruptCheck_of_sleeping (s := { s with cyc := 0 }) h hrun hi)
    obtain ⟨hkeep, hmbc, htimer, hif, hread⟩ := wake_outcome (s := { s with cyc := 0 }) i hwf
    have hregs : (wake i { s with cyc := 0 }).regs = s.regs ∧ (wake i { s with cyc := 0 }).ime = s.ime ∧
        (wake i { s with cyc := 0 }).cyc = 0 := by
      unfold wake
      split <;> exact ⟨rfl, rfl, rfl⟩
    obtain ⟨hregs, hime, hcyc⟩ := hregs
    exact ⟨_, hphase, rfl, hime.trans h, hregs, hcyc, hkeep, hmbc, htimer, hif, fun x hx hapu =>
      (hread x hx hapu).trans (busRead_congr rfl rfl rfl rfl rfl rfl hapu)⟩

/-! ## Refusals (46_system.md R262, 20_memory.md R98) -/

/-- A write to HDMA5 with bit 7 set, or with a source that the transfer cannot read. -/
theorem hdmaRefusal_ne_none (s : State) (v : Byte) : hdmaRefusal s v ≠ none ↔
    v.getLsbD 7 = true ∨ ∃ k, k < (v.toNat % 128 + 1) * 16 ∧
      gdmaBadSource (s.gdmaSource + BitVec.ofNat 16 k) = true := by
  unfold hdmaRefusal gdmaLength
  by_cases h7 : v.getLsbD 7 = true
  · simp [h7]
  · rw [if_neg h7]
    simp only [h7, false_or, List.any_eq_true, List.mem_range, ne_eq, ite_eq_right_iff, reduceCtorEq, imp_false, Decidable.not_not]

theorem busRefusal_ne_none (s : State) (a : Word) (v : Byte) : busRefusal s a v ≠ none ↔
    a = 0xFF55#16 ∧ s.params.cgbMode = true ∧ (v.getLsbD 7 = true ∨ ∃ k, k < (v.toNat % 128 + 1) * 16 ∧
      gdmaBadSource (s.gdmaSource + BitVec.ofNat 16 k) = true) := by
  rw [← hdmaRefusal_ne_none, ← and_assoc]
  unfold busRefusal
  by_cases h : a = 0xFF55#16 ∧ s.params.cgbMode = true
  · rw [if_pos h]
    exact (and_iff_right h).symm
  · rw [if_neg h]
    exact iff_of_false (fun hne => hne rfl) fun hand => h hand.1

/-- STOP with another second byte is refused by the fetch (R262). -/
theorem fetchInstr_of_stopOperand {s : State} {b : Byte} (hop : fetchByte s = 0x10#8)
    (hb : fetchByte (afterFetch s) = b) (hne : b ≠ 0x00#8) : fetchInstr s = .error b := by
  have hlen : instrLength (fetchByte s) = 2 := by rw [hop]; rfl
  have hbytes : fetchBytes s 2 = [0x10#8, b] := by rw [fetchBytes, fetchBytes, fetchBytes, hop, hb]
  unfold fetchInstr
  rw [hlen, hbytes]
  exact decodeOp_eq_error.2 ⟨rfl, hne, rfl⟩

theorem andThen_busWrite16_refused {s : State} {a v : Word} {f : State → Result} {r : Refusal}
    (h : wordRefusal s a v = some r) : andThen (busWrite16 s a v) f = .refused r :=
  andThen_eq_refused.2 (.inl (busWrite16_eq_refused.2 h))

theorem andThen_push16_refused {s : State} {v : Word} {f : State → Result} {r : Refusal}
    (h : wordRefusal s (s.regs.sp - 2#16) v = some r) : andThen (push16 s v) f = .refused r :=
  andThen_eq_refused.2 (.inl (push16_eq_refused.2 h))

/-- A dispatch whose push is refused. -/
theorem interruptPhase_refused {s : State} {i : Fin 5} {r : Refusal} (h : s.ime = .enabled)
    (hi : firstSource (pending s) = some i)
    (hr : wordRefusal (clearRequest s i) (s.regs.sp - 2#16) s.regs.pc = some r) : interruptPhase s = .refused r := by
  have hcpu := wordRefusal_withCpu (clearRequest s i) s.regs .disabled s.run 0 (s.regs.sp - 2#16) s.regs.pc
  exact (interruptPhase_of_enabled h hi).trans (andThen_push16_refused (hcpu.trans hr))

/-- Settles O11: what is refused is the decoder's STOP, the bus's write to HDMA5, and whatever makes such a write, by the
refusal of its shape. -/
theorem refusalsAreStopOperandAndHdma : Obligations.RefusalsAreStopOperandAndHdma := by
  unfold Obligations.RefusalsAreStopOperandAndHdma
  refine ⟨fun s t b h hrun hop hb hne => ?_, fun s a v => ⟨busRefusal_ne_none s a v, busWrite_of_accepted,
    fun r hr => busWrite_eq_refused.2 hr⟩, fun s => ?_, fun s => ?_, fun s => ?_, fun s r => ⟨fun i => ?_, fun h => ?_,
    fun t i hi h hrun hbytes hr => ?_⟩⟩
  · rw [step_of_executePhase h, executePhase_of_running hrun,
      fetchAndExec_of_error (fetchInstr_of_stopOperand hop hb hne)]
    rfl
  · have hstore {a : Word} {v : Byte} {n : Nat} {r : Refusal} (hr : busRefusal s a v = some r) :
        storeByte a v n s = .refused r := storeByte_eq_refused.2 hr
    have hstep {hl : Word} {r : Refusal} (hr : busRefusal s s.regs.hl s.regs.a = some r) :
        storeAccStep hl s = .refused r := storeAccStep_eq_refused.2 hr
    exact ⟨fun _ _ => hstore, fun _ _ => hstore, fun _ => hstore, fun _ => hstore, fun _ _ => hstore, fun _ => hstore,
      fun _ _ => hstore, fun _ => hstep, fun _ => hstep⟩
  · have hmodify (op : Byte → Byte → Byte × Byte) {n : Nat} {r : Refusal}
        (hr : busRefusal s s.regs.hl (op (busRead s s.regs.hl) s.regs.f).1 = some r) :
        modifyHl op n s = .refused r := modifyHl_eq_refused.2 hr
    refine ⟨fun _ => hmodify incByte, fun _ => hmodify decByte, fun op r hr => ?_, fun b =>
      ⟨fun _ => hmodify fun v f => (clearBit b v, f), fun _ => hmodify fun v f => (setBit b v, f)⟩⟩
    rw [← rotateFlags_fst] at hr
    exact (exec_rotateHl op s).trans (hmodify _ hr)
  · refine ⟨fun _ _ => andThen_busWrite16_refused, fun _ _ => andThen_push16_refused, fun _ _ => call_eq_refused.2,
      fun cc nn hcc r hr => ?_, fun _ _ => call_eq_refused.2⟩
    have htaken : exec (.callCcNn cc nn) s = call nn 24 s := if_pos hcc
    exact htaken.trans (call_eq_refused.2 hr)
  · exact fun hime hi hr => interruptPhase_refused hime hi hr
  · exact step_eq_refused.2 (.inl h)
  · rw [step_of_fetchBytes hi h hrun hbytes, hr]
    rfl

end Sys2Proof.Machine

/-! The byte 0xCB, returns, and the system instructions (45_control.md R248 to R250, 46_system.md R260 to R265), and a
push popped again. -/

namespace Sys2Proof.Machine

/-! ## The byte 0xCB (R265) -/

/-- The register forms of the second table always complete. -/
theorem execCbReg_next (x y : Nat) (r : Reg8) (s : State) : ∃ t, execCbReg x y r s = .next t := by
  unfold execCbReg
  split
  · split <;> exact ⟨_, rfl⟩
  all_goals exact ⟨_, rfl⟩

theorem modifyHl_next {op : Byte → Byte → Byte × Byte} {n : Nat} {s : State}
    (h : ∀ v, busRefusal s s.regs.hl v = none) : ∃ t, modifyHl op n s = .next t :=
  ⟨_, modifyHl_eq_next.2 ⟨h _, rfl⟩⟩

/-- The `(HL)` forms complete where they write nothing, as BIT, or where the bus accepts the write. -/
theorem execCbHl_next {x : Nat} (y : Nat) {s : State} (h : x = 1 ∨ ∀ v, busRefusal s s.regs.hl v = none) :
    ∃ t, execCbHl x y s = .next t := by
  by_cases hx : x = 1
  · subst hx
    exact ⟨_, rfl⟩
  have hr := h.resolve_left hx
  unfold execCbHl
  split
  · split <;> exact modifyHl_next hr
  · exact absurd rfl hx
  all_goals exact modifyHl_next hr

theorem ofCode_eq_none {z : Nat} (hz : z < 8) (h : Reg8.ofCode z = none) : z = 6 := by
  revert h
  obtain rfl | rfl | rfl | rfl | rfl | rfl | rfl | rfl := octal_cases hz <;> decide

/-- Settles O30: the second byte chooses the register or the `(HL)` form. -/
theorem prefixRunsTheSecondTable : Obligations.PrefixRunsTheSecondTable := by
  unfold Obligations.PrefixRunsTheSecondTable
  refine ⟨rfl, fun s => ⟨exec_prefixCb s, fetchedPast_afterFetch s, fun h => ?_⟩⟩
  change ∃ t, execPrefixCb s = .next t
  unfold execPrefixCb
  dsimp only
  split
  · exact execCbReg_next ..
  next hnone =>
    have h6 := ofCode_eq_none (Nat.mod_lt _ (by decide)) hnone
    have hhl : (afterFetch s).regs.hl = s.regs.hl := by simp [afterFetch, Regs.hl]
    rw [← hhl] at h
    exact execCbHl_next _ (h.resolve_left fun hne => hne h6)

/-! ## Returns (R248 to R250) -/

theorem completes_returnTo {i : Instr} {s : State} {n : Nat} (h : exec i s = returnTo n s) :
    Completes i s (fun t =>
      OnlyRegs s t { s.regs with sp := s.regs.sp + 2#16, pc := busRead16 s s.regs.sp } n) :=
  ⟨_, h.trans (returnTo_eq n s), onlyRegs_afterRead16 ..⟩

/-- Settles O33: RET and a RET cc whose condition holds are `returnTo`; RETI is the same pop, and writes IME. -/
theorem returnsPopThePc : Obligations.ReturnsPopThePc := by
  unfold Obligations.ReturnsPopThePc
  refine fun s => ⟨⟨rfl, completes_returnTo rfl⟩,
    fun cc => ⟨rfl, completes_ite rfl completes_returnTo completes_finish⟩, rfl, ?_⟩
  obtain ⟨hregs, hcyc, ⟨-, hrun⟩, hdevices, hstore⟩ := onlyRegs_afterRead16 s s.regs.sp
    { s.regs with sp := s.regs.sp + 2#16, pc := popWord s } 16
  have hreti : exec .reti s = .next ((((afterRead16 s s.regs.sp).withRegs
      { s.regs with sp := s.regs.sp + 2#16, pc := popWord s }).setIme .enabled).tick 16) := by
    change returnFromInterrupt s = _
    unfold returnFromInterrupt State.setPc
    rw [afterPop_regs]
    rfl
  exact ⟨_, hreti, rfl, rfl, hrun, hcyc, hdevices, hstore⟩

/-! ## NOP, HALT, DI, EI and STOP (R260 to R264) -/

/-- The CPU's own fields do not show on the bus. -/
theorem noStore_withCpu (s : State) (g : Regs) (i : Ime) (r : RunState) (n : Nat) : NoStore s (s.withCpu g i r n) :=
  noStore_of_kept rfl rfl rfl rfl rfl rfl

theorem keepsDevices_withCpu (s : State) (g : Regs) (i : Ime) (r : RunState) (n : Nat) :
    KeepsDevices s (s.withCpu g i r n) := ⟨rfl, rfl, rfl, rfl, rfl, rfl, rfl, rfl, rfl⟩

/-- Settles O34: each writes one of the CPU's own fields, or none. -/
theorem nopHaltDiAndEi : Obligations.NopHaltDiAndEi := by
  unfold Obligations.NopHaltDiAndEi
  exact fun s => ⟨⟨rfl, completes_finish rfl⟩,
    ⟨rfl, _, rfl, rfl, rfl, rfl, rfl, keepsDevices_withCpu s s.regs s.ime .halted (s.cyc + 4),
      noStore_withCpu s s.regs s.ime .halted (s.cyc + 4)⟩,
    ⟨rfl, _, rfl, rfl, rfl, rfl, rfl, keepsDevices_withCpu s s.regs .disabled s.run (s.cyc + 4),
      noStore_withCpu s s.regs .disabled s.run (s.cyc + 4)⟩,
    ⟨rfl, _, rfl, rfl, rfl, rfl, rfl, keepsDevices_withCpu s s.regs .scheduled s.run (s.cyc + 4),
      noStore_withCpu s s.regs .scheduled s.run (s.cyc + 4)⟩⟩

/-- The speed shows at KEY1 only (20_memory.md R93). -/
theorem busRead_doubleSpeed (s : State) (d : Bool) {x : Word} (hx : x ≠ 0xFF4D#16) :
    busRead { s with doubleSpeed := d } x = busRead s x := by
  have hroute : route { s with doubleSpeed := d } x = route s x := rfl
  unfold busRead
  rw [hroute]
  cases hr : route s x with
  | io o =>
    obtain ⟨hn, -⟩ := covers_of_route hr
    have ho : o ≠ 0x4D := fun h => hx (BitVec.eq_of_toNat_eq (by rw [hn, h]; rfl))
    simp [ioRead, ho]
    rfl
  | _ => rfl

theorem exec_stop_eq (s : State) :
    exec .stop s = .next ((if speedSwitchArmed s then switchSpeed s else s.setRun .stopped).tick 4) := rfl

/-- Settles O35: a switch changes the speed and KEY1, which show at KEY1 only; otherwise the run state is written. -/
theorem stopSwitchesSpeedOrSleeps : Obligations.StopSwitchesSpeedOrSleeps := by
  unfold Obligations.StopSwitchesSpeedOrSleeps
  refine fun s hwf => ⟨rfl, fun hcgb hkey => ?_, fun harmed => ?_⟩
  · have hstop : exec .stop s = .next ((switchSpeed s).tick 4) := by
      have harmed : speedSwitchArmed s = true := Bool.and_eq_true_iff.2 ⟨hcgb, hkey⟩
      rw [exec_stop_eq, if_pos harmed]
    refine ⟨_, hstop, rfl, io_setIo_same (s := { s with doubleSpeed := !s.doubleSpeed }) hwf _ _, rfl, rfl, rfl, rfl,
      ⟨rfl, rfl, rfl, rfl, rfl, rfl, rfl, rfl, rfl⟩, rfl, rfl, fun x hx hapu => ?_⟩
    have hne : x.toNat ≠ 0xFF4D := fun h => hx (BitVec.eq_of_toNat_eq h)
    calc busRead ((switchSpeed s).tick 4) x
      _ = busRead (switchSpeed s) x := busRead_congr rfl rfl rfl rfl rfl rfl hapu
      _ = busRead { s with doubleSpeed := !s.doubleSpeed } x := busRead_setIo _ (by unfold IoShowsAt; omega)
      _ = busRead s x := busRead_doubleSpeed s _ hx
  · have hstop : exec .stop s = .next ((s.setRun .stopped).tick 4) := by
      have hnot : ¬speedSwitchArmed s = true := Bool.eq_false_iff.1 harmed
      rw [exec_stop_eq, if_neg hnot]
    exact ⟨_, hstop, rfl, rfl, rfl, rfl, keepsDevices_withCpu s s.regs s.ime .stopped (s.cyc + 4),
      noStore_withCpu s s.regs s.ime .stopped (s.cyc + 4)⟩

/-! ## A push popped again (00_scope.md R9, 10_state.md R25) -/

/-- Plain RAM is no place that the bus refuses. -/
theorem busRefusal_of_plainRam (s : State) {a : Word} (v : Byte) (h : plainRam a = true) : busRefusal s a v = none := by
  have hne : a ≠ 0xFF55#16 := by
    rintro rfl
    exact absurd h (by decide)
  exact if_neg fun hand => hne hand.1

/-- Two neighbouring addresses are two cells. -/
theorem sameCell_next (a : Word) : sameCell (a + 1#16) a = false := by
  have hlt := a.isLt
  have hnext : (a + 1#16).toNat = (a.toNat + 1) % 65536 := BitVec.toNat_add ..
  rw [sameCell, hnext, beq_eq_false_iff_ne, ne_eq, unmirror_eq_iff]
  omega

theorem route_ne_next (s : State) {a : Word} (h : plainRam (a + 1#16) = true) : route s a ≠ route s (a + 1#16) := by
  intro hroute
  have hcell : sameCell (a + 1#16) a = true := by
    rcases (plainRam_iff_route s (a + 1#16)).1 h with ⟨o, hr | hr | hr | hr⟩ | hr <;>
      exact sameCell_of_route_eq hroute (by simp [hr]) (by simp [hr]) (by simp [hr])
  exact absurd (hcell.symm.trans (sameCell_next a)) (by decide)

/-- A read of plain RAM draws nothing. -/
theorem afterRead_of_plainRam (s : State) {a : Word} (h : plainRam a = true) : afterRead s a = s := by
  have hapu : ¬inApuRange a = true := by
    unfold plainRam inApuRange at *
    simp only [decide_eq_true_eq] at *
    omega
  exact if_neg hapu

/-- A word stored in plain RAM reads back. -/
theorem busRead16_of_stored {s : State} {a : Word} (v : Word) (hwf : s.mem.wf) (hlo : plainRam a = true)
    (hhi : plainRam (a + 1#16) = true) :
    busRead16 (busStore (busStore s a (loByte v)) (a + 1#16) (hiByte v)) a = v := by
  have hlow : busRead (busStore (busStore s a (loByte v)) (a + 1#16) (hiByte v)) a = loByte v :=
    (busRead_busStore_plainRam_other _ hhi (route_ne_next _ hhi)).trans
      (busRead_busStore_plainRam_same _ hwf hlo rfl)
  have hhigh : busRead (busStore (busStore s a (loByte v)) (a + 1#16) (hiByte v)) (a + 1#16) = hiByte v :=
    busRead_busStore_plainRam_same _ (wf_busStore _ _ hwf) hhi rfl
  rw [busRead16, afterRead_of_plainRam _ hlo, hlow, hhigh, joinBytes_halves]

/-- A pair written with its own value is unchanged. -/
theorem set16S_get16S (g : Regs) {rr : Reg16S} (h : rr ≠ .af) : g.set16S rr (g.get16S rr) = g := by
  cases rr
  case af => exact absurd rfl h
  all_goals simp [Regs.set16S, Regs.get16S, Regs.setBc, Regs.setDe, Regs.setHl, Regs.bc, Regs.de, Regs.hl]

theorem setAf_af {g : Regs} (h : g.f &&& 0x0F#8 = 0#8) : g.setAf g.af = g := by
  have hf : g.f &&& 0xF0#8 = g.f := by
    have hsplit : g.f = g.f &&& 0xF0#8 ||| g.f &&& 0x0F#8 := by
      rw [← BitVec.and_or_distrib_left]
      exact BitVec.and_allOnes.symm
    rw [h, BitVec.or_zero] at hsplit
    exact hsplit.symm
  simp [Regs.setAf, Regs.af, hf]

theorem acceptsWord_of_plainRam (s : State) {a : Word} (v : Word) (hlo : plainRam a = true)
    (hhi : plainRam (a + 1#16) = true) : acceptsWord s a v :=
  ⟨busRefusal_of_plainRam s _ hlo, busRefusal_of_plainRam _ _ hhi⟩

/-- A push in plain RAM leaves the word where the pop reads it. -/
theorem exec_push_plainRam {s t : State} {rr : Reg16S} (hwf : s.mem.wf) (hlo : plainRam (s.regs.sp - 2#16) = true)
    (hhi : plainRam (s.regs.sp - 2#16 + 1#16) = true) (h : exec (.push rr) s = .next t) :
    t.regs = { s.regs with sp := s.regs.sp - 2#16 } ∧ busRead16 t t.regs.sp = s.regs.get16S rr := by
  have hpush : push16 s (s.regs.get16S rr) = .next _ :=
    push16_withCpu (g := s.regs) s.ime s.run s.cyc (acceptsWord_of_plainRam s _ hlo hhi)
  have hread := busRead16_of_stored (s.regs.get16S rr) hwf hlo hhi
  generalize busStore (busStore s _ _) _ _ = u at hpush hread
  change andThen (push16 s (s.regs.get16S rr)) (finish 16) = .next t at h
  rw [hpush] at h
  cases h
  refine ⟨rfl, Eq.trans ?_ hread⟩
  change busRead16 (u.withCpu { s.regs with sp := s.regs.sp - 2#16 } s.ime s.run (s.cyc + 16)) (s.regs.sp - 2#16) = _
  rw [busRead16, afterRead_withCpu]
  rfl

/-- Settles O19: the popped word is the pushed one, and SP is back. -/
theorem popReturnsWhatWasPushed : Obligations.PopReturnsWhatWasPushed := by
  unfold Obligations.PopReturnsWhatWasPushed
  intro s t rr hwf hflags hlo hhi hexec
  have hnext : s.regs.sp - 2#16 + 1#16 = s.regs.sp - 1#16 := by bv_omega
  obtain ⟨hregs, hword⟩ := exec_push_plainRam hwf hlo (hnext ▸ hhi) hexec
  have hback : ({ t.regs with sp := t.regs.sp + 2#16 } : Regs) = s.regs := by
    simp only [hregs, BitVec.sub_add_cancel]
  obtain ⟨-, hpop, -, u, haf, huaf, -⟩ := pushAndPop t
  refine ⟨fun hrr => ?_, fun hrr => ⟨u, haf, ?_⟩⟩
  · obtain ⟨-, u, hu, ⟨huregs, -⟩, -⟩ := hpop rr hrr
    exact ⟨u, hu, by rw [huregs, hword, hback, set16S_get16S _ hrr]⟩
  · subst hrr
    rw [huaf, hword]
    exact (congrArg (Regs.setAf · s.regs.af) hback).trans (setAf_af hflags)

end Sys2Proof.Machine

/-! The Timer's loops (60_exceptions.md R330), the MBC3 clock's second (20_memory.md R118) and the joypad (60_exceptions.md
R340). -/

namespace Sys2Proof.Machine

/-! ## The Timer's loops in closed form (R330) -/

theorem divAdvance_eq_self {s : State} (h : s.timer.divAcc < s.params.divTickCycles) : divAdvance s 0 = s := by
  simp [divAdvance, Nat.div_eq_of_lt h, Nat.mod_eq_of_lt h]

/-- One round of the DIV loop. -/
def divRound (s : State) : State :=
  { s with timer.divAcc := s.timer.divAcc - s.params.divTickCycles, timer.divctr := s.timer.divctr + 1#16 }

theorem divLoop_succ (s : State) (fuel : Nat) : divLoop s (fuel + 1) =
    if s.params.divTickCycles ≤ s.timer.divAcc then divLoop (divRound s) fuel else s := rfl

/-- A round changes nothing of what the closed form gives. -/
theorem divAdvance_divRound {s : State} (hpos : 0 < s.params.divTickCycles)
    (h : s.params.divTickCycles ≤ s.timer.divAcc) : divAdvance (divRound s) 0 = divAdvance s 0 := by
  have hdiv : s.timer.divAcc / s.params.divTickCycles =
      (s.timer.divAcc - s.params.divTickCycles) / s.params.divTickCycles + 1 := Nat.div_eq_sub_div hpos h
  have hmod := Nat.mod_eq_sub_mod h
  unfold divAdvance divRound
  simp only [Nat.add_zero, hdiv, hmod, BitVec.ofNat_add, BitVec.add_assoc, BitVec.add_comm 1#16]

theorem divLoop_eq (fuel : Nat) {s : State} (hpos : 0 < s.params.divTickCycles) (hfuel : s.timer.divAcc ≤ fuel) :
    divLoop s fuel = divAdvance s 0 := by
  induction fuel generalizing s with
  | zero => exact (divAdvance_eq_self (s := s) (by omega)).symm
  | succ fuel ih =>
    rw [divLoop_succ]
    by_cases h : s.params.divTickCycles ≤ s.timer.divAcc
    · have hround : (divRound s).timer.divAcc ≤ fuel := by
        change s.timer.divAcc - s.params.divTickCycles ≤ fuel
        omega
      rw [if_pos h, ih (s := divRound s) hpos hround, divAdvance_divRound hpos h]
    · rw [if_neg h, divAdvance_eq_self (by omega)]

/-- TIMA's accumulator, replaced. -/
def State.setTimaAcc (s : State) (x : Nat) : State := { s with timer.timaAcc := x }

/-- An increment of TIMA does not look at its accumulator. -/
theorem timaIncrement_setTimaAcc (s : State) (x : Nat) :
    timaIncrement (s.setTimaAcc x) = (timaIncrement s).setTimaAcc x := by
  have htima : (s.setTimaAcc x).tima = s.tima := rfl
  unfold timaIncrement
  rw [htima]
  split <;> rfl

theorem timaLoop_succ (period : Nat) (s : State) (fuel : Nat) : timaLoop period s (fuel + 1) =
    if period ≤ s.timer.timaAcc then
      timaLoop period (timaIncrement (s.setTimaAcc (s.timer.timaAcc - period))) fuel
    else s := rfl

theorem timaIncrements_of_lt {period : Nat} {s : State} (h : s.timer.timaAcc < period) :
    timaIncrements (s.setTimaAcc (s.timer.timaAcc % period)) (s.timer.timaAcc / period) = s := by
  rw [Nat.div_eq_of_lt h, Nat.mod_eq_of_lt h]
  rfl

theorem timaLoop_eq {period : Nat} (hpos : 0 < period) (fuel : Nat) {s : State} (hfuel : s.timer.timaAcc ≤ fuel) :
    timaLoop period s fuel =
      timaIncrements (s.setTimaAcc (s.timer.timaAcc % period)) (s.timer.timaAcc / period) := by
  induction fuel generalizing s with
  | zero => exact (timaIncrements_of_lt (s := s) (by omega)).symm
  | succ fuel ih =>
    rw [timaLoop_succ]
    by_cases h : period ≤ s.timer.timaAcc
    · have hround : ((timaIncrement s).setTimaAcc (s.timer.timaAcc - period)).timer.timaAcc ≤ fuel := by
        change s.timer.timaAcc - period ≤ fuel
        omega
      rw [if_pos h, timaIncrement_setTimaAcc, ih hround, Nat.div_eq_sub_div hpos h, Nat.mod_eq_sub_mod h,
        timaIncrements, timaIncrement_setTimaAcc]
      rfl
    · rw [if_neg h, timaIncrements_of_lt (by omega)]

/-- Settles O46: each loop is its closed form, and the DIV half changes neither TAC nor TIMA's accumulator. -/
theorem timerAdvanceIsTheLoops : Obligations.TimerAdvanceIsTheLoops := by
  unfold Obligations.TimerAdvanceIsTheLoops
  intro s n hdiv htima
  have hd : divLoop { s with timer.divAcc := s.timer.divAcc + n } (s.timer.divAcc + n) = divAdvance s n :=
    divLoop_eq _ hdiv (Nat.le_refl _)
  unfold timerAdvanceLoops timerAdvance timaAdvance
  dsimp only
  rw [hd]
  split
  · exact (timaLoop_eq (s := (divAdvance s n).setTimaAcc ((divAdvance s n).timer.timaAcc + n)) htima _ (Nat.le_refl _)).symm
  · rfl

/-! ## The clock (R118) -/

theorem and_0x3F_toNat (v : Byte) : (v &&& 0x3F#8).toNat = v.toNat % 64 := by
  rw [BitVec.toNat_and]
  exact Nat.and_two_pow_sub_one_eq_mod v.toNat 6

theorem and_0x1F_toNat (v : Byte) : (v &&& 0x1F#8).toNat = v.toNat % 32 := by
  rw [BitVec.toNat_and]
  exact Nat.and_two_pow_sub_one_eq_mod v.toNat 5

/-- A field of 6 bits counts on, and is at its last value when its 6 bits are. -/
theorem count_sixBits (v : Byte) : BitVec.ofNat 8 ((v.toNat + 1) % 64) = (v + 1#8) &&& 0x3F#8 := by
  apply BitVec.eq_of_toNat_eq
  rw [and_0x3F_toNat, BitVec.toNat_ofNat, BitVec.toNat_add]
  simp
  omega

theorem sixBits_eq_iff (v : Byte) : v &&& 0x3F#8 = 59#8 ↔ (v.toNat + 1) % 64 = 60 := by
  rw [← BitVec.toNat_inj, and_0x3F_toNat]
  simp
  omega

theorem count_fiveBits (v : Byte) : BitVec.ofNat 8 ((v.toNat + 1) % 32) = (v + 1#8) &&& 0x1F#8 := by
  apply BitVec.eq_of_toNat_eq
  rw [and_0x1F_toNat, BitVec.toNat_ofNat, BitVec.toNat_add]
  simp
  omega

theorem fiveBits_eq_iff (v : Byte) : v &&& 0x1F#8 = 23#8 ↔ (v.toNat + 1) % 32 = 24 := by
  rw [← BitVec.toNat_inj, and_0x1F_toNat]
  simp
  omega

/-- DH after a day: bit 0 is the day count's bit 8, the carry sets bit 7, the other bits are kept. -/
def Rtc.dayHigh (b : Byte) (carry high : Bool) : Byte :=
  ((if carry then b ||| 0x80#8 else b) &&& 0xFE#8) ||| (if high then 1#8 else 0#8)

theorem dayHigh_bits (b : Byte) (carry high : Bool) :
    Rtc.dayHigh b carry high &&& 0x7E#8 = b &&& 0x7E#8 ∧
      (Rtc.dayHigh b carry high).getLsbD 7 = (b.getLsbD 7 || carry) ∧
      (Rtc.dayHigh b carry high).toNat % 2 = bit high := by
  refine ⟨?_, ?_, ?_⟩
  · cases carry <;> cases high <;> simp [Rtc.dayHigh, BitVec.and_or_distrib_right, BitVec.and_assoc]
  · cases carry <;> cases high <;> simp [Rtc.dayHigh]
  · rw [← Nat.div_one (Rtc.dayHigh b carry high).toNat]
    refine (bit_getLsbD (Rtc.dayHigh b carry high) 0).symm.trans (congrArg bit ?_)
    cases carry <;> cases high <;> simp [Rtc.dayHigh]

/-- A second that is not the last of its minute. -/
theorem second_of_seconds {r : Rtc} (hrun : r.dh.getLsbD 6 = false) (hs : r.s &&& 0x3F#8 ≠ 59#8) :
    r.second = { r with s := (r.s + 1#8) &&& 0x3F#8 } := by
  have hs' : (r.s.toNat + 1) % 64 ≠ 60 := fun h => hs ((sixBits_eq_iff r.s).2 h)
  simp only [Rtc.second, hrun, hs', count_sixBits, ne_eq, not_false_iff, if_true, Bool.false_eq_true, if_false]

theorem second_of_minutes {r : Rtc} (hrun : r.dh.getLsbD 6 = false) (hs : r.s &&& 0x3F#8 = 59#8)
    (hm : r.m &&& 0x3F#8 ≠ 59#8) : r.second = { r with s := 0#8, m := (r.m + 1#8) &&& 0x3F#8 } := by
  have hs' := (sixBits_eq_iff r.s).1 hs
  have hm' : (r.m.toNat + 1) % 64 ≠ 60 := fun h => hm ((sixBits_eq_iff r.m).2 h)
  simp only [Rtc.second, hrun, hs', hm', count_sixBits, ne_eq, not_true, not_false_iff, if_true, Bool.false_eq_true,
    if_false]

theorem second_of_hours {r : Rtc} (hrun : r.dh.getLsbD 6 = false) (hs : r.s &&& 0x3F#8 = 59#8)
    (hm : r.m &&& 0x3F#8 = 59#8) (hh : r.h &&& 0x1F#8 ≠ 23#8) :
    r.second = { r with s := 0#8, m := 0#8, h := (r.h + 1#8) &&& 0x1F#8 } := by
  have hs' := (sixBits_eq_iff r.s).1 hs
  have hm' := (sixBits_eq_iff r.m).1 hm
  have hh' : (r.h.toNat + 1) % 32 ≠ 24 := fun h => hh ((fiveBits_eq_iff r.h).2 h)
  simp only [Rtc.second, hrun, hs', hm', hh', count_fiveBits, ne_eq, not_true, not_false_iff, if_true,
    Bool.false_eq_true, if_false]

/-- The last second of a day. -/
theorem second_of_days {r : Rtc} (hrun : r.dh.getLsbD 6 = false) (hs : r.s &&& 0x3F#8 = 59#8)
    (hm : r.m &&& 0x3F#8 = 59#8) (hh : r.h &&& 0x1F#8 = 23#8) :
    r.second = { s := 0#8, m := 0#8, h := 0#8, dl := BitVec.ofNat 8 (r.day + 1),
                 dh := Rtc.dayHigh r.dh (r.day + 1 = 512) ((r.day + 1) / 256 % 2 = 1) } := by
  have hs' := (sixBits_eq_iff r.s).1 hs
  have hm' := (sixBits_eq_iff r.m).1 hm
  have hh' := (fiveBits_eq_iff r.h).1 hh
  have hhigh : BitVec.ofNat 8 ((r.day + 1) / 256 % 2) = if decide ((r.day + 1) / 256 % 2 = 1) then 1#8 else 0#8 := by
    rcases Nat.mod_two_eq_zero_or_one ((r.day + 1) / 256) with h | h <;> simp [h]
  simp only [Rtc.second, hrun, hs', hm', hh', ne_eq, not_true, if_false, Bool.false_eq_true]
  rw [Rtc.dayHigh, ← hhigh]
  simp only [decide_eq_true_eq]
  rfl

theorem Rtc.day_lt (r : Rtc) : r.day < 512 := by
  have := r.dl.isLt
  unfold Rtc.day
  omega

/-- A second within a day. -/
theorem seconds_within_day {r q : Rtc} (hdl : q.dl = r.dl) (hdh : q.dh = r.dh) (hq : q.inRange)
    (htime : (q.h.toNat * 60 + q.m.toNat) * 60 + q.s.toNat = (r.h.toNat * 60 + r.m.toNat) * 60 + r.s.toNat + 1) :
    q.inRange ∧ q.seconds = (r.seconds + 1) % (512 * 86400) ∧ q.dh &&& 0x7E#8 = r.dh &&& 0x7E#8 ∧
      q.dh.getLsbD 7 = (r.dh.getLsbD 7 || decide (r.seconds + 1 = 512 * 86400)) := by
  have hday : q.day = r.day := by rw [Rtc.day, Rtc.day, hdl, hdh]
  have hlt := r.day_lt
  obtain ⟨hs, hm, hh⟩ := id hq
  have hseconds : q.seconds = r.seconds + 1 := by
    unfold Rtc.seconds
    rw [hday]
    omega
  have hbound : r.seconds + 1 < 512 * 86400 := by
    rw [← hseconds, Rtc.seconds, hday]
    omega
  refine ⟨hq, by rw [hseconds, Nat.mod_eq_of_lt hbound], by rw [hdh], ?_⟩
  rw [hdh, decide_eq_false (Nat.ne_of_lt hbound), Bool.or_false]

/-- A 9-bit number from its top bit and its low byte. -/
theorem nineBits (n : Nat) : bit (decide (n / 256 % 2 = 1)) * 256 + n % 256 = n % 512 := by
  rcases Nat.mod_two_eq_zero_or_one (n / 256) with h | h <;> simp [h, bit] <;> omega

/-- The last second of a day: the next is the first of the next one, and the carry is that of day 511. -/
theorem seconds_of_days {r : Rtc} (hs : r.s.toNat = 59) (hm : r.m.toNat = 59) (hh : r.h.toNat = 23) :
    let q : Rtc := { s := 0#8, m := 0#8, h := 0#8, dl := BitVec.ofNat 8 (r.day + 1),
                     dh := Rtc.dayHigh r.dh (r.day + 1 = 512) ((r.day + 1) / 256 % 2 = 1) }
    q.inRange ∧ q.seconds = (r.seconds + 1) % (512 * 86400) ∧ q.dh &&& 0x7E#8 = r.dh &&& 0x7E#8 ∧
      q.dh.getLsbD 7 = (r.dh.getLsbD 7 || decide (r.seconds + 1 = 512 * 86400)) := by
  intro q
  obtain ⟨hkeep, hcarry, hlow⟩ := dayHigh_bits r.dh (r.day + 1 = 512) ((r.day + 1) / 256 % 2 = 1)
  have hseconds : r.seconds + 1 = (r.day + 1) * 86400 := by
    rw [Rtc.seconds, hs, hm, hh]
    omega
  have hday : q.day = (r.day + 1) % 512 := by
    change (Rtc.dayHigh _ _ _).toNat % 2 * 256 + (BitVec.ofNat 8 (r.day + 1)).toNat = _
    rw [hlow, BitVec.toNat_ofNat]
    exact nineBits (r.day + 1)
  refine ⟨⟨Nat.zero_lt_succ _, Nat.zero_lt_succ _, Nat.zero_lt_succ _⟩, ?_, hkeep, hcarry.trans ?_⟩
  · have hq : q.seconds = q.day * 86400 := by
      change ((q.day * 24 + 0) * 60 + 0) * 60 + 0 = _
      omega
    rw [hq, hday, hseconds]
    omega
  · congr 2
    rw [hseconds]
    exact propext (by omega)

/-- In range, a clock that runs counts one second, modulo 512 days. -/
theorem second_inRange {r : Rtc} (hrun : r.dh.getLsbD 6 = false) (hr : r.inRange) :
    r.second.inRange ∧ r.second.seconds = (r.seconds + 1) % (512 * 86400) ∧
      r.second.dh &&& 0x7E#8 = r.dh &&& 0x7E#8 ∧
      r.second.dh.getLsbD 7 = (r.dh.getLsbD 7 || decide (r.seconds + 1 = 512 * 86400)) := by
  obtain ⟨hs, hm, hh⟩ := id hr
  have hcount : ∀ v : Byte, v.toNat < 63 → ((v + 1#8) &&& 0x3F#8).toNat = v.toNat + 1 := fun v hv => by
    rw [and_0x3F_toNat, BitVec.toNat_add]
    simp
    omega
  by_cases hs59 : r.s &&& 0x3F#8 = 59#8
  · have hs' := (sixBits_eq_iff r.s).1 hs59
    by_cases hm59 : r.m &&& 0x3F#8 = 59#8
    · have hm' := (sixBits_eq_iff r.m).1 hm59
      by_cases hh23 : r.h &&& 0x1F#8 = 23#8
      · have hh' := (fiveBits_eq_iff r.h).1 hh23
        rw [second_of_days hrun hs59 hm59 hh23]
        exact seconds_of_days (by omega) (by omega) (by omega)
      · have hh' : ¬(r.h.toNat + 1) % 32 = 24 := fun h => hh23 ((fiveBits_eq_iff r.h).2 h)
        have hnext : ((r.h + 1#8) &&& 0x1F#8).toNat = r.h.toNat + 1 := by
          rw [and_0x1F_toNat, BitVec.toNat_add]
          simp
          omega
        rw [second_of_hours hrun hs59 hm59 hh23]
        refine seconds_within_day rfl rfl ⟨Nat.zero_lt_succ _, Nat.zero_lt_succ _, ?_⟩ ?_
        · dsimp only; omega
        · simp only [hnext, BitVec.toNat_ofNat]; omega
    · have hm' : ¬(r.m.toNat + 1) % 64 = 60 := fun h => hm59 ((sixBits_eq_iff r.m).2 h)
      have hnext := hcount r.m (by omega)
      rw [second_of_minutes hrun hs59 hm59]
      refine seconds_within_day rfl rfl ⟨Nat.zero_lt_succ _, ?_, hh⟩ ?_
      · dsimp only; omega
      · simp only [hnext, BitVec.toNat_ofNat]; omega
  · have hs' : ¬(r.s.toNat + 1) % 64 = 60 := fun h => hs59 ((sixBits_eq_iff r.s).2 h)
    have hnext := hcount r.s (by omega)
    rw [second_of_seconds hrun hs59]
    refine seconds_within_day rfl rfl ⟨?_, hm, hh⟩ ?_
    · dsimp only; omega
    · dsimp only; omega

/-- Settles O45: each field that is not at its last value counts on; in range that is a second more. -/
theorem clockTickAddsOneSecond : Obligations.ClockTickAddsOneSecond := by
  unfold Obligations.ClockTickAddsOneSecond
  refine ⟨fun r => ⟨fun h => if_pos h, fun hrun => ⟨second_inRange hrun, second_of_seconds hrun,
      second_of_minutes hrun, second_of_hours hrun⟩⟩, fun _ _ _ _ _ _ => rfl, fun m hm => ?_,
    fun m n => ⟨rfl, Mbc.rtcTicks_succ m n⟩, fun s => ⟨fun h => ?_, fun n ns h => ?_⟩⟩
  · cases m with
    | mbc3 => exact absurd rfl hm
    | none | mbc1 | mbc2 | mbc5 => rfl
  · rw [clockMove, h]
  · rw [clockMove, h]

/-! ## The joypad (R340, R313, 20_memory.md R71) -/

theorem sampleKeys_ifReg (k : Keys) {s : State} (hwf : s.mem.wf) : (sampleKeys k s).ifReg =
    if (s.directionSelected && newDirectionPress s.keys k) || (s.actionSelected && newActionPress s.keys k) then
      s.ifReg ||| 0x10#8
    else s.ifReg := by
  unfold sampleKeys
  dsimp only
  have hrequest : (request { s with keysPrev := s.keys, keys := k } 4).ifReg = s.ifReg ||| 0x10#8 :=
    (request_registers 4 (s := { s with keysPrev := s.keys, keys := k }) hwf).2.2.2
  split
  · exact hrequest
  · rfl

theorem sampleKeys_io_other (k : Keys) (s : State) {o : Nat} (h : o ≠ 0x0F) : (sampleKeys k s).io o = s.io o := by
  unfold sampleKeys
  dsimp only
  split
  · exact request_io_other _ 4 h
  · rfl

theorem getLsbD_keyLine (pressed : Bool) (k j : Fin 4) :
    (keyLine pressed k).getLsbD j = (pressed && decide (j = k)) := by
  revert pressed k j
  decide

/-- The keys of the direction group, by their line. -/
theorem getLsbD_directionLow (k : Keys) :
    k.directionLow.getLsbD 0 = k.right ∧ k.directionLow.getLsbD 1 = k.left ∧ k.directionLow.getLsbD 2 = k.up ∧
      k.directionLow.getLsbD 3 = k.down := by
  have hline (j : Fin 4) : k.directionLow.getLsbD j = ((keyLine k.right (0 : Fin 4)).getLsbD j ||
      (keyLine k.left (1 : Fin 4)).getLsbD j || (keyLine k.up (2 : Fin 4)).getLsbD j ||
      (keyLine k.down (3 : Fin 4)).getLsbD j) := by
    simp only [Keys.directionLow, BitVec.getLsbD_or]
    rfl
  simp only [getLsbD_keyLine] at hline
  exact ⟨(hline 0).trans (by simp), (hline 1).trans (by simp), (hline 2).trans (by simp), (hline 3).trans (by simp)⟩

/-- The keys of the action group, by their line. -/
theorem getLsbD_actionLow (k : Keys) :
    k.actionLow.getLsbD 0 = k.a ∧ k.actionLow.getLsbD 1 = k.b ∧ k.actionLow.getLsbD 2 = k.select ∧
      k.actionLow.getLsbD 3 = k.start := getLsbD_directionLow ⟨k.a, k.b, k.select, k.start, k.a, k.b, k.select, k.start⟩

/-- A line reads 0 where a selected group has its key pressed. -/
theorem getLsbD_p1Read (s : State) (j : Fin 4) : s.p1Read.getLsbD j =
    !((!s.p1.getLsbD 4 && s.keys.directionLow.getLsbD j) || (!s.p1.getLsbD 5 && s.keys.actionLow.getLsbD j)) := by
  have hmask : (0xC0#8).getLsbD j = false ∧ (0x30#8).getLsbD j = false ∧ (0x0F#8).getLsbD j = true :=
    (show ∀ j : Fin 4, (0xC0#8).getLsbD j = false ∧ (0x30#8).getLsbD j = false ∧ (0x0F#8).getLsbD j = true by decide) j
  obtain ⟨hC0, h30, h0F⟩ := hmask
  have hlt : j.val < 8 := by omega
  have hgroup (sel : Bool) (low : Byte) : (if sel then low else 0#8).getLsbD j = (sel && low.getLsbD j) := by
    cases sel <;> simp
  unfold State.p1Read State.directionSelected State.actionSelected
  simp only [BitVec.getLsbD_or, BitVec.getLsbD_and, BitVec.getLsbD_not, hC0, h30, h0F, hgroup, hlt, decide_true,
    Bool.and_false, Bool.false_or, Bool.true_and]

theorem p1Read_high (s : State) : s.p1Read &&& 0xF0#8 = 0xC0#8 ||| (s.p1 &&& 0x30#8) := by
  unfold State.p1Read
  dsimp only
  generalize (~~~_ : Byte) = high
  rw [BitVec.and_or_distrib_right, BitVec.and_or_distrib_right, BitVec.and_assoc s.p1, BitVec.and_comm 0x0F#8,
    BitVec.and_assoc high]
  simp

theorem busRead_p1 (s : State) : busRead s 0xFF00#16 = s.p1Read := busRead_io s (o := 0) (by decide)

/-- Settles O48: the request is that of a new press in a selected group, and P1 reads by its lines. -/
theorem joypadSampleAndRead : Obligations.JoypadSampleAndRead := by
  unfold Obligations.JoypadSampleAndRead
  intro s k hwf
  have hsample := sampleKeys_eq k s
  obtain ⟨hright, hleft, hup, hdown⟩ := getLsbD_directionLow s.keys
  obtain ⟨ha, hb, hselect, hstart⟩ := getLsbD_actionLow s.keys
  refine ⟨by rw [hsample], by rw [hsample], ?_, by rw [hsample], hsample, fun o ho => sampleKeys_io_other k s ho, rfl,
    fun hno => ?_, fun ks hentry hks => ?_, fun hentry hks => ?_, ?_, ?_, ?_, ?_, ?_⟩
  · rw [sampleKeys_ifReg k hwf]
    refine ite_congr (propext ?_) (fun _ => rfl) fun _ => rfl
    simp [State.directionSelected, State.actionSelected, newDirectionPress, newActionPress, or_assoc]
  · exact if_neg (Bool.eq_false_iff.1 hno)
  · rw [hostMove, if_pos hentry, hks]
  · rw [hostMove, if_pos hentry, hks]
  · rw [busRead_p1, ← hright, ← ha]
    exact getLsbD_p1Read s 0
  · rw [busRead_p1, ← hleft, ← hb]
    exact getLsbD_p1Read s 1
  · rw [busRead_p1, ← hup, ← hselect]
    exact getLsbD_p1Read s 2
  · rw [busRead_p1, ← hdown, ← hstart]
    exact getLsbD_p1Read s 3
  · rw [busRead_p1, p1Read_high]

end Sys2Proof.Machine

/-! Cartridges without a controller, the boot overlay and the RAM gate (20_memory.md R63, R66, R104, R119), and MBC3 (R111
to R115). -/

namespace Sys2Proof.Machine

/-! ## The RAM window where it is no RAM (R104, R113, R119) -/

/-- A closed window reads 0xFF and ignores writes. -/
theorem ramWindow_of_route_closed {s : State} {a : Word} (v : Byte) (hlo : 0xA000 ≤ a.toNat) (hhi : a.toNat ≤ 0xBFFF)
    (ho : eramRoute s.params s.mbc a.toNat = .closed) : busRead s a = 0xFF#8 ∧ busStore s a v = s := by
  simp only [busRead, busStore, route_eram s hlo hhi, eramRead, eramWrite, ho, and_self]

/-- A clock register reads as the snapshot, and a write goes to the live clock. -/
theorem ramWindow_of_route_clock {s : State} {a : Word} {i : Nat} (v : Byte) (hlo : 0xA000 ≤ a.toNat)
    (hhi : a.toNat ≤ 0xBFFF) (ho : eramRoute s.params s.mbc a.toNat = .clock i) :
    busRead s a = s.mbc.clockRead i ∧ busStore s a v = { s with mbc := s.mbc.clockWrite i v } := by
  simp only [busRead, busStore, route_eram s hlo hhi, eramRead, eramWrite, ho, and_self]

/-- The gate of every variant. -/
theorem eramRoute_closed {p : Params} {m : Mbc} (n : Nat)
    (h : (∃ e, m.enableByte = some e ∧ e ≠ 0x0A#8) ∨ p.ramSize = 0) : eramRoute p m n = .closed := by
  rcases h with ⟨e, he, hne⟩ | hsize
  · cases m with
    | none => cases he
    | mbc1 | mbc2 | mbc3 | mbc5 =>
      cases he
      exact if_pos (.inl hne)
  · cases m with
    | none => exact if_pos hsize
    | mbc1 | mbc2 | mbc3 | mbc5 => exact if_pos (.inr hsize)

/-! ## No controller, and the boot overlay (R63, R66, R104) -/

/-- The overlay shows the boot ROM. -/
theorem busRead_overlay {s : State} {a : Word} (ha : a.toNat < 0x8000) (hboot : s.boot = 0#8)
    (hoverlay : inOverlay s.params a.toNat = true) : busRead s a = s.params.bootRom.read a.toNat := by
  simp only [busRead, route_rom s ha, State.bootActive, hboot, hoverlay, beq_self_eq_true, Bool.and_self, if_true]

/-- Settles O41: the bank of variant None is the address's own, and the gate closes every variant's window. -/
theorem noControllerAndTheRamGate : Obligations.NoControllerAndTheRamGate := by
  unfold Obligations.NoControllerAndTheRamGate
  refine fun s a v => ⟨fun hm ha => ⟨?_, fun hboot => ?_⟩, fun ha hboot hoverlay =>
    ⟨busRead_overlay ha hboot hoverlay, busStore_rom s v ha, fun w => ?_⟩, fun ha hboot => ?_, fun hlo hhi =>
    ⟨fun hgate => ramWindow_of_route_closed v hlo hhi (eramRoute_closed _ hgate), fun hm hsize => ?_⟩⟩
  · rw [busStore_rom s v ha, hm, Mbc.regWrite, ← hm]
  · rw [busRead_rom s ha hboot, hm, Mbc.romBank, Nat.div_add_mod']
  · rw [busStore_rom _ v ha, busStore_rom s v ha]
    rfl
  · have hinactive : s.bootActive = false := beq_eq_false_iff_ne.2 hboot
    rw [hinactive, Bool.false_and]
  · exact ramWindow_of_route_ram v hlo hhi (by rw [hm]; exact if_neg hsize)

/-! ## MBC3 (R111 to R115) -/

/-- The register windows of MBC3, with the latch on a write of 0x01 after 0x00 (R111, R115). -/
theorem mbc3_regWrite (e v : Byte) (rb : BitVec 7) (sel latch : Byte) (live latched : Rtc) (n : Nat) :
    (Mbc.mbc3 e rb sel latch live latched).regWrite n v =
      if n < 0x2000 then .mbc3 v rb sel latch live latched
      else if n < 0x4000 then .mbc3 e (v.setWidth 7) sel latch live latched
      else if n < 0x6000 then .mbc3 e rb v latch live latched
      else if latch = 0x00#8 ∧ v = 0x01#8 then .mbc3 e rb sel v live live
      else .mbc3 e rb sel v live latched := by
  rw [BitVec.setWidth_eq_extractLsb' (by decide)]
  refine ite_congr rfl (fun _ => rfl) fun _ => ite_congr rfl (fun _ => rfl) fun _ => ite_congr rfl (fun _ => rfl)
    fun _ => ?_
  exact apply_ite (Mbc.mbc3 e rb sel v live) ..

/-- Bank 0 reads as bank 1 in the second window of MBC3 (R112). -/
theorem mbc3_romBank (e : Byte) (rb : BitVec 7) (sel latch : Byte) (live latched : Rtc) (n : Nat) :
    (Mbc.mbc3 e rb sel latch live latched).romBank n = if n < 0x4000 then 0 else if rb = 0#7 then 1 else rb.toNat := by
  have hzero : rb.toNat = 0 ↔ rb = 0#7 := BitVec.toNat_inj (y := 0#7)
  simp only [Mbc.romBank, oneForZero, hzero]

/-- The open RAM window of MBC3, by `sel` (R113). -/
theorem mbc3_eramRoute (p : Params) (rb : BitVec 7) (sel latch : Byte) (live latched : Rtc) (n : Nat)
    (hsize : p.ramSize ≠ 0) : eramRoute p (.mbc3 0x0A#8 rb sel latch live latched) n =
      if sel.toNat ≤ 3 then .ram ((sel.toNat * 0x2000 + (n - 0xA000)) % p.ramSize)
      else if 8 ≤ sel.toNat ∧ sel.toNat ≤ 0x0C then .clock sel.toNat else .closed := by
  simp only [eramRoute, ne_eq, not_true_eq_false, hsize, or_self, if_false, eramOffset]

/-- Settles O44: the register windows by `mbc3_regWrite`, the RAM window by what `sel` routes it to. -/
theorem mbc3RegistersBanksAndClock : Obligations.Mbc3RegistersBanksAndClock := by
  unfold Obligations.Mbc3RegistersBanksAndClock
  intro s e rb sel latch live latched hm
  refine ⟨fun a v ha => ?_, fun a ha hboot => ?_, fun a v hlo hhi he hsize => ?_⟩
  · rw [busStore_rom s v ha, hm, mbc3_regWrite]
  · simp only [busRead_rom s ha hboot, hm, mbc3_romBank]
  subst he
  have hroute := mbc3_eramRoute s.params rb sel latch live latched a.toNat hsize
  rw [← hm] at hroute
  have hclock {i : Nat} (hi : 8 ≤ i ∧ i ≤ 0x0C) (hsel : sel = BitVec.ofNat 8 i) :
      busRead s a = latched.byte i ∧
        busStore s a v = { s with mbc := .mbc3 0x0A#8 rb sel latch (live.setByte i v) latched } := by
    have hsel' : sel.toNat = i := by rw [hsel, BitVec.toNat_ofNat]; omega
    rw [hsel', if_neg (by omega), if_pos hi] at hroute
    have hwindow := ramWindow_of_route_clock v hlo hhi hroute
    rwa [hm] at hwindow
  refine ⟨fun hram => ramWindow_of_route_ram v hlo hhi (hroute.trans (if_pos hram)), fun h => hclock (i := 8) ?_ h,
    fun h => hclock (i := 9) ?_ h, fun h => hclock (i := 0x0A) ?_ h, fun h => hclock (i := 0x0B) ?_ h,
    fun h => hclock (i := 0x0C) ?_ h, fun hclosed => ?_⟩
  case refine_6 =>
    rw [if_neg (by omega), if_neg (by omega)] at hroute
    exact ramWindow_of_route_closed v hlo hhi hroute
  all_goals decide

end Sys2Proof.Machine

/-! The bus map, one write, and the two DMA transfers (20_memory.md R60 to R68, R83, R94, R98, R123). -/

namespace Sys2Proof.Machine

/-! ## The address map (R60, R64, R65) -/

theorem unmirror_eq_self {n : Nat} (h : n < 0xE000) : unmirror n = n := by
  unfold unmirror
  split <;> omega

theorem route_vram (s : State) {a : Word} (hlo : 0x8000 ≤ a.toNat) (hhi : a.toNat ≤ 0x9FFF) :
    route s a = .vram (s.vramBank * 0x2000 + (a.toNat - 0x8000)) := by
  simp (disch := omega) only [route, if_pos, if_neg]

/-- Work RAM and its mirror. -/
theorem route_wram (s : State) {a : Word} (hlo : 0xC000 ≤ a.toNat) (hhi : a.toNat ≤ 0xFDFF) :
    route s a = .wram (s.wramOffset (unmirror a.toNat)) := by
  simp (disch := omega) only [route, if_pos, if_neg]

theorem route_wram_fixed (s : State) {a : Word} (hlo : 0xC000 ≤ a.toNat) (hhi : a.toNat ≤ 0xCFFF) :
    route s a = .wram (a.toNat - 0xC000) := by
  simp (disch := omega) only [route, if_pos, if_neg, State.wramOffset, unmirror_eq_self]

theorem route_wram_banked (s : State) {a : Word} (hlo : 0xD000 ≤ a.toNat) (hhi : a.toNat ≤ 0xDFFF) :
    route s a = .wram (s.wramBank * 0x1000 + (a.toNat - 0xD000)) := by
  simp (disch := omega) only [route, if_pos, if_neg, State.wramOffset, unmirror_eq_self]

/-- The mirror of work RAM. -/
theorem route_mirror (s : State) {a : Word} (hlo : 0xE000 ≤ a.toNat) (hhi : a.toNat ≤ 0xFDFF) :
    route s a = route s (a - 0x2000#16) := by
  have hsub : (a - 0x2000#16).toNat = a.toNat - 0x2000 := by bv_omega
  refine route_eq_of_sameCell s (a := a - 0x2000#16) (x := a) ?_
  rw [sameCell, beq_iff_eq, hsub, unmirror_eq_iff]
  omega

theorem route_unusable (s : State) {a : Word} (hlo : 0xFEA0 ≤ a.toNat) (hhi : a.toNat ≤ 0xFEFF) :
    route s a = .unusable := by
  simp (disch := omega) only [route, if_pos, if_neg]

theorem route_io_of_range (s : State) {a : Word} (hlo : 0xFF00 ≤ a.toNat) (hhi : a.toNat ≤ 0xFF7F) :
    route s a = .io (a.toNat - 0xFF00) := by
  simp (disch := omega) only [route, if_pos, if_neg]

/-- A read of plain RAM is the byte of its array. -/
theorem busRead_of_route (s : State) (a : Word) :
    (∀ o, route s a = .vram o → busRead s a = s.mem.vram.read o) ∧
    (∀ o, route s a = .wram o → busRead s a = s.mem.wram.read o) ∧
    (∀ o, route s a = .oam o → busRead s a = s.mem.oam.read o) ∧
    (∀ o, route s a = .hram o → busRead s a = s.mem.hram.read o) ∧
    (route s a = .ie → busRead s a = s.mem.ie) := by
  refine ⟨fun o h => ?_, fun o h => ?_, fun o h => ?_, fun o h => ?_, fun h => ?_⟩ <;> rw [busRead, h]

/-! ## What one write reaches (R123) -/

/-- What a store to plain RAM leaves: the byte of its target, and nothing else. -/
structure PlainStore (s t : State) (a : Word) (v : Byte) : Prop where
  mbc : t.mbc = s.mbc
  timer : t.timer = s.timer
  host : t.host = s.host
  eram : t.mem.eram = s.mem.eram
  io : t.mem.io = s.mem.io
  bgpal : t.mem.bgpal = s.mem.bgpal
  objpal : t.mem.objpal = s.mem.objpal
  vram : ∀ o, t.mem.vram.read o = if route s a = .vram o then v else s.mem.vram.read o
  wram : ∀ o, t.mem.wram.read o = if route s a = .wram o then v else s.mem.wram.read o
  oam : ∀ o, t.mem.oam.read o = if route s a = .oam o then v else s.mem.oam.read o
  hram : ∀ o, t.mem.hram.read o = if route s a = .hram o then v else s.mem.hram.read o
  ie : t.mem.ie = if route s a = .ie then v else s.mem.ie

theorem plainStore_busStore {s : State} {a : Word} (v : Byte) (hwf : s.mem.wf) (h : plainRam a = true) :
    PlainStore s (busStore s a v) a v := by
  obtain ⟨hvram, -, hwram, hoam, -, hhram, -, -⟩ := hwf
  rcases (plainRam_iff_route s a).1 h with ⟨o, ha | ha | ha | ha⟩ | ha
  all_goals
    rw [busStore, ha]
    constructor
    all_goals simp [Memory.read_write hvram, Memory.read_write hwram, Memory.read_write hoam,
      Memory.read_write hhram, ha]

/-- A store to the RAM window reaches the external RAM or the controller, not both. -/
theorem eramWrite_frame (s : State) (n : Nat) (v : Byte) :
    eramWrite s n v = { s with mbc := (eramWrite s n v).mbc, mem.eram := (eramWrite s n v).mem.eram } ∧
      ((eramWrite s n v).mbc = s.mbc ∨ (eramWrite s n v).mem.eram = s.mem.eram) := by
  unfold eramWrite
  split
  · exact ⟨rfl, .inl rfl⟩
  · exact ⟨rfl, .inl rfl⟩
  · exact ⟨rfl, .inl rfl⟩
  · exact ⟨rfl, .inr rfl⟩

/-- Settles O36: the map by the routes of its ranges, the write by the frame of each range. -/
theorem busWriteReachesOneCell : Obligations.BusWriteReachesOneCell := by
  unfold Obligations.BusWriteReachesOneCell
  refine ⟨fun s a => ⟨fun h => route_rom s (Nat.lt_succ_of_le h), fun hlo hhi => ?_, fun hlo hhi => route_eram s hlo hhi,
    fun hlo hhi => route_wram_fixed s hlo hhi, fun hlo hhi => route_wram_banked s hlo hhi,
    fun hlo hhi => route_mirror s hlo hhi, fun hlo hhi => ?_, fun hlo hhi => route_unusable s hlo hhi,
    fun hlo hhi => route_io_of_range s hlo hhi, fun hlo hhi => ?_, fun h => ?_, busRead_of_route s a⟩,
    fun s a v => ?_⟩
  · exact route_vram s hlo hhi
  · simp (disch := omega) only [route, if_pos, if_neg]
  · simp (disch := omega) only [route, if_pos, if_neg]
  · simp (disch := omega) only [route, if_neg]
  have hbus := busStore_busOnly s a v
  refine ⟨storedAt_busStore s a v, hbus.keepsDevices, hbus.keepsControl, hbus.regs, fun hlo hhi => ?_,
    fun hlo hhi => ?_, fun hwf hp => ?_, fun h => ?_, fun hlo hhi => ?_, fun hlo hhi => ?_⟩
  · have ha := route_wram s (Nat.le_trans (by decide) hlo) hhi
    have hm : route s (a - 0x2000#16) = _ := (route_mirror s hlo hhi).symm.trans ha
    exact ⟨by rw [busRead, busRead, ha, hm], by rw [busStore, busStore, ha, hm]⟩
  · have hroute := route_unusable s hlo hhi
    exact ⟨by rw [busRead, hroute], by rw [busStore, hroute]⟩
  · obtain ⟨hmbc, htimer, hhost, heram, hio, hbg, hobj, hvram, hwram, hoam, hhram, hie⟩ := plainStore_busStore v hwf hp
    exact ⟨hmbc, htimer, hhost, heram, hio, hbg, hobj, hvram, hwram, hoam, hhram, hie⟩
  · rw [busStore_rom s v (Nat.lt_succ_of_le h)]
  · have hstore : busStore s a v = eramWrite s a.toNat v := by rw [busStore, route_eram s hlo hhi]
    rw [hstore]
    exact eramWrite_frame ..
  · have hstore : busStore s a v = ioWrite s (a.toNat - 0xFF00) v := by rw [busStore, route_io_of_range s hlo hhi]
    have hne {k : Nat} {b : Word} (hb : b.toNat = 0xFF00 + k) (h : a ≠ b) : a.toNat - 0xFF00 ≠ k := fun e =>
      h (BitVec.eq_of_toNat_eq (by omega))
    obtain ⟨hmbc, heram, hwram, hhram, hie, hvram, hoam, hbg, hobj, htimer, hhost⟩ :=
      hstore ▸ ioWriteFrame s (a.toNat - 0xFF00) v
    exact ⟨hmbc, heram, hwram, hhram, hie, fun h => hvram (hne rfl h), fun h => hoam (hne rfl h),
      fun h => hbg (hne rfl h), fun h => hobj (hne rfl h), fun h h' => htimer (hne rfl h) (hne rfl h'),
      fun h h' => hhost (hne rfl h) (hne rfl h')⟩

/-! ## OAM DMA (R83, R84) -/

/-- A register without a mask stores the byte. -/
theorem ioStore_of_plain {s : State} {o : Nat} (v : Byte) (h : (ioMasks s.params.cgbMode o).1 = 0xFF#8) :
    ioStore s o v = s.setIo o v := by
  have hv : (s.io o &&& ~~~0xFF#8) ||| (v &&& 0xFF#8) = v := by
    have hones : v &&& 0xFF#8 = v := BitVec.and_allOnes
    rw [hones]
    exact (congrArg (· ||| v) BitVec.and_zero).trans BitVec.zero_or
  simp only [ioStore, h, hv]

/-- The read of a register that is its stored byte, unimplemented bits 1. -/
theorem ioRead_of_storage {s : State} {o : Nat} (hapu : ¬(0x10 ≤ o ∧ o ≤ 0x3F)) (h : o ∉ [0x00, 0x04])
    (hcgb : o ∈ [0x4D, 0x69, 0x6B] → s.params.cgbMode = false) :
    ioRead s o = s.io o ||| (ioMasks s.params.cgbMode o).2 := by
  simp only [List.mem_cons, List.not_mem_nil, or_false, not_or] at h hcgb
  have hspecial {k : Nat} (hk : o = k → o = 0x4D ∨ o = 0x69 ∨ o = 0x6B) : ¬(o = k ∧ s.params.cgbMode = true) :=
    fun hand => Bool.eq_false_iff.1 (hcgb (hk hand.1)) hand.2
  rw [ioRead, if_neg hapu, if_neg h.1, if_neg h.2, if_neg (hspecial .inl), if_neg (hspecial (.inr ∘ .inl)),
    if_neg (hspecial (.inr ∘ .inr))]

/-- `n` bytes of the page are in OAM; beside OAM only the count of bytes drawn has moved. -/
structure OamCopied (page : Byte) (u t : State) (n : Nat) : Prop where
  frame : t = { u with mem.oam := t.mem.oam, host.draws := t.host.draws }
  form : t.mem.wf
  copied : ∀ i, i < n → inApuRange (joinBytes page 0#8 + BitVec.ofNat 16 i) = false →
    t.mem.oam.read i = busRead u (joinBytes page 0#8 + BitVec.ofNat 16 i)
  rest : ∀ o, n ≤ o → t.mem.oam.read o = u.mem.oam.read o

theorem pageAddress_toNat (page : Byte) {i : Nat} (hi : i < 160) :
    (joinBytes page 0#8 + BitVec.ofNat 16 i).toNat = page.toNat * 256 + i := by
  have := page.isLt
  rw [BitVec.toNat_add, joinBytes_toNat, BitVec.toNat_ofNat, BitVec.toNat_ofNat]
  omega

/-- The next byte of the page reads as it did before the transfer: where the page is OAM itself, it is not yet
written. -/
theorem OamCopied.busRead {page : Byte} {u t : State} {n : Nat} (h : OamCopied page u t n) (hn : n < 160)
    (hapu : inApuRange (joinBytes page 0#8 + BitVec.ofNat 16 n) = false) :
    busRead t (joinBytes page 0#8 + BitVec.ofNat 16 n) = busRead u (joinBytes page 0#8 + BitVec.ofNat 16 n) := by
  rw [h.frame]
  refine (busRead_host { u with mem.oam := t.mem.oam } _ hapu).trans
    (busRead_withArrays (fun _ _ => rfl) (fun _ _ => rfl) (fun o ho => h.rest o ?_) (fun _ _ => rfl) (fun _ => rfl))
  obtain ⟨hlo, hhi, he⟩ := covers_of_route ho
  rw [pageAddress_toNat page hn] at hlo hhi he
  omega

theorem OamCopied.next {page : Byte} {u t : State} {n : Nat} (h : OamCopied page u t n) (hn : n < 160) :
    OamCopied page u (oamDmaByte page t n) (n + 1) := by
  have hoam : (oamDmaByte page t n).mem.oam =
      t.mem.oam.write n (Machine.busRead t (joinBytes page 0#8 + BitVec.ofNat 16 n)) := by
    rw [oamDmaByte]
    dsimp only
    rw [afterRead_mem]
  have hform := wf_afterRead (joinBytes page 0#8 + BitVec.ofNat 16 n) h.form
  obtain ⟨-, -, -, hwf, -⟩ := h.form
  refine ⟨?_, ⟨hform.1, hform.2.1, hform.2.2.1, hoam ▸ Memory.wf_write hwf _ _, hform.2.2.2.2⟩, fun i hi hapu => ?_,
    fun o ho => ?_⟩
  · have hframe := h.frame
    generalize t.mem.oam = m at hframe
    generalize t.host.draws = d at hframe
    rw [hframe]
    unfold oamDmaByte afterRead
    dsimp only
    split <;> rfl
  · rw [hoam, Memory.read_write hwf]
    split
    next heq => exact heq ▸ h.busRead hn (heq ▸ hapu)
    next hne => exact h.copied i (by omega) hapu
  · rw [hoam, Memory.read_write hwf, if_neg (by omega)]
    exact h.rest o (by omega)

/-- The whole transfer. -/
theorem oamCopied_oamDma (page : Byte) {u : State} (hwf : u.mem.wf) : OamCopied page u (oamDma u page) 160 := by
  have hrun : ∀ n, n ≤ 160 → OamCopied page u ((List.range n).foldl (oamDmaByte page) u) n := by
    intro n
    induction n with
    | zero => exact fun _ => ⟨rfl, hwf, fun i hi => absurd hi (Nat.not_lt_zero i), fun _ _ => rfl⟩
    | succ n ih =>
      intro hn
      rw [List.range_succ, List.foldl_append]
      exact (ih (by omega)).next hn
  exact hrun 160 (Nat.le_refl _)

theorem busStore_dma (s : State) (page : Byte) : busStore s 0xFF46#16 page = oamDma (s.setIo 0x46 page) page := by
  have hio := busStore_io s (o := 0x46) (by decide) page
  exact hio.trans (congrArg (oamDma · page) (ioStore_of_plain page rfl))

/-- Settles O39: the transfer copies what the state with DMA stored reads, and DMA shows at its own address only. -/
theorem oamDmaCopiesThePage : Obligations.OamDmaCopiesThePage := by
  unfold Obligations.OamDmaCopiesThePage
  intro s page hwf
  have hcopied := oamCopied_oamDma page (wf_setIo 0x46 page hwf)
  have hframe := oamDma_frame (s.setIo 0x46 page) page
  have hshow : ∀ x, x ≠ 0xFF46#16 → busRead (s.setIo 0x46 page) x = busRead s x := fun x hx => by
    have hne : x.toNat ≠ 0xFF46 := fun h => hx (BitVec.eq_of_toNat_eq h)
    exact busRead_setIo page (by unfold IoShowsAt; omega)
  have hown : busRead (s.setIo 0x46 page) 0xFF46#16 = page := by
    refine (busRead_io _ (o := 0x46) (by decide)).trans ?_
    rw [ioRead_of_storage (by decide) (by decide) fun h => absurd h (by decide), io_setIo_same hwf]
    exact BitVec.or_zero
  rw [busStore_dma]
  refine ⟨?_, fun i hi => ?_, hframe, fun x hx hoam hapu => ?_⟩
  · rw [hframe]
    exact io_setIo_same hwf 0x46 page
  · intro a hapu
    have ha : a = joinBytes page 0#8 + BitVec.ofNat 16 i := by
      apply BitVec.eq_of_toNat_eq
      have := page.isLt
      rw [pageAddress_toNat page hi, BitVec.toNat_ofNat]
      omega
    rw [ha] at hapu ⊢
    rw [hcopied.copied i hi hapu]
    split
    next heq => rw [heq, hown]
    next hne => exact hshow _ hne
  · exact (busRead_oamDma _ page hapu hoam).trans (hshow x hx)

/-! ## General-purpose DMA (R98) -/

/-- The byte of video RAM that byte `i` of the transfer goes to. -/
def gdmaCell (s : State) (dst i : Nat) : Nat := s.vramBank * 0x2000 + (dst + i) % 0x2000

/-- `n` bytes of the source are in video RAM, and nothing else has changed. -/
structure VramCopied (src : Word) (dst : Nat) (s t : State) (n : Nat) : Prop where
  frame : t = { s with mem.vram := t.mem.vram }
  form : t.mem.vram.wf
  copied : ∀ i, i < n → t.mem.vram.read (gdmaCell s dst i) = busRead s (src + BitVec.ofNat 16 i)
  rest : ∀ o, (∀ i, i < n → o ≠ gdmaCell s dst i) → t.mem.vram.read o = s.mem.vram.read o

/-- A source in ROM, external RAM or work RAM: neither video RAM nor the APU range shows there. -/
theorem busRead_of_goodSource {s : State} {a : Word} (m : Memory) (h : gdmaBadSource a = false) :
    busRead { s with mem.vram := m } a = busRead s a ∧ afterRead s a = s := by
  simp only [gdmaBadSource, decide_eq_false_iff_not, not_or] at h
  obtain ⟨hvram, hhigh⟩ := h
  have hapu : ¬inApuRange a = true := by
    simp only [inApuRange, decide_eq_true_eq]
    omega
  refine ⟨busRead_withArrays (fun o ho => ?_) (fun _ _ => rfl) (fun _ _ => rfl) (fun _ _ => rfl) (fun _ => rfl),
    if_neg hapu⟩
  obtain ⟨hlo, hhi, -⟩ := covers_of_route ho
  exact absurd ⟨hlo, hhi⟩ hvram

/-- Fewer bytes than a bank go to different cells of it. -/
theorem gdmaCell_ne (s : State) (dst : Nat) {i n : Nat} (hi : i < n) (hn : n < 0x2000) :
    gdmaCell s dst i ≠ gdmaCell s dst n := by
  unfold gdmaCell
  omega

theorem VramCopied.next {src : Word} {dst : Nat} {s t : State} {n : Nat} (h : VramCopied src dst s t n)
    (hn : n < 0x2000) (hgood : gdmaBadSource (src + BitVec.ofNat 16 n) = false) :
    VramCopied src dst s (gdmaByte src dst t n) (n + 1) := by
  obtain ⟨hframe, hform, hcopied, hrest⟩ := h
  have hbyte : gdmaByte src dst t n =
      { t with mem.vram := t.mem.vram.write (gdmaCell s dst n) (busRead s (src + BitVec.ofNat 16 n)) } := by
    have hcell : t.vramBank * 0x2000 + (dst + n) % 0x2000 = gdmaCell s dst n := by
      rw [hframe]
      rfl
    have hread : busRead t (src + BitVec.ofNat 16 n) = busRead s (src + BitVec.ofNat 16 n) := by
      rw [hframe]
      exact (busRead_of_goodSource _ hgood).1
    have hdraw : afterRead t (src + BitVec.ofNat 16 n) = t :=
      (busRead_of_goodSource (s := t) t.mem.vram hgood).2
    rw [gdmaByte]
    dsimp only
    rw [hdraw, hcell, hread]
  rw [hbyte]
  refine ⟨?_, Memory.wf_write hform _ _, fun i hi => ?_, fun o ho => ?_⟩
  · generalize t.mem.vram = m at hframe ⊢
    rw [hframe]
  · dsimp only
    rw [Memory.read_write hform]
    by_cases hin : i = n
    · rw [hin, if_pos rfl]
    · rw [if_neg (gdmaCell_ne s dst (by omega) hn).symm]
      exact hcopied i (by omega)
  · dsimp only
    rw [Memory.read_write hform, if_neg (ho n (Nat.lt_succ_self n)).symm]
    exact hrest o fun i hi => ho i (by omega)

/-- The whole transfer. -/
theorem vramCopied_gdma {s : State} {v : Byte} (hwf : s.mem.wf)
    (hgood : ∀ i, i < gdmaLength v → gdmaBadSource (s.gdmaSource + BitVec.ofNat 16 i) = false) :
    VramCopied s.gdmaSource s.gdmaDest s (gdma s v) (gdmaLength v) := by
  have hlength : gdmaLength v ≤ 0x800 := by
    unfold gdmaLength
    omega
  have hrun : ∀ n, n ≤ gdmaLength v →
      VramCopied s.gdmaSource s.gdmaDest s ((List.range n).foldl (gdmaByte s.gdmaSource s.gdmaDest) s) n := by
    intro n
    induction n with
    | zero => exact fun _ => ⟨rfl, hwf.1, fun i hi => absurd hi (Nat.not_lt_zero i), fun _ _ => rfl⟩
    | succ n ih =>
      intro hn
      rw [List.range_succ, List.foldl_append]
      exact (ih (by omega)).next (by omega) (hgood n hn)
  exact hrun _ (Nat.le_refl _)

theorem busStore_hdma {s : State} (v : Byte) (hwf : s.mem.wf) (hcgb : s.params.cgbMode = true) :
    busStore s 0xFF55#16 v = gdma s v := by
  have hmask : (ioMasks s.params.cgbMode 0x55).1 = 0#8 := by rw [hcgb]; rfl
  have hio := busStore_io s (o := 0x55) (by decide) v
  have hstore := ioStore_of_readOnly hwf v hmask
  refine hio.trans ?_
  change (if (ioStore s 0x55 v).params.cgbMode then gdma (ioStore s 0x55 v) v else ioStore s 0x55 v) = _
  rw [hstore, if_pos hcgb]

/-- Settles O40: what is not refused has a source that the transfer does not write. -/
theorem generalDmaCopiesIntoVideoRam : Obligations.GeneralDmaCopiesIntoVideoRam := by
  unfold Obligations.GeneralDmaCopiesIntoVideoRam
  intro s v hwf hcgb haccept
  have hgood : ∀ i, i < gdmaLength v → gdmaBadSource (s.gdmaSource + BitVec.ofNat 16 i) = false := fun i hi =>
    Bool.eq_false_iff.2 fun hbad => (busRefusal_ne_none s _ v).2 ⟨rfl, hcgb, .inr ⟨i, hi, hbad⟩⟩ haccept
  obtain ⟨hframe, -, hcopied, hrest⟩ := vramCopied_gdma hwf hgood
  have hbank : s.vramBank = s.vbk.toNat % 2 := if_pos hcgb
  simp only [gdmaCell, hbank] at hcopied hrest
  rw [busStore_hdma v hwf hcgb]
  refine ⟨fun i hi => (hcopied i hi).trans (congrArg (busRead s) ?_), hrest, hframe,
    fun x hvram hapu => busRead_gdma s v hapu hvram⟩
  rw [BitVec.ofNat_add, BitVec.ofNat_toNat, BitVec.setWidth_eq]
  rfl

end Sys2Proof.Machine

/-! The I/O register file (20_memory.md R70 to R98): reads, writes under the masks, and the side effects of writes. -/

namespace Sys2Proof.Machine

/-! ## Writes that are a store under the mask (R70) -/

theorem ioWrite_of_storage {s : State} {o : Nat} (v : Byte) (h : o ∉ [0x04, 0x07, 0x45, 0x46])
    (hcgb : o ∈ [0x55, 0x69, 0x6B] → s.params.cgbMode = false) : ioWrite s o v = ioStore s o v := by
  have hoff (hin : o ∈ [0x55, 0x69, 0x6B]) : ¬(ioStore s o v).params.cgbMode = true :=
    Bool.eq_false_iff.1 (hcgb hin)
  unfold ioWrite
  dsimp only
  split
  case h_1 | h_2 | h_3 | h_4 => exact absurd (by decide) h
  case h_5 | h_6 | h_7 => exact if_neg (hoff (by decide))
  case h_8 => rfl

/-- A store under the mask `w`, which keeps the bits `keep`. -/
theorem ioStore_of_mask {s : State} {o : Nat} {w keep : Byte} (v : Byte) (hw : (ioMasks s.params.cgbMode o).1 = w)
    (hkeep : ~~~w = keep) : ioStore s o v = s.setIo o ((s.io o &&& keep) ||| (v &&& w)) := by
  subst hw hkeep
  rfl

/-- No side effect writes the register itself. -/
theorem ioWrite_io_self {s : State} (o : Nat) (v : Byte) (hwf : s.mem.wf) : (ioWrite s o v).io o =
    (s.io o &&& ~~~(ioMasks s.params.cgbMode o).1) ||| (v &&& (ioMasks s.params.cgbMode o).1) := by
  rw [← io_setIo_same hwf o ((s.io o &&& ~~~(ioMasks s.params.cgbMode o).1) ||| (v &&& (ioMasks s.params.cgbMode o).1))]
  change (ioWrite s o v).io o = (ioStore s o v).io o
  unfold ioWrite
  dsimp only
  generalize ioStore s o v = t
  split
  case h_3 => exact io_setIo_other t _ (by decide)
  case h_4 => rw [oamDma_frame]; rfl
  case h_5 =>
    split
    · rw [gdma_frame]; rfl
    · rfl
  case h_6 | h_7 =>
    split
    · exact io_setIo_other _ _ (by decide)
    · rfl
  all_goals rfl

/-- The registers that are storage: offset, writable bits, unimplemented bits. -/
def storedRegisters (cgb : Bool) : List (Nat × Byte × Byte) :=
  [(0x01, 0xFF#8, 0x00#8), (0x02, if cgb then 0x83#8 else 0x81#8, if cgb then 0x7C#8 else 0x7E#8),
    (0x05, 0xFF#8, 0x00#8), (0x06, 0xFF#8, 0x00#8), (0x07, 0x07#8, 0xF8#8), (0x0F, 0x1F#8, 0xE0#8),
    (0x40, 0xFF#8, 0x00#8), (0x41, 0x78#8, 0x80#8), (0x42, 0xFF#8, 0x00#8), (0x43, 0xFF#8, 0x00#8),
    (0x44, 0x00#8, 0x00#8), (0x45, 0xFF#8, 0x00#8), (0x46, 0xFF#8, 0x00#8), (0x47, 0xFF#8, 0x00#8),
    (0x48, 0xFF#8, 0x00#8), (0x49, 0xFF#8, 0x00#8), (0x4A, 0xFF#8, 0x00#8), (0x4B, 0xFF#8, 0x00#8),
    (0x50, 0xFF#8, 0x00#8)]

/-- Those of CGB mode only. -/
def cgbRegisters : List (Nat × Byte × Byte) :=
  [(0x4F, 0x01#8, 0xFE#8), (0x68, 0xBF#8, 0x40#8), (0x6A, 0xBF#8, 0x40#8), (0x70, 0x07#8, 0xF8#8)]

/-- What makes an offset one of them. -/
abbrev IsStored (cgb : Bool) (e : Nat × Byte × Byte) : Prop :=
  ioMasks cgb e.1 = e.2 ∧ e.1 < 0x80 ∧ ¬(0x10 ≤ e.1 ∧ e.1 ≤ 0x3F) ∧ e.1 ∉ [0x00, 0x04, 0x4D, 0x55, 0x69, 0x6B]

theorem isStored_of_mem {cgb : Bool} {e : Nat × Byte × Byte}
    (h : e ∈ storedRegisters cgb ∨ cgb = true ∧ e ∈ cgbRegisters) : IsStored cgb e := by
  have hlists : (∀ cgb : Bool, ∀ e ∈ storedRegisters cgb, IsStored cgb e) ∧ ∀ e ∈ cgbRegisters, IsStored true e := by
    decide
  rcases h with h | ⟨rfl, h⟩
  · exact hlists.1 cgb e h
  · exact hlists.2 e h

/-- The offsets that R70 does not list, or lists for CGB only. -/
abbrev Unimplemented (cgb : Bool) (o : Nat) : Prop :=
  o = 0x03 ∨ (0x08 ≤ o ∧ o ≤ 0x0E) ∨ o = 0x4C ∨ o = 0x4E ∨ (0x56 ≤ o ∧ o ≤ 0x67) ∨ (0x6C ≤ o ∧ o ≤ 0x6F) ∨
    (0x71 ≤ o ∧ o ≤ 0x7F) ∨ (cgb = false ∧ (o = 0x4D ∨ o = 0x4F ∨ (0x51 ≤ o ∧ o ≤ 0x55) ∨ (0x68 ≤ o ∧ o ≤ 0x6B) ∨
      o = 0x70))

theorem ioMasks_of_unimplemented {cgb : Bool} {o : Nat} (h : Unimplemented cgb o) :
    o < 0x80 ∧ ioMasks cgb o = (0x00#8, 0xFF#8) := by
  have hlt : o < 0x80 := by omega
  refine ⟨hlt, ?_⟩
  cases cgb with
  | false =>
    exact (show ∀ o < 0x80, Unimplemented false o → ioMasks false o = (0x00#8, 0xFF#8) by decide) o hlt h
  | true => exact (show ∀ o < 0x80, Unimplemented true o → ioMasks true o = (0x00#8, 0xFF#8) by decide) o hlt h

theorem cgbMode_of_unimplemented {cgb : Bool} {o : Nat} (h : Unimplemented cgb o)
    (hin : o = 0x4D ∨ o = 0x55 ∨ o = 0x69 ∨ o = 0x6B) : cgb = false := by
  cases cgb with
  | false => rfl
  | true =>
    simp only [Unimplemented, reduceCtorEq, false_and, or_false] at h
    omega

/-- An unimplemented offset reads 0xFF and ignores writes (92 D12). -/
theorem unimplemented_access {s : State} {o : Nat} (v : Byte) (hwf : s.mem.wf) (h : Unimplemented s.params.cgbMode o) :
    ioRead s o = 0xFF#8 ∧ ioWrite s o v = s := by
  obtain ⟨-, hmasks⟩ := ioMasks_of_unimplemented h
  have hcgb := cgbMode_of_unimplemented h
  constructor
  · rw [ioRead_of_storage (by omega) (by simp; omega) (fun hin => hcgb (by simp at hin; omega)), hmasks]
    exact BitVec.or_allOnes
  · rw [ioWrite_of_storage v (by simp; omega) (fun hin => hcgb (by simp at hin; omega))]
    exact ioStore_of_readOnly hwf v (congrArg Prod.fst hmasks)

/-- A stored register reads as it was written. -/
theorem stored_access {s : State} {e : Nat × Byte × Byte} (v : Byte) (hwf : s.mem.wf) (h : IsStored s.params.cgbMode e) :
    ioRead (ioWrite s e.1 v) e.1 = (s.io e.1 &&& ~~~e.2.1) ||| (v &&& e.2.1) ||| e.2.2 := by
  obtain ⟨hmasks, -, hapu, hspecial⟩ := h
  simp only [List.mem_cons, List.not_mem_nil, or_false, not_or] at hspecial
  have hparams : (ioWrite s e.1 v).params = s.params := (ioWrite_busOnly s e.1 v).params
  rw [ioRead_of_storage hapu (by simp; omega) (by simp; omega), hparams, ioWrite_io_self e.1 v hwf, hmasks]

/-- LY and the APU range ignore writes (R81, R84). -/
theorem readOnly_access {s : State} {o : Nat} (v : Byte) (hwf : s.mem.wf) (h : o = 0x44 ∨ (0x10 ≤ o ∧ o ≤ 0x3F)) :
    ioWrite s o v = s := by
  have hmask : (ioMasks s.params.cgbMode o).1 = 0#8 :=
    (show ∀ cgb : Bool, ∀ o < 0x45, o = 0x44 ∨ (0x10 ≤ o ∧ o ≤ 0x3F) → (ioMasks cgb o).1 = 0#8 by decide) _ o (by omega) h
  rw [ioWrite_of_storage v (by simp; omega) (by simp; omega)]
  exact ioStore_of_readOnly hwf v hmask

theorem paletteIndex_eq (ps : Byte) : paletteIndex ps = (ps &&& 0x3F#8).toNat := (and_0x3F_toNat ps).symm

/-! ## The special registers of CGB mode (R93, R96 to R98) -/

theorem ioRead_key1 {s : State} (hcgb : s.params.cgbMode = true) :
    ioRead s 0x4D = s.key1 ||| 0x7E#8 ||| (if s.doubleSpeed then 0x80#8 else 0x00#8) := by
  simp [ioRead, hcgb]

theorem ioRead_bcpd {s : State} (hcgb : s.params.cgbMode = true) :
    ioRead s 0x69 = s.mem.bgpal.read (s.bcps &&& 0x3F#8).toNat := by
  rw [← paletteIndex_eq]
  simp [ioRead, hcgb]

theorem ioRead_ocpd {s : State} (hcgb : s.params.cgbMode = true) :
    ioRead s 0x6B = s.mem.objpal.read (s.ocps &&& 0x3F#8).toNat := by
  rw [← paletteIndex_eq]
  simp [ioRead, hcgb]

/-- The HDMA registers are written only. -/
theorem ioMasks_hdma : ∀ o < 0x56, 0x51 ≤ o → (ioMasks true o).2 = 0xFF#8 ∧ (o ≠ 0x55 → (ioMasks true o).1 = 0xFF#8) := by
  decide

/-- Settles O37: the rows of R70's table by kind. -/
theorem ioRegistersStoreUnderTheirMasks : Obligations.IoRegistersStoreUnderTheirMasks := by
  unfold Obligations.IoRegistersStoreUnderTheirMasks
  intro s v hwf
  refine ⟨fun e he => ?_, fun o ho => ?_, fun o ho => ?_, ?_, ?_, fun hcgb => ⟨fun _ => ?_, ?_, ?_, ?_, fun o hlo hhi =>
    ⟨?_, fun hne => ?_⟩⟩⟩
  · have hstored : IsStored s.params.cgbMode e := isStored_of_mem he
    have hread := stored_access v hwf hstored
    obtain ⟨hmasks, hlt, -, hspecial⟩ := hstored
    simp only [List.mem_cons, List.not_mem_nil, or_false, not_or] at hspecial
    rw [busStore_io s hlt, busRead_io _ hlt]
    refine ⟨hread, fun hside => ?_⟩
    simp only [List.mem_cons, List.not_mem_nil, or_false, not_or] at hside
    rw [ioWrite_of_storage v (by simp; omega) (by simp; omega), ioStore, hmasks]
  · have hun : Unimplemented s.params.cgbMode o := ho
    obtain ⟨hlt, -⟩ := ioMasks_of_unimplemented hun
    rw [busStore_io s hlt, busRead_io _ hlt]
    exact unimplemented_access v hwf hun
  · rw [busStore_io s (by omega)]
    exact readOnly_access v hwf ho
  · exact busRead_io s (o := 0x04) (by decide)
  · have hstore : busStore s 0xFF00#16 v = ioWrite s 0x00 v := busStore_io s (o := 0x00) (by decide) v
    rw [hstore, ioWrite_of_storage v (by decide) fun h => absurd h (by decide)]
    exact ioStore_of_mask v rfl rfl
  · have hread : busRead s 0xFF4D#16 = ioRead s 0x4D := busRead_io s (o := 0x4D) (by decide)
    rw [hread, ioRead_key1 hcgb, BitVec.or_assoc, BitVec.or_comm]
    cases s.doubleSpeed <;> rfl
  · have hstore : busStore s 0xFF4D#16 v = ioWrite s 0x4D v := busStore_io s (o := 0x4D) (by decide) v
    rw [hstore, ioWrite_of_storage v (by decide) fun h => absurd h (by decide), ioStore, hcgb]
    rfl
  · exact (busRead_io s (o := 0x69) (by decide)).trans (ioRead_bcpd hcgb)
  · exact (busRead_io s (o := 0x6B) (by decide)).trans (ioRead_ocpd hcgb)
  · rw [busRead_io s (by omega), ioRead_of_storage (by omega) (by simp; omega) (by simp; omega), hcgb,
      (ioMasks_hdma o (by omega) hlo).1]
    exact BitVec.or_allOnes
  · rw [busStore_io s (by omega), ioWrite_of_storage v (by simp; omega) (by simp; omega),
      ioStore_of_plain v (by rw [hcgb]; exact (ioMasks_hdma o (by omega) hlo).2 hne)]

/-! ## The side effects of writes (R73, R76, R82, R96, R97) -/

/-- The palette index after a write. -/
theorem paletteStep_eq (ps : Byte) :
    paletteStep ps = if ps.getLsbD 7 then 0x80#8 ||| ((ps + 1#8) &&& 0x3F#8) else ps := by
  have hnext : BitVec.ofNat 8 ((paletteIndex ps + 1) % 64) = (ps + 1#8) &&& 0x3F#8 := by
    rw [← count_sixBits, paletteIndex, Nat.mod_add_mod]
  rw [paletteStep, hnext]

theorem busStore_bcpd {s : State} (v : Byte) (hwf : s.mem.wf) (hcgb : s.params.cgbMode = true) :
    busStore s 0xFF69#16 v = bgPaletteWrite s v := by
  have hmask : (ioMasks s.params.cgbMode 0x69).1 = 0#8 := by rw [hcgb]; rfl
  have hstore := ioStore_of_readOnly hwf v hmask
  refine (busStore_io s (o := 0x69) (by decide) v).trans ?_
  change (if (ioStore s 0x69 v).params.cgbMode then bgPaletteWrite (ioStore s 0x69 v) v else ioStore s 0x69 v) = _
  rw [hstore, if_pos hcgb]

theorem busStore_ocpd {s : State} (v : Byte) (hwf : s.mem.wf) (hcgb : s.params.cgbMode = true) :
    busStore s 0xFF6B#16 v = objPaletteWrite s v := by
  have hmask : (ioMasks s.params.cgbMode 0x6B).1 = 0#8 := by rw [hcgb]; rfl
  have hstore := ioStore_of_readOnly hwf v hmask
  refine (busStore_io s (o := 0x6B) (by decide) v).trans ?_
  change (if (ioStore s 0x6B v).params.cgbMode then objPaletteWrite (ioStore s 0x6B v) v else ioStore s 0x6B v) = _
  rw [hstore, if_pos hcgb]

/-- Settles O38: each write is the store under the mask and the register's side effect. -/
theorem registerWriteSideEffects : Obligations.RegisterWriteSideEffects := by
  unfold Obligations.RegisterWriteSideEffects
  intro s v hwf
  have hdiv : busStore s 0xFF04#16 v = divReset s :=
    (busStore_io s (o := 0x04) (by decide) v).trans (congrArg divReset (ioStore_of_readOnly hwf v rfl))
  have htac : busStore s 0xFF07#16 v =
      { s.setIo 0x07 ((s.tac &&& 0xF8#8) ||| (v &&& 0x07#8)) with timer := { s.timer with timaAcc := 0 } } := by
    have hstore : busStore s 0xFF07#16 v = timaAccReset (ioStore s 0x07 v) := busStore_io s (o := 0x07) (by decide) v
    exact hstore.trans (congrArg timaAccReset (ioStore_of_mask v rfl rfl))
  have hlyc : busStore s 0xFF45#16 v = compareLine (s.setIo 0x45 v) :=
    (busStore_io s (o := 0x45) (by decide) v).trans (congrArg compareLine (ioStore_of_plain v rfl))
  refine ⟨hdiv, ⟨htac, ?_⟩, ?_, fun hcgb => ?_⟩
  · rw [htac]
    refine (congrArg (· &&& 0x07#8) (io_setIo_same hwf 0x07 _)).trans ?_
    rw [BitVec.and_or_distrib_right, BitVec.and_assoc, BitVec.and_assoc]
    exact (congrArg (· ||| _) BitVec.and_zero).trans BitVec.zero_or
  · obtain ⟨hstat, -, hself, hif⟩ := compareLine_registers (wf_setIo 0x45 v hwf)
    have hown : (s.setIo 0x45 v).lyc = v := io_setIo_same hwf 0x45 v
    have hly : (s.setIo 0x45 v).ly = s.ly := io_setIo_other s v (by decide)
    have hold : (s.setIo 0x45 v).stat = s.stat := io_setIo_other s v (by decide)
    have hrequest : (s.setIo 0x45 v).ifReg = s.ifReg := io_setIo_other s v (by decide)
    rw [hlyc]
    exact ⟨hself.trans hown, by rw [hstat, hown, hly, hold], hif.trans hrequest,
      congrArg ((s.setIo 0x45 v).setIo 0x41) hstat.symm⟩
  · obtain ⟨-, -, -, -, hio, -⟩ := id hwf
    have hbg : (bgPaletteWrite s v).bcps = paletteStep s.bcps := Memory.read_write_same hio 0x68 _
    have hobj : (objPaletteWrite s v).ocps = paletteStep s.ocps := Memory.read_write_same hio 0x6A _
    rw [busStore_bcpd v hwf hcgb, busStore_ocpd v hwf hcgb, hbg, hobj, ← paletteIndex_eq, ← paletteIndex_eq,
      ← paletteStep_eq, ← paletteStep_eq]
    exact ⟨rfl, rfl, rfl, rfl, rfl, rfl⟩

end Sys2Proof.Machine

/-! The reset state (10_state.md R45) and its invariant (R37). -/

namespace Sys2Proof.Machine

theorem getElem?_blankFrame {y x : Nat} (hy : y < 144) (hx : x < 160) :
    (Ppu.blankFrame[y]?.bind fun row => row[x]?) = some .blank := by
  rw [Ppu.blankFrame, List.getElem?_replicate, if_pos hy, Option.bind_some, List.getElem?_replicate, if_pos hx]

theorem ppuWf_blankFrame : PpuWf ⟨0, [], Ppu.blankFrame⟩ := by
  refine ⟨by decide, by decide, fun i hi => absurd hi List.not_mem_nil, List.length_replicate, fun row hrow => ?_⟩
  rw [List.eq_of_mem_replicate hrow]
  exact List.length_replicate

theorem kind_reset (k : MbcKind) : (Mbc.reset k).kind = k := by cases k <;> rfl

/-- Settles O54: each value is the reset state's field. -/
theorem resetValues : Obligations.ResetValues := by
  unfold Obligations.ResetValues
  refine ⟨fun p k => ?_, rfl⟩
  have hpair : joinBytes 0#8 0#8 = 0#16 := by decide
  exact ⟨rfl, hpair, hpair, hpair, hpair, rfl, rfl, rfl, rfl, rfl, rfl,
    fun _ => ⟨rfl, rfl, rfl, rfl, rfl, rfl, rfl, rfl⟩, rfl, kind_reset k, by cases k <;> rfl, rfl, rfl, rfl, rfl, rfl,
    fun _ _ => getElem?_blankFrame, rfl, rfl⟩

/-- The invariant of the reset state, for a configuration that keeps its constraints. -/
theorem inv_resetWith {p : Params} {k : MbcKind} (hp : ParamsWf p) (hk : k = .mbc2 → p.ramSize = 512) :
    (State.resetWith p k).Inv where
  params := hp
  mbc2Ram h := hk ((kind_reset k).symm.trans h)
  flags := BitVec.zero_and
  memForm := wf_reset p k
  memSize := by
    refine ⟨?_, ?_, ?_, ?_, ?_, ?_, ?_, ?_⟩ <;> exact fun _ hx => absurd hx List.not_mem_nil
  io := (ioWf_iff _).2 fun _ _ => BitVec.zero_and
  timer := by
    obtain ⟨-, -, -, -, -, -, hdiv, -⟩ := id hp
    exact ⟨hdiv, timaPeriod_pos hp _⟩
  ppu := ppuWf_blankFrame
  speed h := nomatch h
  cyc := rfl

/-- Settles O55: the default configuration keeps the constraints. -/
theorem resetSatisfiesTheInvariant : Obligations.ResetSatisfiesTheInvariant := by
  unfold Obligations.ResetSatisfiesTheInvariant
  have hdefault : ParamsWf Params.default := by decide
  exact ⟨inv_resetWith hdefault (fun h => nomatch h), fun p k hp hk => inv_resetWith hp hk⟩

end Sys2Proof.Machine
